-- ==== Sys2Proof/Word.lean ====
section
/-! DEFINITION. The widths of the D9's words and the one container the state is made of: a finite map from
numbers to bit vectors in canonical form. -/

namespace Sys2Proof

/-- A 96-bit instruction word (R71). -/
abbrev IWord := BitVec 96
/-- A 64-bit register or address. -/
abbrev W64 := BitVec 64
/-- A 32-bit register. -/
abbrev W32 := BitVec 32
/-- A byte of memory. -/
abbrev Byte := BitVec 8

/-- A map from keys to `w`-bit values as a list with strictly rising keys and no zero value: a key that is
not listed reads as zero. Memories and register files are of this type. -/
abbrev SMap (w : Nat) := List (Nat × BitVec w)

end Sys2Proof
end

