-- ==== Sys2Proof/Config.lean ====
section
/-! DEFINITION. What firmware and the implementation fix, and the free values. -/

namespace Sys2Proof.Config

/-- Sizes of the package (R7, R14). -/
def nDomains : Nat := 9
def nCores : Nat := 96
def coresPerCluster : Nat := 8
def nSlices : Nat := 48
/-- Join timer and `wsync` timer bound, in local cycles (R31, R275). -/
def joinBound : Nat := 4096
/-- `yield` hold, in cycles of the slot (R269). -/
def yieldHold : Nat := 16
/-- The residency bound's default, 20 µs, in units of 2^-24 ns (R45). -/
def residencyBound : Nat := 20000 * 2 ^ 24
/-- How long a pre-empted path may run on before it is saved in full, 20 µs, in units of 2^-24 ns (R392). -/
def preemptBound : Nat := 20000 * 2 ^ 24
/-- The supervisor bound's default, 10 ms, in units of 2^-24 ns (R389). -/
def supervisorBound : Nat := 10000000 * 2 ^ 24
/-- The serial bound's default, 1 ms, in units of 2^-24 ns (R356). -/
def serialBound : Nat := 1000000 * 2 ^ 24
/-- The revalidation interval's default, in local cycles (R352). -/
def revalidation : Nat := 65536
/-- The poll interval's default, 2 µs, in units of 2^-24 ns (R309). -/
def pollInterval : Nat := 2000 * 2 ^ 24
/-- The `mwait` timeout's default, 1 ms, in units of 2^-24 ns (R186). -/
def mwaitTimeout : Nat := 1000000 * 2 ^ 24
/-- NSPERCYC at the nominal 2.0 GHz clock (R14): 0.5 ns with 24 fraction bits. DESIGN CHOICE as a reset
value (log 5). -/
def nominalNs : BitVec 64 := 0x800000

/-- A value the spec leaves open (log 9): nothing constrains it. The argument is the state's `fresh` counter. -/
opaque freeValue : Nat → BitVec 64

/-- The signature that the attestation engine makes with the device identity key (R406; log 9). -/
opaque freeSignature : List (BitVec 8) → BitVec 512

/-- The SHA-256 measurement of a loaded image, by domain and security version (R406; log 9). -/
opaque freeMeasurement : Nat → BitVec 256

end Sys2Proof.Config
end

