-- ==== Sys2Proof/Syntax.lean ====
section
/-! DEFINITION. The instructions and events of the D9: one constructor of `Instr` for each row of the
opcode table (R86). An encoded form carries its modifiers, typed, and its operands; an event carries the
unit it happens to and what arrives with it. -/

namespace Sys2Proof

/-- R78: the TYPE codes of integer forms. The order is that of the codes, from 0. -/
inductive ITy
  | i8 | i16 | i32 | i64 | n8 | n16 | n32 | n64
  deriving DecidableEq, Repr

def ITy.code : ITy → Nat
  | .i8 => 0
  | .i16 => 1
  | .i32 => 2
  | .i64 => 3
  | .n8 => 4
  | .n16 => 5
  | .n32 => 6
  | .n64 => 7

def ITy.ofCode : Nat → Option ITy
  | 0 => some .i8
  | 1 => some .i16
  | 2 => some .i32
  | 3 => some .i64
  | 4 => some .n8
  | 5 => some .n16
  | 6 => some .n32
  | 7 => some .n64
  | _ => none

/-- R78: the FTYPE codes. The order is that of the codes, from 0. -/
inductive FTy
  | f32 | f16 | bf16
  deriving DecidableEq, Repr

def FTy.code : FTy → Nat
  | .f32 => 0
  | .f16 => 1
  | .bf16 => 2

def FTy.ofCode : Nat → Option FTy
  | 0 => some .f32
  | 1 => some .f16
  | 2 => some .bf16
  | _ => none

/-- R78: the rounding modes. The order is that of the codes, from 0. -/
inductive Rm
  | rne | rtz | rup | rdn
  deriving DecidableEq, Repr

def Rm.code : Rm → Nat
  | .rne => 0
  | .rtz => 1
  | .rup => 2
  | .rdn => 3

def Rm.ofCode : Nat → Option Rm
  | 0 => some .rne
  | 1 => some .rtz
  | 2 => some .rup
  | 3 => some .rdn
  | _ => none

/-- R121: the conditions of `icmp`. The order is that of the codes, from 0. -/
inductive Cc
  | eq | ne | lt | le | gt | ge
  deriving DecidableEq, Repr

def Cc.code : Cc → Nat
  | .eq => 0
  | .ne => 1
  | .lt => 2
  | .le => 3
  | .gt => 4
  | .ge => 5

def Cc.ofCode : Nat → Option Cc
  | 0 => some .eq
  | 1 => some .ne
  | 2 => some .lt
  | 3 => some .le
  | 4 => some .gt
  | 5 => some .ge
  | _ => none

/-- R140: the conditions of `fcmp`. The order is that of the codes, from 0. -/
inductive FCc
  | eq | ne | lt | le | gt | ge | un | ord
  deriving DecidableEq, Repr

def FCc.code : FCc → Nat
  | .eq => 0
  | .ne => 1
  | .lt => 2
  | .le => 3
  | .gt => 4
  | .ge => 5
  | .un => 6
  | .ord => 7

def FCc.ofCode : Nat → Option FCc
  | 0 => some .eq
  | 1 => some .ne
  | 2 => some .lt
  | 3 => some .le
  | 4 => some .gt
  | 5 => some .ge
  | 6 => some .un
  | 7 => some .ord
  | _ => none

/-- R124: the modes of `shfl`. The order is that of the codes, from 0. -/
inductive ShMode
  | idx | rot | xor | rev
  deriving DecidableEq, Repr

def ShMode.code : ShMode → Nat
  | .idx => 0
  | .rot => 1
  | .xor => 2
  | .rev => 3

def ShMode.ofCode : Nat → Option ShMode
  | 0 => some .idx
  | 1 => some .rot
  | 2 => some .xor
  | 3 => some .rev
  | _ => none

/-- R124: the SEG field of `shfl`; `whole` is the whole wave. The order is that of the codes, from 0. -/
inductive Seg
  | whole | seg2 | seg4 | seg8 | seg16 | seg32 | seg64
  deriving DecidableEq, Repr

def Seg.code : Seg → Nat
  | .whole => 0
  | .seg2 => 1
  | .seg4 => 2
  | .seg8 => 3
  | .seg16 => 4
  | .seg32 => 5
  | .seg64 => 6

def Seg.ofCode : Nat → Option Seg
  | 0 => some .whole
  | 1 => some .seg2
  | 2 => some .seg4
  | 3 => some .seg8
  | 4 => some .seg16
  | 5 => some .seg32
  | 6 => some .seg64
  | _ => none

/-- R124: the modes of `vote`. The order is that of the codes, from 0. -/
inductive VMode
  | all | any | eq | maj
  deriving DecidableEq, Repr

def VMode.code : VMode → Nat
  | .all => 0
  | .any => 1
  | .eq => 2
  | .maj => 3

def VMode.ofCode : Nat → Option VMode
  | 0 => some .all
  | 1 => some .any
  | 2 => some .eq
  | 3 => some .maj
  | _ => none

/-- R124: the operations of `redux` and `scan`. The order is that of the codes, from 0. -/
inductive RedOp
  | add | min | max | and | or | xor
  deriving DecidableEq, Repr

def RedOp.code : RedOp → Nat
  | .add => 0
  | .min => 1
  | .max => 2
  | .and => 3
  | .or => 4
  | .xor => 5

def RedOp.ofCode : Nat → Option RedOp
  | 0 => some .add
  | 1 => some .min
  | 2 => some .max
  | 3 => some .and
  | 4 => some .or
  | 5 => some .xor
  | _ => none

/-- R79: replacement hints. The order is that of the codes, from 0. -/
inductive Hint
  | normal | ef | el | na
  deriving DecidableEq, Repr

def Hint.code : Hint → Nat
  | .normal => 0
  | .ef => 1
  | .el => 2
  | .na => 3

def Hint.ofCode : Nat → Option Hint
  | 0 => some .normal
  | 1 => some .ef
  | 2 => some .el
  | 3 => some .na
  | _ => none

/-- R79: memory order. The order is that of the codes, from 0. -/
inductive Ord
  | plain | acq | rel | acqrel
  deriving DecidableEq, Repr

def Ord.code : Ord → Nat
  | .plain => 0
  | .acq => 1
  | .rel => 2
  | .acqrel => 3

def Ord.ofCode : Nat → Option Ord
  | 0 => some .plain
  | 1 => some .acq
  | 2 => some .rel
  | 3 => some .acqrel
  | _ => none

/-- R79: scopes; 6 names the AB space in atomics (R416). The order is that of the codes, from 0. -/
inductive Scope
  | wv | blk | cl | die | pkg | sys | ab
  deriving DecidableEq, Repr

def Scope.code : Scope → Nat
  | .wv => 0
  | .blk => 1
  | .cl => 2
  | .die => 3
  | .pkg => 4
  | .sys => 5
  | .ab => 6

def Scope.ofCode : Nat → Option Scope
  | 0 => some .wv
  | 1 => some .blk
  | 2 => some .cl
  | 3 => some .die
  | 4 => some .pkg
  | 5 => some .sys
  | 6 => some .ab
  | _ => none

/-- R79: access sizes. The order is that of the codes, from 0. -/
inductive Size
  | n8 | n16 | n32 | n64 | i8 | i16 | b128
  deriving DecidableEq, Repr

def Size.code : Size → Nat
  | .n8 => 0
  | .n16 => 1
  | .n32 => 2
  | .n64 => 3
  | .i8 => 4
  | .i16 => 5
  | .b128 => 6

def Size.ofCode : Nat → Option Size
  | 0 => some .n8
  | 1 => some .n16
  | 2 => some .n32
  | 3 => some .n64
  | 4 => some .i8
  | 5 => some .i16
  | 6 => some .b128
  | _ => none

/-- R180: the operations of `atom` and `red`. The order is that of the codes, from 0. -/
inductive AOp
  | add | umin | umax | smin | smax | and | or | xor | exch | inc | dec | fadd
  deriving DecidableEq, Repr

def AOp.code : AOp → Nat
  | .add => 0
  | .umin => 1
  | .umax => 2
  | .smin => 3
  | .smax => 4
  | .and => 5
  | .or => 6
  | .xor => 7
  | .exch => 8
  | .inc => 9
  | .dec => 10
  | .fadd => 11

def AOp.ofCode : Nat → Option AOp
  | 0 => some .add
  | 1 => some .umin
  | 2 => some .umax
  | 3 => some .smin
  | 4 => some .smax
  | 5 => some .and
  | 6 => some .or
  | 7 => some .xor
  | 8 => some .exch
  | 9 => some .inc
  | 10 => some .dec
  | 11 => some .fadd
  | _ => none

/-- R321: matrix operand formats. The order is that of the codes, from 0. -/
inductive MFmt
  | jb3 | jb5 | jb8 | bf16 | i8
  deriving DecidableEq, Repr

def MFmt.code : MFmt → Nat
  | .jb3 => 0
  | .jb5 => 1
  | .jb8 => 2
  | .bf16 => 3
  | .i8 => 4

def MFmt.ofCode : Nat → Option MFmt
  | 0 => some .jb3
  | 1 => some .jb5
  | 2 => some .jb8
  | 3 => some .bf16
  | 4 => some .i8
  | _ => none

/-- R308: the conditions of `sigwait`. The order is that of the codes, from 0. -/
inductive SigCond
  | eq | ne | ge | gt | lt | le
  deriving DecidableEq, Repr

def SigCond.code : SigCond → Nat
  | .eq => 0
  | .ne => 1
  | .ge => 2
  | .gt => 3
  | .lt => 4
  | .le => 5

def SigCond.ofCode : Nat → Option SigCond
  | 0 => some .eq
  | 1 => some .ne
  | 2 => some .ge
  | 3 => some .gt
  | 4 => some .lt
  | 5 => some .le
  | _ => none

/-- R308: the operations of `signal`. The order is that of the codes, from 0. -/
inductive SigOp
  | set | add | sub
  deriving DecidableEq, Repr

def SigOp.code : SigOp → Nat
  | .set => 0
  | .add => 1
  | .sub => 2

def SigOp.ofCode : Nat → Option SigOp
  | 0 => some .set
  | 1 => some .add
  | 2 => some .sub
  | _ => none

/-- R395: page sizes of `tlbi.page`. The order is that of the codes, from 0. -/
inductive PgSz
  | k64 | m64 | g64
  deriving DecidableEq, Repr

def PgSz.code : PgSz → Nat
  | .k64 => 0
  | .m64 => 1
  | .g64 => 2

def PgSz.ofCode : Nat → Option PgSz
  | 0 => some .k64
  | 1 => some .m64
  | 2 => some .g64
  | _ => none

/-- R75: the special registers, in the order of their codes from 0x188. -/
inductive SReg
  | laneid | waveid | wavew | blockid | launchid | core | clusterid | diedom
  | gangs | pathid | pathmask | fmt | flags | cycles | nspercyc | stepid
  | token | txdepth | txcause | trapcause | trappc | trapmask | trapaddr | trapinfo
  | priv | bncinj | locketcnt | abbase | absize | wbbase | wbsize | accbase
  | accsize | sclbase | sclsize | spawndepth | rngtop
  deriving DecidableEq, Repr

/-- R75: the operand code. -/
def SReg.code : SReg → Nat
  | .laneid => 392
  | .waveid => 393
  | .wavew => 394
  | .blockid => 395
  | .launchid => 396
  | .core => 397
  | .clusterid => 398
  | .diedom => 399
  | .gangs => 400
  | .pathid => 401
  | .pathmask => 402
  | .fmt => 403
  | .flags => 404
  | .cycles => 405
  | .nspercyc => 406
  | .stepid => 407
  | .token => 408
  | .txdepth => 409
  | .txcause => 410
  | .trapcause => 411
  | .trappc => 412
  | .trapmask => 413
  | .trapaddr => 414
  | .trapinfo => 415
  | .priv => 416
  | .bncinj => 417
  | .locketcnt => 418
  | .abbase => 419
  | .absize => 420
  | .wbbase => 421
  | .wbsize => 422
  | .accbase => 423
  | .accsize => 424
  | .sclbase => 425
  | .sclsize => 426
  | .spawndepth => 427
  | .rngtop => 428

def SReg.ofCode : Nat → Option SReg
  | 392 => some .laneid
  | 393 => some .waveid
  | 394 => some .wavew
  | 395 => some .blockid
  | 396 => some .launchid
  | 397 => some .core
  | 398 => some .clusterid
  | 399 => some .diedom
  | 400 => some .gangs
  | 401 => some .pathid
  | 402 => some .pathmask
  | 403 => some .fmt
  | 404 => some .flags
  | 405 => some .cycles
  | 406 => some .nspercyc
  | 407 => some .stepid
  | 408 => some .token
  | 409 => some .txdepth
  | 410 => some .txcause
  | 411 => some .trapcause
  | 412 => some .trappc
  | 413 => some .trapmask
  | 414 => some .trapaddr
  | 415 => some .trapinfo
  | 416 => some .priv
  | 417 => some .bncinj
  | 418 => some .locketcnt
  | 419 => some .abbase
  | 420 => some .absize
  | 421 => some .wbbase
  | 422 => some .wbsize
  | 423 => some .accbase
  | 424 => some .accsize
  | 425 => some .sclbase
  | 426 => some .sclsize
  | 427 => some .spawndepth
  | 428 => some .rngtop
  | _ => none

/-- R75: the registers that hold a value per lane. -/
def SReg.lane : SReg → Bool
  | .laneid | .txcause | .trapaddr | .trapinfo => true
  | _ => false

/-- R74: what an operand field names. The immediate of code 0x3FF carries its value: KIND and IMM32 in an
I-form, IMM24 in a C-form (R76). -/
inductive Opnd
  | v (n : BitVec 8) | s (n : BitVec 7) | q (n : BitVec 3) | sr (r : SReg) | k (c : BitVec 8)
  | pair (n : BitVec 7) | absent | immI (kind : BitVec 2) (x : BitVec 32) | immC (x : BitVec 24)
  deriving DecidableEq, Repr

/-- R71: the fields every word has: guard, lookahead, uniform bit. -/
structure Hdr where
  neg : Bool
  pred : BitVec 3
  look : BitVec 4
  u : Bool
  deriving DecidableEq, Repr

/-- The header and the four operand fields of a word; a field the form does not have is `absent`. -/
structure Args where
  h : Hdr
  d : Opnd
  a : Opnd
  b : Opnd
  c : Opnd
  deriving DecidableEq, Repr

/-- R171: SCALE and DISP of a memory operand; SCALE is 0 to 4. -/
structure Idx where
  scale : Fin 5
  disp : BitVec 17
  deriving DecidableEq, Repr

/-- Names a path: domain, block, wave of the block, PATHID. -/
structure PRef where
  dom : Nat
  blk : Nat
  wave : Nat
  pid : Nat
  deriving DecidableEq, Repr

/-- Names a block of a domain by the number the domain gave it when it was accepted. -/
structure BRef where
  dom : Nat
  blk : Nat
  deriving DecidableEq, Repr

/-- R398: a host command: the queue it came through, and the header of its record. -/
structure CmdHdr where
  dom : Nat
  queue : Nat
  hdr : BitVec 64
  deriving DecidableEq, Repr

/-- R398: the fields of the header. OPC, of which the spec gives no values, stands for the command's own constructor, and bits
[39:33] are not looked at (log 11). -/
def CmdHdr.opc (c : CmdHdr) : BitVec 16 := c.hdr.extractLsb' 48 16
def CmdHdr.tenant (c : CmdHdr) : BitVec 8 := c.hdr.extractLsb' 40 8
def CmdHdr.ord (c : CmdHdr) : Bool := c.hdr.getLsbD 32
def CmdHdr.seq (c : CmdHdr) : BitVec 32 := c.hdr.extractLsb' 0 32

/-- R224: an atomic as it arrives at the unit that performs it: the operation (`cas` when `cmp` is given),
the size in bytes, the byte it names and its operand. -/
structure AtomReq where
  op : AOp
  cmp : Option (BitVec 128)
  bytes : Nat
  key : Nat
  val : BitVec 128
  deriving DecidableEq, Repr

/-- R9, R401: a request that arrives from outside the domain: the import's generation, the export slot, page and offset,
the pointer tag, the level it is made at, and what is asked. `store` is a write, `op` an atomic, else a load. `carry` is the
token that a signalling act carries and its producer's unit; `port` the fabric port of one from a peer package (R367). -/
structure RemoteReq where
  slot : Nat
  gen : BitVec 12
  page : Nat
  off : Nat
  tag : BitVec 4
  bytes : Nat
  store : Option (BitVec 128)
  op : Option AOp
  val : BitVec 128
  user : Bool := true
  port : Option Nat := none
  carry : Option (BitVec 64 × BitVec 32) := none
  deriving DecidableEq, Repr

/-- What firmware and system software set for a domain: the residency bound (R45), the `mwait` timeout (R186), the poll
interval (R309), the serial bound (R356) and the supervisor bound (R389), in units of 2^-24 ns; the revalidation interval,
in local cycles (R352); the base-2 logarithm of the room of the memory deque (R239); and the bounce bound (R15, R221; log
102), in units of 2^-24 ns. -/
structure DomCfg where
  residency : Nat
  mwait : Nat
  poll : Nat
  serial : Nat
  supervisor : Nat
  revalidation : Nat
  dequeLog : Nat
  bounce : Nat := 0
  deriving DecidableEq, Repr

/-- R405, R406: a die's firmware image: whether its signature verifies, what is measured, its security version. -/
structure BootImage where
  signed : Bool
  image : Nat
  version : Nat
  deriving DecidableEq, Repr

/-- R36, R398: what firmware says of a memory queue. -/
structure QueueCfg where
  num : Nat
  prio : Nat
  preemptible : Bool
  tenant : BitVec 8
  superv : Bool
  validate : Bool
  deriving DecidableEq, Repr

/-- R402: the interleave table: the ports in the order in which consecutive 4 KiB pieces go to them, and the first frame that is
homed to each domain (log 96). -/
structure Tier2 where
  ports : List Nat
  first : List Nat
  deriving DecidableEq, Repr

/-- R402: a second-tier port that has failed, or, with `frames`, a memory device behind it that holds those frames of the
pool. -/
structure Tier2Fail where
  port : Nat
  frames : Option (Nat × Nat)
  deriving DecidableEq, Repr

/-- R401, R402, R405: how the package starts: the images of the IOD, of the FED and of each domain's die, the settings of a
domain's firmware, each fabric port's domain, what firmware says of each domain's queues, the interleave table, and whether
CXL IDE is on (R397). -/
structure BootCfg where
  iod : BootImage
  fed : BootImage
  images : List BootImage
  doms : List DomCfg
  ports : List Nat
  queues : List (List QueueCfg)
  tier2 : Tier2
  ide : Bool
  deriving DecidableEq, Repr

/-- R407: what the receiving code says of data at a crossing: sound, corrected, or an uncorrectable error, upon which firmware may
reset the domain (R409). -/
inductive Ecc
  | clean | corrected | bad (reset : Bool)
  deriving DecidableEq, Repr

/-- R407: data that a soft error can strike: a sector of the domain's memory, in HBM or as a cache holds it; the registers of a path;
64 bytes of a buffer of a core (0 AB, 1 WB, 2 ACC, 3 SCL). -/
inductive EccSite
  | sector (key : Nat)
  | regs (p : PRef)
  | buffer (core buf sector : Nat)
  deriving DecidableEq, Repr

/-- R367, R407: the sector that is written back, by its number, with what is found of it; and what soft errors have left in data that
other consumers will find. -/
structure WriteBack where
  key : Nat
  ecc : Ecc
  strikes : List (EccSite × Ecc) := []
  deriving DecidableEq, Repr

/-- R397, R407: a CXL.mem access: the bytes of a write, or none for a read, and what is found of the data. -/
structure HostAccess where
  data : Option (List Byte)
  ecc : Ecc
  deriving DecidableEq, Repr

/-- R186, R397: a line of host memory that the host takes back, and the bytes that it then writes there. -/
structure HostLine where
  addr : Nat
  data : List Byte
  deriving DecidableEq, Repr

/-- R288: what an invalidation names. -/
inductive InvalRange
  | page (tenant : BitVec 8) (va : W64) (sz : PgSz)
  | tenant (tenant : BitVec 8)
  | all
  deriving DecidableEq, Repr

/-- R313: where an event counter stands. -/
inductive PerfUnit
  | core (ix : Nat) | slice (ix : Nat)
  deriving DecidableEq, Repr

/-- R26: the pipe classes. -/
inductive Pipe
  | int | flt | mem | trans | xbar | uni | mseq
  deriving DecidableEq, Repr

/-- R313, R382: the selectable events. -/
inductive PerfEvent
  | none | issued (p : Pipe) | bounce | spill | eviction | relaunch | claspAbort (cause : Nat)
  | barrierWait | gangWait | pfIssued | pfDropped | pfUseful | pfLate | pfUnused
  deriving DecidableEq, Repr

/-- R379: what TRACE_CFG sets. -/
structure TraceCfg where
  base : W64
  size : Nat
  events : BitVec 7
  launch : Option W32
  tenant : Option (BitVec 8)
  pcLo : W64
  pcHi : W64
  label : W32
  mask : W32
  interval : Nat
  deriving DecidableEq, Repr

/-- R403: a tenant's shares in isolation mode: ways, bank groups, and slots of the table of R290. -/
structure TenantShare where
  tenant : BitVec 8
  ways : BitVec 16
  banks : BitVec 32
  slots : BitVec 64
  deriving DecidableEq, Repr

/-- R399: what EXPORT names. -/
structure ExportReq where
  base : W64
  pages : Nat
  read : Bool
  write : Bool
  atomic : Bool
  tenant : BitVec 8
  deriving DecidableEq, Repr

/-- R305: an arrival or a completion of a package-scope gang that another part of the launch signals. -/
structure GangSig where
  tenant : BitVec 8
  link : BitVec 16
  gang : Nat
  block : Nat
  ended : Bool
  token : W64
  unit : W32
  deriving DecidableEq, Repr

/-- The rows of the opcode table. -/
inductive Instr
  | nop (o : Args)
  | yieldI (o : Args)
  | exitI (o : Args)
  | trapI (o : Args)
  | bkpt (o : Args)
  | fbk (off : BitVec 24) (o : Args)
  | bra (off : BitVec 24) (o : Args)
  | brx (rj : Bool) (off : BitVec 24) (o : Args)
  | jmp (o : Args)
  | callI (off : BitVec 24) (o : Args)
  | callx (o : Args)
  | ret (o : Args)
  | recon (off : BitVec 24) (o : Args)
  | joinI (o : Args)
  | wsync (o : Args)
  | pathq (k : BitVec 2) (o : Args)
  | pand (o : Args)
  | por (o : Args)
  | pxor (o : Args)
  | pnot (o : Args)
  | psetM (o : Args)
  | psetP (o : Args)
  | pget (o : Args)
  | iadd (sat : Bool) (t : ITy) (o : Args)
  | isub (sat : Bool) (t : ITy) (o : Args)
  | iaddc (t : ITy) (o : Args)
  | isubb (t : ITy) (o : Args)
  | imul (sat : Bool) (t : ITy) (o : Args)
  | imulh (t : ITy) (o : Args)
  | imad (sat : Bool) (t : ITy) (o : Args)
  | idiv (t : ITy) (o : Args)
  | irem (t : ITy) (o : Args)
  | imin (t : ITy) (o : Args)
  | imax (t : ITy) (o : Args)
  | iabs (sat : Bool) (t : ITy) (o : Args)
  | ineg (sat : Bool) (t : ITy) (o : Args)
  | isat (t : ITy) (o : Args)
  | andI (t : ITy) (o : Args)
  | orI (t : ITy) (o : Args)
  | xorI (t : ITy) (o : Args)
  | notI (t : ITy) (o : Args)
  | andn (t : ITy) (o : Args)
  | shl (t : ITy) (o : Args)
  | shr (t : ITy) (o : Args)
  | sar (t : ITy) (o : Args)
  | rotl (t : ITy) (o : Args)
  | bfe (t : ITy) (o : Args)
  | bfi (t : ITy) (o : Args)
  | popc (t : ITy) (o : Args)
  | clz (t : ITy) (o : Args)
  | ctz (t : ITy) (o : Args)
  | brev (t : ITy) (o : Args)
  | bsel (t : ITy) (o : Args)
  | icmp (cc : Cc) (t : ITy) (o : Args)
  | isel (t : ITy) (o : Args)
  | lea (scale : Fin 5) (t : ITy) (disp : BitVec 24) (o : Args)
  | mov (t : ITy) (o : Args)
  | movi (t : ITy) (o : Args)
  | cvti (sat : Bool) (sty : ITy) (t : ITy) (o : Args)
  | shfl (mode : ShMode) (seg : Seg) (t : ITy) (o : Args)
  | vote (mode : VMode) (o : Args)
  | ballot (o : Args)
  | redux (op : RedOp) (t : ITy) (o : Args)
  | scan (op : RedOp) (excl : Bool) (t : ITy) (o : Args)
  | matchL (t : ITy) (o : Args)
  | rdlane (t : ITy) (o : Args)
  | wrlane (t : ITy) (o : Args)
  | fadd (rm : Rm) (f : FTy) (o : Args)
  | fsub (rm : Rm) (f : FTy) (o : Args)
  | fmul (rm : Rm) (f : FTy) (o : Args)
  | ffma (rm : Rm) (f : FTy) (o : Args)
  | fmin (prop : Bool) (f : FTy) (o : Args)
  | fmax (prop : Bool) (f : FTy) (o : Args)
  | fcmp (cc : FCc) (sig : Bool) (f : FTy) (o : Args)
  | fclass (f : FTy) (o : Args)
  | fscale (rm : Rm) (f : FTy) (o : Args)
  | frnd (rm : Rm) (f : FTy) (o : Args)
  | frcp (rm : Rm) (f : FTy) (o : Args)
  | frsq (rm : Rm) (f : FTy) (o : Args)
  | fsqrt (rm : Rm) (f : FTy) (o : Args)
  | fdiv (rm : Rm) (f : FTy) (o : Args)
  | fexp2 (f : FTy) (o : Args)
  | flog2 (f : FTy) (o : Args)
  | fsin (f : FTy) (o : Args)
  | fcos (f : FTy) (o : Args)
  | ftanh (f : FTy) (o : Args)
  | hadd2 (rm : Rm) (f : FTy) (o : Args)
  | hmul2 (rm : Rm) (f : FTy) (o : Args)
  | hfma2 (rm : Rm) (f : FTy) (o : Args)
  | hmin2 (prop : Bool) (f : FTy) (o : Args)
  | hmax2 (prop : Bool) (f : FTy) (o : Args)
  | cvt (rm : Rm) (sf : FTy) (f : FTy) (o : Args)
  | cvtfi (rm : Rm) (ty : ITy) (f : FTy) (o : Args)
  | cvtif (rm : Rm) (ty : ITy) (f : FTy) (o : Args)
  | dot4 (au : Bool) (bu : Bool) (sat : Bool) (o : Args)
  | dot2 (rm : Rm) (f : FTy) (o : Args)
  | setfmt (o : Args)
  | getfmt (o : Args)
  | jbexp (o : Args)
  | jbpack (o : Args)
  | jbunpack (o : Args)
  | rdflags (o : Args)
  | clrflags (o : Args)
  | ld (hint : Hint) (ord : Ord) (sc : Scope) (sz : Size) (x : Idx) (o : Args)
  | st (hint : Hint) (ord : Ord) (sc : Scope) (sz : Size) (x : Idx) (o : Args)
  | prefetch (hint : Hint) (x : Idx) (o : Args)
  | prefetchL2 (hint : Hint) (x : Idx) (o : Args)
  | cctlWb (x : Idx) (o : Args)
  | cctlWbinv (x : Idx) (o : Args)
  | cctlDemoteEf (x : Idx) (o : Args)
  | cctlDemote (x : Idx) (o : Args)
  | cctlSettag (x : Idx) (o : Args)
  | mwait (ord : Ord) (sc : Scope) (sz : Size) (x : Idx) (o : Args)
  | fence (ord : Ord) (sc : Scope) (o : Args)
  | lds (sz : Size) (x : Idx) (o : Args)
  | sts (sz : Size) (x : Idx) (o : Args)
  | ldacc (sz : Size) (x : Idx) (o : Args)
  | stacc (sz : Size) (x : Idx) (o : Args)
  | ldc (sz : Size) (x : Idx) (o : Args)
  | atom (op : AOp) (hint : Hint) (ord : Ord) (sc : Scope) (sz : Size) (x : Idx) (o : Args)
  | cas (hint : Hint) (ord : Ord) (sc : Scope) (sz : Size) (x : Idx) (o : Args)
  | red (op : AOp) (hint : Hint) (ord : Ord) (sc : Scope) (sz : Size) (x : Idx) (o : Args)
  | cpl (hint : Hint) (sz : Size) (x : Idx) (o : Args)
  | cplOut (hint : Hint) (sz : Size) (x : Idx) (o : Args)
  | cpclose (o : Args)
  | cpwait (o : Args)
  | cptAb (hint : Hint) (o : Args)
  | cptWb (hint : Hint) (o : Args)
  | cpts (hint : Hint) (o : Args)
  | cpta (hint : Hint) (o : Args)
  | tlwait (o : Args)
  | tlreadDone (o : Args)
  | tlreadIss (o : Args)
  | psigSet (sc : Scope) (x : Idx) (o : Args)
  | psigAdd (sc : Scope) (x : Idx) (o : Args)
  | binit (n : BitVec 4) (o : Args)
  | barv (n : BitVec 4) (o : Args)
  | bwait (n : BitVec 4) (o : Args)
  | bsync (n : BitVec 4) (o : Args)
  | bdrop (n : BitVec 4) (o : Args)
  | gbar (o : Args)
  | bstat (n : BitVec 4) (k : BitVec 2) (o : Args)
  | qinit (n : BitVec 4) (o : Args)
  | qpush (n : BitVec 4) (o : Args)
  | qpop (n : BitVec 4) (o : Args)
  | qtry (n : BitVec 4) (o : Args)
  | qclose (n : BitVec 4) (o : Args)
  | sigwait (cond : SigCond) (sc : Scope) (sz : Size) (x : Idx) (o : Args)
  | signal (op : SigOp) (sc : Scope) (sz : Size) (x : Idx) (o : Args)
  | rgres (sc : Scope) (o : Args)
  | rgcmt (sc : Scope) (o : Args)
  | rgpop (sc : Scope) (o : Args)
  | rgfree (sc : Scope) (o : Args)
  | spawn (regblk : BitVec 4) (abclass : BitVec 3) (off : BitVec 24) (o : Args)
  | rbsurrHold (sc : Scope) (o : Args)
  | rbsurrSkip (sc : Scope) (o : Args)
  | rbclaim (sc : Scope) (o : Args)
  | mzero (o : Args)
  | mma (z : Bool) (f : MFmt) (ks : BitVec 4) (o : Args)
  | mmas (z : Bool) (f : MFmt) (ks : BitVec 4) (o : Args)
  | mcvt (rm : Rm) (f : MFmt) (o : Args)
  | madd (o : Args)
  | marv (n : BitVec 4) (o : Args)
  | mwaitb (n : BitVec 4) (o : Args)
  | mpop (n : BitVec 4) (o : Args)
  | mpush (n : BitVec 4) (o : Args)
  | mloop (off : BitVec 24) (o : Args)
  | mjmp (off : BitVec 24) (o : Args)
  | mend (o : Args)
  | txb (off : BitVec 24) (o : Args)
  | txe (o : Args)
  | txabt (o : Args)
  | txst (k : BitVec 2) (o : Args)
  | stepb (o : Args)
  | stepe (o : Args)
  | fgmark (o : Args)
  | rngpush (o : Args)
  | rngpop (o : Args)
  | srd (o : Args)
  | swr (o : Args)
  | rte (o : Args)
  | tlbiPage (sz : PgSz) (o : Args)
  | tlbiTenant (o : Args)
  | tlbiAll (o : Args)
  | yieldExpiry (p : PRef)
  | instructionFetch (p : PRef) (stream : Bool)
  | issueCycle (dom : Nat) (core : Nat)
  | joinTimeout (p : PRef)
  | wsyncTimeout (p : PRef)
  | supervisorEntry (p : PRef)
  | supervisorBoundExpiry (p : PRef)
  | faultQueueWrite (dom : Nat)
  | bounce (p : PRef)
  | locketReissue (b : BRef) (wave : Nat)
  | atomicApply (dom : Nat) (unit : Nat) (tag : BitVec 112) (r : AtomReq)
  | atomicAck (dom : Nat) (unit : Nat) (tag : BitVec 112)
  | postedAck (p : PRef)
  | remoteAccess (dom : Nat) (r : RemoteReq)
  | tlbWalk (dom : Nat) (cluster : Nat) (tenant : BitVec 8) (va : W64) (write : Bool)
  | invalidationComplete (dom : Nat)
  | l1WriteBack (dom : Nat) (core : Nat) (x : WriteBack)
  | copyElementPerform (b : BRef)
  | tensorCopyComplete (b : BRef) (n : Nat)
  | copyDeferredWrite (b : BRef)
  | matrixOpStart (dom : Nat) (core : Nat)
  | matrixOpConsumed (dom : Nat) (core : Nat)
  | matrixOpComplete (dom : Nat) (core : Nat)
  | marvPerform (b : BRef)
  | waitWake (p : PRef) (stream : Bool)
  | mwaitTimeout (p : PRef)
  | sigwaitPoll (p : PRef)
  | blockEnd (b : BRef)
  | taskStart (dom : Nat) (core : Nat)
  | blockPlace (dom : Nat)
  | residencyEviction (b : BRef)
  | evictionSaveComplete (b : BRef)
  | evictedWake (b : BRef)
  | preemptRequest (b : BRef)
  | preemptFullSave (p : PRef)
  | laneLogGrant (p : PRef)
  | claspRevalidation (p : PRef)
  | claspTokenGrant (dom : Nat)
  | serialBoundExpiry (dom : Nat)
  | sampleInterval (p : PRef)
  | memoryTableCycle (dom : Nat) (ctrl : Bool)
  | flitReceive (link : Nat) (crcOk : Bool)
  | clockChange (dom : Nat) (core : Nat) (ns : W32)
  | ageingReplan (dom : Nat) (ns : W32)
  | thermal (dom : Nat)
  | domainRejoin (dom : Nat) (image : BootImage)
  | packageReset
  | boot (images : BootCfg)
  | hostNotify (dom : Nat) (queue : Nat)
  | slotFreeMap (dom : Nat) (slot : Nat)
  | qslotStarved (dom : Nat) (queue : Nat)
  | hostMemoryAccess (dom : Nat) (addr : Nat) (x : HostAccess)
  | hostSnoopInvalidate (dom : Nat) (x : HostLine)
  | launch (c : CmdHdr) (addr : W64)
  | slotTable (c : CmdHdr) (entries : List (BitVec 9))
  | dirtySwap (c : CmdHdr)
  | keyAssign (c : CmdHdr) (frame : Nat) (key : BitVec 7)
  | ptRoot (c : CmdHdr) (tenant : BitVec 8) (root : Nat)
  | ttCfg (c : CmdHdr) (base : W64) (slots : Nat)
  | inval (c : CmdHdr) (r : InvalRange)
  | perfCfg (c : CmdHdr) (u : PerfUnit) (idx : Nat) (ev : PerfEvent) (tenant : Option (BitVec 8))
  | perfRead (c : CmdHdr) (u : PerfUnit) (idx : Nat)
  | traceCfg (c : CmdHdr) (cfg : TraceCfg)
  | traceRead (c : CmdHdr)
  | trapCfg (c : CmdHdr) (entry : W64) (save : W64)
  | faultqCfg (c : CmdHdr) (base : W64) (size : Nat)
  | faultReplay (c : CmdHdr) (id : W32)
  | faultFail (c : CmdHdr) (id : W32)
  | dbgAttach (c : CmdHdr)
  | dbgDetach (c : CmdHdr)
  | dbgHalt (c : CmdHdr) (p : PRef)
  | dbgExec (c : CmdHdr) (p : PRef) (words : List IWord)
  | dbgStep (c : CmdHdr) (p : PRef)
  | dbgResume (c : CmdHdr) (p : PRef) (fromTrapPc : Bool)
  | tenantCfg (c : CmdHdr) (isolation : Bool) (shares : List TenantShare)
  | exportRange (c : CmdHdr) (slot : Nat) (ex : ExportReq)
  | importHandle (c : CmdHdr) (entry : Nat) (handle : W32) (port : Option Nat)
  | revoke (c : CmdHdr) (slot : Nat)
  | resetDomain (c : CmdHdr) (n : Nat)
  | attest (c : CmdHdr) (nonce : List Byte)
  | gangArrivalSignal (dom : Nat) (g : GangSig)
  | secondTierPortFailure (x : Tier2Fail)
  | serialLogBase (c : CmdHdr) (base : W64)
  | dirtyBitmapBase (c : CmdHdr) (base0 : W64) (base1 : W64)
  deriving DecidableEq, Repr

end Sys2Proof
end

