-- ==== Sys2Proof/WellFormed.lean ====
section
/-! DEFINITION. Which instructions are well formed: the operand classes of every entry (R74, R76, R113, R136,
R170, R268 and the encoding tables of chapters 12 to 18), the uniform bit and the immediate rule. -/

namespace Sys2Proof

/-- R78: the types that take a pair of v registers. -/
def ITy.wide : ITy → Bool
  | .i64 | .n64 => true
  | _ => false

def even7 (n : BitVec 7) : Bool := n.toNat % 2 == 0
def even8 (n : BitVec 8) : Bool := n.toNat % 2 == 0

namespace Opnd

def isNone : Opnd → Bool | .absent => true | _ => false
def isS : Opnd → Bool | .s _ => true | _ => false
def isV : Opnd → Bool | .v _ => true | _ => false
def isQ : Opnd → Bool | .q _ => true | _ => false
def isSr : Opnd → Bool | .sr _ => true | _ => false
def isVS : Opnd → Bool | .v _ | .s _ => true | _ => false
def isVSQ : Opnd → Bool | .v _ | .s _ | .q _ => true | _ => false
def vOrS (o : Opnd) : Bool := o.isVS
def vOrNone : Opnd → Bool | .v _ | .absent => true | _ => false
def sOrNone : Opnd → Bool | .s _ | .absent => true | _ => false
def qOrNone : Opnd → Bool | .q _ | .absent => true | _ => false
def qOrS : Opnd → Bool | .q _ | .s _ => true | _ => false
/-- R74: a 64-bit operand: an s register, or the pair that an even v code names. -/
def sOrW : Opnd → Bool | .s _ => true | .v n => even8 n | _ => false
def sOrK : Opnd → Bool | .s _ | .k _ => true | _ => false
/-- R192: an s register, or a constant code from 0 to 127. -/
def sOrPosK : Opnd → Bool | .s _ => true | .k c => !c.msb | _ => false
def evenS : Opnd → Bool | .s n => even7 n | _ => false
def isK0 (o : Opnd) : Bool := o == .k 0
def isK1 (o : Opnd) : Bool := o == .k 1
def isImm : Opnd → Bool | .immI _ _ | .immC _ => true | _ => false
/-- R76: KIND 0b00 and 0b01 read an integer. -/
def isImmI : Opnd → Bool | .immI kd _ => kd == 0 || kd == 1 | _ => false
/-- KIND 0b01, where an entry fixes it. -/
def isImmZ : Opnd → Bool | .immI kd _ => kd == 1 | _ => false
def sOrImm (o : Opnd) : Bool := o.sOrK || o.isImmI
def vsKImm (o : Opnd) : Bool := o.isVS || o.sOrK || o.isImmI
def regOrK (o : Opnd) : Bool := o.isVS || o.sOrK
/-- A uniform source: an s register, a uniform special register or a constant code. -/
def uSrcNoImm : Opnd → Bool | .s _ | .k _ => true | .sr r => !r.lane | _ => false
def uSrc (o : Opnd) : Bool := o.uSrcNoImm || o.isImmI
def uSrcI (o : Opnd) : Bool := o.uSrc
def uSrcZ (o : Opnd) : Bool := o.uSrcNoImm || o.isImmZ
def uSrcOrNone (o : Opnd) : Bool := o.uSrc || o.isNone
def sKImmZ (o : Opnd) : Bool := o.sOrK || o.isImmZ
/-- R172, R122: a memory base and a memory index. -/
def base : Opnd → Bool | .v _ | .s _ | .pair _ => true | _ => false
def index : Opnd → Bool | .v _ | .s _ | .absent => true | _ => false
/-- R113: a typed source; a 64-bit lane operand names an even code. -/
def isrc (t : ITy) : Opnd → Bool
  | .v n => !t.wide || even8 n
  | .s _ | .q _ | .sr _ | .k _ | .immC _ => true
  | .immI kd _ => kd == 0 || kd == 1
  | _ => false
/-- R136: an integer source of a float form takes no q code. -/
def srcNQ (t : ITy) (o : Opnd) : Bool := isrc t o && !o.isQ
def dst (t : ITy) : Opnd → Bool | .v n => !t.wide || even8 n | .s _ => true | _ => false
def dstQ (t : ITy) (o : Opnd) : Bool := dst t o || o.isQ
def dstV (t : ITy) : Opnd → Bool | .v n => !t.wide || even8 n | _ => false
/-- R127: `ballot` writes an s register or a pair. -/
def dstW : Opnd → Bool | .v n => even8 n | .s _ => true | _ => false
/-- R117: the carry operand. -/
def carry : Opnd → Bool | .q _ | .s _ | .absent => true | _ => false
/-- R136: a float source; a 16-bit immediate has zero above bit 15, and KIND is 0b10. -/
def fsrc (f : FTy) : Opnd → Bool
  | .v _ | .s _ | .sr _ | .k _ => true
  | .immI kd x => kd == 2 && (f == .f32 || x.toNat < 65536)
  | .immC x => f == .f32 || x.toNat < 65536
  | _ => false
/-- R177: the destination of a load. -/
def ldDst (sz : Size) : Opnd → Bool
  | .v n => match sz with | .n64 => even8 n | .b128 => n.toNat % 4 == 0 | _ => true
  | .s n => match sz with | .b128 => even7 n | _ => true
  | _ => false
/-- R178: the data of a store or an atomic. -/
def stSrc (sz : Size) (o : Opnd) : Bool := ldDst sz o || (match o with | .k _ => sz != .b128 | _ => false)
/-- R181: the compare operand of `cas`. -/
def casSrc (sz : Size) : Opnd → Bool
  | .v n => match sz with | .n64 => n.toNat % 4 == 0 | .b128 => n.toNat % 8 == 0 | _ => even8 n
  | .s n => sz != .b128 && even7 n
  | _ => false
/-- R257: the argument of `spawn`. -/
def spawnArg : Opnd → Bool | .s _ | .pair _ | .v _ | .k _ => true | _ => false
/-- R316: the sequencer's registers are s0 to s15. -/
def mReg : Opnd → Bool | .s n => n.toNat < 16 | _ => false
def mOff : Opnd → Bool | .s n => n.toNat < 16 | .k _ => true | _ => false
def mRegN (o : Opnd) : Bool := o.mReg || o.isNone
def mOffImm (o : Opnd) : Bool := o.mOff || o.isImmI
def mOffImmZ (o : Opnd) : Bool := o.mOff || o.isImmZ
/-- R332: the increment of `mloop` is absent exactly when no register advances. -/
def mLoopB (a o : Opnd) : Bool := if a.isNone then o.isNone else o.mOff
/-- R363: the destination of `txst`. -/
def txstD (k : BitVec 2) (o : Opnd) : Bool := if k == 0 || k == 3 then o.isV else o.isS
def srdDst : Opnd → Bool | .v _ | .pair _ | .s _ => true | _ => false
/-- R74: what a U = 1 form may not name. -/
def laneOperand : Opnd → Bool
  | .v _ | .pair _ | .q _ => true
  | .sr r => r.lane
  | _ => false

end Opnd

/-- R76: which layout of X a form uses; `fixed` is a C-form whose IMM24 has a fixed role. -/
inductive XKind | iform | cform | fixed
  deriving DecidableEq, Repr

/-- How a form treats its U bit: ignored, per R74, required 1, required 0. -/
inductive URule | any | lanes | one | zero
  deriving DecidableEq, Repr

def URule.ok (r : URule) (o : Args) : Bool :=
  let lane := o.d.laneOperand || o.a.laneOperand || o.b.laneOperand || o.c.laneOperand
  match r with
  | .any => true
  | .lanes => !(o.h.u && lane)
  | .one => o.h.u && !lane
  | .zero => !o.h.u

/-- R76: at most one operand holds 0x3FF, and its value is of the form's layout. -/
def XKind.ok (x : XKind) (o : Args) : Bool :=
  let cnt := [o.d, o.a, o.b, o.c].countP Opnd.isImm
  match x with
  | .iform => decide (cnt ≤ 1) && [o.d, o.a, o.b, o.c].all fun y => match y with | .immC _ => false | _ => true
  | .cform => decide (cnt ≤ 1) && [o.d, o.a, o.b, o.c].all fun y => match y with | .immI _ _ => false | _ => true
  | .fixed => cnt == 0

/-- R58: the guard that always holds. -/
def Hdr.always (h : Hdr) : Bool := !h.neg && h.pred == 7

/-- The common shape of an operand check. -/
def okArgs (x : XKind) (r : URule) (o : Args) (d a b c : Bool) : Bool :=
  x.ok o && r.ok o && d && a && b && c

/-- The operands and modifiers of an encoded form are those its entry allows; an event is well formed. DESIGN CHOICE (log 95):
R131 names no class for D of `wrlane`; it is a v register here, and an s register or a predicate is refused. DESIGN CHOICE (log 130): B of `rgres`, whose X is zero,
is an s register, a uniform special register or a constant code, and 0x3FF there, an immediate of 0, is refused. -/
def Instr.wf : Instr → Bool
  | .nop o => okArgs .iform .any o (o.d.isNone) (o.a.isNone) (o.b.isNone) (o.c.isNone)
  | .yieldI o => okArgs .iform .any o (o.d.isNone) (o.a.isNone) (o.b.isNone) (o.c.isNone)
  | .exitI o => okArgs .iform .any o (o.d.isNone) (o.a.isNone) (o.b.isNone) (o.c.isNone)
  | .trapI o => okArgs .iform .any o (o.d.isNone) (o.a.uSrcI) (o.b.isNone) (o.c.isNone)
  | .bkpt o => okArgs .iform .any o (o.d.isNone) (o.a.isNone) (o.b.isNone) (o.c.isNone)
  | .fbk off o => okArgs .fixed .any o (o.d.vOrNone) (o.a.sOrNone) (o.b.isNone) (o.c.isNone) && off != 0
  | .bra _ o => okArgs .fixed .any o (o.d.isNone) (o.a.isNone) (o.b.isNone) (o.c.isNone)
  | .brx rj off o => okArgs .fixed .any o (o.d.isNone) (o.a.isS) (o.b.vOrS) (o.c.isNone) && (rj == (off != 0))
  | .jmp o => okArgs .iform .any o (o.d.isNone) (o.a.sOrW) (o.b.isNone) (o.c.isNone)
  | .callI _ o => okArgs .fixed .any o (o.d.isNone) (o.a.isNone) (o.b.isNone) (o.c.isNone)
  | .callx o => okArgs .iform .any o (o.d.isNone) (o.a.sOrW) (o.b.isNone) (o.c.isNone)
  | .ret o => okArgs .iform .any o (o.d.isNone) (o.a.isNone) (o.b.isNone) (o.c.isNone)
  | .recon off o => okArgs .fixed .any o (o.d.isNone) (o.a.isNone) (o.b.isNone) (o.c.isNone) && off != 0
  | .joinI o => okArgs .iform .any o (o.d.isNone) (o.a.isNone) (o.b.isNone) (o.c.isNone)
  | .wsync o => okArgs .iform .any o (o.d.qOrNone) (o.a.sOrNone) (o.b.isNone) (o.c.isNone)
  | .pathq _ o => okArgs .iform .any o (o.d.isS) (o.a.isNone) (o.b.isNone) (o.c.isNone)
  | .pand o => okArgs .iform .lanes o (o.d.isQ) (o.a.isQ) (o.b.isQ) (o.c.isNone)
  | .por o => okArgs .iform .lanes o (o.d.isQ) (o.a.isQ) (o.b.isQ) (o.c.isNone)
  | .pxor o => okArgs .iform .lanes o (o.d.isQ) (o.a.isQ) (o.b.isQ) (o.c.isNone)
  | .pnot o => okArgs .iform .lanes o (o.d.isQ) (o.a.isQ) (o.b.isNone) (o.c.isNone)
  | .psetM o => okArgs .iform .lanes o (o.d.isQ) (o.a.sOrImm) (o.b.isNone) (o.c.isNone)
  | .psetP o => okArgs .iform .zero o (o.d.isNone) (o.a.vOrS) (o.b.isNone) (o.c.isNone)
  | .pget o => okArgs .iform .lanes o (o.d.isV) (o.a.isNone) (o.b.isNone) (o.c.isNone)
  | .iadd _ t o => okArgs .iform .lanes o (Opnd.dstQ t o.d) (Opnd.isrc t o.a) (Opnd.isrc t o.b) (o.c.isNone)
  | .isub _ t o => okArgs .iform .lanes o (Opnd.dstQ t o.d) (Opnd.isrc t o.a) (Opnd.isrc t o.b) (o.c.isNone)
  | .iaddc t o => okArgs .cform .lanes o (Opnd.dstQ t o.d) (Opnd.isrc t o.a) (Opnd.isrc t o.b) (o.c.carry)
  | .isubb t o => okArgs .cform .lanes o (Opnd.dstQ t o.d) (Opnd.isrc t o.a) (Opnd.isrc t o.b) (o.c.carry)
  | .imul _ t o => okArgs .iform .lanes o (Opnd.dstQ t o.d) (Opnd.isrc t o.a) (Opnd.isrc t o.b) (o.c.isNone)
  | .imulh t o => okArgs .iform .lanes o (Opnd.dstQ t o.d) (Opnd.isrc t o.a) (Opnd.isrc t o.b) (o.c.isNone)
  | .imad _ t o => okArgs .cform .lanes o (Opnd.dstQ t o.d) (Opnd.isrc t o.a) (Opnd.isrc t o.b) (Opnd.isrc t o.c)
  | .idiv t o => okArgs .iform .lanes o (Opnd.dstQ t o.d) (Opnd.isrc t o.a) (Opnd.isrc t o.b) (o.c.isNone)
  | .irem t o => okArgs .iform .lanes o (Opnd.dstQ t o.d) (Opnd.isrc t o.a) (Opnd.isrc t o.b) (o.c.isNone)
  | .imin t o => okArgs .iform .lanes o (Opnd.dstQ t o.d) (Opnd.isrc t o.a) (Opnd.isrc t o.b) (o.c.isNone)
  | .imax t o => okArgs .iform .lanes o (Opnd.dstQ t o.d) (Opnd.isrc t o.a) (Opnd.isrc t o.b) (o.c.isNone)
  | .iabs _ t o => okArgs .iform .lanes o (Opnd.dstQ t o.d) (Opnd.isrc t o.a) (o.b.isNone) (o.c.isNone)
  | .ineg _ t o => okArgs .iform .lanes o (Opnd.dstQ t o.d) (Opnd.isrc t o.a) (o.b.isNone) (o.c.isNone)
  | .isat t o => okArgs .cform .lanes o (Opnd.dstQ t o.d) (Opnd.isrc t o.a) (Opnd.isrc t o.b) (Opnd.isrc t o.c)
  | .andI t o => okArgs .iform .lanes o (Opnd.dstQ t o.d) (Opnd.isrc t o.a) (Opnd.isrc t o.b) (o.c.isNone)
  | .orI t o => okArgs .iform .lanes o (Opnd.dstQ t o.d) (Opnd.isrc t o.a) (Opnd.isrc t o.b) (o.c.isNone)
  | .xorI t o => okArgs .iform .lanes o (Opnd.dstQ t o.d) (Opnd.isrc t o.a) (Opnd.isrc t o.b) (o.c.isNone)
  | .notI t o => okArgs .iform .lanes o (Opnd.dstQ t o.d) (Opnd.isrc t o.a) (o.b.isNone) (o.c.isNone)
  | .andn t o => okArgs .iform .lanes o (Opnd.dstQ t o.d) (Opnd.isrc t o.a) (Opnd.isrc t o.b) (o.c.isNone)
  | .shl t o => okArgs .iform .lanes o (Opnd.dstQ t o.d) (Opnd.isrc t o.a) (Opnd.isrc .n32 o.b) (o.c.isNone)
  | .shr t o => okArgs .iform .lanes o (Opnd.dstQ t o.d) (Opnd.isrc t o.a) (Opnd.isrc .n32 o.b) (o.c.isNone)
  | .sar t o => okArgs .iform .lanes o (Opnd.dstQ t o.d) (Opnd.isrc t o.a) (Opnd.isrc .n32 o.b) (o.c.isNone)
  | .rotl t o => okArgs .iform .lanes o (Opnd.dstQ t o.d) (Opnd.isrc t o.a) (Opnd.isrc .n32 o.b) (o.c.isNone)
  | .bfe t o => okArgs .iform .lanes o (Opnd.dstQ t o.d) (Opnd.isrc t o.a) (Opnd.isrc .n32 o.b) (o.c.isNone)
  | .bfi t o => okArgs .cform .lanes o (Opnd.dstQ t o.d) (Opnd.isrc t o.a) (Opnd.isrc t o.b) (Opnd.isrc .n32 o.c)
  | .popc t o => okArgs .iform .lanes o (Opnd.dstQ t o.d) (Opnd.isrc t o.a) (o.b.isNone) (o.c.isNone)
  | .clz t o => okArgs .iform .lanes o (Opnd.dstQ t o.d) (Opnd.isrc t o.a) (o.b.isNone) (o.c.isNone)
  | .ctz t o => okArgs .iform .lanes o (Opnd.dstQ t o.d) (Opnd.isrc t o.a) (o.b.isNone) (o.c.isNone)
  | .brev t o => okArgs .iform .lanes o (Opnd.dstQ t o.d) (Opnd.isrc t o.a) (o.b.isNone) (o.c.isNone)
  | .bsel t o => okArgs .cform .lanes o (Opnd.dstQ t o.d) (Opnd.isrc t o.a) (Opnd.isrc t o.b) (Opnd.isrc .n32 o.c) && (t == .i32 || t == .n32)
  | .icmp _ t o => okArgs .iform .lanes o (Opnd.dstQ t o.d) (Opnd.isrc t o.a) (Opnd.isrc t o.b) (o.c.isNone)
  | .isel t o => okArgs .cform .lanes o (Opnd.dstQ t o.d) (Opnd.isrc t o.a) (Opnd.isrc t o.b) (Opnd.isrc t o.c)
  | .lea _ t _ o => okArgs .fixed .lanes o (Opnd.dstQ t o.d) (o.a.base) (o.b.index) (o.c.isNone) && (t == .i64 || t == .n64)
  | .mov t o => okArgs .iform .lanes o (Opnd.dstQ t o.d) (Opnd.isrc t o.a) (o.b.isNone) (o.c.isNone)
  | .movi t o => okArgs .iform .lanes o (Opnd.dstQ t o.d) (o.a.isImmI) (o.b.isNone) (o.c.isNone) && (t == .i64 || t == .n64)
  | .cvti _ sty t o => okArgs .iform .lanes o (Opnd.dstQ t o.d) (Opnd.isrc sty o.a) (o.b.isNone) (o.c.isNone)
  | .shfl _ _ t o => okArgs .iform .zero o (Opnd.dst t o.d) (Opnd.isrc t o.a) (Opnd.isrc .n32 o.b) (o.c.isNone) && (t == .i32 || t == .n32 || t == .i64 || t == .n64)
  | .vote _ o => okArgs .iform .zero o (o.d.qOrS) (o.a.isQ) (o.b.isNone) (o.c.isNone)
  | .ballot o => okArgs .iform .zero o (o.d.dstW) (o.a.isQ) (o.b.isNone) (o.c.isNone)
  | .redux _ t o => okArgs .iform .zero o (Opnd.dst t o.d) (Opnd.isrc t o.a) (o.b.isNone) (o.c.isNone)
  | .scan _ _ t o => okArgs .iform .zero o (Opnd.dstV t o.d) (Opnd.isrc t o.a) (o.b.isNone) (o.c.isNone)
  | .matchL t o => okArgs .iform .zero o (o.d.isV) (Opnd.isrc t o.a) (o.b.isNone) (o.c.isNone)
  | .rdlane t o => okArgs .iform .zero o (Opnd.dst t o.d) (Opnd.isrc t o.a) (Opnd.isrc .n32 o.b) (o.c.isNone) && (t == .i32 || t == .n32 || t == .i64 || t == .n64)
  | .wrlane t o => okArgs .iform .zero o (Opnd.dstV t o.d) (Opnd.isrc t o.a) (o.b.uSrc) (o.c.isNone) && (t == .i32 || t == .n32 || t == .i64 || t == .n64)
  | .fadd _ f o => okArgs .iform .lanes o (o.d.isVS) (Opnd.fsrc f o.a) (Opnd.fsrc f o.b) (o.c.isNone)
  | .fsub _ f o => okArgs .iform .lanes o (o.d.isVS) (Opnd.fsrc f o.a) (Opnd.fsrc f o.b) (o.c.isNone)
  | .fmul _ f o => okArgs .iform .lanes o (o.d.isVS) (Opnd.fsrc f o.a) (Opnd.fsrc f o.b) (o.c.isNone)
  | .ffma _ f o => okArgs .cform .lanes o (o.d.isVS) (Opnd.fsrc f o.a) (Opnd.fsrc f o.b) (Opnd.fsrc f o.c)
  | .fmin _ f o => okArgs .iform .lanes o (o.d.isVS) (Opnd.fsrc f o.a) (Opnd.fsrc f o.b) (o.c.isNone)
  | .fmax _ f o => okArgs .iform .lanes o (o.d.isVS) (Opnd.fsrc f o.a) (Opnd.fsrc f o.b) (o.c.isNone)
  | .fcmp _ _ f o => okArgs .iform .lanes o (o.d.isVSQ) (Opnd.fsrc f o.a) (Opnd.fsrc f o.b) (o.c.isNone)
  | .fclass f o => okArgs .iform .lanes o (o.d.isVS) (Opnd.fsrc f o.a) (o.b.isNone) (o.c.isNone)
  | .fscale _ f o => okArgs .iform .lanes o (o.d.isVS) (Opnd.fsrc f o.a) (Opnd.srcNQ .i32 o.b) (o.c.isNone)
  | .frnd _ f o => okArgs .iform .lanes o (o.d.isVS) (Opnd.fsrc f o.a) (o.b.isNone) (o.c.isNone)
  | .frcp _ f o => okArgs .iform .lanes o (o.d.isVS) (Opnd.fsrc f o.a) (o.b.isNone) (o.c.isNone)
  | .frsq _ f o => okArgs .iform .lanes o (o.d.isVS) (Opnd.fsrc f o.a) (o.b.isNone) (o.c.isNone)
  | .fsqrt _ f o => okArgs .iform .lanes o (o.d.isVS) (Opnd.fsrc f o.a) (o.b.isNone) (o.c.isNone)
  | .fdiv _ f o => okArgs .iform .lanes o (o.d.isVS) (Opnd.fsrc f o.a) (Opnd.fsrc f o.b) (o.c.isNone)
  | .fexp2 f o => okArgs .iform .lanes o (o.d.isVS) (Opnd.fsrc f o.a) (o.b.isNone) (o.c.isNone)
  | .flog2 f o => okArgs .iform .lanes o (o.d.isVS) (Opnd.fsrc f o.a) (o.b.isNone) (o.c.isNone)
  | .fsin f o => okArgs .iform .lanes o (o.d.isVS) (Opnd.fsrc f o.a) (o.b.isNone) (o.c.isNone)
  | .fcos f o => okArgs .iform .lanes o (o.d.isVS) (Opnd.fsrc f o.a) (o.b.isNone) (o.c.isNone)
  | .ftanh f o => okArgs .iform .lanes o (o.d.isVS) (Opnd.fsrc f o.a) (o.b.isNone) (o.c.isNone)
  | .hadd2 _ f o => okArgs .iform .lanes o (o.d.isVS) (Opnd.fsrc f o.a) (Opnd.fsrc f o.b) (o.c.isNone) && (f != .f32)
  | .hmul2 _ f o => okArgs .iform .lanes o (o.d.isVS) (Opnd.fsrc f o.a) (Opnd.fsrc f o.b) (o.c.isNone) && (f != .f32)
  | .hfma2 _ f o => okArgs .cform .lanes o (o.d.isVS) (Opnd.fsrc f o.a) (Opnd.fsrc f o.b) (Opnd.fsrc f o.c) && (f != .f32)
  | .hmin2 _ f o => okArgs .iform .lanes o (o.d.isVS) (Opnd.fsrc f o.a) (Opnd.fsrc f o.b) (o.c.isNone) && (f != .f32)
  | .hmax2 _ f o => okArgs .iform .lanes o (o.d.isVS) (Opnd.fsrc f o.a) (Opnd.fsrc f o.b) (o.c.isNone) && (f != .f32)
  | .cvt rm sf f o => okArgs .iform .lanes o (o.d.isVS) (Opnd.fsrc sf o.a) (o.b.isNone) (o.c.isNone) && (sf != f && (f != .f32 || rm == .rne))
  | .cvtfi _ ty f o => okArgs .iform .lanes o (Opnd.dst ty o.d) (Opnd.fsrc f o.a) (o.b.isNone) (o.c.isNone)
  | .cvtif _ ty _ o => okArgs .iform .lanes o (o.d.isVS) (Opnd.srcNQ ty o.a) (o.b.isNone) (o.c.isNone)
  | .dot4 _ _ _ o => okArgs .cform .lanes o (o.d.isVS) (Opnd.srcNQ .n32 o.a) (Opnd.srcNQ .n32 o.b) (Opnd.srcNQ .n32 o.c)
  | .dot2 _ f o => okArgs .cform .lanes o (o.d.isVS) (Opnd.fsrc f o.a) (Opnd.fsrc f o.b) (Opnd.fsrc .f32 o.c) && (f != .f32)
  | .setfmt o => okArgs .iform .lanes o (o.d.isNone) (o.a.uSrc) (o.b.isNone) (o.c.isNone)
  | .getfmt o => okArgs .iform .lanes o (o.d.isVS) (o.a.isNone) (o.b.isNone) (o.c.isNone)
  | .jbexp o => okArgs .iform .lanes o (o.d.isVS) (o.a.isV) (o.b.isNone) (o.c.isNone)
  | .jbpack o => okArgs .iform .lanes o (o.d.isV) (o.a.isV) (o.b.isNone) (o.c.isNone)
  | .jbunpack o => okArgs .iform .lanes o (o.d.isV) (o.a.isV) (o.b.isNone) (o.c.isNone)
  | .rdflags o => okArgs .iform .lanes o (o.d.isVS) (o.a.isNone) (o.b.isNone) (o.c.isNone)
  | .clrflags o => okArgs .iform .lanes o (o.d.isNone) (o.a.uSrcOrNone) (o.b.isNone) (o.c.isNone)
  | .ld _ ord sc sz _ o => okArgs .fixed .lanes o (Opnd.ldDst sz o.d) (o.a.base) (o.b.index) (o.c.isNone) && (ord == .plain || ord == .acq) && (sc != .ab)
  | .st _ ord sc sz _ o => okArgs .fixed .lanes o (o.d.isNone) (o.a.base) (o.b.index) (Opnd.stSrc sz o.c) && (ord == .plain || ord == .rel) && (sc != .ab)
  | .prefetch _ _ o => okArgs .fixed .lanes o (o.d.isNone) (o.a.base) (o.b.index) (o.c.isNone)
  | .prefetchL2 _ _ o => okArgs .fixed .lanes o (o.d.isNone) (o.a.base) (o.b.index) (o.c.isNone)
  | .cctlWb _ o => okArgs .fixed .lanes o (o.d.isNone) (o.a.base) (o.b.index) (o.c.isNone)
  | .cctlWbinv _ o => okArgs .fixed .lanes o (o.d.isNone) (o.a.base) (o.b.index) (o.c.isNone)
  | .cctlDemoteEf _ o => okArgs .fixed .lanes o (o.d.isNone) (o.a.base) (o.b.index) (o.c.isNone)
  | .cctlDemote _ o => okArgs .fixed .lanes o (o.d.isNone) (o.a.base) (o.b.index) (o.c.isNone)
  | .cctlSettag _ o => okArgs .fixed .lanes o (o.d.isNone) (o.a.base) (o.b.index) (o.c.regOrK)
  | .mwait ord sc sz _ o => okArgs .fixed .lanes o (Opnd.ldDst sz o.d) (o.a.base) (o.b.index) (Opnd.stSrc sz o.c) && (ord == .plain || ord == .acq) && (sc != .ab) && (sz == .n32 || sz == .n64)
  | .fence _ sc o => okArgs .iform .lanes o (o.d.isNone) (o.a.isNone) (o.b.isNone) (o.c.isNone) && (sc != .ab)
  | .lds sz _ o => okArgs .fixed .lanes o (Opnd.ldDst sz o.d) (o.a.base) (o.b.index) (o.c.isNone)
  | .sts sz _ o => okArgs .fixed .lanes o (o.d.isNone) (o.a.base) (o.b.index) (Opnd.stSrc sz o.c)
  | .ldacc sz _ o => okArgs .fixed .lanes o (Opnd.ldDst sz o.d) (o.a.base) (o.b.index) (o.c.isNone) && (sz == .n32 || sz == .n64 || sz == .b128)
  | .stacc sz _ o => okArgs .fixed .lanes o (o.d.isNone) (o.a.base) (o.b.index) (Opnd.stSrc sz o.c) && (sz == .n32 || sz == .n64 || sz == .b128)
  | .ldc sz _ o => okArgs .fixed .lanes o (Opnd.ldDst sz o.d) (o.a.base) (o.b.index) (o.c.isNone)
  | .atom op hint _ sc sz _ o => okArgs .fixed .lanes o (Opnd.ldDst sz o.d) (o.a.base) (o.b.index) (Opnd.stSrc sz o.c) && (sc != .ab || hint == .normal) && (sz == .n32 || sz == .n64) && (op != .fadd || sz == .n32)
  | .cas hint _ sc sz _ o => okArgs .fixed .lanes o (Opnd.ldDst sz o.d) (o.a.base) (o.b.index) (Opnd.casSrc sz o.c) && (sc != .ab || hint == .normal) && (sz == .n32 || sz == .n64 || sz == .b128)
  | .red op hint ord sc sz _ o => okArgs .fixed .lanes o (o.d.isNone) (o.a.base) (o.b.index) (Opnd.stSrc sz o.c) && (ord == .plain || ord == .rel) && (sc != .ab || hint == .normal) && (sz == .n32 || sz == .n64) && (op != .exch && (op != .fadd || sz == .n32))
  | .cpl _ sz _ o => okArgs .fixed .lanes o (o.d.isVS) (o.a.base) (o.b.index) (o.c.isNone) && (sz == .n32 || sz == .n64 || sz == .b128)
  | .cplOut _ sz _ o => okArgs .fixed .lanes o (o.d.isVS) (o.a.base) (o.b.index) (o.c.isNone) && (sz == .n32 || sz == .n64 || sz == .b128)
  | .cpclose o => okArgs .iform .one o (o.d.isS) (o.a.isNone) (o.b.isNone) (o.c.isNone)
  | .cpwait o => okArgs .iform .lanes o (o.d.isNone) (o.a.uSrcI) (o.b.isNone) (o.c.isNone)
  | .cptAb _ o => okArgs .fixed .one o (o.d.sOrPosK) (o.a.isS) (o.b.isS) (o.c.isNone)
  | .cptWb _ o => okArgs .fixed .one o (o.d.sOrPosK) (o.a.isS) (o.b.isS) (o.c.isNone)
  | .cpts _ o => okArgs .fixed .one o (o.d.sOrPosK) (o.a.isS) (o.b.isS) (o.c.isNone)
  | .cpta _ o => okArgs .fixed .one o (o.d.sOrPosK) (o.a.isS) (o.b.isS) (o.c.isNone)
  | .tlwait o => okArgs .iform .lanes o (o.d.isNone) (o.a.uSrcI) (o.b.isNone) (o.c.isNone)
  | .tlreadDone o => okArgs .iform .lanes o (o.d.isS) (o.a.isK0) (o.b.isNone) (o.c.isNone)
  | .tlreadIss o => okArgs .iform .lanes o (o.d.isS) (o.a.isK1) (o.b.isNone) (o.c.isNone)
  | .psigSet sc _ o => okArgs .fixed .lanes o (o.d.isNone) (o.a.base) (o.b.index) (Opnd.stSrc .n64 o.c) && (sc == .die || sc == .pkg || sc == .sys)
  | .psigAdd sc _ o => okArgs .fixed .lanes o (o.d.isNone) (o.a.base) (o.b.index) (Opnd.stSrc .n64 o.c) && (sc == .die || sc == .pkg || sc == .sys)
  | .binit _ o => okArgs .iform .one o (o.d.isNone) (o.a.uSrcZ) (o.b.isNone) (o.c.isNone)
  | .barv _ o => okArgs .iform .one o (o.d.sOrNone) (o.a.isNone) (o.b.isNone) (o.c.isNone)
  | .bwait _ o => okArgs .iform .one o (o.d.sOrNone) (o.a.sKImmZ) (o.b.isNone) (o.c.isNone)
  | .bsync _ o => okArgs .iform .one o (o.d.sOrNone) (o.a.isNone) (o.b.isNone) (o.c.isNone)
  | .bdrop _ o => okArgs .iform .one o (o.d.isNone) (o.a.isNone) (o.b.isNone) (o.c.isNone)
  | .gbar o => okArgs .iform .one o (o.d.sOrNone) (o.a.sKImmZ) (o.b.isNone) (o.c.isNone)
  | .bstat _ _ o => okArgs .iform .one o (o.d.isS) (o.a.isNone) (o.b.isNone) (o.c.isNone)
  | .qinit _ o => okArgs .iform .one o (o.d.isNone) (o.a.uSrcI) (o.b.uSrcI) (o.c.isNone)
  | .qpush _ o => okArgs .iform .one o (o.d.isNone) (o.a.uSrcI) (o.b.isNone) (o.c.isNone)
  | .qpop _ o => okArgs .iform .one o (o.d.isS) (o.a.isNone) (o.b.isNone) (o.c.isNone)
  | .qtry _ o => okArgs .iform .one o (o.d.evenS) (o.a.isNone) (o.b.isNone) (o.c.isNone)
  | .qclose _ o => okArgs .iform .one o (o.d.isNone) (o.a.isNone) (o.b.isNone) (o.c.isNone)
  | .sigwait _ sc sz _ o => okArgs .fixed .one o (o.d.sOrNone) (o.a.isS) (o.b.sOrNone) (o.c.sOrK) && (sc != .wv && sc != .ab) && (sz == .n32 || sz == .n64)
  | .signal _ sc sz _ o => okArgs .fixed .one o (o.d.isNone) (o.a.isS) (o.b.sOrNone) (o.c.sOrK) && (sc == .blk || sc == .cl || sc == .die) && (sz == .n32 || sz == .n64)
  | .rgres sc o => okArgs .iform .one o (o.d.evenS) (o.a.isS) (o.b.uSrcNoImm) (o.c.isNone) && (sc != .wv && sc != .ab)
  | .rgcmt sc o => okArgs .iform .one o (o.d.isNone) (o.a.isS) (o.b.isS) (o.c.isNone) && (sc != .wv && sc != .ab)
  | .rgpop sc o => okArgs .iform .one o (o.d.evenS) (o.a.isS) (o.b.isNone) (o.c.isNone) && (sc != .wv && sc != .ab)
  | .rgfree sc o => okArgs .iform .one o (o.d.isNone) (o.a.isS) (o.b.isS) (o.c.isNone) && (sc != .wv && sc != .ab)
  | .spawn _ _ _ o => okArgs .fixed .lanes o (o.d.isNone) (o.a.spawnArg) (o.b.sOrW) (o.c.isNone)
  | .rbsurrHold sc o => okArgs .iform .one o (o.d.isNone) (o.a.isS) (o.b.isS) (o.c.isNone) && (sc != .wv && sc != .ab)
  | .rbsurrSkip sc o => okArgs .iform .one o (o.d.isNone) (o.a.isS) (o.b.isS) (o.c.isNone) && (sc != .wv && sc != .ab)
  | .rbclaim sc o => okArgs .iform .one o (o.d.isS) (o.a.isS) (o.b.isS) (o.c.isNone) && (sc != .wv && sc != .ab)
  | .mzero o => okArgs .iform .any o (o.d.mOff) (o.a.isNone) (o.b.isNone) (o.c.isNone) && o.h.always
  | .mma _ _ _ o => okArgs .fixed .any o (o.d.mOff) (o.a.mOff) (o.b.mOff) (o.c.isNone) && o.h.always
  | .mmas _ _ _ o => okArgs .fixed .any o (o.d.mOff) (o.a.mOff) (o.b.mOff) (o.c.mReg) && o.h.always
  | .mcvt _ _ o => okArgs .iform .any o (o.d.mOff) (o.a.mOff) (o.b.isNone) (o.c.isNone) && o.h.always
  | .madd o => okArgs .iform .any o (o.d.mOff) (o.a.mOff) (o.b.isNone) (o.c.isNone) && o.h.always
  | .marv _ o => okArgs .iform .any o (o.d.isNone) (o.a.isNone) (o.b.isNone) (o.c.isNone) && o.h.always
  | .mwaitb _ o => okArgs .iform .any o (o.d.mRegN) (o.a.mOffImmZ) (o.b.isNone) (o.c.isNone) && o.h.always
  | .mpop _ o => okArgs .iform .any o (o.d.mReg) (o.a.isNone) (o.b.isNone) (o.c.isNone) && o.h.always
  | .mpush _ o => okArgs .iform .any o (o.d.isNone) (o.a.mOffImm) (o.b.isNone) (o.c.isNone) && o.h.always
  | .mloop off o => okArgs .fixed .any o (o.d.mReg) (o.a.mRegN) (Opnd.mLoopB o.a o.b) (o.c.isNone) && off != 0 && o.h.always
  | .mjmp off o => okArgs .fixed .any o (o.d.isNone) (o.a.isNone) (o.b.isNone) (o.c.isNone) && off != 0 && o.h.always
  | .mend o => okArgs .iform .any o (o.d.isNone) (o.a.isNone) (o.b.isNone) (o.c.isNone) && o.h.always
  | .txb off o => okArgs .fixed .lanes o (o.d.isNone) (o.a.isNone) (o.b.isNone) (o.c.isNone) && (off != 0 && !off.msb) && o.h.always
  | .txe o => okArgs .iform .lanes o (o.d.qOrNone) (o.a.isNone) (o.b.isNone) (o.c.isNone) && o.h.always
  | .txabt o => okArgs .iform .lanes o (o.d.isNone) (o.a.vsKImm) (o.b.isNone) (o.c.isNone)
  | .txst k o => okArgs .iform .lanes o (Opnd.txstD k o.d) (o.a.isNone) (o.b.isNone) (o.c.isNone)
  | .stepb o => okArgs .iform .one o (o.d.isNone) (o.a.uSrcI) (o.b.isNone) (o.c.isNone)
  | .stepe o => okArgs .iform .one o (o.d.sOrNone) (o.a.isNone) (o.b.isNone) (o.c.isNone)
  | .fgmark o => okArgs .iform .one o (o.d.isNone) (o.a.uSrcI) (o.b.isNone) (o.c.isNone)
  | .rngpush o => okArgs .iform .one o (o.d.isNone) (o.a.uSrcI) (o.b.isNone) (o.c.isNone)
  | .rngpop o => okArgs .iform .one o (o.d.sOrNone) (o.a.isNone) (o.b.isNone) (o.c.isNone)
  | .srd o => okArgs .iform .lanes o (o.d.srdDst) (o.a.isSr) (o.b.isNone) (o.c.isNone)
  | .swr o => okArgs .iform .lanes o (o.d.isSr) (o.a.vsKImm) (o.b.isNone) (o.c.isNone)
  | .rte o => okArgs .iform .lanes o (o.d.isNone) (o.a.isNone) (o.b.isNone) (o.c.isNone)
  | .tlbiPage _ o => okArgs .iform .lanes o (o.d.isNone) (o.a.isS) (o.b.sOrK) (o.c.isNone)
  | .tlbiTenant o => okArgs .iform .lanes o (o.d.isNone) (o.a.isNone) (o.b.sOrK) (o.c.isNone)
  | .tlbiAll o => okArgs .iform .lanes o (o.d.isNone) (o.a.isNone) (o.b.isNone) (o.c.isNone)
  | .yieldExpiry _ => true
  | .instructionFetch _ _ => true
  | .issueCycle _ _ => true
  | .joinTimeout _ => true
  | .wsyncTimeout _ => true
  | .supervisorEntry _ => true
  | .supervisorBoundExpiry _ => true
  | .faultQueueWrite _ => true
  | .bounce _ => true
  | .locketReissue _ _ => true
  | .atomicApply _ _ _ _ => true
  | .atomicAck _ _ _ => true
  | .postedAck _ => true
  | .remoteAccess _ _ => true
  | .tlbWalk _ _ _ _ _ => true
  | .invalidationComplete _ => true
  | .l1WriteBack _ _ _ => true
  | .copyElementPerform _ => true
  | .tensorCopyComplete _ _ => true
  | .copyDeferredWrite _ => true
  | .matrixOpStart _ _ => true
  | .matrixOpConsumed _ _ => true
  | .matrixOpComplete _ _ => true
  | .marvPerform _ => true
  | .waitWake _ _ => true
  | .mwaitTimeout _ => true
  | .sigwaitPoll _ => true
  | .blockEnd _ => true
  | .taskStart _ _ => true
  | .blockPlace _ => true
  | .residencyEviction _ => true
  | .evictionSaveComplete _ => true
  | .evictedWake _ => true
  | .preemptRequest _ => true
  | .preemptFullSave _ => true
  | .laneLogGrant _ => true
  | .claspRevalidation _ => true
  | .claspTokenGrant _ => true
  | .serialBoundExpiry _ => true
  | .sampleInterval _ => true
  | .memoryTableCycle _ _ => true
  | .flitReceive _ _ => true
  | .clockChange _ _ _ => true
  | .ageingReplan _ _ => true
  | .thermal _ => true
  | .domainRejoin _ _ => true
  | .packageReset => true
  | .boot _ => true
  | .hostNotify _ _ => true
  | .slotFreeMap _ _ => true
  | .qslotStarved _ _ => true
  | .hostMemoryAccess _ _ _ => true
  | .hostSnoopInvalidate _ _ => true
  | .launch _ _ => true
  | .slotTable _ _ => true
  | .dirtySwap _ => true
  | .keyAssign _ _ _ => true
  | .ptRoot _ _ _ => true
  | .ttCfg _ _ _ => true
  | .inval _ _ => true
  | .perfCfg _ _ _ _ _ => true
  | .perfRead _ _ _ => true
  | .traceCfg _ _ => true
  | .traceRead _ => true
  | .trapCfg _ _ _ => true
  | .faultqCfg _ _ _ => true
  | .faultReplay _ _ => true
  | .faultFail _ _ => true
  | .dbgAttach _ => true
  | .dbgDetach _ => true
  | .dbgHalt _ _ => true
  | .dbgExec _ _ _ => true
  | .dbgStep _ _ => true
  | .dbgResume _ _ _ => true
  | .tenantCfg _ _ _ => true
  | .exportRange _ _ _ => true
  | .importHandle _ _ _ _ => true
  | .revoke _ _ => true
  | .resetDomain _ _ => true
  | .attest _ _ => true
  | .gangArrivalSignal _ _ => true
  | .secondTierPortFailure _ => true
  | .serialLogBase _ _ => true
  | .dirtyBitmapBase _ _ _ => true

/-- The operands of an encoded form; an event has none. -/
def Instr.args : Instr → Option Args
  | .nop o => some o
  | .yieldI o => some o
  | .exitI o => some o
  | .trapI o => some o
  | .bkpt o => some o
  | .fbk _ o => some o
  | .bra _ o => some o
  | .brx _ _ o => some o
  | .jmp o => some o
  | .callI _ o => some o
  | .callx o => some o
  | .ret o => some o
  | .recon _ o => some o
  | .joinI o => some o
  | .wsync o => some o
  | .pathq _ o => some o
  | .pand o => some o
  | .por o => some o
  | .pxor o => some o
  | .pnot o => some o
  | .psetM o => some o
  | .psetP o => some o
  | .pget o => some o
  | .iadd _ _ o => some o
  | .isub _ _ o => some o
  | .iaddc _ o => some o
  | .isubb _ o => some o
  | .imul _ _ o => some o
  | .imulh _ o => some o
  | .imad _ _ o => some o
  | .idiv _ o => some o
  | .irem _ o => some o
  | .imin _ o => some o
  | .imax _ o => some o
  | .iabs _ _ o => some o
  | .ineg _ _ o => some o
  | .isat _ o => some o
  | .andI _ o => some o
  | .orI _ o => some o
  | .xorI _ o => some o
  | .notI _ o => some o
  | .andn _ o => some o
  | .shl _ o => some o
  | .shr _ o => some o
  | .sar _ o => some o
  | .rotl _ o => some o
  | .bfe _ o => some o
  | .bfi _ o => some o
  | .popc _ o => some o
  | .clz _ o => some o
  | .ctz _ o => some o
  | .brev _ o => some o
  | .bsel _ o => some o
  | .icmp _ _ o => some o
  | .isel _ o => some o
  | .lea _ _ _ o => some o
  | .mov _ o => some o
  | .movi _ o => some o
  | .cvti _ _ _ o => some o
  | .shfl _ _ _ o => some o
  | .vote _ o => some o
  | .ballot o => some o
  | .redux _ _ o => some o
  | .scan _ _ _ o => some o
  | .matchL _ o => some o
  | .rdlane _ o => some o
  | .wrlane _ o => some o
  | .fadd _ _ o => some o
  | .fsub _ _ o => some o
  | .fmul _ _ o => some o
  | .ffma _ _ o => some o
  | .fmin _ _ o => some o
  | .fmax _ _ o => some o
  | .fcmp _ _ _ o => some o
  | .fclass _ o => some o
  | .fscale _ _ o => some o
  | .frnd _ _ o => some o
  | .frcp _ _ o => some o
  | .frsq _ _ o => some o
  | .fsqrt _ _ o => some o
  | .fdiv _ _ o => some o
  | .fexp2 _ o => some o
  | .flog2 _ o => some o
  | .fsin _ o => some o
  | .fcos _ o => some o
  | .ftanh _ o => some o
  | .hadd2 _ _ o => some o
  | .hmul2 _ _ o => some o
  | .hfma2 _ _ o => some o
  | .hmin2 _ _ o => some o
  | .hmax2 _ _ o => some o
  | .cvt _ _ _ o => some o
  | .cvtfi _ _ _ o => some o
  | .cvtif _ _ _ o => some o
  | .dot4 _ _ _ o => some o
  | .dot2 _ _ o => some o
  | .setfmt o => some o
  | .getfmt o => some o
  | .jbexp o => some o
  | .jbpack o => some o
  | .jbunpack o => some o
  | .rdflags o => some o
  | .clrflags o => some o
  | .ld _ _ _ _ _ o => some o
  | .st _ _ _ _ _ o => some o
  | .prefetch _ _ o => some o
  | .prefetchL2 _ _ o => some o
  | .cctlWb _ o => some o
  | .cctlWbinv _ o => some o
  | .cctlDemoteEf _ o => some o
  | .cctlDemote _ o => some o
  | .cctlSettag _ o => some o
  | .mwait _ _ _ _ o => some o
  | .fence _ _ o => some o
  | .lds _ _ o => some o
  | .sts _ _ o => some o
  | .ldacc _ _ o => some o
  | .stacc _ _ o => some o
  | .ldc _ _ o => some o
  | .atom _ _ _ _ _ _ o => some o
  | .cas _ _ _ _ _ o => some o
  | .red _ _ _ _ _ _ o => some o
  | .cpl _ _ _ o => some o
  | .cplOut _ _ _ o => some o
  | .cpclose o => some o
  | .cpwait o => some o
  | .cptAb _ o => some o
  | .cptWb _ o => some o
  | .cpts _ o => some o
  | .cpta _ o => some o
  | .tlwait o => some o
  | .tlreadDone o => some o
  | .tlreadIss o => some o
  | .psigSet _ _ o => some o
  | .psigAdd _ _ o => some o
  | .binit _ o => some o
  | .barv _ o => some o
  | .bwait _ o => some o
  | .bsync _ o => some o
  | .bdrop _ o => some o
  | .gbar o => some o
  | .bstat _ _ o => some o
  | .qinit _ o => some o
  | .qpush _ o => some o
  | .qpop _ o => some o
  | .qtry _ o => some o
  | .qclose _ o => some o
  | .sigwait _ _ _ _ o => some o
  | .signal _ _ _ _ o => some o
  | .rgres _ o => some o
  | .rgcmt _ o => some o
  | .rgpop _ o => some o
  | .rgfree _ o => some o
  | .spawn _ _ _ o => some o
  | .rbsurrHold _ o => some o
  | .rbsurrSkip _ o => some o
  | .rbclaim _ o => some o
  | .mzero o => some o
  | .mma _ _ _ o => some o
  | .mmas _ _ _ o => some o
  | .mcvt _ _ o => some o
  | .madd o => some o
  | .marv _ o => some o
  | .mwaitb _ o => some o
  | .mpop _ o => some o
  | .mpush _ o => some o
  | .mloop _ o => some o
  | .mjmp _ o => some o
  | .mend o => some o
  | .txb _ o => some o
  | .txe o => some o
  | .txabt o => some o
  | .txst _ o => some o
  | .stepb o => some o
  | .stepe o => some o
  | .fgmark o => some o
  | .rngpush o => some o
  | .rngpop o => some o
  | .srd o => some o
  | .swr o => some o
  | .rte o => some o
  | .tlbiPage _ o => some o
  | .tlbiTenant o => some o
  | .tlbiAll o => some o
  | .yieldExpiry _ => none
  | .instructionFetch _ _ => none
  | .issueCycle _ _ => none
  | .joinTimeout _ => none
  | .wsyncTimeout _ => none
  | .supervisorEntry _ => none
  | .supervisorBoundExpiry _ => none
  | .faultQueueWrite _ => none
  | .bounce _ => none
  | .locketReissue _ _ => none
  | .atomicApply _ _ _ _ => none
  | .atomicAck _ _ _ => none
  | .postedAck _ => none
  | .remoteAccess _ _ => none
  | .tlbWalk _ _ _ _ _ => none
  | .invalidationComplete _ => none
  | .l1WriteBack _ _ _ => none
  | .copyElementPerform _ => none
  | .tensorCopyComplete _ _ => none
  | .copyDeferredWrite _ => none
  | .matrixOpStart _ _ => none
  | .matrixOpConsumed _ _ => none
  | .matrixOpComplete _ _ => none
  | .marvPerform _ => none
  | .waitWake _ _ => none
  | .mwaitTimeout _ => none
  | .sigwaitPoll _ => none
  | .blockEnd _ => none
  | .taskStart _ _ => none
  | .blockPlace _ => none
  | .residencyEviction _ => none
  | .evictionSaveComplete _ => none
  | .evictedWake _ => none
  | .preemptRequest _ => none
  | .preemptFullSave _ => none
  | .laneLogGrant _ => none
  | .claspRevalidation _ => none
  | .claspTokenGrant _ => none
  | .serialBoundExpiry _ => none
  | .sampleInterval _ => none
  | .memoryTableCycle _ _ => none
  | .flitReceive _ _ => none
  | .clockChange _ _ _ => none
  | .ageingReplan _ _ => none
  | .thermal _ => none
  | .domainRejoin _ _ => none
  | .packageReset => none
  | .boot _ => none
  | .hostNotify _ _ => none
  | .slotFreeMap _ _ => none
  | .qslotStarved _ _ => none
  | .hostMemoryAccess _ _ _ => none
  | .hostSnoopInvalidate _ _ => none
  | .launch _ _ => none
  | .slotTable _ _ => none
  | .dirtySwap _ => none
  | .keyAssign _ _ _ => none
  | .ptRoot _ _ _ => none
  | .ttCfg _ _ _ => none
  | .inval _ _ => none
  | .perfCfg _ _ _ _ _ => none
  | .perfRead _ _ _ => none
  | .traceCfg _ _ => none
  | .traceRead _ => none
  | .trapCfg _ _ _ => none
  | .faultqCfg _ _ _ => none
  | .faultReplay _ _ => none
  | .faultFail _ _ => none
  | .dbgAttach _ => none
  | .dbgDetach _ => none
  | .dbgHalt _ _ => none
  | .dbgExec _ _ _ => none
  | .dbgStep _ _ => none
  | .dbgResume _ _ _ => none
  | .tenantCfg _ _ _ => none
  | .exportRange _ _ _ => none
  | .importHandle _ _ _ _ => none
  | .revoke _ _ => none
  | .resetDomain _ _ => none
  | .attest _ _ => none
  | .gangArrivalSignal _ _ => none
  | .secondTierPortFailure _ => none
  | .serialLogBase _ _ => none
  | .dirtyBitmapBase _ _ _ => none

end Sys2Proof
end

