-- ==== Sys2Proof/Decode.lean ====
section
/-! DEFINITION. The decoder, total on every 96-bit word, and the encoder (R71, R74 to R80, R86, R88). -/

namespace Sys2Proof

/-- Bits [lo+n-1:lo] of a number. -/
def bitsOf (m lo n : Nat) : Nat := (m >>> lo) % 2 ^ n
def bitOf (m lo : Nat) : Bool := bitsOf m lo 1 == 1
def b2n (b : Bool) : Nat := if b then 1 else 0
def scaleOf (n : Nat) : Option (Fin 5) := if h : n < 5 then some ⟨n, h⟩ else none

/-- R74: the operand a 10-bit code names; `im` is what 0x3FF stands for in the form. -/
def Opnd.ofCode (im : Option Opnd) (c : Nat) : Option Opnd :=
  if c < 0x100 then some (.v (BitVec.ofNat 8 c))
  else if c < 0x180 then some (.s (BitVec.ofNat 7 (c - 0x100)))
  else if c < 0x188 then some (.q (BitVec.ofNat 3 (c - 0x180)))
  else if c < 0x200 then (SReg.ofCode c).map .sr
  else if c < 0x300 then some (.k (BitVec.ofNat 8 (c - 0x200)))
  else if c < 0x380 then some (.pair (BitVec.ofNat 7 (c - 0x300)))
  else if c < 0x3FE then none
  else if c = 0x3FE then some .absent
  else im

/-- R74: the code of an operand. -/
def Opnd.code : Opnd → Nat
  | .v n => n.toNat
  | .s n => 0x100 + n.toNat
  | .q n => 0x180 + n.toNat
  | .sr r => r.code
  | .k c => 0x200 + c.toNat
  | .pair n => 0x300 + n.toNat
  | .absent => 0x3FE
  | .immI _ _ | .immC _ => 0x3FF

/-- R86, R87: the class of a form for rows 5 and 6 of R88. -/
inductive Cls | vector | matrix | both | priv
  deriving DecidableEq, Repr

def clsOf (op sub : Nat) : Cls :=
  if op = 0x50 ∨ op = 0x51 then .matrix
  else if op = 0x01 ∧ sub = 0 then .both
  else if op = 0x70 ∧ (sub = 2 ∨ sub = 3) then .priv
  else .vector

/-- R76: the layout of X by opcode. -/
def xkindOf (op sub : Nat) : XKind :=
  match op, sub with
  | 0x10, 2 => .cform
  | 0x10, 3 => .cform
  | 0x10, 6 => .cform
  | 0x10, 13 => .cform
  | 0x11, 10 => .cform
  | 0x11, 15 => .cform
  | 0x12, 1 => .cform
  | 0x20, 3 => .cform
  | 0x22, 2 => .cform
  | 0x23, 3 => .cform
  | 0x23, 4 => .cform
  | 0x1, 5 => .fixed
  | 0x2, 0 => .fixed
  | 0x2, 1 => .fixed
  | 0x2, 3 => .fixed
  | 0x3, 0 => .fixed
  | 0x12, 2 => .fixed
  | 0x30, 0 => .fixed
  | 0x30, 1 => .fixed
  | 0x30, 2 => .fixed
  | 0x30, 3 => .fixed
  | 0x30, 4 => .fixed
  | 0x31, 0 => .fixed
  | 0x31, 1 => .fixed
  | 0x31, 2 => .fixed
  | 0x31, 3 => .fixed
  | 0x31, 4 => .fixed
  | 0x32, 0 => .fixed
  | 0x32, 1 => .fixed
  | 0x33, 0 => .fixed
  | 0x34, 0 => .fixed
  | 0x35, 0 => .fixed
  | 0x35, 1 => .fixed
  | 0x35, 2 => .fixed
  | 0x36, 0 => .fixed
  | 0x42, 0 => .fixed
  | 0x42, 1 => .fixed
  | 0x44, 0 => .fixed
  | 0x50, 1 => .fixed
  | 0x50, 2 => .fixed
  | 0x51, 4 => .fixed
  | 0x51, 5 => .fixed
  | 0x60, 0 => .fixed
  | _, _ => .iform

/-- The fields of a word, least significant first: X, B, A, D, M, the reserved bit, U, L, G, SUB, OP. -/
structure Fields where
  op : Nat
  sub : Nat
  h : Hdr
  m : Nat
  d : Nat
  a : Nat
  b : Nat
  x : Nat
  deriving DecidableEq, Repr

def Fields.ofWord (w : IWord) : Fields :=
  let n := w.toNat
  { op := bitsOf n 88 8, sub := bitsOf n 84 4,
    h := { neg := bitOf n 83, pred := BitVec.ofNat 3 (bitsOf n 80 3), look := BitVec.ofNat 4 (bitsOf n 76 4),
           u := bitOf n 75 },
    m := bitsOf n 64 10, d := bitsOf n 54 10, a := bitsOf n 44 10, b := bitsOf n 34 10, x := bitsOf n 0 34 }

/-- The operands of a word whose X has layout `k`, or none where R74 or R76 refuses a field. -/
def Fields.args (f : Fields) (k : XKind) : Option Args := do
  let im : Option Opnd := match k with
    | .iform => some (.immI (BitVec.ofNat 2 (bitsOf f.x 32 2)) (BitVec.ofNat 32 (bitsOf f.x 0 32)))
    | .cform => some (.immC (BitVec.ofNat 24 (bitsOf f.x 0 24)))
    | .fixed => none
  let d ← Opnd.ofCode im f.d
  let a ← Opnd.ofCode im f.a
  let b ← Opnd.ofCode im f.b
  let c ← if k == .iform then some .absent else Opnd.ofCode im (bitsOf f.x 24 10)
  let anyImm := d.isImm || a.isImm || b.isImm || c.isImm
  guard (k == .fixed || anyImm || (if k == .iform then f.x == 0 else bitsOf f.x 0 24 == 0))
  some { h := f.h, d := d, a := a, b := b, c := c }

/-- The value of a memory operand's IMM24 fields (R171). -/
def idxOf (imm : Nat) : Option Idx := do
  let s ← scaleOf (bitsOf imm 17 3)
  some { scale := s, disp := BitVec.ofNat 17 (bitsOf imm 0 17) }

/-- The M field of an instruction (R77 to R80). -/
def Instr.mbits : Instr → Nat
  | .nop _ => 0
  | .yieldI _ => 0
  | .exitI _ => 0
  | .trapI _ => 0
  | .bkpt _ => 0
  | .fbk _ _ => 0
  | .bra _ _ => 0
  | .brx rj _ _ => b2n rj
  | .jmp _ => 0
  | .callI _ _ => 0
  | .callx _ => 0
  | .ret _ => 0
  | .recon _ _ => 0
  | .joinI _ => 0
  | .wsync _ => 0
  | .pathq k _ => k.toNat
  | .pand _ => 0
  | .por _ => 0
  | .pxor _ => 0
  | .pnot _ => 0
  | .psetM _ => 0
  | .psetP _ => 1
  | .pget _ => 0
  | .iadd sat t _ => b2n sat * 8 + t.code
  | .isub sat t _ => b2n sat * 8 + t.code
  | .iaddc t _ => t.code
  | .isubb t _ => t.code
  | .imul sat t _ => b2n sat * 8 + t.code
  | .imulh t _ => t.code
  | .imad sat t _ => b2n sat * 8 + t.code
  | .idiv t _ => t.code
  | .irem t _ => t.code
  | .imin t _ => t.code
  | .imax t _ => t.code
  | .iabs sat t _ => b2n sat * 8 + t.code
  | .ineg sat t _ => b2n sat * 8 + t.code
  | .isat t _ => t.code
  | .andI t _ => t.code
  | .orI t _ => t.code
  | .xorI t _ => t.code
  | .notI t _ => t.code
  | .andn t _ => t.code
  | .shl t _ => t.code
  | .shr t _ => t.code
  | .sar t _ => t.code
  | .rotl t _ => t.code
  | .bfe t _ => t.code
  | .bfi t _ => t.code
  | .popc t _ => t.code
  | .clz t _ => t.code
  | .ctz t _ => t.code
  | .brev t _ => t.code
  | .bsel t _ => t.code
  | .icmp cc t _ => cc.code * 8 + t.code
  | .isel t _ => t.code
  | .lea scale t _ _ => scale.val * 8 + t.code
  | .mov t _ => t.code
  | .movi t _ => t.code
  | .cvti sat sty t _ => b2n sat * 64 + sty.code * 8 + t.code
  | .shfl mode seg t _ => mode.code * 8 + seg.code * 32 + t.code
  | .vote mode _ => mode.code * 8
  | .ballot _ => 0
  | .redux op t _ => op.code * 8 + t.code
  | .scan op excl t _ => op.code * 8 + b2n excl * 64 + t.code
  | .matchL t _ => t.code
  | .rdlane t _ => t.code
  | .wrlane t _ => t.code
  | .fadd rm f _ => rm.code * 8 + f.code
  | .fsub rm f _ => rm.code * 8 + f.code
  | .fmul rm f _ => rm.code * 8 + f.code
  | .ffma rm f _ => rm.code * 8 + f.code
  | .fmin prop f _ => b2n prop * 32 + f.code
  | .fmax prop f _ => b2n prop * 32 + f.code
  | .fcmp cc sig f _ => cc.code * 32 + b2n sig * 256 + f.code
  | .fclass f _ => f.code
  | .fscale rm f _ => rm.code * 8 + f.code
  | .frnd rm f _ => rm.code * 8 + f.code
  | .frcp rm f _ => rm.code * 8 + f.code
  | .frsq rm f _ => rm.code * 8 + f.code
  | .fsqrt rm f _ => rm.code * 8 + f.code
  | .fdiv rm f _ => rm.code * 8 + f.code
  | .fexp2 f _ => f.code
  | .flog2 f _ => f.code
  | .fsin f _ => f.code
  | .fcos f _ => f.code
  | .ftanh f _ => f.code
  | .hadd2 rm f _ => rm.code * 8 + f.code
  | .hmul2 rm f _ => rm.code * 8 + f.code
  | .hfma2 rm f _ => rm.code * 8 + f.code
  | .hmin2 prop f _ => b2n prop * 32 + f.code
  | .hmax2 prop f _ => b2n prop * 32 + f.code
  | .cvt rm sf f _ => rm.code * 8 + sf.code * 32 + f.code
  | .cvtfi rm ty f _ => rm.code * 8 + ty.code * 32 + f.code
  | .cvtif rm ty f _ => rm.code * 8 + ty.code * 32 + f.code
  | .dot4 au bu sat _ => b2n au * 32 + b2n bu * 64 + b2n sat * 128
  | .dot2 rm f _ => rm.code * 8 + f.code
  | .setfmt _ => 0
  | .getfmt _ => 0
  | .jbexp _ => 0
  | .jbpack _ => 0
  | .jbunpack _ => 0
  | .rdflags _ => 0
  | .clrflags _ => 0
  | .ld hint ord sc sz _ _ => hint.code * 256 + ord.code * 64 + sc.code * 8 + sz.code
  | .st hint ord sc sz _ _ => hint.code * 256 + ord.code * 64 + sc.code * 8 + sz.code
  | .prefetch hint _ _ => hint.code * 256
  | .prefetchL2 hint _ _ => hint.code * 256
  | .cctlWb _ _ => 0
  | .cctlWbinv _ _ => 0
  | .cctlDemoteEf _ _ => 0
  | .cctlDemote _ _ => 0
  | .cctlSettag _ _ => 0
  | .mwait ord sc sz _ _ => ord.code * 64 + sc.code * 8 + sz.code
  | .fence ord sc _ => ord.code * 64 + sc.code * 8
  | .lds sz _ _ => sz.code
  | .sts sz _ _ => sz.code
  | .ldacc sz _ _ => sz.code
  | .stacc sz _ _ => sz.code
  | .ldc sz _ _ => sz.code
  | .atom _ hint ord sc sz _ _ => hint.code * 256 + ord.code * 64 + sc.code * 8 + sz.code
  | .cas hint ord sc sz _ _ => hint.code * 256 + ord.code * 64 + sc.code * 8 + sz.code
  | .red _ hint ord sc sz _ _ => hint.code * 256 + ord.code * 64 + sc.code * 8 + sz.code
  | .cpl hint sz _ _ => hint.code * 256 + sz.code
  | .cplOut hint sz _ _ => hint.code * 256 + sz.code
  | .cpclose _ => 0
  | .cpwait _ => 0
  | .cptAb hint _ => hint.code * 256
  | .cptWb hint _ => hint.code * 256
  | .cpts hint _ => hint.code * 256
  | .cpta hint _ => hint.code * 256
  | .tlwait _ => 0
  | .tlreadDone _ => 0
  | .tlreadIss _ => 0
  | .psigSet sc _ _ => sc.code * 8 + 131
  | .psigAdd sc _ _ => sc.code * 8 + 131
  | .binit n _ => n.toNat * 64
  | .barv n _ => n.toNat * 64
  | .bwait n _ => n.toNat * 64
  | .bsync n _ => n.toNat * 64
  | .bdrop n _ => n.toNat * 64
  | .gbar _ => 0
  | .bstat n k _ => n.toNat * 64 + k.toNat
  | .qinit n _ => n.toNat * 64
  | .qpush n _ => n.toNat * 64
  | .qpop n _ => n.toNat * 64
  | .qtry n _ => n.toNat * 64
  | .qclose n _ => n.toNat * 64
  | .sigwait cond sc sz _ _ => cond.code * 128 + sc.code * 8 + sz.code
  | .signal op sc sz _ _ => op.code * 128 + sc.code * 8 + sz.code
  | .rgres sc _ => sc.code * 8
  | .rgcmt sc _ => sc.code * 8
  | .rgpop sc _ => sc.code * 8
  | .rgfree sc _ => sc.code * 8
  | .spawn regblk abclass _ _ => regblk.toNat * 64 + abclass.toNat
  | .rbsurrHold sc _ => sc.code * 8
  | .rbsurrSkip sc _ => sc.code * 8 + 64
  | .rbclaim sc _ => sc.code * 8
  | .mzero _ => 0
  | .mma z f _ _ => b2n z * 8 + f.code
  | .mmas z f _ _ => b2n z * 8 + f.code
  | .mcvt rm f _ => rm.code * 8 + f.code
  | .madd _ => 0
  | .marv n _ => n.toNat * 64
  | .mwaitb n _ => n.toNat * 64
  | .mpop n _ => n.toNat * 64
  | .mpush n _ => n.toNat * 64
  | .mloop _ _ => 0
  | .mjmp _ _ => 0
  | .mend _ => 0
  | .txb _ _ => 0
  | .txe _ => 0
  | .txabt _ => 0
  | .txst k _ => k.toNat
  | .stepb _ => 0
  | .stepe _ => 0
  | .fgmark _ => 0
  | .rngpush _ => 0
  | .rngpop _ => 0
  | .srd _ => 0
  | .swr _ => 0
  | .rte _ => 0
  | .tlbiPage sz _ => sz.code * 4
  | .tlbiTenant _ => 1
  | .tlbiAll _ => 2
  | .yieldExpiry _ => 0
  | .instructionFetch _ _ => 0
  | .issueCycle _ _ => 0
  | .joinTimeout _ => 0
  | .wsyncTimeout _ => 0
  | .supervisorEntry _ => 0
  | .supervisorBoundExpiry _ => 0
  | .faultQueueWrite _ => 0
  | .bounce _ => 0
  | .locketReissue _ _ => 0
  | .atomicApply _ _ _ _ => 0
  | .atomicAck _ _ _ => 0
  | .postedAck _ => 0
  | .remoteAccess _ _ => 0
  | .tlbWalk _ _ _ _ _ => 0
  | .invalidationComplete _ => 0
  | .l1WriteBack _ _ _ => 0
  | .copyElementPerform _ => 0
  | .tensorCopyComplete _ _ => 0
  | .copyDeferredWrite _ => 0
  | .matrixOpStart _ _ => 0
  | .matrixOpConsumed _ _ => 0
  | .matrixOpComplete _ _ => 0
  | .marvPerform _ => 0
  | .waitWake _ _ => 0
  | .mwaitTimeout _ => 0
  | .sigwaitPoll _ => 0
  | .blockEnd _ => 0
  | .taskStart _ _ => 0
  | .blockPlace _ => 0
  | .residencyEviction _ => 0
  | .evictionSaveComplete _ => 0
  | .evictedWake _ => 0
  | .preemptRequest _ => 0
  | .preemptFullSave _ => 0
  | .laneLogGrant _ => 0
  | .claspRevalidation _ => 0
  | .claspTokenGrant _ => 0
  | .serialBoundExpiry _ => 0
  | .sampleInterval _ => 0
  | .memoryTableCycle _ _ => 0
  | .flitReceive _ _ => 0
  | .clockChange _ _ _ => 0
  | .ageingReplan _ _ => 0
  | .thermal _ => 0
  | .domainRejoin _ _ => 0
  | .packageReset => 0
  | .boot _ => 0
  | .hostNotify _ _ => 0
  | .slotFreeMap _ _ => 0
  | .qslotStarved _ _ => 0
  | .hostMemoryAccess _ _ _ => 0
  | .hostSnoopInvalidate _ _ => 0
  | .launch _ _ => 0
  | .slotTable _ _ => 0
  | .dirtySwap _ => 0
  | .keyAssign _ _ _ => 0
  | .ptRoot _ _ _ => 0
  | .ttCfg _ _ _ => 0
  | .inval _ _ => 0
  | .perfCfg _ _ _ _ _ => 0
  | .perfRead _ _ _ => 0
  | .traceCfg _ _ => 0
  | .traceRead _ => 0
  | .trapCfg _ _ _ => 0
  | .faultqCfg _ _ _ => 0
  | .faultReplay _ _ => 0
  | .faultFail _ _ => 0
  | .dbgAttach _ => 0
  | .dbgDetach _ => 0
  | .dbgHalt _ _ => 0
  | .dbgExec _ _ _ => 0
  | .dbgStep _ _ => 0
  | .dbgResume _ _ _ => 0
  | .tenantCfg _ _ _ => 0
  | .exportRange _ _ _ => 0
  | .importHandle _ _ _ _ => 0
  | .revoke _ _ => 0
  | .resetDomain _ _ => 0
  | .attest _ _ => 0
  | .gangArrivalSignal _ _ => 0
  | .secondTierPortFailure _ => 0
  | .serialLogBase _ _ => 0
  | .dirtyBitmapBase _ _ _ => 0

/-- OP and SUB of an encoded form (R86); an event has no word. -/
def Instr.opsub : Instr → Option (Nat × Nat)
  | .nop _ => some (0x1, 0)
  | .yieldI _ => some (0x1, 1)
  | .exitI _ => some (0x1, 2)
  | .trapI _ => some (0x1, 3)
  | .bkpt _ => some (0x1, 4)
  | .fbk _ _ => some (0x1, 5)
  | .bra _ _ => some (0x2, 0)
  | .brx _ _ _ => some (0x2, 1)
  | .jmp _ => some (0x2, 2)
  | .callI _ _ => some (0x2, 3)
  | .callx _ => some (0x2, 4)
  | .ret _ => some (0x2, 5)
  | .recon _ _ => some (0x3, 0)
  | .joinI _ => some (0x3, 1)
  | .wsync _ => some (0x3, 2)
  | .pathq _ _ => some (0x3, 3)
  | .pand _ => some (0x4, 0)
  | .por _ => some (0x4, 1)
  | .pxor _ => some (0x4, 2)
  | .pnot _ => some (0x4, 3)
  | .psetM _ => some (0x4, 4)
  | .psetP _ => some (0x4, 4)
  | .pget _ => some (0x4, 5)
  | .iadd _ _ _ => some (0x10, 0)
  | .isub _ _ _ => some (0x10, 1)
  | .iaddc _ _ => some (0x10, 2)
  | .isubb _ _ => some (0x10, 3)
  | .imul _ _ _ => some (0x10, 4)
  | .imulh _ _ => some (0x10, 5)
  | .imad _ _ _ => some (0x10, 6)
  | .idiv _ _ => some (0x10, 7)
  | .irem _ _ => some (0x10, 8)
  | .imin _ _ => some (0x10, 9)
  | .imax _ _ => some (0x10, 10)
  | .iabs _ _ _ => some (0x10, 11)
  | .ineg _ _ _ => some (0x10, 12)
  | .isat _ _ => some (0x10, 13)
  | .andI _ _ => some (0x11, 0)
  | .orI _ _ => some (0x11, 1)
  | .xorI _ _ => some (0x11, 2)
  | .notI _ _ => some (0x11, 3)
  | .andn _ _ => some (0x11, 4)
  | .shl _ _ => some (0x11, 5)
  | .shr _ _ => some (0x11, 6)
  | .sar _ _ => some (0x11, 7)
  | .rotl _ _ => some (0x11, 8)
  | .bfe _ _ => some (0x11, 9)
  | .bfi _ _ => some (0x11, 10)
  | .popc _ _ => some (0x11, 11)
  | .clz _ _ => some (0x11, 12)
  | .ctz _ _ => some (0x11, 13)
  | .brev _ _ => some (0x11, 14)
  | .bsel _ _ => some (0x11, 15)
  | .icmp _ _ _ => some (0x12, 0)
  | .isel _ _ => some (0x12, 1)
  | .lea _ _ _ _ => some (0x12, 2)
  | .mov _ _ => some (0x12, 3)
  | .movi _ _ => some (0x12, 4)
  | .cvti _ _ _ _ => some (0x12, 5)
  | .shfl _ _ _ _ => some (0x14, 0)
  | .vote _ _ => some (0x14, 1)
  | .ballot _ => some (0x14, 2)
  | .redux _ _ _ => some (0x14, 3)
  | .scan _ _ _ _ => some (0x14, 4)
  | .matchL _ _ => some (0x14, 5)
  | .rdlane _ _ => some (0x14, 6)
  | .wrlane _ _ => some (0x14, 7)
  | .fadd _ _ _ => some (0x20, 0)
  | .fsub _ _ _ => some (0x20, 1)
  | .fmul _ _ _ => some (0x20, 2)
  | .ffma _ _ _ => some (0x20, 3)
  | .fmin _ _ _ => some (0x20, 4)
  | .fmax _ _ _ => some (0x20, 5)
  | .fcmp _ _ _ _ => some (0x20, 6)
  | .fclass _ _ => some (0x20, 7)
  | .fscale _ _ _ => some (0x20, 8)
  | .frnd _ _ _ => some (0x20, 9)
  | .frcp _ _ _ => some (0x21, 0)
  | .frsq _ _ _ => some (0x21, 1)
  | .fsqrt _ _ _ => some (0x21, 2)
  | .fdiv _ _ _ => some (0x21, 3)
  | .fexp2 _ _ => some (0x21, 4)
  | .flog2 _ _ => some (0x21, 5)
  | .fsin _ _ => some (0x21, 6)
  | .fcos _ _ => some (0x21, 7)
  | .ftanh _ _ => some (0x21, 8)
  | .hadd2 _ _ _ => some (0x22, 0)
  | .hmul2 _ _ _ => some (0x22, 1)
  | .hfma2 _ _ _ => some (0x22, 2)
  | .hmin2 _ _ _ => some (0x22, 3)
  | .hmax2 _ _ _ => some (0x22, 4)
  | .cvt _ _ _ _ => some (0x23, 0)
  | .cvtfi _ _ _ _ => some (0x23, 1)
  | .cvtif _ _ _ _ => some (0x23, 2)
  | .dot4 _ _ _ _ => some (0x23, 3)
  | .dot2 _ _ _ => some (0x23, 4)
  | .setfmt _ => some (0x24, 0)
  | .getfmt _ => some (0x24, 1)
  | .jbexp _ => some (0x24, 2)
  | .jbpack _ => some (0x24, 3)
  | .jbunpack _ => some (0x24, 4)
  | .rdflags _ => some (0x24, 5)
  | .clrflags _ => some (0x24, 6)
  | .ld _ _ _ _ _ _ => some (0x30, 0)
  | .st _ _ _ _ _ _ => some (0x30, 1)
  | .prefetch _ _ _ => some (0x30, 2)
  | .prefetchL2 _ _ _ => some (0x30, 2)
  | .cctlWb _ _ => some (0x30, 3)
  | .cctlWbinv _ _ => some (0x30, 3)
  | .cctlDemoteEf _ _ => some (0x30, 3)
  | .cctlDemote _ _ => some (0x30, 3)
  | .cctlSettag _ _ => some (0x30, 3)
  | .mwait _ _ _ _ _ => some (0x30, 4)
  | .fence _ _ _ => some (0x30, 5)
  | .lds _ _ _ => some (0x31, 0)
  | .sts _ _ _ => some (0x31, 1)
  | .ldacc _ _ _ => some (0x31, 2)
  | .stacc _ _ _ => some (0x31, 3)
  | .ldc _ _ _ => some (0x31, 4)
  | .atom _ _ _ _ _ _ _ => some (0x32, 0)
  | .cas _ _ _ _ _ _ => some (0x32, 1)
  | .red _ _ _ _ _ _ _ => some (0x33, 0)
  | .cpl _ _ _ _ => some (0x34, 0)
  | .cplOut _ _ _ _ => some (0x34, 0)
  | .cpclose _ => some (0x34, 1)
  | .cpwait _ => some (0x34, 2)
  | .cptAb _ _ => some (0x35, 0)
  | .cptWb _ _ => some (0x35, 0)
  | .cpts _ _ => some (0x35, 1)
  | .cpta _ _ => some (0x35, 2)
  | .tlwait _ => some (0x35, 3)
  | .tlreadDone _ => some (0x35, 4)
  | .tlreadIss _ => some (0x35, 4)
  | .psigSet _ _ _ => some (0x36, 0)
  | .psigAdd _ _ _ => some (0x36, 0)
  | .binit _ _ => some (0x40, 0)
  | .barv _ _ => some (0x40, 1)
  | .bwait _ _ => some (0x40, 2)
  | .bsync _ _ => some (0x40, 3)
  | .bdrop _ _ => some (0x40, 4)
  | .gbar _ => some (0x40, 5)
  | .bstat _ _ _ => some (0x40, 6)
  | .qinit _ _ => some (0x41, 0)
  | .qpush _ _ => some (0x41, 1)
  | .qpop _ _ => some (0x41, 2)
  | .qtry _ _ => some (0x41, 3)
  | .qclose _ _ => some (0x41, 4)
  | .sigwait _ _ _ _ _ => some (0x42, 0)
  | .signal _ _ _ _ _ => some (0x42, 1)
  | .rgres _ _ => some (0x43, 0)
  | .rgcmt _ _ => some (0x43, 1)
  | .rgpop _ _ => some (0x43, 2)
  | .rgfree _ _ => some (0x43, 3)
  | .spawn _ _ _ _ => some (0x44, 0)
  | .rbsurrHold _ _ => some (0x44, 1)
  | .rbsurrSkip _ _ => some (0x44, 1)
  | .rbclaim _ _ => some (0x44, 2)
  | .mzero _ => some (0x50, 0)
  | .mma _ _ _ _ => some (0x50, 1)
  | .mmas _ _ _ _ => some (0x50, 2)
  | .mcvt _ _ _ => some (0x50, 3)
  | .madd _ => some (0x50, 4)
  | .marv _ _ => some (0x51, 0)
  | .mwaitb _ _ => some (0x51, 1)
  | .mpop _ _ => some (0x51, 2)
  | .mpush _ _ => some (0x51, 3)
  | .mloop _ _ => some (0x51, 4)
  | .mjmp _ _ => some (0x51, 5)
  | .mend _ => some (0x51, 6)
  | .txb _ _ => some (0x60, 0)
  | .txe _ => some (0x60, 1)
  | .txabt _ => some (0x60, 2)
  | .txst _ _ => some (0x60, 3)
  | .stepb _ => some (0x61, 0)
  | .stepe _ => some (0x61, 1)
  | .fgmark _ => some (0x61, 2)
  | .rngpush _ => some (0x61, 3)
  | .rngpop _ => some (0x61, 4)
  | .srd _ => some (0x70, 0)
  | .swr _ => some (0x70, 1)
  | .rte _ => some (0x70, 2)
  | .tlbiPage _ _ => some (0x70, 3)
  | .tlbiTenant _ => some (0x70, 3)
  | .tlbiAll _ => some (0x70, 3)
  | .yieldExpiry _ => none
  | .instructionFetch _ _ => none
  | .issueCycle _ _ => none
  | .joinTimeout _ => none
  | .wsyncTimeout _ => none
  | .supervisorEntry _ => none
  | .supervisorBoundExpiry _ => none
  | .faultQueueWrite _ => none
  | .bounce _ => none
  | .locketReissue _ _ => none
  | .atomicApply _ _ _ _ => none
  | .atomicAck _ _ _ => none
  | .postedAck _ => none
  | .remoteAccess _ _ => none
  | .tlbWalk _ _ _ _ _ => none
  | .invalidationComplete _ => none
  | .l1WriteBack _ _ _ => none
  | .copyElementPerform _ => none
  | .tensorCopyComplete _ _ => none
  | .copyDeferredWrite _ => none
  | .matrixOpStart _ _ => none
  | .matrixOpConsumed _ _ => none
  | .matrixOpComplete _ _ => none
  | .marvPerform _ => none
  | .waitWake _ _ => none
  | .mwaitTimeout _ => none
  | .sigwaitPoll _ => none
  | .blockEnd _ => none
  | .taskStart _ _ => none
  | .blockPlace _ => none
  | .residencyEviction _ => none
  | .evictionSaveComplete _ => none
  | .evictedWake _ => none
  | .preemptRequest _ => none
  | .preemptFullSave _ => none
  | .laneLogGrant _ => none
  | .claspRevalidation _ => none
  | .claspTokenGrant _ => none
  | .serialBoundExpiry _ => none
  | .sampleInterval _ => none
  | .memoryTableCycle _ _ => none
  | .flitReceive _ _ => none
  | .clockChange _ _ _ => none
  | .ageingReplan _ _ => none
  | .thermal _ => none
  | .domainRejoin _ _ => none
  | .packageReset => none
  | .boot _ => none
  | .hostNotify _ _ => none
  | .slotFreeMap _ _ => none
  | .qslotStarved _ _ => none
  | .hostMemoryAccess _ _ _ => none
  | .hostSnoopInvalidate _ _ => none
  | .launch _ _ => none
  | .slotTable _ _ => none
  | .dirtySwap _ => none
  | .keyAssign _ _ _ => none
  | .ptRoot _ _ _ => none
  | .ttCfg _ _ _ => none
  | .inval _ _ => none
  | .perfCfg _ _ _ _ _ => none
  | .perfRead _ _ _ => none
  | .traceCfg _ _ => none
  | .traceRead _ => none
  | .trapCfg _ _ _ => none
  | .faultqCfg _ _ _ => none
  | .faultReplay _ _ => none
  | .faultFail _ _ => none
  | .dbgAttach _ => none
  | .dbgDetach _ => none
  | .dbgHalt _ _ => none
  | .dbgExec _ _ _ => none
  | .dbgStep _ _ => none
  | .dbgResume _ _ _ => none
  | .tenantCfg _ _ _ => none
  | .exportRange _ _ _ => none
  | .importHandle _ _ _ _ => none
  | .revoke _ _ => none
  | .resetDomain _ _ => none
  | .attest _ _ => none
  | .gangArrivalSignal _ _ => none
  | .secondTierPortFailure _ => none
  | .serialLogBase _ _ => none
  | .dirtyBitmapBase _ _ _ => none

/-- R171: IMM24 of a memory operand. -/
def Idx.bits (x : Idx) (xop : Nat) : Nat := xop * 0x100000 + x.scale.val * 0x20000 + x.disp.toNat

/-- IMM24 of a form in which it has a fixed role; 0 in every other form. -/
def Instr.imm24 : Instr → Nat
  | .fbk off _ => off.toNat
  | .bra off _ => off.toNat
  | .brx _ off _ => off.toNat
  | .callI off _ => off.toNat
  | .recon off _ => off.toNat
  | .lea _ _ disp _ => disp.toNat
  | .ld _ _ _ _ x _ => x.bits 0
  | .st _ _ _ _ x _ => x.bits 0
  | .prefetch _ x _ => x.bits 0
  | .prefetchL2 _ x _ => x.bits 1
  | .cctlWb x _ => x.bits 0
  | .cctlWbinv x _ => x.bits 1
  | .cctlDemoteEf x _ => x.bits 2
  | .cctlDemote x _ => x.bits 3
  | .cctlSettag x _ => x.bits 4
  | .mwait _ _ _ x _ => x.bits 0
  | .lds _ x _ => x.bits 0
  | .sts _ x _ => x.bits 0
  | .ldacc _ x _ => x.bits 0
  | .stacc _ x _ => x.bits 0
  | .ldc _ x _ => x.bits 0
  | .atom op _ _ _ _ x _ => x.bits op.code
  | .cas _ _ _ _ x _ => x.bits 0
  | .red op _ _ _ _ x _ => x.bits op.code
  | .cpl _ _ x _ => x.bits 0
  | .cplOut _ _ x _ => x.bits 1
  | .cptWb _ _ => 0x100000
  | .psigSet _ x _ => x.bits 0
  | .psigAdd _ x _ => x.bits 1
  | .sigwait _ _ _ x _ => x.bits 0
  | .signal _ _ _ x _ => x.bits 0
  | .spawn _ _ off _ => off.toNat
  | .mma _ _ ks _ => ks.toNat
  | .mmas _ _ ks _ => ks.toNat
  | .mloop off _ => off.toNat
  | .mjmp off _ => off.toNat
  | .txb off _ => off.toNat
  | _ => 0

/-- The forms that OP, SUB, M and IMM24 name: none where R77 raises ILLEGAL_OPCODE; the inner none where a
field of IMM24 or of A is not one the form allows (ILLEGAL_OPERAND). -/
def build (op sub m imm a : Nat) : Option (Option (Args → Instr)) :=
  match op, sub with
  | 0x1, 0 => do
    guard (m == 0)
    some (some fun o => .nop o)
  | 0x1, 1 => do
    guard (m == 0)
    some (some fun o => .yieldI o)
  | 0x1, 2 => do
    guard (m == 0)
    some (some fun o => .exitI o)
  | 0x1, 3 => do
    guard (m == 0)
    some (some fun o => .trapI o)
  | 0x1, 4 => do
    guard (m == 0)
    some (some fun o => .bkpt o)
  | 0x1, 5 => do
    guard (m == 0)
    some (some fun o => .fbk (BitVec.ofNat 24 imm) o)
  | 0x2, 0 => do
    guard (m == 0)
    some (some fun o => .bra (BitVec.ofNat 24 imm) o)
  | 0x2, 1 => do
    let rj := bitOf m 0
    guard (m == b2n rj)
    some (some fun o => .brx rj (BitVec.ofNat 24 imm) o)
  | 0x2, 2 => do
    guard (m == 0)
    some (some fun o => .jmp o)
  | 0x2, 3 => do
    guard (m == 0)
    some (some fun o => .callI (BitVec.ofNat 24 imm) o)
  | 0x2, 4 => do
    guard (m == 0)
    some (some fun o => .callx o)
  | 0x2, 5 => do
    guard (m == 0)
    some (some fun o => .ret o)
  | 0x3, 0 => do
    guard (m == 0)
    some (some fun o => .recon (BitVec.ofNat 24 imm) o)
  | 0x3, 1 => do
    guard (m == 0)
    some (some fun o => .joinI o)
  | 0x3, 2 => do
    guard (m == 0)
    some (some fun o => .wsync o)
  | 0x3, 3 => do
    let k := BitVec.ofNat 2 (bitsOf m 0 2)
    guard (m == k.toNat)
    some (some fun o => .pathq k o)
  | 0x4, 0 => do
    guard (m == 0)
    some (some fun o => .pand o)
  | 0x4, 1 => do
    guard (m == 0)
    some (some fun o => .por o)
  | 0x4, 2 => do
    guard (m == 0)
    some (some fun o => .pxor o)
  | 0x4, 3 => do
    guard (m == 0)
    some (some fun o => .pnot o)
  | 0x4, 4 =>
    (do guard (m == 0); some (some fun o => .psetM o))
    <|> (do guard (m == 1); some (some fun o => .psetP o))
  | 0x4, 5 => do
    guard (m == 0)
    some (some fun o => .pget o)
  | 0x10, 0 => do
    let sat := bitOf m 3
    let t ← ITy.ofCode (bitsOf m 0 3)
    guard (m == b2n sat * 8 + t.code)
    some (some fun o => .iadd sat t o)
  | 0x10, 1 => do
    let sat := bitOf m 3
    let t ← ITy.ofCode (bitsOf m 0 3)
    guard (m == b2n sat * 8 + t.code)
    some (some fun o => .isub sat t o)
  | 0x10, 2 => do
    let t ← ITy.ofCode (bitsOf m 0 3)
    guard (m == t.code)
    some (some fun o => .iaddc t o)
  | 0x10, 3 => do
    let t ← ITy.ofCode (bitsOf m 0 3)
    guard (m == t.code)
    some (some fun o => .isubb t o)
  | 0x10, 4 => do
    let sat := bitOf m 3
    let t ← ITy.ofCode (bitsOf m 0 3)
    guard (m == b2n sat * 8 + t.code)
    some (some fun o => .imul sat t o)
  | 0x10, 5 => do
    let t ← ITy.ofCode (bitsOf m 0 3)
    guard (m == t.code)
    some (some fun o => .imulh t o)
  | 0x10, 6 => do
    let sat := bitOf m 3
    let t ← ITy.ofCode (bitsOf m 0 3)
    guard (m == b2n sat * 8 + t.code)
    some (some fun o => .imad sat t o)
  | 0x10, 7 => do
    let t ← ITy.ofCode (bitsOf m 0 3)
    guard (m == t.code)
    some (some fun o => .idiv t o)
  | 0x10, 8 => do
    let t ← ITy.ofCode (bitsOf m 0 3)
    guard (m == t.code)
    some (some fun o => .irem t o)
  | 0x10, 9 => do
    let t ← ITy.ofCode (bitsOf m 0 3)
    guard (m == t.code)
    some (some fun o => .imin t o)
  | 0x10, 10 => do
    let t ← ITy.ofCode (bitsOf m 0 3)
    guard (m == t.code)
    some (some fun o => .imax t o)
  | 0x10, 11 => do
    let sat := bitOf m 3
    let t ← ITy.ofCode (bitsOf m 0 3)
    guard (m == b2n sat * 8 + t.code)
    some (some fun o => .iabs sat t o)
  | 0x10, 12 => do
    let sat := bitOf m 3
    let t ← ITy.ofCode (bitsOf m 0 3)
    guard (m == b2n sat * 8 + t.code)
    some (some fun o => .ineg sat t o)
  | 0x10, 13 => do
    let t ← ITy.ofCode (bitsOf m 0 3)
    guard (m == t.code)
    some (some fun o => .isat t o)
  | 0x11, 0 => do
    let t ← ITy.ofCode (bitsOf m 0 3)
    guard (m == t.code)
    some (some fun o => .andI t o)
  | 0x11, 1 => do
    let t ← ITy.ofCode (bitsOf m 0 3)
    guard (m == t.code)
    some (some fun o => .orI t o)
  | 0x11, 2 => do
    let t ← ITy.ofCode (bitsOf m 0 3)
    guard (m == t.code)
    some (some fun o => .xorI t o)
  | 0x11, 3 => do
    let t ← ITy.ofCode (bitsOf m 0 3)
    guard (m == t.code)
    some (some fun o => .notI t o)
  | 0x11, 4 => do
    let t ← ITy.ofCode (bitsOf m 0 3)
    guard (m == t.code)
    some (some fun o => .andn t o)
  | 0x11, 5 => do
    let t ← ITy.ofCode (bitsOf m 0 3)
    guard (m == t.code)
    some (some fun o => .shl t o)
  | 0x11, 6 => do
    let t ← ITy.ofCode (bitsOf m 0 3)
    guard (m == t.code)
    some (some fun o => .shr t o)
  | 0x11, 7 => do
    let t ← ITy.ofCode (bitsOf m 0 3)
    guard (m == t.code)
    some (some fun o => .sar t o)
  | 0x11, 8 => do
    let t ← ITy.ofCode (bitsOf m 0 3)
    guard (m == t.code)
    some (some fun o => .rotl t o)
  | 0x11, 9 => do
    let t ← ITy.ofCode (bitsOf m 0 3)
    guard (m == t.code)
    some (some fun o => .bfe t o)
  | 0x11, 10 => do
    let t ← ITy.ofCode (bitsOf m 0 3)
    guard (m == t.code)
    some (some fun o => .bfi t o)
  | 0x11, 11 => do
    let t ← ITy.ofCode (bitsOf m 0 3)
    guard (m == t.code)
    some (some fun o => .popc t o)
  | 0x11, 12 => do
    let t ← ITy.ofCode (bitsOf m 0 3)
    guard (m == t.code)
    some (some fun o => .clz t o)
  | 0x11, 13 => do
    let t ← ITy.ofCode (bitsOf m 0 3)
    guard (m == t.code)
    some (some fun o => .ctz t o)
  | 0x11, 14 => do
    let t ← ITy.ofCode (bitsOf m 0 3)
    guard (m == t.code)
    some (some fun o => .brev t o)
  | 0x11, 15 => do
    let t ← ITy.ofCode (bitsOf m 0 3)
    guard (t == .i32 || t == .n32)
    guard (m == t.code)
    some (some fun o => .bsel t o)
  | 0x12, 0 => do
    let cc ← Cc.ofCode (bitsOf m 3 3)
    let t ← ITy.ofCode (bitsOf m 0 3)
    guard (m == cc.code * 8 + t.code)
    some (some fun o => .icmp cc t o)
  | 0x12, 1 => do
    let t ← ITy.ofCode (bitsOf m 0 3)
    guard (m == t.code)
    some (some fun o => .isel t o)
  | 0x12, 2 => do
    let scale ← scaleOf (bitsOf m 3 3)
    let t ← ITy.ofCode (bitsOf m 0 3)
    guard (t == .i64 || t == .n64)
    guard (m == scale.val * 8 + t.code)
    some (some fun o => .lea scale t (BitVec.ofNat 24 imm) o)
  | 0x12, 3 => do
    let t ← ITy.ofCode (bitsOf m 0 3)
    guard (m == t.code)
    some (some fun o => .mov t o)
  | 0x12, 4 => do
    let t ← ITy.ofCode (bitsOf m 0 3)
    guard (t == .i64 || t == .n64)
    guard (m == t.code)
    some (some fun o => .movi t o)
  | 0x12, 5 => do
    let sat := bitOf m 6
    let sty ← ITy.ofCode (bitsOf m 3 3)
    let t ← ITy.ofCode (bitsOf m 0 3)
    guard (m == b2n sat * 64 + sty.code * 8 + t.code)
    some (some fun o => .cvti sat sty t o)
  | 0x14, 0 => do
    let mode ← ShMode.ofCode (bitsOf m 3 2)
    let seg ← Seg.ofCode (bitsOf m 5 3)
    let t ← ITy.ofCode (bitsOf m 0 3)
    guard (t == .i32 || t == .n32 || t == .i64 || t == .n64)
    guard (m == mode.code * 8 + seg.code * 32 + t.code)
    some (some fun o => .shfl mode seg t o)
  | 0x14, 1 => do
    let mode ← VMode.ofCode (bitsOf m 3 2)
    guard (m == mode.code * 8)
    some (some fun o => .vote mode o)
  | 0x14, 2 => do
    guard (m == 0)
    some (some fun o => .ballot o)
  | 0x14, 3 => do
    let op ← RedOp.ofCode (bitsOf m 3 3)
    let t ← ITy.ofCode (bitsOf m 0 3)
    guard (m == op.code * 8 + t.code)
    some (some fun o => .redux op t o)
  | 0x14, 4 => do
    let op ← RedOp.ofCode (bitsOf m 3 3)
    let excl := bitOf m 6
    let t ← ITy.ofCode (bitsOf m 0 3)
    guard (m == op.code * 8 + b2n excl * 64 + t.code)
    some (some fun o => .scan op excl t o)
  | 0x14, 5 => do
    let t ← ITy.ofCode (bitsOf m 0 3)
    guard (m == t.code)
    some (some fun o => .matchL t o)
  | 0x14, 6 => do
    let t ← ITy.ofCode (bitsOf m 0 3)
    guard (t == .i32 || t == .n32 || t == .i64 || t == .n64)
    guard (m == t.code)
    some (some fun o => .rdlane t o)
  | 0x14, 7 => do
    let t ← ITy.ofCode (bitsOf m 0 3)
    guard (t == .i32 || t == .n32 || t == .i64 || t == .n64)
    guard (m == t.code)
    some (some fun o => .wrlane t o)
  | 0x20, 0 => do
    let rm ← Rm.ofCode (bitsOf m 3 2)
    let f ← FTy.ofCode (bitsOf m 0 3)
    guard (m == rm.code * 8 + f.code)
    some (some fun o => .fadd rm f o)
  | 0x20, 1 => do
    let rm ← Rm.ofCode (bitsOf m 3 2)
    let f ← FTy.ofCode (bitsOf m 0 3)
    guard (m == rm.code * 8 + f.code)
    some (some fun o => .fsub rm f o)
  | 0x20, 2 => do
    let rm ← Rm.ofCode (bitsOf m 3 2)
    let f ← FTy.ofCode (bitsOf m 0 3)
    guard (m == rm.code * 8 + f.code)
    some (some fun o => .fmul rm f o)
  | 0x20, 3 => do
    let rm ← Rm.ofCode (bitsOf m 3 2)
    let f ← FTy.ofCode (bitsOf m 0 3)
    guard (m == rm.code * 8 + f.code)
    some (some fun o => .ffma rm f o)
  | 0x20, 4 => do
    let prop := bitOf m 5
    let f ← FTy.ofCode (bitsOf m 0 3)
    guard (m == b2n prop * 32 + f.code)
    some (some fun o => .fmin prop f o)
  | 0x20, 5 => do
    let prop := bitOf m 5
    let f ← FTy.ofCode (bitsOf m 0 3)
    guard (m == b2n prop * 32 + f.code)
    some (some fun o => .fmax prop f o)
  | 0x20, 6 => do
    let cc ← FCc.ofCode (bitsOf m 5 3)
    let sig := bitOf m 8
    let f ← FTy.ofCode (bitsOf m 0 3)
    guard (m == cc.code * 32 + b2n sig * 256 + f.code)
    some (some fun o => .fcmp cc sig f o)
  | 0x20, 7 => do
    let f ← FTy.ofCode (bitsOf m 0 3)
    guard (m == f.code)
    some (some fun o => .fclass f o)
  | 0x20, 8 => do
    let rm ← Rm.ofCode (bitsOf m 3 2)
    let f ← FTy.ofCode (bitsOf m 0 3)
    guard (m == rm.code * 8 + f.code)
    some (some fun o => .fscale rm f o)
  | 0x20, 9 => do
    let rm ← Rm.ofCode (bitsOf m 3 2)
    let f ← FTy.ofCode (bitsOf m 0 3)
    guard (m == rm.code * 8 + f.code)
    some (some fun o => .frnd rm f o)
  | 0x21, 0 => do
    let rm ← Rm.ofCode (bitsOf m 3 2)
    let f ← FTy.ofCode (bitsOf m 0 3)
    guard (m == rm.code * 8 + f.code)
    some (some fun o => .frcp rm f o)
  | 0x21, 1 => do
    let rm ← Rm.ofCode (bitsOf m 3 2)
    let f ← FTy.ofCode (bitsOf m 0 3)
    guard (m == rm.code * 8 + f.code)
    some (some fun o => .frsq rm f o)
  | 0x21, 2 => do
    let rm ← Rm.ofCode (bitsOf m 3 2)
    let f ← FTy.ofCode (bitsOf m 0 3)
    guard (m == rm.code * 8 + f.code)
    some (some fun o => .fsqrt rm f o)
  | 0x21, 3 => do
    let rm ← Rm.ofCode (bitsOf m 3 2)
    let f ← FTy.ofCode (bitsOf m 0 3)
    guard (m == rm.code * 8 + f.code)
    some (some fun o => .fdiv rm f o)
  | 0x21, 4 => do
    let f ← FTy.ofCode (bitsOf m 0 3)
    guard (m == f.code)
    some (some fun o => .fexp2 f o)
  | 0x21, 5 => do
    let f ← FTy.ofCode (bitsOf m 0 3)
    guard (m == f.code)
    some (some fun o => .flog2 f o)
  | 0x21, 6 => do
    let f ← FTy.ofCode (bitsOf m 0 3)
    guard (m == f.code)
    some (some fun o => .fsin f o)
  | 0x21, 7 => do
    let f ← FTy.ofCode (bitsOf m 0 3)
    guard (m == f.code)
    some (some fun o => .fcos f o)
  | 0x21, 8 => do
    let f ← FTy.ofCode (bitsOf m 0 3)
    guard (m == f.code)
    some (some fun o => .ftanh f o)
  | 0x22, 0 => do
    let rm ← Rm.ofCode (bitsOf m 3 2)
    let f ← FTy.ofCode (bitsOf m 0 3)
    guard (f != .f32)
    guard (m == rm.code * 8 + f.code)
    some (some fun o => .hadd2 rm f o)
  | 0x22, 1 => do
    let rm ← Rm.ofCode (bitsOf m 3 2)
    let f ← FTy.ofCode (bitsOf m 0 3)
    guard (f != .f32)
    guard (m == rm.code * 8 + f.code)
    some (some fun o => .hmul2 rm f o)
  | 0x22, 2 => do
    let rm ← Rm.ofCode (bitsOf m 3 2)
    let f ← FTy.ofCode (bitsOf m 0 3)
    guard (f != .f32)
    guard (m == rm.code * 8 + f.code)
    some (some fun o => .hfma2 rm f o)
  | 0x22, 3 => do
    let prop := bitOf m 5
    let f ← FTy.ofCode (bitsOf m 0 3)
    guard (f != .f32)
    guard (m == b2n prop * 32 + f.code)
    some (some fun o => .hmin2 prop f o)
  | 0x22, 4 => do
    let prop := bitOf m 5
    let f ← FTy.ofCode (bitsOf m 0 3)
    guard (f != .f32)
    guard (m == b2n prop * 32 + f.code)
    some (some fun o => .hmax2 prop f o)
  | 0x23, 0 => do
    let rm ← Rm.ofCode (bitsOf m 3 2)
    let sf ← FTy.ofCode (bitsOf m 5 3)
    let f ← FTy.ofCode (bitsOf m 0 3)
    guard (sf != f && (f != .f32 || rm == .rne))
    guard (m == rm.code * 8 + sf.code * 32 + f.code)
    some (some fun o => .cvt rm sf f o)
  | 0x23, 1 => do
    let rm ← Rm.ofCode (bitsOf m 3 2)
    let ty ← ITy.ofCode (bitsOf m 5 3)
    let f ← FTy.ofCode (bitsOf m 0 3)
    guard (m == rm.code * 8 + ty.code * 32 + f.code)
    some (some fun o => .cvtfi rm ty f o)
  | 0x23, 2 => do
    let rm ← Rm.ofCode (bitsOf m 3 2)
    let ty ← ITy.ofCode (bitsOf m 5 3)
    let f ← FTy.ofCode (bitsOf m 0 3)
    guard (m == rm.code * 8 + ty.code * 32 + f.code)
    some (some fun o => .cvtif rm ty f o)
  | 0x23, 3 => do
    let au := bitOf m 5
    let bu := bitOf m 6
    let sat := bitOf m 7
    guard (m == b2n au * 32 + b2n bu * 64 + b2n sat * 128)
    some (some fun o => .dot4 au bu sat o)
  | 0x23, 4 => do
    let rm ← Rm.ofCode (bitsOf m 3 2)
    let f ← FTy.ofCode (bitsOf m 0 3)
    guard (f != .f32)
    guard (m == rm.code * 8 + f.code)
    some (some fun o => .dot2 rm f o)
  | 0x24, 0 => do
    guard (m == 0)
    some (some fun o => .setfmt o)
  | 0x24, 1 => do
    guard (m == 0)
    some (some fun o => .getfmt o)
  | 0x24, 2 => do
    guard (m == 0)
    some (some fun o => .jbexp o)
  | 0x24, 3 => do
    guard (m == 0)
    some (some fun o => .jbpack o)
  | 0x24, 4 => do
    guard (m == 0)
    some (some fun o => .jbunpack o)
  | 0x24, 5 => do
    guard (m == 0)
    some (some fun o => .rdflags o)
  | 0x24, 6 => do
    guard (m == 0)
    some (some fun o => .clrflags o)
  | 0x30, 0 => do
    let hint ← Hint.ofCode (bitsOf m 8 2)
    let ord ← Ord.ofCode (bitsOf m 6 2)
    let sc ← Scope.ofCode (bitsOf m 3 3)
    let sz ← Size.ofCode (bitsOf m 0 3)
    guard (ord == .plain || ord == .acq)
    guard (sc != .ab)
    guard (m == hint.code * 256 + ord.code * 64 + sc.code * 8 + sz.code)
    some (if bitsOf imm 20 4 == 0 then (idxOf imm).map fun x => fun o => .ld hint ord sc sz x o else none)
  | 0x30, 1 => do
    let hint ← Hint.ofCode (bitsOf m 8 2)
    let ord ← Ord.ofCode (bitsOf m 6 2)
    let sc ← Scope.ofCode (bitsOf m 3 3)
    let sz ← Size.ofCode (bitsOf m 0 3)
    guard (ord == .plain || ord == .rel)
    guard (sc != .ab)
    guard (m == hint.code * 256 + ord.code * 64 + sc.code * 8 + sz.code)
    some (if bitsOf imm 20 4 == 0 then (idxOf imm).map fun x => fun o => .st hint ord sc sz x o else none)
  | 0x30, 2 => do
    let hint ← Hint.ofCode (bitsOf m 8 2)
    guard (m == hint.code * 256)
    some (do
      let x ← idxOf imm
      match bitsOf imm 20 4 with
      | 0 => some fun o => .prefetch hint x o
      | 1 => some fun o => .prefetchL2 hint x o
      | _ => none)
  | 0x30, 3 => do
    guard (m == 0)
    some (do
      let x ← idxOf imm
      match bitsOf imm 20 4 with
      | 0 => some fun o => .cctlWb x o
      | 1 => some fun o => .cctlWbinv x o
      | 2 => some fun o => .cctlDemoteEf x o
      | 3 => some fun o => .cctlDemote x o
      | 4 => some fun o => .cctlSettag x o
      | _ => none)
  | 0x30, 4 => do
    let ord ← Ord.ofCode (bitsOf m 6 2)
    let sc ← Scope.ofCode (bitsOf m 3 3)
    let sz ← Size.ofCode (bitsOf m 0 3)
    guard (ord == .plain || ord == .acq)
    guard (sc != .ab)
    guard (sz == .n32 || sz == .n64)
    guard (m == ord.code * 64 + sc.code * 8 + sz.code)
    some (if bitsOf imm 20 4 == 0 then (idxOf imm).map fun x => fun o => .mwait ord sc sz x o else none)
  | 0x30, 5 => do
    let ord ← Ord.ofCode (bitsOf m 6 2)
    let sc ← Scope.ofCode (bitsOf m 3 3)
    guard (sc != .ab)
    guard (m == ord.code * 64 + sc.code * 8)
    some (some fun o => .fence ord sc o)
  | 0x31, 0 => do
    let sz ← Size.ofCode (bitsOf m 0 3)
    guard (m == sz.code)
    some (if bitsOf imm 20 4 == 0 then (idxOf imm).map fun x => fun o => .lds sz x o else none)
  | 0x31, 1 => do
    let sz ← Size.ofCode (bitsOf m 0 3)
    guard (m == sz.code)
    some (if bitsOf imm 20 4 == 0 then (idxOf imm).map fun x => fun o => .sts sz x o else none)
  | 0x31, 2 => do
    let sz ← Size.ofCode (bitsOf m 0 3)
    guard (sz == .n32 || sz == .n64 || sz == .b128)
    guard (m == sz.code)
    some (if bitsOf imm 20 4 == 0 then (idxOf imm).map fun x => fun o => .ldacc sz x o else none)
  | 0x31, 3 => do
    let sz ← Size.ofCode (bitsOf m 0 3)
    guard (sz == .n32 || sz == .n64 || sz == .b128)
    guard (m == sz.code)
    some (if bitsOf imm 20 4 == 0 then (idxOf imm).map fun x => fun o => .stacc sz x o else none)
  | 0x31, 4 => do
    let sz ← Size.ofCode (bitsOf m 0 3)
    guard (m == sz.code)
    some (if bitsOf imm 20 4 == 0 then (idxOf imm).map fun x => fun o => .ldc sz x o else none)
  | 0x32, 0 => do
    let hint ← Hint.ofCode (bitsOf m 8 2)
    let ord ← Ord.ofCode (bitsOf m 6 2)
    let sc ← Scope.ofCode (bitsOf m 3 3)
    let sz ← Size.ofCode (bitsOf m 0 3)
    guard (sc != .ab || hint == .normal)
    guard (sz == .n32 || sz == .n64)
    guard (m == hint.code * 256 + ord.code * 64 + sc.code * 8 + sz.code)
    some (do let op ← AOp.ofCode (bitsOf imm 20 4); let x ← idxOf imm; some fun o => .atom op hint ord sc sz x o)
  | 0x32, 1 => do
    let hint ← Hint.ofCode (bitsOf m 8 2)
    let ord ← Ord.ofCode (bitsOf m 6 2)
    let sc ← Scope.ofCode (bitsOf m 3 3)
    let sz ← Size.ofCode (bitsOf m 0 3)
    guard (sc != .ab || hint == .normal)
    guard (sz == .n32 || sz == .n64 || sz == .b128)
    guard (m == hint.code * 256 + ord.code * 64 + sc.code * 8 + sz.code)
    some (if bitsOf imm 20 4 == 0 then (idxOf imm).map fun x => fun o => .cas hint ord sc sz x o else none)
  | 0x33, 0 => do
    let hint ← Hint.ofCode (bitsOf m 8 2)
    let ord ← Ord.ofCode (bitsOf m 6 2)
    let sc ← Scope.ofCode (bitsOf m 3 3)
    let sz ← Size.ofCode (bitsOf m 0 3)
    guard (ord == .plain || ord == .rel)
    guard (sc != .ab || hint == .normal)
    guard (sz == .n32 || sz == .n64)
    guard (m == hint.code * 256 + ord.code * 64 + sc.code * 8 + sz.code)
    some (do let op ← AOp.ofCode (bitsOf imm 20 4); let x ← idxOf imm; some fun o => .red op hint ord sc sz x o)
  | 0x34, 0 => do
    let hint ← Hint.ofCode (bitsOf m 8 2)
    let sz ← Size.ofCode (bitsOf m 0 3)
    guard (sz == .n32 || sz == .n64 || sz == .b128)
    guard (m == hint.code * 256 + sz.code)
    some (do
      let x ← idxOf imm
      match bitsOf imm 20 4 with
      | 0 => some fun o => .cpl hint sz x o
      | 1 => some fun o => .cplOut hint sz x o
      | _ => none)
  | 0x34, 1 => do
    guard (m == 0)
    some (some fun o => .cpclose o)
  | 0x34, 2 => do
    guard (m == 0)
    some (some fun o => .cpwait o)
  | 0x35, 0 => do
    let hint ← Hint.ofCode (bitsOf m 8 2)
    guard (m == hint.code * 256)
    some (if imm == 0 then some (fun o => .cptAb hint o) else if imm == 0x100000 then some (fun o => .cptWb hint o) else none)
  | 0x35, 1 => do
    let hint ← Hint.ofCode (bitsOf m 8 2)
    guard (m == hint.code * 256)
    some (if imm == 0 then some (fun o => .cpts hint o) else none)
  | 0x35, 2 => do
    let hint ← Hint.ofCode (bitsOf m 8 2)
    guard (m == hint.code * 256)
    some (if imm == 0 then some (fun o => .cpta hint o) else none)
  | 0x35, 3 => do
    guard (m == 0)
    some (some fun o => .tlwait o)
  | 0x35, 4 => do
    guard (m == 0)
    some (if a == 0x200 then some (fun o => .tlreadDone o) else if a == 0x201 then some (fun o => .tlreadIss o) else none)
  | 0x36, 0 => do
    let sc ← Scope.ofCode (bitsOf m 3 3)
    guard (sc == .die || sc == .pkg || sc == .sys)
    guard (m == sc.code * 8 + 131)
    some (do
      let x ← idxOf imm
      match bitsOf imm 20 4 with
      | 0 => some fun o => .psigSet sc x o
      | 1 => some fun o => .psigAdd sc x o
      | _ => none)
  | 0x40, 0 => do
    let n := BitVec.ofNat 4 (bitsOf m 6 4)
    guard (m == n.toNat * 64)
    some (some fun o => .binit n o)
  | 0x40, 1 => do
    let n := BitVec.ofNat 4 (bitsOf m 6 4)
    guard (m == n.toNat * 64)
    some (some fun o => .barv n o)
  | 0x40, 2 => do
    let n := BitVec.ofNat 4 (bitsOf m 6 4)
    guard (m == n.toNat * 64)
    some (some fun o => .bwait n o)
  | 0x40, 3 => do
    let n := BitVec.ofNat 4 (bitsOf m 6 4)
    guard (m == n.toNat * 64)
    some (some fun o => .bsync n o)
  | 0x40, 4 => do
    let n := BitVec.ofNat 4 (bitsOf m 6 4)
    guard (m == n.toNat * 64)
    some (some fun o => .bdrop n o)
  | 0x40, 5 => do
    guard (m == 0)
    some (some fun o => .gbar o)
  | 0x40, 6 => do
    let n := BitVec.ofNat 4 (bitsOf m 6 4)
    let k := BitVec.ofNat 2 (bitsOf m 0 2)
    guard (m == n.toNat * 64 + k.toNat)
    some (some fun o => .bstat n k o)
  | 0x41, 0 => do
    let n := BitVec.ofNat 4 (bitsOf m 6 4)
    guard (m == n.toNat * 64)
    some (some fun o => .qinit n o)
  | 0x41, 1 => do
    let n := BitVec.ofNat 4 (bitsOf m 6 4)
    guard (m == n.toNat * 64)
    some (some fun o => .qpush n o)
  | 0x41, 2 => do
    let n := BitVec.ofNat 4 (bitsOf m 6 4)
    guard (m == n.toNat * 64)
    some (some fun o => .qpop n o)
  | 0x41, 3 => do
    let n := BitVec.ofNat 4 (bitsOf m 6 4)
    guard (m == n.toNat * 64)
    some (some fun o => .qtry n o)
  | 0x41, 4 => do
    let n := BitVec.ofNat 4 (bitsOf m 6 4)
    guard (m == n.toNat * 64)
    some (some fun o => .qclose n o)
  | 0x42, 0 => do
    let cond ← SigCond.ofCode (bitsOf m 7 3)
    let sc ← Scope.ofCode (bitsOf m 3 3)
    let sz ← Size.ofCode (bitsOf m 0 3)
    guard (sc != .wv && sc != .ab)
    guard (sz == .n32 || sz == .n64)
    guard (m == cond.code * 128 + sc.code * 8 + sz.code)
    some (if bitsOf imm 20 4 == 0 then (idxOf imm).map fun x => fun o => .sigwait cond sc sz x o else none)
  | 0x42, 1 => do
    let op ← SigOp.ofCode (bitsOf m 7 3)
    let sc ← Scope.ofCode (bitsOf m 3 3)
    let sz ← Size.ofCode (bitsOf m 0 3)
    guard (sc == .blk || sc == .cl || sc == .die)
    guard (sz == .n32 || sz == .n64)
    guard (m == op.code * 128 + sc.code * 8 + sz.code)
    some (if bitsOf imm 20 4 == 0 then (idxOf imm).map fun x => fun o => .signal op sc sz x o else none)
  | 0x43, 0 => do
    let sc ← Scope.ofCode (bitsOf m 3 3)
    guard (sc != .wv && sc != .ab)
    guard (m == sc.code * 8)
    some (some fun o => .rgres sc o)
  | 0x43, 1 => do
    let sc ← Scope.ofCode (bitsOf m 3 3)
    guard (sc != .wv && sc != .ab)
    guard (m == sc.code * 8)
    some (some fun o => .rgcmt sc o)
  | 0x43, 2 => do
    let sc ← Scope.ofCode (bitsOf m 3 3)
    guard (sc != .wv && sc != .ab)
    guard (m == sc.code * 8)
    some (some fun o => .rgpop sc o)
  | 0x43, 3 => do
    let sc ← Scope.ofCode (bitsOf m 3 3)
    guard (sc != .wv && sc != .ab)
    guard (m == sc.code * 8)
    some (some fun o => .rgfree sc o)
  | 0x44, 0 => do
    let regblk := BitVec.ofNat 4 (bitsOf m 6 4)
    let abclass := BitVec.ofNat 3 (bitsOf m 0 3)
    guard (m == regblk.toNat * 64 + abclass.toNat)
    some (some fun o => .spawn regblk abclass (BitVec.ofNat 24 imm) o)
  | 0x44, 1 =>
    (do let sc ← Scope.ofCode (bitsOf m 3 3); guard (sc != .wv && sc != .ab); guard (m == sc.code * 8); some (some fun o => .rbsurrHold sc o))
    <|> (do let sc ← Scope.ofCode (bitsOf m 3 3); guard (sc != .wv && sc != .ab); guard (m == sc.code * 8 + 64); some (some fun o => .rbsurrSkip sc o))
  | 0x44, 2 => do
    let sc ← Scope.ofCode (bitsOf m 3 3)
    guard (sc != .wv && sc != .ab)
    guard (m == sc.code * 8)
    some (some fun o => .rbclaim sc o)
  | 0x50, 0 => do
    guard (m == 0)
    some (some fun o => .mzero o)
  | 0x50, 1 => do
    let z := bitOf m 3
    let f ← MFmt.ofCode (bitsOf m 0 3)
    guard (m == b2n z * 8 + f.code)
    guard (imm < 16)
    some (some fun o => .mma z f (BitVec.ofNat 4 imm) o)
  | 0x50, 2 => do
    let z := bitOf m 3
    let f ← MFmt.ofCode (bitsOf m 0 3)
    guard (m == b2n z * 8 + f.code)
    guard (imm < 16)
    some (some fun o => .mmas z f (BitVec.ofNat 4 imm) o)
  | 0x50, 3 => do
    let rm ← Rm.ofCode (bitsOf m 3 2)
    let f ← MFmt.ofCode (bitsOf m 0 3)
    guard (m == rm.code * 8 + f.code)
    some (some fun o => .mcvt rm f o)
  | 0x50, 4 => do
    guard (m == 0)
    some (some fun o => .madd o)
  | 0x51, 0 => do
    let n := BitVec.ofNat 4 (bitsOf m 6 4)
    guard (m == n.toNat * 64)
    some (some fun o => .marv n o)
  | 0x51, 1 => do
    let n := BitVec.ofNat 4 (bitsOf m 6 4)
    guard (m == n.toNat * 64)
    some (some fun o => .mwaitb n o)
  | 0x51, 2 => do
    let n := BitVec.ofNat 4 (bitsOf m 6 4)
    guard (m == n.toNat * 64)
    some (some fun o => .mpop n o)
  | 0x51, 3 => do
    let n := BitVec.ofNat 4 (bitsOf m 6 4)
    guard (m == n.toNat * 64)
    some (some fun o => .mpush n o)
  | 0x51, 4 => do
    guard (m == 0)
    some (some fun o => .mloop (BitVec.ofNat 24 imm) o)
  | 0x51, 5 => do
    guard (m == 0)
    some (some fun o => .mjmp (BitVec.ofNat 24 imm) o)
  | 0x51, 6 => do
    guard (m == 0)
    some (some fun o => .mend o)
  | 0x60, 0 => do
    guard (m == 0)
    some (some fun o => .txb (BitVec.ofNat 24 imm) o)
  | 0x60, 1 => do
    guard (m == 0)
    some (some fun o => .txe o)
  | 0x60, 2 => do
    guard (m == 0)
    some (some fun o => .txabt o)
  | 0x60, 3 => do
    let k := BitVec.ofNat 2 (bitsOf m 0 2)
    guard (m == k.toNat)
    some (some fun o => .txst k o)
  | 0x61, 0 => do
    guard (m == 0)
    some (some fun o => .stepb o)
  | 0x61, 1 => do
    guard (m == 0)
    some (some fun o => .stepe o)
  | 0x61, 2 => do
    guard (m == 0)
    some (some fun o => .fgmark o)
  | 0x61, 3 => do
    guard (m == 0)
    some (some fun o => .rngpush o)
  | 0x61, 4 => do
    guard (m == 0)
    some (some fun o => .rngpop o)
  | 0x70, 0 => do
    guard (m == 0)
    some (some fun o => .srd o)
  | 0x70, 1 => do
    guard (m == 0)
    some (some fun o => .swr o)
  | 0x70, 2 => do
    guard (m == 0)
    some (some fun o => .rte o)
  | 0x70, 3 =>
    (do let sz ← PgSz.ofCode (bitsOf m 2 2); guard (m == sz.code * 4); some (some fun o => .tlbiPage sz o))
    <|> (do guard (m == 1); some (some fun o => .tlbiTenant o))
    <|> (do guard (m == 2); some (some fun o => .tlbiAll o))
  | _, _ => none

/-- What the decoder answers: an instruction, or the row of R88 that refuses the word. -/
inductive Decoded
  | instr (i : Instr)
  | illegalOpcode
  | illegalOperand (cls : Cls)
  deriving DecidableEq, Repr

/-- R88 rows 4 and 7, on the word alone. Register counts, the stream and the level are the machine's. -/
def decode (w : IWord) : Decoded :=
  let f := Fields.ofWord w
  if w = 0 ∨ bitOf w.toNat 74 then .illegalOpcode
  else
    match build f.op f.sub f.m (if xkindOf f.op f.sub = .fixed then bitsOf f.x 0 24 else 0) f.a with
    | none => .illegalOpcode
    | some mk =>
      match mk, f.args (xkindOf f.op f.sub) with
      | some g, some o => if (g o).wf then .instr (g o) else .illegalOperand (clsOf f.op f.sub)
      | _, _ => .illegalOperand (clsOf f.op f.sub)

/-- The value X takes from an operand that holds 0x3FF (R76). -/
def Opnd.immBits : Opnd → Nat
  | .immI kd x => kd.toNat * 0x100000000 + x.toNat
  | .immC x => x.toNat
  | _ => 0

/-- The word of an encoded form (R71); none for an event. -/
def encode (i : Instr) : Option IWord := do
  let (op, sub) ← i.opsub
  let o ← i.args
  let im := o.d.immBits + o.a.immBits + o.b.immBits + o.c.immBits
  let x := match xkindOf op sub with
    | .iform => im
    | .cform => o.c.code * 0x1000000 + im
    | .fixed => o.c.code * 0x1000000 + i.imm24
  some (BitVec.ofNat 96 (x + o.b.code * 2 ^ 34 + o.a.code * 2 ^ 44 + o.d.code * 2 ^ 54 + i.mbits * 2 ^ 64
    + b2n o.h.u * 2 ^ 75 + o.h.look.toNat * 2 ^ 76 + o.h.pred.toNat * 2 ^ 80 + b2n o.h.neg * 2 ^ 83
    + sub * 2 ^ 84 + op * 2 ^ 88))

/-- Little-endian bytes as a number (R1). -/
def leNat : List Byte → Nat
  | [] => 0
  | b :: bs => b.toNat + 256 * leNat bs

/-- The low `n` bytes of a number, least significant first (R1). -/
def leBytes : Nat → Nat → List Byte
  | 0, _ => []
  | n + 1, x => BitVec.ofNat 8 x :: leBytes n (x / 256)

/-- The instruction of twelve bytes as memory holds them (R71). -/
def decodeBytes (bs : List Byte) : Decoded := decode (BitVec.ofNat 96 (leNat (bs.take 12)))

/-- The instruction that a table word of `nbits` bits names, its higher bits zero. -/
def decodeTableWord (nbits w : Nat) : Option Instr :=
  match decodeBytes (leBytes 12 (w % 2 ^ nbits)) with
  | .instr i => some i
  | _ => none

end Sys2Proof
end

