-- ==== Sys2Proof/Machine/State.lean ====
section
/-! DEFINITION. The state of the package: every item that the inventories of the spec name (R7, R107 to R109,
R160, R239, R261, R292, R315, R342, R364, R383, R398 to R404) as plain data, and the state after reset. The
fields `path`, `wave`, `block`, `core` and `dom` hold what the next instruction acts on; everything else of the
package stands in the sibling lists beside them, each piece in exactly one place. -/

namespace Sys2Proof.Machine

/-- Why a step can stop. -/
inductive Fault
  /-- Raised by `step` when every domain is down (R405, R409) and nothing is on the agenda: nothing can happen until
  firmware acts. Safe: the package stands still. -/
  | domainDown
  deriving DecidableEq, Repr

/-- Why an instruction has no meaning. -/
inductive Refusal
  /-- Raised by `exec` for an instruction the model gives no meaning. Safe: nothing is claimed of it. -/
  | notModelled (mnemonic : String)
  deriving DecidableEq, Repr

/-- R384: the trap causes. -/
inductive Cause
  | illegalOpcode | illegalOperand | priv | mstream | lookahead | illegalPc | bundleCheck | pageFault
  | protection | tagMismatch | keyAlias | misaligned | atomicUnsupported | atomicResultLost | remoteError
  | staleHandle | badTensor | bufferRange | brxRange | reconMismatch | callDepth | barOver | barCount
  | queueClosed | spawnDepth | rblock | claspWait | trapInsn | bkpt | step | uncorrectable
  deriving DecidableEq, Repr

/-- R349: the causes of a Clasp abort. -/
inductive TxCause
  | conflict | rdovf | wrovf | nolog | explicit | wait | fault | remote | reduction
  deriving DecidableEq, Repr

/-- A register that a lookahead window protects (R81) or a Locket entry leaves pending (R83). -/
inductive Reg
  | v (n : Nat) | s (n : Nat) | q (n : Nat)
  deriving DecidableEq, Repr

/-- R81: an open lookahead window: the PC of its instruction, the destination set, the issues left, and
whether it was open when the path set its flashback point (R83). -/
structure Window where
  pc : W64
  dest : List Reg
  left : Nat
  old : Bool
  deriving DecidableEq, Repr

/-- R264, R265: an entry of a reconvergence stack, with its spill slot when it does not stand on core. -/
structure RecEntry where
  call : Bool
  mask : W64
  pc : W64
  etag : BitVec 16
  fmts : BitVec 4
  slot : Option Nat := none
  deriving DecidableEq, Repr

/-- R264: a join-table record. -/
structure JoinRec where
  etag : BitVec 16
  mask : W64
  arrived : W64
  expired : Bool
  deriving DecidableEq, Repr

/-- R390: a flashback point. -/
structure FbPoint where
  pc : W64
  recipe : W64
  vN : Option (BitVec 8)
  sM : Option (BitVec 7)
  fmt : W32
  depth : Nat
  deriving DecidableEq, Repr

/-- R342: a region record, and whether the path is the serial lane's, or holds lanes that aborted (R351). -/
structure Region where
  begin : W64
  stop : W64
  depth : Nat
  serial : Bool
  aborted : Bool
  deriving DecidableEq, Repr

/-- R183: a posted operation that has not been acknowledged: its lanes with their addresses, its PC, the
sector of its virtual address and its outcome, and the names of its physical sector. -/
structure Posted where
  lanes : List (Nat × W64)
  pc : W64
  sector : Nat
  cause : Option Cause
  phys : List Nat := []
  deriving DecidableEq, Repr

/-- What a path or a stream waits for. -/
inductive Wait
  /-- R302, R334: phase `p` of block barrier `n`; `d` is the destination. -/
  | barrier (n : Nat) (p : W32) (d : Opnd)
  /-- R307: phase `p` of gang `g`. -/
  | gang (g : Nat) (p : W32) (d : Opnd)
  /-- R247, R248: a push of `x`, a pop. -/
  | push (n : Nat) (x : W64)
  | pop (n : Nat) (d : Opnd)
  /-- R309: the word at `va` meets the condition. -/
  | sig (va : W64) (sz : Size) (c : SigCond) (x : W64) (sc : Scope) (d : Opnd)
  /-- R186: the sectors at these lanes' addresses. -/
  | mon (lanes : List (Nat × W64)) (sz : Size) (ord : Ord) (sc : Scope) (d : Opnd)
  /-- R198, R190: DONE, the last completed batch. -/
  | timeline (n : Nat)
  | batch (n : Nat)
  /-- R266, R275: the join of ETAG `e`; a `wsync` over `w`. -/
  | join (e : BitVec 16)
  | wsync (w : W64) (d : Opnd)
  /-- R389: another path of the wave stands at PRIV 1. -/
  | superv
  /-- R189, R191, R249, R343: room for a ninth batch, in the copy queue, in the Locket, for a lane log. -/
  | batchRoom | copyRoom | locketRoom
  | laneLog (lanes : W64)
  /-- R354: the domain's Clasp token. -/
  | token (lanes : W64)
  /-- R396: the invalidation with this number. -/
  | inval (n : Nat)
  /-- R431: the copy context is not idle. -/
  | copyIdle
  /-- R270: the wave's last lanes wait for its Locket (log 15). -/
  | drain
  /-- R222: a release, a commit or an arrival that stands behind older Locket entries. -/
  | older
  /-- R344: a transactional read meets a sector that the serial lane holds. -/
  | bounced
  /-- R174, R183: value-returning accesses to another domain bounced; their errors stay precise. -/
  | held (tags : List Nat)
  /-- R220, R420: the access of the path's instruction bounced whole: it performs when these entries have been reissued. -/
  | reissue (tags : List Nat)
  /-- R83: bounced instructions with open windows complete before the handler's first instruction. -/
  | windows (tags : List Nat)
  /-- R15, R183, R346: the path tries its instruction, or its fetch, again when these entries have been reissued. -/
  | retry (tags : List Nat)
  /-- R346, R361: the lanes that are still to commit, and those that have committed. -/
  | commit (todo ok : W64) (d : Opnd)
  deriving DecidableEq, Repr

/-- What a path is doing. -/
inductive PStat
  | running
  | waiting (w : Wait)
  /-- R385: parked under this identifier. -/
  | parked (id : W32)
  /-- R392: rewound to its flashback point; it stands there until its block has been saved and placed again. -/
  | rewound
  deriving DecidableEq, Repr

/-- R220: what an access that bounced whole keeps for the path that makes it again: the s registers, once its instruction has issued,
the token, and the program-order tags of its entries, by sector. -/
structure Kept where
  regs : Option (SMap 64)
  token : W64
  tags : List (Nat × Nat)
  deriving DecidableEq, Repr

/-- R109, R383: a path. -/
structure Path where
  pid : Nat
  pc : W64
  mask : W64
  stack : List RecEntry
  fmt : W32
  flags : W32
  age : Nat
  aged : Nat
  joinTimer : Nat
  fb : Option FbPoint
  token : W64
  e : W64
  stepid : W32
  stepStart : BitVec 26
  drop : Bool
  ranges : List W32
  windows : List Window
  txdepth : Nat
  region : Option Region
  trapcause : W32
  trappc : W64
  trapmask : W64
  priv : Bool
  /-- R389: how long the path has stood at PRIV 1, in units of 2^-24 ns. -/
  privFor : Nat
  hdepth : Nat
  halted : Bool
  stepBit : Bool
  status : PStat
  /-- The wait's start: cycle, floor(E / 2^24) (R372), and the order stamp (log 1). The cycles that a wait has
  counted before an eviction stand in `joinTimer` (R46). -/
  since : Nat
  seg : Nat
  stamp : Nat
  /-- The slot cycle before which the path is not ready (R269). -/
  hold : Nat
  posted : List Posted
  /-- R339: PC and phase of a `bsync` whose completion raised a stream fault: it arrived and does not again. -/
  redo : Option (W64 × W32)
  /-- The word that the front end has fetched and decoded (R88). -/
  ir : Option Instr
  /-- Bounces that the environment imposes on the path's next accesses (BOUNCE; log 8). -/
  forced : Nat
  /-- R420: the access of the instruction at which the path stands has counted and bounced already. -/
  again : Bool := false
  /-- R220: what that access keeps while it is made again. -/
  kept : Option Kept := none
  /-- R111: the s registers as they stood when the instruction issued, in a cycle in which other paths of the wave issue too. -/
  seen : Option (SMap 64) := none
  /-- R111: the s registers that the uniform unit's instruction of that cycle has written. -/
  under : List Nat := []
  /-- R394: the instruction of a DBG_STEP has issued. -/
  stepped : Bool := false
  /-- R226, R250, R265: an UNCORRECTABLE of the Locket area that the path takes at its next instruction. -/
  uncorr : Bool := false
  /-- R111: the s registers that an instruction issued after the one at which the path waits has written. -/
  lost : List Nat := []
  /-- R371: the token of the copy whose completion covered what the path waits for in `tlwait` or `cpwait`. -/
  adopts : Option W64 := none
  deriving DecidableEq, Repr

/-- R203, R220: what a request asks of memory; `again` stands for an access that bounced whole (R420), `write` for one that a
shared lock holds off too. -/
inductive RKind
  | load | store | atom (op : AOp) | cas | red (op : AOp) | psig (add : Bool) | signal (op : SigOp)
  /-- R220: an access that its path makes again, of the kind with this code. -/
  | again (code : Nat) (write : Bool)
  deriving DecidableEq, Repr

/-- One lane's part of a request: lane, virtual address, data, compare value, sequence (R223). -/
structure LaneReq where
  lane : Nat
  va : W64
  val : BitVec 128
  cmp : BitVec 128
  seq : BitVec 16
  /-- R224: the unit has applied the atomic and recorded its tag. -/
  applied : Bool
  /-- R11: the target's domain has begun a reset while the request was in flight. -/
  cut : Bool := false
  deriving DecidableEq, Repr

/-- R220, R249: a request, whole: what is asked, its size and extension, order, scope, hint, the token that
travels, where the result goes, the instruction's PC, the buffer space when it is not global, the level and
the unit of the issuer. -/
structure Req where
  kind : RKind
  sz : Size
  ord : Ord
  sc : Scope
  hint : Hint
  ab : Bool
  user : Bool
  unit : W32
  token : W64
  pc : W64
  d : Opnd
  /-- R72, R203: with U = 1, the lanes that take part in the one access. -/
  share : Option W64
  lanes : List LaneReq
  deriving DecidableEq, Repr

/-- R249: a Locket entry: its program-order tag, the sector, the paths it binds (R222), the request, and its spill slot
when it does not stand on core. -/
structure Entry where
  tag : Nat
  sector : Nat
  paths : List Nat
  req : Req
  parked : Option W32
  slot : Option Nat
  /-- R163: an access to a device page, which keeps its place among its path's. -/
  dev : Bool := false
  /-- R381: how often it has bounced, and the sample to write once it has performed. -/
  bounces : Nat := 1
  sample : Option (List Nat) := none
  /-- R221: the core's cycle of its last bounce, and whether BNCINJ or the environment, and no unit, caused it. -/
  since : Nat := 0
  inj : Bool := false
  deriving DecidableEq, Repr

def Entry.spilled (e : Entry) : Bool := e.slot.isSome

/-- R191, R249: a place in the Locket of a copy context: program-order tag, and spill slot when it is not on core; R221, R420: the
core's cycle of the bounce, and whether BNCINJ caused it. -/
structure CopyLock where
  tag : Nat
  slot : Option Nat
  since : Nat := 0
  inj : Bool := false
  deriving DecidableEq, Repr

/-- R342, R344: one granule of a lane log: virtual and home address, value, and which bytes are written. -/
structure Gran where
  va : W64
  key : Nat
  val : W64
  bytes : BitVec 8
  prio : Nat := 1
  deriving DecidableEq, Repr

/-- R342: a lane log, with the cycle from which R352 measures. -/
structure LaneLog where
  lane : Nat
  rd : List Gran
  wr : List Gran
  since : Nat
  deriving DecidableEq, Repr

/-- R256: a task record. -/
structure Task where
  entry : W64
  arg : W64
  cnt : W64
  launch : W32
  depth : Nat
  regblk : BitVec 4
  abclass : BitVec 3
  serial : W32
  token : W64
  deriving DecidableEq, Repr

/-- R188: a lane-copy element. -/
structure Elem where
  wave : Nat
  batch : Nat
  lane : Nat
  out : Bool
  bytes : Nat
  ga : W64
  ab : W64
  hint : Hint
  pc : W64
  user : Bool
  token : W64
  e : W64
  parked : Option W32
  /-- R420: the access that BNCINJ makes bounce; R191: the element's entry in the context's Locket. -/
  inj : Bool := false
  lock : Option CopyLock := none
  /-- R190, R249: the place of a parked element in its wave's Locket. -/
  place : Option CopyLock := none
  /-- R11: a domain that it reaches has begun a reset while it was in flight. -/
  cut : Bool := false
  deriving DecidableEq, Repr

/-- R190: a failed element. -/
structure ElemFail where
  wave : Nat
  batch : Nat
  lane : Nat
  cause : Cause
  addr : W64
  pc : W64
  deriving DecidableEq, Repr

/-- R192: the tensor-copy forms. -/
inductive CForm
  | ab | wb | scl | acc
  deriving DecidableEq, Repr

/-- R191, R283: a queued tensor-copy operation, with the record as read, the next element to move, and whether a
write of it waits for the matrix engine (R197). `wave` and `user` are the issuer's. -/
structure CopyOp where
  num : Nat
  wave : Nat
  user : Bool
  form : CForm
  off : Nat
  rcd : BitVec 512
  coords : List W64
  hint : Hint
  pc : W64
  next : Nat
  deferred : Bool
  parked : Option W32
  token : W64
  e : W64
  /-- R420, R191, R11: as for an element. -/
  inj : Bool := false
  lock : Option CopyLock := none
  cut : Bool := false
  deriving DecidableEq, Repr

/-- R196, R198: a recorded cause that no `tlwait` has reported. -/
structure CopyFail where
  num : Nat
  cause : Cause
  addr : W64
  deriving DecidableEq, Repr

/-- R191, R431: a block's copy context. -/
structure CopyCtx where
  issued : Nat
  done : Nat
  ahead : List Nat
  ops : List CopyOp
  fails : List CopyFail
  elems : List Elem
  efails : List ElemFail
  /-- R249: the next program-order tag of the context's Locket. -/
  nextTag : Nat := 0
  deriving DecidableEq, Repr

/-- R293: a block barrier. `lmask` is keyed by wave; `lastUnit` names the completing participant (R298). -/
structure Barrier where
  reg : BitVec 33
  arr : BitVec 33
  lmask : SMap 64
  ph : W32
  flg : BitVec 8
  lastflg : BitVec 8
  lasttok : W64
  lastUnit : W32
  penddrop : BitVec 33
  deriving DecidableEq, Repr

/-- R239: an entry of a hardware queue: value, token, producer and its unit identifier. -/
structure QEntry where
  val : W64
  token : W64
  prod : Nat
  unit : W32
  deriving DecidableEq, Repr

/-- R240: a hardware queue; `out` holds the outstanding counts by producer. -/
structure HQueue where
  depth : Nat
  allow : Nat
  closed : Bool
  entries : List QEntry
  out : SMap 8
  deriving DecidableEq, Repr

/-- R315: the status of a matrix stream; `stopping` while a stream that a fault stops lets what it has issued complete
(R338). -/
inductive SStat
  | running | waiting (w : Wait) | parked (id : W32) | stopping (c : Cause) (pc off : W64) | ended | stopped
  deriving DecidableEq, Repr

/-- R338: a stream fault record; `bars` are the barriers whose REG held bit 32 when the stream stopped. -/
structure SFault where
  cause : Cause
  pc : W64
  off : W64
  bars : List Nat
  deriving DecidableEq, Repr

/-- R333: a held arrival: barrier, its `marv`'s PC, how many operations had been issued before it. -/
structure Held where
  bar : Nat
  pc : W64
  after : Nat
  deriving DecidableEq, Repr

/-- R315, R341: a matrix stream. `issuedOps` counts issues, `doneOps` completions; `opFlags` are the pending matrix
flags, each with the number of the operation that raised them (R106). -/
structure Stream where
  pc : W64
  s : SMap 64
  status : SStat
  rcd : Option SFault
  token : W64
  e : W64
  waited : Nat
  since : Nat
  seg : Nat
  stamp : Nat
  held : List Held
  issuedOps : Nat
  doneOps : Nat
  opFlags : List (Nat × BitVec 8)
  /-- The word that the front end has fetched and decoded (R88). -/
  ir : Option Instr
  /-- R239: the sequencer's Locket: the sectors of its bounced requests, at most eight. -/
  locket : List Nat := []
  deriving DecidableEq, Repr

/-- The operations of the matrix engine (R325). -/
inductive MKind
  | mzero | mma (z : Bool) (f : MFmt) | mmas (z : Bool) (f : MFmt) | mcvt (rm : Rm) (f : MFmt) | madd
  deriving DecidableEq, Repr

/-- R319: where an operation stands. -/
inductive MPhase
  | issued | started | consumed
  deriving DecidableEq, Repr

/-- R319: an operation in the engine queue: its block, its number in the stream, its offsets within the
block's allocations, and what it writes once started, as a little-endian number (R323, R329), with its flags. -/
structure MOp where
  blk : Nat
  num : Nat
  kind : MKind
  d : Nat
  a : Nat
  b : Nat
  rs : Nat
  cs : Nat
  ks : Nat
  phase : MPhase
  out : Nat
  flags : BitVec 8
  deriving DecidableEq, Repr

/-- R107, R108, R264, R342, R383: a wave. The lane files are keyed by 256 · lane + register (v) and
8 · lane + register (q); the other lane items by lane. `paths` holds the paths that are not in focus. -/
structure Wave where
  wid : Nat
  width : Nat
  slot : Nat
  octet : Nat
  ctx : Nat
  nregs : Nat
  placed : Nat
  v : SMap 32
  s : SMap 64
  q : SMap 1
  exited : W64
  paths : List Path
  joins : List JoinRec
  nextEtag : BitVec 16
  bncinj : W32
  locket : List Entry
  nextTag : Nat
  batchOpen : Nat
  batchDone : Nat
  trapaddr : SMap 64
  trapinfo : SMap 64
  txcause : SMap 32
  sernext : SMap 1
  run : SMap 3
  seq : SMap 16
  logs : List LaneLog
  spawndepth : Nat
  task : Option Task
  abbase : Nat
  absize : Nat
  deriving DecidableEq, Repr

/-- R45 to R49: the residency of a block. -/
inductive Res
  /-- Not yet placed, or waiting for relaunch after eviction. -/
  | unplaced
  | resident
  /-- R46, R392: the save has started. -/
  | saving
  | evicted
  deriving DecidableEq, Repr

/-- R407: 64 bytes of a buffer (0 AB, 1 WB, 2 ACC, 3 SCL) that hold an uncorrectable error, and which of them have been written since. -/
structure Flaw where
  buf : Nat
  sector : Nat
  wrote : BitVec 64 := 0
  deriving DecidableEq, Repr

/-- R22: a block. `waves` holds the waves that are not in focus; `wake` is the wake word of R47;
`images` keeps the saved buffers while the block is off the core; `endTok` and `endUnit` are what the block's last exit
carried (R306). -/
structure Block where
  id : Nat
  launch : W32
  blockid : W32
  task : Bool
  started : Bool
  core : Nat
  bctx : Nat
  res : Res
  lastCluster : Option Nat
  wake : Bool
  idleSince : Option Nat
  preempt : Option Nat
  bases : List Nat
  sizes : List Nat
  images : List (SMap 8)
  gangs : W64
  bars : List Barrier
  hq : List HQueue
  copy : CopyCtx
  stream : Option Stream
  waves : List Wave
  nextTaskWave : Nat
  endTok : W64
  endUnit : W32
  /-- R48: the FED's local time at which it last read the words that the paths of the block wait for, while it is off its core. -/
  pollAt : Nat := 0
  /-- R407: the flaws that the save has moved with the buffers, by image and by sector of the image. -/
  flaws : List Flaw := []
  deriving DecidableEq, Repr

/-- R313: an event counter. -/
structure Counter where
  ev : PerfEvent
  tenant : Option (BitVec 8)
  val : BitVec 48
  ovf : Bool
  /-- The guest that configured the counter; none for the supervisor queue. -/
  owner : Option (BitVec 8) := none
  deriving DecidableEq, Repr

/-- R368: a run of ring indices that a core has reserved for a launch. -/
structure Run where
  launch : W32
  next : Nat
  stop : Nat
  deriving DecidableEq, Repr

/-- R108, R154, R160, R342: a core. -/
structure Core where
  ix : Nat
  cycles : W64
  nspercyc : W64
  ab : SMap 8
  wb : SMap 8
  acc : SMap 8
  scl : SMap 8
  deque : List Task
  engine : List MOp
  logs : Nat
  runs : List Run
  perf : List Counter
  samples : SMap 32
  abTags : List (BitVec 112 × BitVec 128)
  tenant : Option (BitVec 8)
  flaws : List Flaw := []
  deriving DecidableEq, Repr

/-- R150, R284: a leaf as a TLB holds it. -/
structure Leaf where
  cph : BitVec 2
  tier : BitVec 3
  frame : BitVec 34
  keyid : BitVec 7
  tagen : Bool
  user : Bool
  x : Bool
  w : Bool
  region : BitVec 2
  level : Nat
  dirty : Bool
  deriving DecidableEq, Repr

/-- R286: a translation of a cluster TLB: tenant, virtual page, leaf. -/
structure Trans where
  cluster : Nat
  tenant : BitVec 8
  vpage : Nat
  leaf : Leaf
  deriving DecidableEq, Repr

/-- R367: what an L1 sector carries of the last write to it: a token and its writer, or a plain mark. -/
inductive TokMark
  | none | plain | tok (t : W64) (unit : W32)
  deriving DecidableEq, Repr

/-- R160, R163: a 64-byte sector of a core's L1; `va` is its virtual address over 64. A list of sectors, lines or
bundles stands with the most recently used first. -/
structure L1Sector where
  core : Nat
  key : Nat
  va : W64
  tenant : BitVec 8
  leaf : Leaf
  data : BitVec 512
  dirty : Bool
  prio : BitVec 2
  mark : TokMark
  prefetched : Bool
  /-- R168: the tags of its two granules. -/
  tags : BitVec 8 := 0
  /-- R407: its bytes that have been written here, one bit each. -/
  wrote : BitVec 64 := 0
  /-- R367, R371: the token and the writer that its home slice held when a clean copy took its data. -/
  tok : Option (W64 × W32) := none
  deriving DecidableEq, Repr

/-- R160, R167: a line of a home slice or of a memory-side cache, named by its physical address and so by its key id; with
the tenant that filled it (R404), its priority, and the core whose prefetch filled it (R382). -/
structure CLine where
  line : Nat
  keyid : BitVec 7
  way : Nat
  tenant : BitVec 8
  prio : Nat
  pf : Option Nat
  deriving DecidableEq, Repr

/-- R287: a record of the reverse map. -/
structure RMap where
  cluster : Nat
  page : Nat
  deriving DecidableEq, Repr

/-- R153: a sector of a constant cache. -/
structure CSector where
  core : Nat
  key : Nat
  va : W64
  tenant : BitVec 8
  leaf : Leaf
  data : BitVec 512
  tags : BitVec 8 := 0
  /-- R407: its bytes that have been written here, one bit each. -/
  wrote : BitVec 64 := 0
  deriving DecidableEq, Repr

/-- R85: a fetched bundle. -/
structure ISector where
  cluster : Nat
  tenant : BitVec 8
  va : W64
  leaf : Leaf
  data : BitVec 512
  deriving DecidableEq, Repr

/-- R367: an entry of a slice's token cache. -/
structure TokEntry where
  sector : Nat
  token : W64
  unit : W32
  deriving DecidableEq, Repr

/-- R48: the condition of a `sigwait`: the offset of its word in the sector, its bytes, the comparison and its operand. -/
structure Watch where
  off : Nat
  n : Nat
  cond : SigCond
  val : Nat
  deriving DecidableEq, Repr

/-- R48, R186, R309: an armed monitor: who waits, which sector, whether a write has reached it; of a `sigwait` also its
condition, and whether a write has met it. -/
structure Monitor where
  p : PRef
  sector : Nat
  hit : Bool
  watch : Option Watch := none
  met : Bool := false
  deriving DecidableEq, Repr

/-- R346, R355: a sector lock of the serial lane. -/
structure Lock where
  sector : Nat
  excl : Bool
  deriving DecidableEq, Repr

/-- R354 to R356: the serial lane: its path and lane, when it entered, its undo entries, newest first. -/
structure Serial where
  p : PRef
  lane : Nat
  since : Nat
  undo : List (Nat × W64)
  deriving DecidableEq, Repr

/-- R224: an applied atomic: unit, owner-and-sequence tag, value returned. -/
structure Applied where
  unit : Nat
  tag : BitVec 112
  val : BitVec 128
  deriving DecidableEq, Repr

/-- R386: what is parked. -/
inductive Parked
  | path (p : PRef)
  | entry (b : BRef) (wave : Nat) (tag : Nat)
  | elem (b : BRef) (wave : Nat) (batch : Nat) (lane : Nat)
  | copy (b : BRef) (num : Nat)
  | stream (b : BRef)
  deriving DecidableEq, Repr

/-- R386: a live park and its record; `slot` is where the record stands in the fault queue, once written; `failed` marks
one that FAULT_FAIL has answered while its block was off its core. -/
structure Park where
  id : W32
  what : Parked
  kind : BitVec 4
  va : W64
  pc : W64
  mask : W64
  unit : W32
  tenant : BitVec 8
  slot : Option Nat
  failed : Bool
  /-- The address of each lane of a parked path, for the fault that FAULT_FAIL raises. -/
  addrs : List (Nat × W64) := []
  deriving DecidableEq, Repr

/-- R398: completion statuses. -/
inductive Status
  | ok | badDesc | noFit | gangTable | priv | busy | reset | faulted | hung | badArg
  deriving DecidableEq, Repr

/-- R398: a completion record, with what the read commands return. -/
structure Completion where
  queue : Nat
  seq : W32
  status : Status
  data : List Nat
  deriving DecidableEq, Repr

/-- Interrupts to the host (R38, R386). -/
inductive Intr
  | faultPending | qslotStarved (queue : Nat)
  deriving DecidableEq, Repr

/-- Reports to the host and to firmware (R12, R48, R387, R394, R410). -/
inductive Report
  | hung (launch : W32)
  | faulted (launch : W32) (c : Cause) (pc : W64)
  | uncorrectable (link : Nat)
  /-- R256: a task record failed its check. -/
  | badTask
  | thermal
  | dbgFault (p : PRef) (c : Cause) (ix : Nat)
  deriving DecidableEq, Repr

/-- R306: the state of a gang barrier. `lmask` is keyed by 32 · block + wave. -/
structure Gang where
  members : List Nat
  scope : Scope
  clpl : Bool
  reg : List Nat
  arr : List Nat
  lmask : SMap 64
  ph : W32
  lasttok : W64
  lastUnit : W32
  deriving DecidableEq, Repr

/-- R32, R34, R364: a launch. -/
structure Launch where
  id : W32
  queue : Nat
  seq : W32
  nblocks : Nat
  waves : Nat
  width : Nat
  regblk : Nat
  matrix : Bool
  prio : Nat
  validate : Bool
  linked : Bool
  tenant : BitVec 8
  linkid : BitVec 16
  abu : Nat
  wbu : Nat
  accu : Nat
  sclu : Nat
  args : W64
  entry : W64
  trapentry : W64
  ringbase : W64
  ringlog : Nat
  locketbase : W64
  mentry : W64
  /-- R34: every part of a linked launch has been accepted. -/
  ready : Bool
  firstBlock : Nat
  gangs : List Gang
  table : List (Nat × List Nat)
  ringNext : Nat
  started : Nat
  early : List Nat
  ended : Nat
  dead : Bool
  deriving DecidableEq, Repr

/-- R399: an export slot. -/
structure Export where
  base : W64
  pages : Nat
  read : Bool
  write : Bool
  atomic : Bool
  tenant : BitVec 8
  live : Bool
  gen : BitVec 12
  deriving DecidableEq, Repr

/-- R399: an import entry. -/
structure Import where
  ix : Nat
  handle : W32
  port : Option Nat
  deriving DecidableEq, Repr

/-- R36, R398: a memory queue: priority, pre-emptible, tenant, supervisor mark, validation, commands waiting. -/
structure MQueue where
  num : Nat
  prio : Nat
  preemptible : Bool
  tenant : BitVec 8
  superv : Bool
  validate : Bool
  cmds : Nat
  starved : Bool
  /-- R38: the FED's local time since which its notification has stayed pending while no slot can be freed. -/
  pendSince : Option Nat := none
  deriving DecidableEq, Repr

/-- R288: an invalidation in progress; `cmd` is the queue and SEQ of the host command that made it. -/
structure Inval where
  num : Nat
  r : InvalRange
  cmd : Option (Nat × W32)
  deriving DecidableEq, Repr

/-- R15: a LAUNCH of which a read met a sector held locked: it stands in the Locket of its host queue. -/
structure HostHeld where
  cmd : CmdHdr
  addr : W64
  deriving DecidableEq, Repr

/-- R405, R406: the image that a die without a domain runs: what is measured, its security version, and the version in the die's
fuses. -/
structure Loaded where
  measure : Nat
  version : Nat
  fuse : Nat
  deriving DecidableEq, Repr

/-- R290: a controller's slot table: the table in use, the table to adopt. -/
structure SlotCtl where
  table : List (BitVec 9)
  new : Option (List (BitVec 9))
  deriving DecidableEq, Repr

/-- R15, R346: a write of a unit of the device that met a sector lock: the walker's swap of A, and D, in an entry that read `seen`
(R285); a write of `n` bytes under a leaf, for a core and a tenant; of the trace unit; a bit of the dirty-page buffer (R291). -/
inductive Late
  | ad (addr : Nat) (seen : Nat) (write : Bool)
  | put (core : Nat) (tenant : BitVec 8) (va : W64) (l : Leaf) (n val : Nat)
  | raw (key n val : Nat)
  | bit (addr k : Nat)
  deriving DecidableEq, Repr

/-- R8: a die domain. `blocks` and `cores` hold the blocks and the cores that are not in focus. DESIGN CHOICE (log 125): the memory deque
(R239), to which the spec gives no address, stands beside memory. -/
structure Dom where
  ix : Nat
  up : Bool
  mem : SMap 8
  tags : SMap 4
  keys : SMap 7
  poison : List Nat
  l1 : List L1Sector
  /-- R160: the lines of the home slices and of the memory-side caches; their data is that of `mem` (log 79). -/
  l2 : List CLine
  msc : List CLine
  ccache : List CSector
  icache : List ISector
  tlb : List Trans
  rmap : List RMap
  invals : List Inval
  nextInval : Nat
  tokCache : List TokEntry
  monitors : List Monitor
  locks : List Lock
  applied : List Applied
  ptroot : List (BitVec 8 × Nat)
  ttbase : W64
  ttslots : Nat
  supentry : W64
  supsave : W64
  faultqBase : W64
  fqsize : Nat
  fqnext : Nat
  parks : List Park
  nextPark : W32
  dbg : Bool
  dbgBuffer : List IWord
  dbgPath : Option PRef
  dbgIx : Nat
  serial : Option Serial
  clQueue : List (PRef × Nat)
  serialBase : W64
  dirtySel : Bool
  dirtyBase0 : W64
  dirtyBase1 : W64
  ctl0 : SlotCtl
  ctl1 : SlotCtl
  isolation : Bool
  shares : List TenantShare
  exports : List Export
  /-- R400, R409: the generation of the export slots beyond the list. -/
  genBase : BitVec 12
  imports : List Import
  queues : List MQueue
  slots : List Nat
  pend : List Nat
  lastMapped : SMap 12
  completions : List Completion
  interrupts : List Intr
  reports : List Report
  launches : List Launch
  nextLaunch : W32
  place : List Nat
  nextBlock : Nat
  blocks : List Block
  memDeque : List (BitVec 512)
  nextTask : W32
  slicePerf : List (Nat × Counter)
  trace : Option TraceCfg
  traceCount : W64
  tracePos : Nat
  measure : Nat
  version : Nat
  /-- R405: the security version in the fuses of the domain's die. -/
  fuse : Nat
  /-- R45, R186, R309, R352, R356, R389, R239: what firmware and system software have set. -/
  cfg : DomCfg
  /-- R38: the local time of the domain's FED partition, in units of 2^-24 ns (log 83). -/
  fed : Nat
  /-- R39: for each priority, the queue that was served last, plus one. -/
  served : SMap 13
  /-- R15: the Lockets of the host queues. -/
  hostLocket : List HostHeld := []
  /-- R15, R346: what units of the device would have written where a lock stood: it performs as the lock frees. -/
  late : List Late := []
  /-- R407: how many soft errors have been corrected. -/
  corrected : W64 := 0
  /-- R397: the MSI-X vectors of the domain's virtual function that have been raised (log 103). -/
  msix : BitVec 16 := 0
  cores : List Core
  deriving DecidableEq, Repr

/-- What the focused fields are: nothing but the domain, a path, or a matrix stream. -/
inductive Kind
  | idle | path | stream
  deriving DecidableEq, Repr

/-- A reference to what issues next (log 1). -/
structure Ref where
  p : PRef
  stream : Bool
  /-- R381: its slot samples what it issues. -/
  sample : Bool := false
  deriving DecidableEq, Repr

/-- R7, R12, R401: an Evelm link (log 84): those of the eleven dies with one another, those of the eighteen base dies with
their compute dies, then those of the sixteen fabric ports. -/
structure Link where
  replays : Nat
  down : Bool
  deriving DecidableEq, Repr

/-- R401: a fabric port: the domain it serves, whether it is up. -/
structure Port where
  dom : Nat
  up : Bool
  deriving DecidableEq, Repr

/-- The package. -/
structure State where
  kind : Kind
  path : Path
  wave : Wave
  block : Block
  core : Core
  dom : Dom
  doms : List Dom
  hostMem : SMap 8
  /-- The memory of peer packages, and the tokens of their last writes (R17). -/
  fabricMem : SMap 8
  fabricTok : List TokEntry
  /-- R397: what the last read of device memory by the host returned; none when a sector was poisoned (R407). -/
  hostData : Option (List Byte)
  ports : List Port
  links : List Link
  /-- R402: the interleave table, and the second-tier ports and devices that have failed. -/
  tier2 : Tier2
  tier2down : List Tier2Fail
  /-- R397: CXL IDE is on. -/
  ide : Bool
  /-- R405, R406: the images of the IOD and of the FED. -/
  iod : Loaded
  fedDie : Loaded
  /-- The model's own (log 1): events that are to happen, in order; what issues next; whose turn it is. -/
  agenda : List Instr
  /-- R305: signals of gangs under way over Evelm, with the domain each goes to, oldest first. -/
  sigs : List (Nat × GangSig)
  issueQ : List Ref
  turn : Nat
  /-- The model's own: the counter of free values (log 9) and the stamp of waits (log 1). -/
  fresh : Nat
  now : Nat
  deriving DecidableEq, Repr

/-- R23: a path at the start of its wave: FMT holds JB8 with RNE, everything else 0. -/
def Path.start (pc mask : W64) : Path :=
  { pid := 0, pc := pc, mask := mask, stack := [], fmt := 2, flags := 0, age := 0, aged := 0, joinTimer := 0,
    fb := none, token := 0, e := 0, stepid := 0, stepStart := 0, drop := false, ranges := [], windows := [],
    txdepth := 0, region := none, trapcause := 0, trappc := 0, trapmask := 0, priv := false, privFor := 0,
    hdepth := 0, halted := false, stepBit := false, status := .running, since := 0, seg := 0, stamp := 0,
    hold := 0, posted := [], redo := none, ir := none, forced := 0 }

/-- What stands in the focused field when no path is in focus. -/
def Path.idle : Path := Path.start 0 0

/-- R23: a wave before its paths: every register 0, every predicate false. DESIGN CHOICE (log 4): the first ETAG that it assigns is
1; R264 gives the count no start. -/
def Wave.start (wid width slot octet ctx nregs placed : Nat) : Wave :=
  { wid := wid, width := width, slot := slot, octet := octet, ctx := ctx, nregs := nregs, placed := placed,
    v := [], s := [], q := [], exited := 0, paths := [], joins := [], nextEtag := 1, bncinj := 0,
    locket := [], nextTag := 0, batchOpen := 1, batchDone := 0, trapaddr := [], trapinfo := [],
    txcause := [], sernext := [], run := [], seq := [], logs := [], spawndepth := 0, task := none, abbase := 0,
    absize := 0 }

def Wave.idle : Wave := Wave.start 0 8 0 0 0 8 0

/-- R293: a barrier at block start; `reg` is its REG. -/
def Barrier.start (reg : BitVec 33) : Barrier :=
  { reg := reg, arr := 0, lmask := [], ph := 0, flg := 0, lastflg := 0, lasttok := 0, lastUnit := 0xFF000000,
    penddrop := 0 }

/-- R239: a queue at block start. -/
def HQueue.start : HQueue := { depth := 16, allow := 16, closed := false, entries := [], out := [] }

/-- R191, R292: a copy context at block start. -/
def CopyCtx.start : CopyCtx :=
  { issued := 0, done := 0, ahead := [], ops := [], fails := [], elems := [], efails := [] }

/-- R315: a stream at block start. -/
def Stream.start (pc : W64) : Stream :=
  { pc := pc, s := [], status := .running, rcd := none, token := 0, e := 0, waited := 0, since := 0, seg := 0,
    stamp := 0, held := [], issuedOps := 0, doneOps := 0, opFlags := [], ir := none }

/-- R22: a block that has not been placed. Bases and sizes are those of AB, WB, ACC and SCL, in bytes. -/
def Block.start (id : Nat) (launch blockid : W32) (task : Bool) (waves : Nat) (sizes : List Nat) : Block :=
  { id := id, launch := launch, blockid := blockid, task := task, started := false, core := 0, bctx := 0,
    res := .unplaced, lastCluster := none, wake := false, idleSince := none, preempt := none,
    bases := [0, 0, 0, 0], sizes := sizes, images := [], gangs := 0,
    bars := List.replicate 16 (Barrier.start (if task then 0 else BitVec.ofNat 33 (2 ^ waves - 1))),
    hq := List.replicate 16 HQueue.start, copy := CopyCtx.start, stream := none, waves := [], nextTaskWave := 0,
    endTok := 0, endUnit := 0xFF000000 }

def Block.idle : Block := Block.start 0 0 0 false 1 [0, 0, 0, 0]

/-- R313: a counter that has not been configured. -/
def Counter.zero : Counter := { ev := .none, tenant := none, val := 0, ovf := false }

/-- R108, R154, R342: a core when it leaves reset. NSPERCYC is the nominal clock's (log 5). -/
def Core.reset (ix : Nat) : Core :=
  { ix := ix, cycles := 0, nspercyc := Config.nominalNs, ab := [], wb := [], acc := [], scl := [], deque := [],
    engine := [], logs := 0, runs := [], perf := List.replicate 16 Counter.zero,
    samples := [], abTags := [], tenant := none }

/-- R290: every slot is "any". -/
def SlotCtl.reset : SlotCtl := { table := List.replicate 64 0x100, new := none }

/-- What firmware and system software leave unchanged (log 22). -/
def DomCfg.default : DomCfg :=
  { residency := Config.residencyBound, mwait := Config.mwaitTimeout, poll := Config.pollInterval, serial := Config.serialBound,
    supervisor := Config.supervisorBound, revalidation := Config.revalidation, dequeLog := 16 }

/-- R8: a domain after reset. Registers that system software sets hold 0, or nothing (log 4). -/
def Dom.reset (ix : Nat) : Dom :=
  { ix := ix, up := true, mem := [], tags := [], keys := [], poison := [], l1 := [], l2 := [], msc := [], ccache := [],
    icache := [], tlb := [], rmap := [], invals := [], nextInval := 0, tokCache := [], monitors := [],
    locks := [], applied := [], ptroot := [], ttbase := 0, ttslots := 0, supentry := 0, supsave := 0,
    faultqBase := 0, fqsize := 0, fqnext := 0, parks := [], nextPark := 0, dbg := false,
    dbgBuffer := [], dbgPath := none, dbgIx := 0, serial := none, clQueue := [], serialBase := 0, dirtySel := false, dirtyBase0 := 0,
    dirtyBase1 := 0, ctl0 := SlotCtl.reset, ctl1 := SlotCtl.reset, isolation := false, shares := [],
    exports := [], genBase := 1, imports := [], queues := [], slots := [], pend := [], lastMapped := [], completions := [],
    interrupts := [], reports := [], launches := [], nextLaunch := 0, place := [], nextBlock := 0, blocks := [],
    memDeque := [], nextTask := 0, slicePerf := [], trace := none, traceCount := 0, tracePos := 0,
    measure := 0, version := 0, fuse := 0, cfg := DomCfg.default, fed := 0, served := [], cores := (List.range 96).map Core.reset }

/-- The package right after reset: nine domains, no work anywhere (R7, R21). -/
def State.reset : State :=
  { kind := .idle, path := Path.idle, wave := Wave.idle, block := Block.idle, core := Core.reset 0,
    dom := Dom.reset 0, doms := [Dom.reset 1, Dom.reset 2, Dom.reset 3, Dom.reset 4, Dom.reset 5, Dom.reset 6,
      Dom.reset 7, Dom.reset 8],
    hostMem := [], fabricMem := [], fabricTok := [], hostData := some [], ports := (List.range 16).map fun p => { dom := p % 9, up := true },
    links := List.replicate 89 { replays := 0, down := false }, tier2 := { ports := List.range 8, first := [] }, tier2down := [], ide := false,
    iod := { measure := 0, version := 0, fuse := 0 }, fedDie := { measure := 0, version := 0, fuse := 0 }, agenda := [], sigs := [], issueQ := [],
    turn := 0, fresh := 0, now := 0 }

end Sys2Proof.Machine
end

