-- ==== Sys2Proof/Machine/Map.lean ====
section
/-! DEFINITION. The operations of a finite map in canonical form (strictly rising keys, no zero value), and
the little-endian words that are built from a map of bytes (R1). -/

namespace Sys2Proof.Machine

/-- The value at a key; a key that is not listed reads as zero. -/
def mget {w : Nat} : SMap w → Nat → BitVec w
  | [], _ => 0
  | (k, v) :: m, x => if x = k then v else mget m x

/-- Puts an entry in front of the first larger key. -/
def mins {w : Nat} : SMap w → Nat → BitVec w → SMap w
  | [], x, y => [(x, y)]
  | (k, v) :: m, x, y => if x < k then (x, y) :: (k, v) :: m else (k, v) :: mins m x y

/-- Writes a value; writing zero removes the entry. -/
def mset {w : Nat} (m : SMap w) (x : Nat) (y : BitVec w) : SMap w :=
  let rest := m.filter fun e => e.1 != x
  if y = 0 then rest else mins rest x y

/-- Every key is at least `lo`, the keys rise strictly, and no value is zero. -/
def mwfFrom {w : Nat} : Nat → SMap w → Bool
  | _, [] => true
  | lo, (k, v) :: m => decide (lo ≤ k) && v != 0 && mwfFrom (k + 1) m

/-- The canonical form. -/
def mwf {w : Nat} (m : SMap w) : Bool := mwfFrom 0 m

/-- Removes the keys from `lo` up to, and without, `hi`. -/
def mclear {w : Nat} (m : SMap w) (lo hi : Nat) : SMap w := m.filter fun e => e.1 < lo || hi ≤ e.1

/-- The `n` bytes from `k`, as a little-endian number. -/
def rdN (m : SMap 8) (k : Nat) : Nat → Nat
  | 0 => 0
  | n + 1 => (mget m k).toNat + 256 * rdN m (k + 1) n

/-- Writes the low `n` bytes of a number from `k` on, least significant first. -/
def wrN (m : SMap 8) (k : Nat) : Nat → Nat → SMap 8
  | 0, _ => m
  | n + 1, x => wrN (mset m k (BitVec.ofNat 8 x)) (k + 1) n (x / 256)

/-- The entries of keys `lo` to `hi`, moved so that `lo` becomes 0; and a map put back at `lo`. -/
def mslice {w : Nat} (m : SMap w) (lo hi : Nat) : SMap w :=
  (m.filter fun e => lo ≤ e.1 && e.1 < hi).map fun e => (e.1 - lo, e.2)

def mplace {w : Nat} (m img : SMap w) (lo hi : Nat) : SMap w :=
  img.foldl (fun m e => mset m (lo + e.1) e.2) (mclear m lo hi)

/-- Puts `x` into a list kept in ascending order of `key`, in place of an element of the same key. -/
def insertBy {α : Type} (key : α → Nat) (x : α) : List α → List α
  | [] => [x]
  | y :: l => if key x < key y then x :: y :: l else if key x = key y then x :: l else y :: insertBy key x l

/-- The numbers of a list, each once, ascending. -/
def distinct (l : List Nat) : List Nat := l.foldr (fun b l => insertBy id b l) []

/-- The first element that satisfies `p`, and the others. -/
def takeFirst {α : Type} (p : α → Bool) : List α → Option (α × List α)
  | [] => none
  | x :: l => if p x then some (x, l) else (takeFirst p l).map fun r => (r.1, x :: r.2)

/-- Replaces the elements that satisfy `p`. -/
def updIf {α : Type} (p : α → Bool) (f : α → α) (l : List α) : List α := l.map fun x => if p x then f x else x

/-- The lanes of a mask, ascending; the mask of a list of lanes. -/
def lanesOf (m : W64) : List Nat := (List.range 64).filter fun i => m.getLsbD i

def maskOf (ls : List Nat) : W64 := ls.foldl (fun m l => m ||| (1 : W64) <<< l) 0

/-- The lowest lane of a mask, 64 when it is empty. -/
def lowLane (m : W64) : Nat := (lanesOf m).headD 64

/-- Membership of a lane. -/
def hasLane (m : W64) (l : Nat) : Bool := m.getLsbD l

/-- The number of lanes. -/
def popMask (m : W64) : Nat := (lanesOf m).length

/-- `a` holds every lane of `b`. -/
def covers (a b : W64) : Bool := b &&& ~~~a == 0

/-- Every lane of a wave `w` wide. -/
def fullMask (w : Nat) : W64 := BitVec.ofNat 64 (2 ^ w - 1)

/-- Sign extension of the low `n` bits of a number to 64 bits. -/
def sx (n : Nat) (x : Nat) : W64 := (BitVec.ofNat n x).signExtend 64

/-- Reads the low `n` bits as a signed number. -/
def toInt (n : Nat) (x : Nat) : Int := (BitVec.ofNat n x).toInt

/-- R84: one step of the reflected CRC-32C, and a byte. -/
def crcBit (c : Nat) : Nat := if c % 2 = 1 then (c / 2) ^^^ 0x82F63B78 else c / 2

def crcByte (c : Nat) (b : Nat) : Nat :=
  crcBit (crcBit (crcBit (crcBit (crcBit (crcBit (crcBit (crcBit (c ^^^ b))))))))

/-- The register after the low `n` bytes of a number. -/
def crcFrom : Nat → Nat → Nat → Nat
  | 0, _, c => c
  | n + 1, x, c => crcFrom n (x / 256) (crcByte c (x % 256))

/-- R84: CRC-32C of the low `n` bytes of a little-endian number. -/
def crc32c (n x : Nat) : Nat := crcFrom n x 0xFFFFFFFF ^^^ 0xFFFFFFFF

end Sys2Proof.Machine
end

