-- ==== Sys2Proof/Machine/Focus.lean ====
section
/-! DEFINITION. Moving the focus: the state is one path, its wave, its block, its core and its domain, with
everything else beside them. -/

namespace Sys2Proof.Machine

/-- Puts the focused path back among the paths of its wave; a path without lanes no longer exists. -/
def Wave.withPath (w : Wave) (p : Path) : Wave :=
  if p.mask = 0 then w else { w with paths := insertBy Path.pid p w.paths }

/-- Puts a wave back; a wave all of whose lanes have exited no longer exists (R270). -/
def Block.withWave (b : Block) (w : Wave) : Block :=
  if w.exited = fullMask w.width then b else { b with waves := insertBy Wave.wid w b.waves }

/-- Puts a block and its core back into the domain. -/
def Dom.withBlock (d : Dom) (b : Block) (c : Core) : Dom :=
  { d with blocks := insertBy Block.id b d.blocks,
           cores := if b.res = .resident ∨ b.res = .saving then insertBy Core.ix c d.cores else d.cores }

/-- Takes the block out of the focus. -/
def State.closeBlock (s : State) : State :=
  { s with kind := .idle, path := Path.idle, wave := Wave.idle, block := Block.idle, core := Core.reset 0,
           dom := s.dom.withBlock s.block s.core }

/-- Takes path and wave out of the focus and leaves the block in it. -/
def State.closePath (s : State) : State :=
  match s.kind with
  | .path => { s with kind := .stream, path := Path.idle, wave := Wave.idle,
                      block := s.block.withWave (s.wave.withPath s.path) }
  | _ => s

/-- Everything stands in the lists; only the domain is in focus. -/
def State.unfocus (s : State) : State :=
  match s.kind with
  | .idle => s
  | .path => s.closePath.closeBlock
  | .stream => s.closeBlock

/-- Brings a domain into focus. -/
def State.focusDom (s : State) (n : Nat) : State :=
  let s := s.unfocus
  if s.dom.ix = n then s
  else match takeFirst (fun d : Dom => d.ix == n) s.doms with
    | none => s
    | some (d, rest) => { s with dom := d, doms := insertBy Dom.ix s.dom rest }

/-- Brings a block into focus, with its core when it is resident. -/
def State.focusBlock (s : State) (b : BRef) : Option State :=
  let s := s.focusDom b.dom
  match takeFirst (fun x : Block => x.id == b.blk) s.dom.blocks with
  | none => none
  | some (x, rest) =>
    if x.res = .resident ∨ x.res = .saving then
      match takeFirst (fun c : Core => c.ix == x.core) s.dom.cores with
      | none => none
      | some (c, cs) => some { s with kind := .stream, block := x, core := c,
                                      dom := { s.dom with blocks := rest, cores := cs } }
    else some { s with kind := .stream, block := x, dom := { s.dom with blocks := rest } }

/-- With a block in focus, brings one of its waves and paths into focus. -/
def State.openPath (s : State) (wave pid : Nat) : Option State :=
  match takeFirst (fun w : Wave => w.wid == wave) s.block.waves with
  | none => none
  | some (w, ws) =>
    match takeFirst (fun p : Path => p.pid == pid) w.paths with
    | none => none
    | some (p, ps) => some { s with kind := .path, path := p, wave := { w with paths := ps },
                                    block := { s.block with waves := ws } }

/-- Brings a path into focus. -/
def State.focusPath (s : State) (p : PRef) : Option State :=
  if s.kind = .path ∧ s.dom.ix = p.dom ∧ s.block.id = p.blk ∧ s.wave.wid = p.wave ∧ s.path.pid = p.pid then some s
  else match s.focusBlock { dom := p.dom, blk := p.blk } with
    | none => none
    | some s => s.openPath p.wave p.pid

/-- The names of what is in focus. -/
def State.pref (s : State) : PRef :=
  { dom := s.dom.ix, blk := s.block.id, wave := s.wave.wid, pid := s.path.pid }

def State.bref (s : State) : BRef := { dom := s.dom.ix, blk := s.block.id }

/-- Every path, wave, core and block of the focused part: the siblings with what is in focus. -/
def State.wavePaths (s : State) : List Path := (s.wave.withPath s.path).paths

def State.blockWaves (s : State) : List Wave :=
  match s.kind with
  | .path => (s.block.withWave (s.wave.withPath s.path)).waves
  | _ => s.block.waves

/-- Runs `f` on another path and comes back; does nothing when the path does not exist. -/
def State.atPath (s : State) (p : PRef) (f : State → State) : State :=
  match s.focusPath p with
  | none => s
  | some t => f t

/-- Runs `f` with a block in focus, then puts it back. -/
def State.atBlock (s : State) (b : BRef) (f : State → State) : State :=
  match s.focusBlock b with
  | none => s
  | some t => f t

/-- The launch of the focused block. -/
def Dom.launch (d : Dom) (id : W32) : Option Launch := d.launches.find? fun l => l.id == id

def State.launch (s : State) : Option Launch := s.dom.launch s.block.launch

def State.tenant (s : State) : BitVec 8 := (s.launch.map (·.tenant)).getD 0

def State.updLaunch (s : State) (f : Launch → Launch) : State :=
  { s with dom := { s.dom with launches := updIf (fun l => l.id == s.block.launch) f s.dom.launches } }

/-- R108: CLUSTERID of the focused core. -/
def State.cluster (s : State) : Nat := s.core.ix / 8

/-- Unit identifiers (R370). -/
def unitId (dom type place index pid : Nat) : W32 :=
  BitVec.ofNat 32 (dom * 2 ^ 28 + type * 2 ^ 24 + place * 2 ^ 16 + index * 2 ^ 8 + pid * 4)

def unitUnknown : W32 := 0xFF000000

def State.pathUnit (s : State) : W32 := unitId s.dom.ix 0 s.core.ix s.wave.ctx s.path.pid

def State.streamUnit (s : State) : W32 := unitId s.dom.ix 1 s.core.ix s.block.bctx 0

def State.copyUnit (s : State) : W32 := unitId s.dom.ix 2 s.core.ix s.block.bctx 0

/-- The local time of a span of cycles in units of 2^-24 ns (R366). -/
def Core.span (c : Core) (since : Nat) : Nat := (c.cycles.toNat - since) * c.nspercyc.toNat

/-- Whether a core stands in the focus, beside its block. -/
def State.coreHere (s : State) : Bool := s.kind != .idle && (s.block.res == .resident || s.block.res == .saving)

/-- A core of the domain in focus, wherever it stands. -/
def State.coreAt (s : State) (ix : Nat) : Core :=
  if s.coreHere && s.core.ix == ix then s.core
  else (s.dom.cores.find? fun c => c.ix == ix).getD (Core.reset ix)

def State.updCore (s : State) (ix : Nat) (f : Core → Core) : State :=
  if s.coreHere && s.core.ix == ix then { s with core := f s.core }
  else { s with dom := { s.dom with cores := updIf (fun c => c.ix == ix) f s.dom.cores } }

/-- R407: the bytes of the 64 from `lo` on that a run of `n` bytes from `byte` on covers. -/
def coverMask (lo byte n : Nat) : BitVec 64 :=
  let a := max byte lo - lo
  let b := min (byte + n) (lo + 64) - lo
  if b ≤ a then 0 else BitVec.ofNat 64 ((2 ^ (b - a) - 1) * 2 ^ a)

/-- R407: `n` bytes of a buffer are written; a sector of it that has been written whole holds no error any more. -/
def Core.mend (c : Core) (buf byte n : Nat) : Core :=
  let up := fun f : Flaw => if f.buf = buf then { f with wrote := f.wrote ||| coverMask (64 * f.sector) byte n } else f
  if c.flaws = [] then c else { c with flaws := (c.flaws.map up).filter fun f => f.wrote != BitVec.allOnes 64 }

/-- R407: bytes of a buffer lie in a sector that holds an error: a read of them raises UNCORRECTABLE. -/
def Core.flawed (c : Core) (buf byte n : Nat) : Bool :=
  c.flaws.any fun f => f.buf == buf && decide (byte < 64 * f.sector + 64 ∧ 64 * f.sector < byte + n)

/-- The buffers of a block on its core: buffer, first byte and size of each, in the order of its images. -/
def Block.runs (b : Block) : List (Nat × Nat × Nat) :=
  if b.task then b.waves.map fun w => (0, w.abbase, w.absize)
  else (List.range 4).map fun i => (i, (b.bases[i]?).getD 0, (b.sizes[i]?).getD 0)

/-- R407: the flaws of a block's buffers, by image. -/
def Core.flawsOf (c : Core) (b : Block) : List Flaw :=
  b.runs.zipIdx.flatMap fun r =>
    (c.flaws.filter fun f => f.buf == r.1.1 && decide (r.1.2.1 ≤ 64 * f.sector ∧ 64 * f.sector < r.1.2.1 + r.1.2.2)).map fun f =>
      { f with buf := r.2, sector := f.sector - r.1.2.1 / 64 }

/-- R407: the buffers of a block are written, and hold the flaws that came with their images. -/
def Core.withFlaws (c : Core) (b : Block) (flaws : List Flaw) : Core :=
  let new := b.runs.zipIdx.flatMap fun r =>
    (flaws.filter fun f => f.buf == r.2).map fun f => ({ f with buf := r.1.1, sector := f.sector + r.1.2.1 / 64 } : Flaw)
  let c := b.runs.foldl (fun (c : Core) r => c.mend r.1 r.2.1 r.2.2) c
  { c with flaws := new ++ c.flaws }

/-- R313: a counter takes an event of a tenant: in shared mode every one that it selects; in isolation mode only one of the tenant that
its filter names, and a guest's counter only one of that guest. -/
def Counter.takes (x : Counter) (iso : Bool) (tenant : BitVec 8) (ev : PerfEvent) : Bool :=
  x.ev == ev && (!iso || ((x.tenant == none || x.tenant == some tenant) && (x.owner == none || x.owner == some tenant)))

/-- A counter takes an event. -/
def Counter.tick (x : Counter) : Counter := { x with val := x.val + 1, ovf := x.ovf || x.val == BitVec.allOnes 48 }

/-- Counts an event of the core in the counters that select it (R313). -/
def Core.count (c : Core) (iso : Bool) (tenant : BitVec 8) (ev : PerfEvent) : Core :=
  { c with perf := updIf (fun x => x.takes iso tenant ev) Counter.tick c.perf }

end Sys2Proof.Machine
end

