-- ==== Sys2Proof/Machine/Translate.lean ====
section
/-! DEFINITION. Physical memory of a domain, the home slices, page tables, the cluster TLB and the L1
(R149 to R169, R284 to R287, R367). -/

namespace Sys2Proof.Machine

/-- The number of a physical byte: HBM and second tier of the domain (tiers 0 and 1), host memory (tier 3). -/
def pkey (tier pa : Nat) : Nat := tier * 2 ^ 50 + pa

def tierOf (key : Nat) : Nat := key / 2 ^ 50

/-- R161: the home slice of a physical byte. -/
def sliceOf (key : Nat) : Nat :=
  let pa := key % 2 ^ 50
  (bitsOf pa 9 12 ^^^ bitsOf pa 21 12 ^^^ bitsOf pa 33 12 ^^^ bitsOf pa 45 5) % 48

/-- R161: the memory-side cache, of the domain's two, below the home slice of a physical byte. -/
def stackOf (key : Nat) : Nat := (bitsOf key 12 1 ^^^ bitsOf key 20 1)

/-- R402: the port behind which a second-tier byte of the domain stands, and its frame in the pool (log 96). -/
def State.tier2At (s : State) (key : Nat) : Nat × Nat :=
  let a := (s.tier2.first[s.dom.ix]?).getD 0 * 65536 + key % 2 ^ 50
  ((s.tier2.ports[a / 4096 % s.tier2.ports.length]?).getD 0, a / 65536)

/-- R402: the port of a second-tier byte, or the device that holds it, has failed. -/
def State.tier2Failed (s : State) (key : Nat) : Bool :=
  tierOf key == 1 && s.tier2down.any fun x => x.port == (s.tier2At key).1 && match x.frames with
    | none => true
    | some r => decide (r.1 ≤ (s.tier2At key).2 ∧ (s.tier2At key).2 < r.2)

/-- The bytes at a home slice, as a little-endian number. -/
def State.home (s : State) (key n : Nat) : Nat :=
  if tierOf key = 3 then rdN s.hostMem (key % 2 ^ 50) n else rdN s.dom.mem key n

/-- R152: the region that governs: a host-tier page is coherent unless it is a device page. -/
def Leaf.reg (l : Leaf) : Nat := if l.tier = 3 ∧ l.region.toNat < 2 then 2 else l.region.toNat

/-- The bytes of a sector that a copy of it holds. -/
def sectorRead (data : BitVec 512) (off n : Nat) : Nat := data.toNat / 256 ^ off % 256 ^ n

/-- R367: what a write leaves in the token cache of its slice: 4,096 sectors a slice, the oldest goes first. -/
def Dom.markToken (d : Dom) (sector : Nat) (m : TokMark) : Dom :=
  let rest := d.tokCache.filter fun e => e.sector != sector
  match m with
  | .none => d
  | .plain => { d with tokCache := rest }
  | .tok t u =>
    let sl := sliceOf (sector * 64)
    let same := rest.filter fun e => sliceOf (e.sector * 64) == sl
    let rest := if same.length < 4096 then rest
      else match same.getLast? with
        | none => rest
        | some old => rest.filter fun e => e.sector != old.sector
    { d with tokCache := { sector := sector, token := t, unit := u } :: rest }

/-- R367: the token, with its writer, that the slice of a sector holds. -/
def Dom.tokOf (d : Dom) (sector : Nat) : Option (W64 × W32) :=
  (d.tokCache.find? fun e => e.sector == sector).map fun e => (e.token, e.unit)

/-- R160: two sectors of one line of an L1 (log 79). -/
def L1Sector.sameLine (x y : L1Sector) : Bool := x.core == y.core && x.tenant == y.tenant && x.va / 8 == y.va / 8

/-- One sector for each line among `xs`, in their order. -/
def l1Lines (xs : List L1Sector) : List L1Sector :=
  (xs.foldl (fun (l : List L1Sector) x => if l.any fun y => y.sameLine x then l else x :: l) []).reverse

/-- R382: the lines of which the last sector that a prefetch filled, among `xs`, has left its L1. -/
def Dom.pfLines (d : Dom) (xs : List L1Sector) : List L1Sector :=
  (l1Lines (xs.filter fun x => x.prefetched)).filter fun y => !d.l1.any fun x => x.prefetched && x.sameLine y

/-- R382: PF_UNUSED for these lines, of the domain in focus. -/
def State.pfGone (s : State) (xs : List L1Sector) : State :=
  (s.dom.pfLines xs).foldl (fun s x => s.updCore x.core fun c => c.count s.dom.isolation x.tenant .pfUnused) s

/-- R382: PF_UNUSED for these lines, of a domain beside it. -/
def Dom.pfGone (d : Dom) (xs : List L1Sector) : Dom :=
  (d.pfLines xs).foldl (fun d x =>
    { d with cores := updIf (fun c => c.ix == x.core) (fun c => c.count d.isolation x.tenant .pfUnused) d.cores }) d

/-- R382: the domain in focus becomes `d`, from whose L1s a unit of the memory may have recalled sectors. -/
def State.setDom (s : State) (d : Dom) : State :=
  let t : State := { s with dom := d }
  if d.l1.length = s.dom.l1.length then t else t.pfGone s.dom.l1

/-- R346, R355: a lock on a sector that holds an access off: an exclusive one every access, a shared one every write. -/
def Dom.lockedAt (d : Dom) (sector : Nat) (write : Bool) : Bool := d.locks.any fun x => x.sector == sector && (x.excl || write)

/-- R162, R287: sectors leave the L1s; a reverse-map record whose page has no line left in its cluster goes too. -/
def Dom.dropL1 (d : Dom) (p : L1Sector → Bool) : Dom :=
  let l1 := d.l1.filter fun x => !p x
  { d with l1 := l1, rmap := d.rmap.filter fun r => l1.any fun x => x.core / 8 == r.cluster && x.key / 1024 == r.page }

/-- R163: the directory's recall of a sector of coherent pages, when a unit of the memory itself writes it: a dirty copy is
written back with what it carries, and every copy goes. -/
def Dom.pull (d : Dom) (sector : Nat) : Dom :=
  let p := fun x : L1Sector => x.key == sector && x.leaf.reg == 2
  if d.l1.any p then
    let d' := (d.l1.filter fun x => p x && x.dirty).foldl (fun (d : Dom) x =>
      { d.markToken sector x.mark with mem := wrN d.mem (sector * 64) 64 x.data.toNat }) d
    d'.dropL1 p
  else d

/-- R186: a write reaches its sector at the home slice. -/
def Dom.hitMonitors (d : Dom) (sector : Nat) : Dom :=
  { d with monitors := updIf (fun m => m.sector == sector) (fun m => { m with hit := true }) d.monitors }

/-- R308: unsigned comparisons. -/
def sigHolds (c : SigCond) (x y : Nat) : Bool :=
  match c with
  | .eq => x == y
  | .ne => x != y
  | .ge => decide (y ≤ x)
  | .gt => decide (y < x)
  | .lt => decide (x < y)
  | .le => decide (x ≤ y)

/-- R48: a write has left the sector so that `f` reads its bytes, by offset and number: whether it meets the condition. -/
def Monitor.see (m : Monitor) (f : Nat → Nat → Nat) : Monitor :=
  match m.watch with
  | some w => { m with met := m.met || sigHolds w.cond (f w.off w.n) w.val }
  | none => m

/-- R48: the home slice looks at what a write has left of a sector that it watches for a `sigwait`. -/
def Dom.seeWrite (d : Dom) (sector : Nat) (f : Nat → Nat → Nat) : Dom :=
  { d with monitors := updIf (fun m => m.sector == sector) (fun m => m.see f) d.monitors }

/-- R291: a bit of a dirty-page buffer is set: bit `k` of the byte at `a`. R346: at a sector that a lock holds it is set as the lock frees
(log 136). -/
def Dom.setBit (d : Dom) (a k : Nat) : Dom :=
  if d.lockedAt (a / 64) true then { d with late := if d.late.contains (.bit a k) then d.late else d.late ++ [.bit a k] }
  else
    let e := d.pull (a / 64)
    let mem := mset e.mem a (mget e.mem a ||| (1 : Byte) <<< k)
    let f : Dom := { e with mem := mem }
    if mget mem a = mget e.mem a then f else (f.hitMonitors (a / 64)).seeWrite (a / 64) fun off n => rdN mem (a / 64 * 64 + off) n

/-- R291: the bit of a 64 KiB frame in the active dirty-page buffer; no buffer has been set while its base is 0 (log 4).
Frames of the second tier follow the 1,572,864 frames of the domain's HBM (R7; log 96). A dirty copy of the buffer's own sector is
written back first, which is a write into the buffer's frame. -/
def Dom.setDirty (d : Dom) (key : Nat) : Dom :=
  let base := (if d.dirtySel then d.dirtyBase1 else d.dirtyBase0).toNat
  if base = 0 ∨ 1 < tierOf key then d
  else
    let set := fun (d : Dom) (f : Nat) => d.setBit (base + f / 8) (f % 8)
    let f := key % 2 ^ 50 / 65536 + (if tierOf key = 1 then 1572864 else 0)
    let a := base + f / 8
    let own := d.l1.any fun x => x.key == a / 64 && x.leaf.reg == 2 && x.dirty
    let d := set d f
    if own then set d (a / 65536) else d

/-- R167: the priority of a line to which `p` is applied; `full` when its set holds the evict-last lines it may. -/
def raised (old p : Nat) (full : Bool) : Nat := max old (if p = 2 ∧ old < 2 ∧ full = true then 1 else p)

/-- R167: the victim among the lines of a set, most recently used first: of the lowest priority the least recent. -/
def victimOf {α : Type} (prio : α → Nat) (xs : List α) : Option α :=
  xs.foldl (fun b x => match b with
    | none => some x
    | some y => if prio x ≤ prio y then some x else some y) none

/-- R160: the line of `y` is that of `x`: the same address under the same key id. -/
def CLine.same (x y : CLine) : Bool := y.line == x.line && y.keyid == x.keyid

/-- R160, R167, R404: line `x` is used in a cache, at the priority it carries; a fill takes one of `ways`, a free one first,
of a set that holds at most `cap` evict-last lines. Answers the line that it pushes out. -/
def useLine (xs : List CLine) (set : CLine → Bool) (ways : List Nat) (cap : Nat) (x : CLine) : List CLine × Option CLine :=
  let full := cap ≤ (xs.filter fun y => set y && y.prio == 2).length
  match takeFirst x.same xs with
  | some (y, rest) => ({ y with prio := raised y.prio x.prio full } :: rest, none)
  | none =>
    let x := { x with prio := raised 0 x.prio full }
    let mine := xs.filter fun y => set y && ways.contains y.way
    match ways.find? fun k => !mine.any fun y => y.way == k with
    | some k => ({ x with way := k } :: xs, none)
    | none => match victimOf CLine.prio mine with
      | none => (xs, none)
      | some v => ({ x with way := v.way } :: xs.filter (fun y => !v.same y), some v)

/-- R160: the set of a home slice, and of a memory-side cache, that holds a line (log 79). -/
def l2Set (a b : CLine) : Bool :=
  sliceOf (a.line * 512) == sliceOf (b.line * 512) && a.line / 64 % 256 == b.line / 64 % 256

def mscSet (a b : CLine) : Bool :=
  stackOf (a.line * 512) == stackOf (b.line * 512) && a.line / 16 % 16384 == b.line / 16 % 16384

/-- R403, R404: the ways of the 16 that a tenant's fills use. DESIGN CHOICE (log 114): in isolation mode an access of no tenant, of
the host, of the FED or of the trace unit, fills none. -/
def Dom.waysOf (d : Dom) (tenant : Option (BitVec 8)) : List Nat :=
  if d.isolation then match tenant with
    | none => []
    | some t => match d.shares.find? fun x => x.tenant == t with
      | some x => (List.range 16).filter fun i => x.ways.getLsbD i
      | none => List.range 16
  else List.range 16

/-- R186: the line of a monitored sector is evicted from its home slice. -/
def Dom.hitLine (d : Dom) (line : Nat) : Dom :=
  { d with monitors := updIf (fun m => m.sector / 8 == line) (fun m => { m with hit := true }) d.monitors }

/-- R160: the line of a physical byte, under the key id of its frame, as a home slice tags it. -/
def Dom.lineOf (d : Dom) (key p : Nat) (tenant : BitVec 8) (pf : Option Nat) : CLine :=
  { line := key / 512, keyid := mget d.keys (key / 65536), way := 0, tenant := tenant, prio := p, pf := pf }

/-- R382: a prefetch event of the core whose prefetch filled a line. -/
def State.countPf (s : State) (y : Option CLine) (ev : PerfEvent) : State :=
  match y.bind fun y => y.pf.map fun c => (c, y.tenant) with
  | none => s
  | some (c, t) => s.updCore c fun c => c.count s.dom.isolation t ev

/-- R160, R167, R186, R382, R404: a line is used for a tenant at its home slice, at priority `p`, by a prefetch of core `pf`, or by a
demand access (`use`); it comes from its memory-side cache when the slice does not hold it. -/
def State.l2Access (s : State) (tenant : Option (BitVec 8)) (key p : Nat) (pf : Option Nat) (use : Bool) : State :=
  let d := s.dom
  let x := d.lineOf key p (tenant.getD 0) pf
  let old := d.l2.find? x.same
  let (l2, out) := useLine d.l2 (l2Set x) (d.waysOf tenant) 12 x
  let msc := if old.isSome || 1 < tierOf key then d.msc
    else (useLine d.msc (mscSet x) (d.waysOf tenant) 16 { x with keyid := 0, prio := 0, pf := none }).1
  let d := { d with l2 := l2, msc := msc }
  let s := ({ s with dom := match out with
    | some y => d.hitLine y.line
    | none => d } : State).countPf out .pfUnused
  if use && (old.bind CLine.pf).isSome then
    let s := s.countPf old .pfUseful
    { s with dom := { s.dom with l2 := updIf x.same (fun y => { y with pf := none }) s.dom.l2 } }
  else s

/-- A write of `n` bytes at the home slice, with what it does there: the token cache, the monitors, the
dirty-page bitmap, and poison that a whole sector clears (R186, R291, R367, R407). A write to host memory wakes the
monitors of every domain (R186, R397), and clears the token that a slice of another domain holds for the sector (R367). -/
def State.putRaw (s : State) (key n val : Nat) (m : TokMark) : State :=
  let sec := key / 64
  let s := s.setDom (s.dom.setDirty key)
  let d := (s.dom.markToken sec m).hitMonitors sec
  let d := if n = 64 then { d with poison := d.poison.filter (· != sec) } else d
  if tierOf key = 3 then
    let mem := wrN s.hostMem (key % 2 ^ 50) n val
    let see := fun o : Dom => o.seeWrite sec fun off k => rdN mem (sec * 64 % 2 ^ 50 + off) k
    let clear := fun o : Dom => if m = .none then o else o.markToken sec .plain
    { s with dom := see d, doms := s.doms.map (fun o => see ((clear o).hitMonitors sec)), hostMem := mem }
  else
    let mem := wrN d.mem key n val
    { s with dom := ({ d with mem := mem } : Dom).seeWrite sec fun off k => rdN mem (sec * 64 + off) k }

/-- R404: such a write, of a line that the home slice caches for a tenant; one that it holds keeps its priority, which the access
itself has applied (R167). DESIGN CHOICE (log 115): a line that it no longer holds, which a write-back brings back, stands at normal
priority. -/
def State.homePut (s : State) (tenant : Option (BitVec 8)) (key n val : Nat) (m : TokMark) : State :=
  (s.l2Access tenant key (if s.dom.l2.any (s.dom.lineOf key 0 0 none).same then 0 else 1) none false).putRaw key n val m

/-- R160, R163: a write at the home slice under a leaf: no level caches a device page. -/
def State.putUnder (s : State) (tenant : BitVec 8) (l : Leaf) (key n val : Nat) (m : TokMark) : State :=
  if l.reg = 3 then s.putRaw key n val m else s.homePut (some tenant) key n val m

/-- R284: the fields of a leaf entry. -/
def Leaf.ofEntry (e level : Nat) : Leaf :=
  { cph := BitVec.ofNat 2 (bitsOf e 54 2), tier := BitVec.ofNat 3 (bitsOf e 51 3),
    frame := BitVec.ofNat 34 (bitsOf e 17 34), keyid := BitVec.ofNat 7 (bitsOf e 10 7), tagen := bitOf e 9,
    user := bitOf e 6, x := bitOf e 5, w := bitOf e 4, region := BitVec.ofNat 2 (bitsOf e 2 2), level := level,
    dirty := bitOf e 8 }

/-- The bits of the offset in a page mapped at a level (R284). -/
def pageBits (level : Nat) : Nat := if level = 1 then 36 else if level = 2 then 26 else 16

/-- The physical byte of an address under a leaf. DESIGN CHOICE (log 93): a frame of tier 0 beyond the 1,572,864 of the domain's
HBM (R7), for which the spec states no outcome, has memory of its own. -/
def Leaf.key (l : Leaf) (va : W64) : Nat :=
  pkey l.tier.toNat (l.frame.toNat * 65536 + va.toNat % 2 ^ pageBits l.level)

/-- Why a check failed: its place in the order of R174, the cause, TRAPINFO, and whether the answer came back
from a target outside the domain (R183). -/
structure Fail where
  order : Nat
  cause : Cause
  info : W64
  remote : Bool
  deriving DecidableEq, Repr

/-- R284: the result of a walk: the address of the leaf entry, and the leaf; or why there is none. -/
inductive Walk
  | leaf (addr : Nat) (l : Leaf)
  | fail (f : Fail)
  deriving DecidableEq, Repr

/-- R355: the value that a granule had before the serial lane's writes. -/
def Dom.settledAt (d : Dom) (key : Nat) : Option W64 :=
  d.serial.bind fun x => (x.undo.filter fun u => u.1 == key).getLast?.map (·.2)

/-- R285: a table entry as its home slice answers it: a dirty copy on a coherent page is recalled for it. DESIGN CHOICE (log 116): of
an entry that the serial lane has written the walker reads the value from before those writes. -/
def Dom.entryAt (d : Dom) (addr : Nat) : Nat :=
  match d.settledAt addr with
  | some v => v.toNat
  | none => match d.l1.find? fun x => x.key == addr / 64 && x.leaf.reg == 2 && x.dirty with
    | some x => sectorRead x.data (addr % 64) 8
    | none => rdN d.mem addr 8

/-- R284: the walk from a table at `level`, over the levels that are left. R407: an entry in a poisoned sector is UNCORRECTABLE. -/
def walkFrom (d : Dom) (va : W64) (table : Nat) : Nat → Nat → Walk
  | 0, _ => .fail ⟨3, .pageFault, 0, false⟩
  | k + 1, level =>
    let addr := table + 8 * bitsOf va.toNat (46 - 10 * level) 10
    let e := d.entryAt addr
    let bad : Walk := .fail ⟨5, .protection, BitVec.ofNat 64 level, false⟩
    if d.poison.contains (addr / 64) then .fail ⟨3, .uncorrectable, 0, false⟩
    else if !bitOf e 0 then .fail ⟨3, .pageFault, 0, false⟩
    else if bitOf e 1 then
      let fr := bitsOf e 17 34
      if level = 0 ∨ bitsOf e 56 8 ≠ 0 then bad
      else if (level = 2 ∧ fr % 2 ^ 10 ≠ 0) ∨ (level = 1 ∧ fr % 2 ^ 20 ≠ 0) then bad
      else .leaf addr (Leaf.ofEntry e level)
    else if level = 3 ∨ bitsOf e 50 14 ≠ 0 ∨ bitsOf e 2 11 ≠ 0 then bad
    else walkFrom d va (bitsOf e 13 37 * 8192) k (level + 1)

/-- R284: the walk of a tenant's tables, each of them 8 KiB-aligned; without a root no address is translated. -/
def Dom.walk (d : Dom) (tenant : BitVec 8) (va : W64) : Walk :=
  match d.ptroot.find? fun r => r.1 == tenant with
  | none => .fail ⟨3, .pageFault, 0, false⟩
  | some r => walkFrom d va (r.2 / 8192 * 8192) 4 0

/-- R169: every frame that a leaf covers has the leaf's key id. -/
def Dom.keysMatch (d : Dom) (l : Leaf) : Bool :=
  let f := l.tier.toNat * 2 ^ 34 + l.frame.toNat
  let n := 2 ^ (pageBits l.level - 16)
  let listed := d.keys.filter fun e => f ≤ e.1 && e.1 < f + n
  1 < l.tier.toNat || (listed.all (fun e => e.2 == l.keyid) && (l.keyid == 0 || listed.length == n))

/-- R346: the walker's swap in an entry at a sector that a lock holds bounces: the entry as it was read, and whether D is set. -/
def Dom.deferAD (d : Dom) (addr seen : Nat) (write : Bool) : Dom :=
  let late := fun l : Late => match l with
    | .ad a x w => if a = addr then Late.ad a x (w || write) else l
    | _ => l
  let has := d.late.any fun l => match l with
    | .ad a _ _ => a == addr
    | _ => false
  { d with late := if has then d.late.map late else d.late ++ [.ad addr seen write] }

/-- R285: the walker sets A, and D at a first write, with a compare-and-swap at the entry's home slice. R346: at a sector that a lock
holds the swap bounces; DESIGN CHOICE (log 116): it performs as the lock frees (`State.latePut`), and the access that it serves goes on
meanwhile. -/
def Dom.setAD (d : Dom) (addr : Nat) (write : Bool) : Dom :=
  let e := d.entryAt addr
  let x := e ||| 128 ||| (if write then 256 else 0)
  if x = e then d
  else if d.lockedAt (addr / 64) true then d.deferAD addr e write
  else
    let d := (((d.pull (addr / 64)).setDirty addr).markToken (addr / 64) .plain).hitMonitors (addr / 64)
    let mem := wrN d.mem addr 8 x
    ({ d with mem := mem } : Dom).seeWrite (addr / 64) fun off n => rdN mem (addr / 64 * 64 + off) n

/-- R284: the virtual page of an address, with its size in the low bits. -/
def vpageOf (va : W64) (level : Nat) : Nat := va.toNat % 2 ^ 56 / 2 ^ pageBits level * 4 + level

/-- R286: the translation that a cluster's TLB holds for an address. -/
def Dom.tlbFind (d : Dom) (cluster : Nat) (tenant : BitVec 8) (va : W64) : Option Leaf :=
  (d.tlb.find? fun t => t.cluster == cluster && t.tenant == tenant && t.vpage == vpageOf va t.leaf.level).map (·.leaf)

/-- R286: a translation enters the TLB; the oldest of 4,096 leaves it (log 12). -/
def Dom.tlbFill (d : Dom) (cluster : Nat) (tenant : BitVec 8) (va : W64) (l : Leaf) : Dom :=
  let rest := d.tlb.filter fun t => !(t.cluster == cluster && t.tenant == tenant && t.vpage == vpageOf va l.level)
  let mine := rest.filter fun t => t.cluster == cluster
  let rest := if mine.length < 4096 then rest
    else match mine.getLast? with
      | none => rest
      | some old => rest.filter fun t => t != old
  { d with tlb := { cluster := cluster, tenant := tenant, vpage := vpageOf va l.level, leaf := l } :: rest }

/-- R169, R285: a walk that sets A and fills the TLB. -/
def Dom.rewalk (d : Dom) (cluster : Nat) (tenant : BitVec 8) (va : W64) : Dom × Except Fail Leaf :=
  match d.walk tenant va with
  | .fail f => (d, .error f)
  | .leaf addr l =>
    if d.keysMatch l then ((d.setAD addr false).tlbFill cluster tenant va l, .ok l)
    else (d, .error ⟨4, .keyAlias, 0, false⟩)

/-- The line of an L1 lies on the page that a cluster translates so. -/
def L1Sector.under (x : L1Sector) (cluster : Nat) (tenant : BitVec 8) (va : W64) (l : Leaf) : Bool :=
  x.core / 8 == cluster && x.tenant == tenant && x.leaf.level == l.level && vpageOf (x.va <<< 6) l.level == vpageOf va l.level

/-- R286: the lines of the cluster's L1s that a translation filled know that D is set, so that no later store through them walks. -/
def Dom.linesDirty (d : Dom) (cluster : Nat) (tenant : BitVec 8) (va : W64) (l : Leaf) : Dom :=
  { d with l1 := updIf (fun x => x.under cluster tenant va l) (fun x => { x with leaf := { x.leaf with dirty := true } }) d.l1 }

/-- R174 checks 3 and 4, R285, R286: the leaf for an address, from `cached` where an L1 holds it, through the TLB or by a
walk. The first write under a translation walks again, so that D is set in the entry as it then stands (`Dom.setD`); a walk that
finds D set by another cluster leaves that with the cluster's lines. -/
def Dom.translate (d : Dom) (cached : Option Leaf) (cluster : Nat) (tenant : BitVec 8) (va : W64) (write : Bool) :
    Dom × Except Fail Leaf :=
  match cached <|> d.tlbFind cluster tenant va with
  | some l =>
    if write && !l.dirty then
      match d.rewalk cluster tenant va with
      | (d, .ok l) => (if l.dirty then d.linesDirty cluster tenant va l else d, .ok l)
      | r => r
    else (d, .ok l)
  | none => d.rewalk cluster tenant va

/-- R285, R286: a write performs under a translation whose D is clear in what the cluster holds: the walker walks again, and sets D
unless another cluster has; the TLB and the lines of the cluster's L1s know it from then on. While a lock holds the entry's sector the
swap stays to be made, and they do not know it. Answers whether D is set. -/
def Dom.setD (d : Dom) (cluster : Nat) (tenant : BitVec 8) (va : W64) : Dom × Bool :=
  match d.walk tenant va with
  | .fail _ => (d, false)
  | .leaf addr l =>
    let d := d.setAD addr true
    if bitOf (d.entryAt addr) 8 then ((d.tlbFill cluster tenant va { l with dirty := true }).linesDirty cluster tenant va l, true) else (d, false)

/-- R151: the virtual sector of an address: bits [63:56] are no part of it. -/
def sectorVa (va : W64) : W64 := BitVec.ofNat 64 (va.toNat % 2 ^ 56 / 64)

/-- R168: the tags of a sector's two granules in memory. -/
def Dom.tagsAt (d : Dom) (sector : Nat) : BitVec 8 := mget d.tags (2 * sector + 1) ++ mget d.tags (2 * sector)

def L1Sector.is (x : L1Sector) (core sector : Nat) : Bool := x.core == core && x.key == sector

/-- The first path of a block owes an UNCORRECTABLE. -/
def Block.raise (b : Block) : Block :=
  { b with waves := match b.waves with
      | [] => []
      | w :: ws => { w with paths := match w.paths with
          | [] => []
          | p :: ps => { p with uncorr := true } :: ps } :: ws }

/-- R402: an access that core `c` has made for a tenant, and that no path waits for, comes back with UNCORRECTABLE. DESIGN CHOICE
(log 117): the path in focus on that core takes it at its next instruction, else the first path of a block of the tenant there. -/
def State.raiseOn (s : State) (c : Nat) (tenant : BitVec 8) : State :=
  if s.kind = .path ∧ s.coreHere = true ∧ s.core.ix = c then { s with path := { s.path with uncorr := true } }
  else if s.kind = .stream ∧ s.coreHere = true ∧ s.core.ix = c then { s with block := s.block.raise }
  else
    let mine := fun b : Block => b.core == c && b.res == .resident && (s.dom.launch b.launch).any fun l => l.tenant == tenant
    match s.dom.blocks.find? mine with
    | none => s
    | some b => { s with dom := { s.dom with blocks := updIf (fun x => x.id == b.id) Block.raise s.dom.blocks } }

/-- R163, R166: a dirty sector that its L1 still holds is written back whole; what it carries goes with it (R367). Poison
that the core has not written whole stays (R407). Through a second-tier port or device that has failed the write-back does not
perform, and raises UNCORRECTABLE (R402). -/
def State.writeBack (s : State) (x : L1Sector) : State :=
  if x.dirty && s.dom.l1.any (fun y => y.is x.core x.key) then
    if s.tier2Failed (x.key * 64) then s.raiseOn x.core x.tenant
    else
      let t := s.homePut (some x.tenant) (x.key * 64) 64 x.data.toNat x.mark
      { t with dom := { t.dom with poison := s.dom.poison } }
  else s

/-- R160: the set of a core's L1 that a virtual address names (log 79). -/
def L1Sector.inSet (x : L1Sector) (core : Nat) (va : W64) : Bool :=
  x.core == core && x.va.toNat / 8 % 64 == va.toNat / 512 % 64

/-- A copy that has been written back, and stays: it holds what its home slice holds. -/
def L1Sector.clean (x : L1Sector) (d : Dom) : L1Sector := { x with dirty := false, mark := .none, tok := d.tokOf x.key }

/-- Writes back, then removes or cleans, every L1 sector that `p` picks. No lock meets a write-back: a sector has no dirty copy while
the serial lane holds it (`State.takeLock`; log 131). -/
def State.flushL1 (s : State) (p : L1Sector → Bool) (keep : Bool) : State :=
  let t := (s.dom.l1.filter p).foldl State.writeBack s
  if keep then { t with dom := { t.dom with l1 := updIf p (fun x => x.clean t.dom) t.dom.l1 } }
  else
    let gone := t.dom.l1.filter p
    let t := { t with dom := t.dom.dropL1 p }
    t.pfGone gone

/-- R152, R382, R397: a snoop invalidates a sector of host memory in the home slices of a domain; a line of it that a prefetch filled
goes unused. DESIGN CHOICE (log 137): the line of 512 bytes goes whole. -/
def Dom.snoopL2 (d : Dom) (sector : Nat) : Dom :=
  let p := fun y : CLine => y.line == sector / 8
  let gone := (d.l2.filter p).filterMap fun y => y.pf.map fun c => (c, y.tenant)
  gone.foldl (fun (d : Dom) x =>
      { d with cores := updIf (fun c => c.ix == x.1) (fun c => c.count d.isolation x.2 .pfUnused) d.cores })
    { d with l2 := d.l2.filter fun y => !p y }

/-- R152, R186, R397: the snoop of a sector of host memory in the domains beside the one in focus: a dirty copy is written back
with its token, and clean copies stay only with `keep`; without it monitors on the sector are hit. Poison that a copy's core has not
written whole stays (R407). -/
def State.snoop (s : State) (sector : Nat) (keep : Bool) : State :=
  let p := fun x : L1Sector => x.key == sector && x.leaf.reg == 2
  if tierOf (sector * 64) ≠ 3 then s
  else
    let s := if keep then s else { s with doms := s.doms.map fun d => (d.hitMonitors sector).snoopL2 sector }
    if s.doms.any fun d => d.l1.any p then
      let dirty := (s.doms.flatMap fun d => d.l1).filter fun x => p x && x.dirty
      let s := { s with doms := s.doms.map fun d =>
        if keep then { d with l1 := updIf p (fun x => if x.dirty then { x with dirty := false, mark := .none, tok := none } else x) d.l1 }
        else (d.dropL1 p).pfGone (d.l1.filter p) }
      dirty.foldl (fun s x =>
        let t := s.homePut (some x.tenant) (sector * 64) 64 x.data.toNat x.mark
        { t with dom := { t.dom with poison := s.dom.poison } }) s
    else s

/-- R163: the directory recalls every copy of a coherent sector but core `c`'s; `keep` leaves clean copies. -/
def State.recall (s : State) (c sector : Nat) (keep : Bool) : State :=
  let s := s.snoop sector keep
  let p := fun x : L1Sector => x.key == sector && x.core != c && x.leaf.reg == 2
  if s.dom.l1.any p then s.flushL1 p keep else s

/-- R287: a page enters the cluster's reverse map. DESIGN CHOICE (log 79): a record stands for a 64 KiB frame, in a larger page
too. Beyond 8,192 the least recently filled frame leaves the L1s. -/
def State.rmapFill (s : State) (cluster sector : Nat) : State :=
  let page := sector / 1024
  let rest := s.dom.rmap.filter fun r => !(r.cluster == cluster && r.page == page)
  let mine := rest.filter fun r => r.cluster == cluster
  if mine.length < 8192 then { s with dom := { s.dom with rmap := { cluster := cluster, page := page } :: rest } }
  else match mine.getLast? with
    | none => s
    | some old =>
      let t := s.flushL1 (fun x => x.core / 8 == cluster && x.key / 1024 == old.page) false
      { t with dom := { t.dom with rmap := { cluster := cluster, page := page } :: rest.filter fun r => r != old } }

/-- R167: how an access applies HINT and CPH: the higher of the two encodings. -/
def hintOf (h : Hint) (l : Leaf) : Nat := max h.code l.cph.toNat

/-- R167: the priority a hint applies: 0 evict-first, 1 normal, 2 evict-last. -/
def prioOf (h : Nat) : BitVec 2 := if h = 1 then 0 else if h = 2 then 2 else 1

/-- The L1 sector of a core that an address names (R160, R162). -/
def Dom.l1Find (d : Dom) (core : Nat) (tenant : BitVec 8) (va : W64) : Option L1Sector :=
  d.l1.find? fun x => x.core == core && x.tenant == tenant && x.va == sectorVa va

/-- R167: a line of a core's L1 is used with hint `h`; without L1 allocation its priority stays. -/
def Dom.useL1 (d : Dom) (x : L1Sector) (h : Nat) : Dom :=
  let set := l1Lines (d.l1.filter fun y => y.core == x.core && y.va / 8 % 64 == x.va / 8 % 64)
  let full := decide (6 ≤ (set.filter fun y => y.prio == 2).length)
  let old := ((d.l1.filter fun y => y.sameLine x).map fun y => y.prio.toNat).foldl max 0
  let p : BitVec 2 := BitVec.ofNat 2 (if h = 3 then old else raised old (prioOf h).toNat full)
  { d with l1 := ((d.l1.filter fun y => y.sameLine x).map fun y => { y with prio := p }) ++ d.l1.filter fun y => !y.sameLine x }

/-- R160, R167: room for the line of a virtual address in its set of a core's L1. -/
def State.evictL1 (s : State) (core : Nat) (tenant : BitVec 8) (va : W64) : State :=
  let set := l1Lines (s.dom.l1.filter fun x => x.inSet core va)
  if set.length < 8 || set.any fun x => x.tenant == tenant && x.va / 8 == sectorVa va / 8 then s
  else match victimOf (fun x : L1Sector => x.prio.toNat) set with
    | none => s
    | some v => s.flushL1 (fun x => x.sameLine v) false

/-- R162, R163, R167, R287: an access takes a sector into a core's L1, or uses it there; an alias under another address
leaves first. -/
def State.fill (s : State) (core : Nat) (tenant : BitVec 8) (va : W64) (l : Leaf) (h : Nat) (pf : Bool) : State :=
  let sector := l.key va / 64
  match s.dom.l1.find? fun x => x.is core sector && x.tenant == tenant && x.va == sectorVa va with
  | some x => { s with dom := s.dom.useL1 x h }
  | none =>
    let s := if s.dom.l1.any fun x => x.is core sector then s.flushL1 (fun x => x.is core sector) false else s
    let s := if l.reg = 2 then s.recall core sector true else s
    let s := (s.evictL1 core tenant va).rmapFill (core / 8) sector
    let x : L1Sector :=
      { core := core, key := sector, va := sectorVa va, tenant := tenant, leaf := l,
        data := BitVec.ofNat 512 (s.home (sector * 64) 64), dirty := false, prio := 0, mark := .none,
        prefetched := pf, tags := s.dom.tagsAt sector, tok := s.dom.tokOf sector }
    { s with dom := ({ s.dom with l1 := x :: s.dom.l1 }).useL1 x h }

def sectorWrite (data : BitVec 512) (off n val : Nat) : BitVec 512 :=
  let x := data.toNat
  BitVec.ofNat 512 (x - x / 256 ^ off % 256 ^ n * 256 ^ off + val % 256 ^ n * 256 ^ off)

/-- A core's copy of a sector, when it has one. -/
def Dom.copyOf (d : Dom) (core sector : Nat) : Option L1Sector := d.l1.find? fun x => x.is core sector

/-- R382: PF_USEFUL at the first demand access to a line that a prefetch filled. -/
def State.pfHit (s : State) (core key : Nat) : State :=
  let p := fun x : L1Sector => x.core == core && x.key / 8 == key / 512 && x.prefetched
  match s.dom.l1.find? p with
  | none => s
  | some x =>
    let s := { s with dom := { s.dom with l1 := updIf p (fun x => { x with prefetched := false }) s.dom.l1 } }
    s.updCore core fun c => c.count s.dom.isolation x.tenant .pfUseful

/-- R167: an access that performs at the home slice applies its priority to the line there; no level caches a device page. -/
def State.homeUse (s : State) (tenant : BitVec 8) (va : W64) (l : Leaf) (h : Hint) : State :=
  if l.reg = 3 then s else s.l2Access (some tenant) (l.key va) (prioOf (hintOf h l)).toNat none true

/-- R163, R167, R382: a demand access to a line of a cached page: a hit in the core's L1, and, without one or when the access
performs at the home slice (`home`), an access there, where it applies its priority. -/
def State.demand (s : State) (core : Nat) (tenant : BitVec 8) (va : W64) (h : Hint) (l : Leaf) (home : Bool) : State :=
  if l.reg = 3 then s
  else
    let hit := (s.dom.l1Find core tenant va).isSome
    let s := if hit then s.pfHit core (l.key va) else s
    if hit && !home then s else s.homeUse tenant va l h

/-- R162: the core's copy of a sector under another address leaves before an access that does not use it. -/
def State.dropAlias (s : State) (core sector : Nat) : State :=
  if s.dom.l1.any fun x => x.is core sector then s.flushL1 (fun x => x.is core sector) false else s

/-- R163: a read of `n` bytes: from L1 where the region is cached, at the home slice where it is not. -/
def State.readAt (s : State) (core : Nat) (tenant : BitVec 8) (va : W64) (l : Leaf) (h : Hint) (n : Nat) : State × Nat :=
  let key := l.key va
  let hh := hintOf h l
  if l.reg = 3 then (s, s.home key n)
  else if hh = 3 ∧ (s.dom.l1Find core tenant va).isNone then
    let s := s.dropAlias core (key / 64)
    let s := if l.reg = 2 then s.recall core (key / 64) true else s
    (s, s.home key n)
  else
    let s := s.fill core tenant va l hh false
    match s.dom.copyOf core (key / 64) with
    | some x => (s, sectorRead x.data (key % 64) n)
    | none => (s, s.home key n)

/-- The bytes of a sector that a write of `n` bytes at an offset names. -/
def byteMask (off n : Nat) : BitVec 64 := BitVec.ofNat 64 ((2 ^ n - 1) * 2 ^ off)

/-- R48: a core that owns a coherent sector has written its copy: the home slices that watch the sector learn what it holds. -/
def State.seeCopy (s : State) (core sector : Nat) : State :=
  match s.dom.copyOf core sector with
  | some x =>
    if x.leaf.reg = 2 then
      let see := fun d : Dom => d.seeWrite sector fun off n => sectorRead x.data off n
      { s with dom := see s.dom, doms := if tierOf (sector * 64) = 3 then s.doms.map see else s.doms }
    else s
  | none => s

/-- A write into a core's own copy. A sector that the core has now written whole is poisoned no more (R407). -/
def State.writeCopy (s : State) (core sector off n val : Nat) (dirty : Bool) (m : TokMark) : State :=
  let up := fun x : L1Sector =>
    { x with data := sectorWrite x.data off n val, dirty := x.dirty || dirty, mark := if dirty then m else x.mark, wrote := x.wrote ||| byteMask off n }
  let l1 := updIf (fun x => x.is core sector) up s.dom.l1
  let whole := l1.any fun x => x.is core sector && x.wrote == BitVec.allOnes 64
  let s : State := { s with dom := { s.dom with l1 := l1, poison := if whole then s.dom.poison.filter (· != sector) else s.dom.poison } }
  if dirty then s.seeCopy core sector else s

/-- R367, R371: a core's clean copy holds what the home slice holds, with its token. -/
def State.retok (s : State) (core sector : Nat) : State :=
  { s with dom := { s.dom with l1 := updIf (fun x => x.is core sector) (fun x => { x with tok := s.dom.tokOf sector }) s.dom.l1 } }

/-- R163: a write of `n` bytes: in L1 on private and coherent pages, through to the home slice otherwise. -/
def State.writeAt (s : State) (core : Nat) (tenant : BitVec 8) (va : W64) (l : Leaf) (h : Hint) (n val : Nat)
    (m : TokMark) : State :=
  let key := l.key va
  let sec := key / 64
  let hh := hintOf h l
  if l.reg = 3 then s.putRaw key n val m
  else if l.reg = 1 then
    let d := match s.dom.copyOf core sec with
      | some x => s.dom.useL1 x hh
      | none => s.dom
    ((({ s with dom := d } : State).writeCopy core sec (key % 64) n val false m).homePut (some tenant) key n val m).retok core sec
  else
    let s := if l.reg = 2 then { s with dom := s.dom.hitMonitors sec }.recall core sec false else s
    if hh = 3 ∧ (s.dom.l1Find core tenant va).isNone then
      (s.flushL1 (fun x => x.is core sec) false).homePut (some tenant) key n val m
    else (s.fill core tenant va l hh false).writeCopy core sec (key % 64) n val true m

/-- R165: whether a value-returning atomic executes in the issuing core's L1. -/
def Leaf.atomInL1 (l : Leaf) : Bool := l.reg == 0 || l.reg == 2

/-- R163, R165, R166: an atomic update `f` of `n` bytes; `ret` for one that returns its value. Answers the old value. A `cas` that
fails at the home slice is an RMW there, and sets the frame's dirty bit (R203, R291). DESIGN CHOICE (log 115): R167 says of no
value-returning atomic what "no L1 allocation" makes of its miss; it fills its line at normal priority. -/
def State.rmwAt (s : State) (core : Nat) (tenant : BitVec 8) (va : W64) (l : Leaf) (h : Hint) (n : Nat) (ret : Bool)
    (f : Nat → Option Nat) (m : TokMark) : State × Nat :=
  let key := l.key va
  let sec := key / 64
  if ret && l.atomInL1 then
    let s := if l.reg = 2 then s.recall core sec false else s
    let hh := hintOf h l
    let s := s.fill core tenant va l (if hh = 3 ∧ (s.dom.l1Find core tenant va).isNone then 0 else hh) false
    let old := match s.dom.copyOf core sec with
      | some x => sectorRead x.data (key % 64) n
      | none => s.home key n
    match f old with
    | none => (s, old)
    | some x => ((if l.reg = 2 then { s with dom := s.dom.hitMonitors sec } else s).writeCopy core sec (key % 64) n x true m, old)
  else
    let s := if l.reg = 2 then s.recall 96 sec false else s
    let s := if l.reg = 1 then s.flushL1 (fun x => x.is core sec) false else s
    let old := s.home key n
    match f old with
    | none => (s.setDom (s.dom.setDirty key), old)
    | some x => (s.putUnder tenant l key n x m, old)

/-- R163: an acquire at cluster scope or wider drops the core's read-shared lines. -/
def State.acquireL1 (s : State) (core : Nat) : State :=
  let p := fun x : L1Sector => x.core == core && x.leaf.reg == 1
  let gone := s.dom.l1.filter p
  let s := { s with dom := s.dom.dropL1 p }
  s.pfGone gone

/-- R163: a release at cluster scope or wider writes back the core's dirty private sectors. -/
def State.releaseL1 (s : State) (core : Nat) : State :=
  s.flushL1 (fun x => x.core == core && x.leaf.reg == 0 && x.dirty) true

/-- R79: the scopes at which caches act. -/
def wideScope : Scope → Bool
  | .cl | .die | .pkg | .sys => true
  | _ => false

/-- R163: the cache actions of a release and of an acquire. -/
def State.release (s : State) (core : Nat) (sc : Scope) : State := if wideScope sc then s.releaseL1 core else s

def State.acquire (s : State) (core : Nat) (sc : Scope) : State := if wideScope sc then s.acquireL1 core else s

end Sys2Proof.Machine
end

