-- ==== Sys2Proof/Machine/Mem.lean ====
section
/-! DEFINITION. One access: the checks of R174 in their order, and how it performs in each space
(R149 to R165, R174, R188, R213, R217, R400 to R402). -/

namespace Sys2Proof.Machine

/-- Who accesses: core, tenant, level, unit identifier (R370), and whether it is the serial Clasp lane. -/
structure Who where
  core : Nat
  tenant : BitVec 8
  user : Bool
  unit : W32
  serial : Bool
  deriving DecidableEq, Repr

/-- Where an access goes: a page of the domain; a page of another domain, under the tenant whose range is exported, and that
domain's address and leaf; memory of a peer package behind a fabric port. `own` is the address of a write through a peer-window page
whose own leaf has D clear (R285). -/
inductive Target
  | loc (va : W64) (l : Leaf)
  | peer (dom : Nat) (tenant : BitVec 8) (va : W64) (l : Leaf) (own : Option W64)
  | fabric (port : Nat) (key : Nat) (own : Option W64)
  deriving DecidableEq, Repr

/-- What an access wants: size (0: not checked for alignment), write permission, atomic, tag check, and the
scope it names when it is ordered; `tlb` for one that no L1 serves: constants, fetches, engines (R286). -/
structure Want where
  n : Nat
  write : Bool
  atomic : Bool
  tags : Bool
  sc : Option Scope
  tlb : Bool := false
  deriving DecidableEq, Repr

/-- Runs `f` with another domain, and no block of it, in the place of the focused one. -/
def State.withDom {α : Type} (s : State) (n : Nat) (dflt : α) (f : State → State × α) : State × α :=
  if s.dom.ix = n then f s
  else match takeFirst (fun d : Dom => d.ix == n) s.doms with
    | none => (s, dflt)
    | some (d, rest) =>
      let (t, a) := f { s with kind := .idle, dom := d, doms := insertBy Dom.ix s.dom rest }
      match takeFirst (fun d : Dom => d.ix == s.dom.ix) t.doms with
      | none => ({ t with kind := s.kind }, a)
      | some (o, rest) => ({ t with kind := s.kind, dom := o, doms := insertBy Dom.ix t.dom rest }, a)

/-- R168: the tag of the granule at a physical byte, and as core `core` sees it: its L1 carries it with the data. -/
def Dom.tagAt (d : Dom) (key : Nat) : BitVec 4 := mget d.tags (key / 32)

def tagIn (tags : BitVec 8) (key : Nat) : BitVec 4 := tags.extractLsb' (4 * (key / 32 % 2)) 4

def Dom.tagSeen (d : Dom) (core key : Nat) : BitVec 4 :=
  match d.copyOf core (key / 64) with
  | some x => tagIn x.tags key
  | none => d.tagAt key

/-- R168: the bytes from `key` on touch a granule whose tag is not the pointer's. -/
def tagsFail (tag : Nat → BitVec 4) (va : W64) (key n : Nat) : Bool :=
  let p := BitVec.ofNat 4 (bitsOf va.toNat 56 4)
  (List.range ((key % 32 + max n 1 + 31) / 32)).any fun i => tag (key + 32 * i) != p

/-- R174 checks 5 and 7 under a leaf, and R402 and R407 below them; `none` when all pass. `core` is the core in whose L1
the access may hit; 96 names none. -/
def State.leafFail (s : State) (core : Nat) (user : Bool) (va : W64) (l : Leaf) (w : Want) : Option Fail :=
  let key := l.key va
  if 3 < l.tier.toNat ∨ (user = true ∧ l.user = false) ∨ (w.write = true ∧ l.w = false) ∨ (l.tier = 3 ∧ l.tagen = true) then
    some ⟨5, .protection, 0, false⟩
  else if l.tagen = true ∧ w.tags = true ∧ tagsFail (s.dom.tagSeen core) va key w.n = true then
    some ⟨7, .tagMismatch, 0, false⟩
  else if w.atomic = true ∧ l.tier = 3 then some ⟨8, .atomicUnsupported, 0, false⟩
  else if s.tier2Failed key = true then some ⟨10, .uncorrectable, 0, false⟩
  else if (w.write = false ∨ w.atomic = true) ∧ s.dom.poison.contains (key / 64) then some ⟨10, .uncorrectable, 0, false⟩
  else none

/-- R399: an import entry; R399: an export slot of a domain, with the generation it stands at. -/
def Dom.exportAt (d : Dom) (slot : Nat) : Export :=
  (d.exports[slot]?).getD { base := 0, pages := 0, read := false, write := false, atomic := false, tenant := 0,
                            live := false, gen := d.genBase }

/-- R400: an access that the permissions of an export forbid. -/
def Export.forbids (x : Export) (w : Want) : Bool :=
  if w.atomic then !x.atomic else if w.write then !x.write else !x.read

/-- R152, R174, R400: the first check that fails at the target domain, in the order of R174: key id (4); the export's range and
permissions, the walk and the leaf (5); the generation (6); then tags and what lies below. `leaf` is the target's own leaf for the
page, or why there is none. DESIGN CHOICE (log 44): a page without a leaf, or whose leaf is itself a peer-window page, is a
REMOTE_ERROR (9), and so an export slot that holds no range fails check 6 or, at its own generation, check 5. -/
def State.exportFail (s : State) (x : Export) (gen : BitVec 12) (page : Nat) (user : Bool) (va : W64) (w : Want) (leaf : Walk) :
    Option Fail :=
  let stale : Option Fail := if x.gen ≠ gen then some ⟨6, .staleHandle, 0, false⟩ else none
  let range : Option Fail := if x.pages ≤ page ∨ x.forbids w = true then some ⟨5, .protection, 0, false⟩ else none
  if x.live = false then stale <|> some ⟨5, .protection, 0, false⟩
  else if x.pages ≤ page then range
  else match leaf with
    | .fail f => if f.cause = .pageFault then range <|> stale <|> some ⟨9, .remoteError, 0, false⟩ else some f
    | .leaf _ l =>
      if !s.dom.keysMatch l then some ⟨4, .keyAlias, 0, false⟩
      else match range, s.leafFail 96 user va l w with
        | some f, _ => some f
        | none, some f => if f.order ≤ 5 then some f else stale <|> some f
        | none, none => stale <|> (if l.tier = 2 then some ⟨9, .remoteError, 0, false⟩ else none)

/-- R152, R399, R400: an access through a handle at the target domain, under the domain's own leaf for the exported page. -/
def State.exportCheck (s : State) (gen : BitVec 12) (slot page off : Nat) (tag : Nat) (user : Bool) (w : Want) :
    State × Except Fail (W64 × Leaf) :=
  let x := s.dom.exportAt slot
  let va := x.base + BitVec.ofNat 64 (page * 65536 + off) + BitVec.ofNat 64 (tag * 2 ^ 56)
  let walk := s.dom.walk x.tenant va
  match s.exportFail x gen page user va w walk, walk with
  | some f, _ => (s, .error f)
  | none, .leaf addr l => (s.setDom (s.dom.setAD addr false), .ok (va, l))
  | none, .fail f => (s, .error f)

/-- R174 checks 6 and 9 for a peer-window page. DESIGN CHOICE: what lies behind a fabric port is one memory for all sixteen ports,
named by handle and offset (log 98); an access between two domains performs while the Evelm link of their dies is down as it
does while the link is up (log 99). -/
def State.peerCheck (s : State) (user : Bool) (va : W64) (l : Leaf) (w : Want) : State × Except Fail Target :=
  let entry := l.frame.toNat * 131072
  let own := if l.dirty then none else some va
  let total := bitsOf entry 25 26 * 65536 + va.toNat % 2 ^ pageBits l.level
  match s.dom.imports.find? fun x => x.ix == bitsOf entry 17 8 with
  | none => (s, .error ⟨6, .staleHandle, 0, true⟩)
  | some im =>
    let hd := im.handle.toNat
    match im.port with
    | some p =>
      match w.sc with
      | some sc =>
        if sc ≠ .sys then (s, .error ⟨6, .illegalOperand, 0, false⟩)
        else if ((s.ports[p]?).map (·.up)).getD false then (s, .ok (.fabric p (hd * 2 ^ 42 + total) own))
        else (s, .error ⟨9, .remoteError, 0, true⟩)
      | none =>
        if ((s.ports[p]?).map (·.up)).getD false then (s, .ok (.fabric p (hd * 2 ^ 42 + total) own))
        else (s, .error ⟨9, .remoteError, 0, true⟩)
    | none =>
      let dom := bitsOf hd 28 4
      s.withDom dom (.error ⟨9, .remoteError, 0, true⟩) fun s =>
        if !s.dom.up then (s, .error ⟨9, .remoteError, 0, true⟩)
        else match s.exportCheck (BitVec.ofNat 12 hd) (bitsOf hd 12 16) (total / 65536) (total % 65536) (bitsOf va.toNat 56 4) user w with
          | (s, .error f) => (s, .error { f with remote := true })
          | (s, .ok (va, l)) => (s, .ok (.peer dom (s.dom.exportAt (bitsOf hd 12 16)).tenant va l own))

/-- The leaf for an address: a hit in the core's L1 needs no translation (R286) unless D must be set (R285). -/
def State.leafFor (s : State) (who : Who) (va : W64) (w : Want) : State × Except Fail Leaf :=
  let cached := if w.tlb then none else (s.dom.l1Find who.core who.tenant va).map (·.leaf)
  let (d, r) := s.dom.translate cached (who.core / 8) who.tenant va w.write
  (s.setDom d, r)

/-- R174: the checks of a global access, in their order. On a peer-window page checks 4, 5 and 7 are the target's. -/
def State.check (s : State) (who : Who) (va : W64) (w : Want) : State × Except Fail Target :=
  if bitsOf va.toNat 60 4 ≠ 0 then (s, .error ⟨1, .protection, 0, false⟩)
  else if w.n ≠ 0 ∧ va.toNat % w.n ≠ 0 then (s, .error ⟨2, .misaligned, 0, false⟩)
  else match s.leafFor who va w with
    | (s, .error f) => (s, .error f)
    | (s, .ok l) =>
      if l.tier = 2 then s.peerCheck who.user va l w
      else match s.leafFail (if w.tlb then 96 else who.core) who.user va l w with
        | some f => (s, .error f)
        | none => (s, .ok (.loc va l))

/-- R285: D of the leaf under which an address lies, of the domain in focus. -/
def State.setD (s : State) (cluster : Nat) (tenant : BitVec 8) (va : W64) : State × Bool :=
  let r := s.dom.setD cluster tenant va
  (s.setDom r.1, r.2)

/-- R285: D of an entry that a handle's domain, in focus, has for an address of a tenant. -/
def State.markD (s : State) (tenant : BitVec 8) (va : W64) : State :=
  match s.dom.walk tenant va with
  | .leaf addr _ => s.setDom (s.dom.setAD addr true)
  | .fail _ => s

/-- R285: an access that has passed its checks writes: D is set if this is the first write under a translation, that of the domain's
own leaf, and behind a peer-window page that of the target's leaf too (R152). A form that traps unwritten sets none. -/
def State.firstWrite (s : State) (who : Who) : Target → State × Target
  | .loc va l =>
    if l.dirty then (s, .loc va l)
    else
      let r := s.setD (who.core / 8) who.tenant va
      (r.1, .loc va { l with dirty := r.2 })
  | .peer dom tn va l own =>
    let s := own.elim s fun a => (s.setD (who.core / 8) who.tenant a).1
    if l.dirty then (s, .peer dom tn va l none)
    else
      let t := s.withDom dom () fun s => (s.markD tn va, ())
      (t.1, .peer dom tn va { l with dirty := true } none)
  | .fabric p key own => (own.elim s fun a => (s.setD (who.core / 8) who.tenant a).1, .fabric p key none)

/-- The 64-byte sector that a target names, across all spaces. -/
def Target.sector : Target → Nat
  | .loc va l => l.key va / 64
  | .peer dom _ va l _ => (dom + 16) * 2 ^ 56 + l.key va / 64
  | .fabric port key _ => (port + 32) * 2 ^ 56 + key / 64

/-- R355: the access meets a sector that the serial lane holds locked. -/
def State.lockedFor (s : State) (who : Who) (t : Target) (write : Bool) : Bool :=
  match t with
  | .loc va l => !who.serial && s.dom.lockedAt (l.key va / 64) write
  | .peer dom _ va l _ => (s.withDom dom false fun s => (s, s.dom.lockedAt (l.key va / 64) write)).2
  | .fabric _ _ _ => false

/-- A read at the home slice, after the directory recalls the owner of a coherent sector. -/
def State.homeRead (s : State) (va : W64) (l : Leaf) (n : Nat) : State × Nat :=
  let s := if l.reg = 2 then s.recall 96 (l.key va / 64) true else s
  (s, s.home (l.key va) n)

/-- A write at the home slice, of an access of a tenant. -/
def State.homeWrite (s : State) (tenant : BitVec 8) (va : W64) (l : Leaf) (n val : Nat) (m : TokMark) : State :=
  let s := if l.reg = 2 then s.recall 96 (l.key va / 64) false else s
  s.putUnder tenant l (l.key va) n val m

/-- R186: the number under which a domain's monitors name a sector of a peer package's memory. -/
def fabricSector (key : Nat) : Nat := 2 ^ 90 + key / 64

/-- R17, R186, R367: a write to memory of a peer package; the token travels through the fabric port with it, and monitors on the
sector are hit. -/
def State.fabricPut (s : State) (key n val : Nat) (m : TokMark) : State :=
  let rest := s.fabricTok.filter fun e => e.sector != key / 64
  let mem := wrN s.fabricMem key n val
  let hit := fun d : Dom => (d.hitMonitors (fabricSector key)).seeWrite (fabricSector key) fun off k => rdN mem (key / 64 * 64 + off) k
  { s with dom := hit s.dom, doms := s.doms.map hit, fabricMem := mem,
           fabricTok := match m with
             | .none => s.fabricTok
             | .plain => rest
             | .tok t u => { sector := key / 64, token := t, unit := u } :: rest }

/-- How a read performs. -/
def State.doRead (s : State) (who : Who) (t : Target) (h : Hint) (n : Nat) : State × Nat :=
  match t with
  | .loc va l => (s.demand who.core who.tenant va h l false).readAt who.core who.tenant va l h n
  | .peer dom tn va l _ => s.withDom dom 0 fun s => (s.homeUse tn va l h).homeRead va l n
  | .fabric _ key _ => (s, rdN s.fabricMem key n)

/-- How a write performs. -/
def State.doWrite (s : State) (who : Who) (t : Target) (h : Hint) (n val : Nat) (m : TokMark) : State :=
  match s.firstWrite who t with
  | (s, .loc va l) => (s.demand who.core who.tenant va h l (l.reg == 1)).writeAt who.core who.tenant va l h n val m
  | (s, .peer dom tn va l _) => (s.withDom dom () fun s => ((s.homeUse tn va l h).homeWrite tn va l n val m, ())).1
  | (s, .fabric _ key _) => s.fabricPut key n val m

/-- How an atomic performs; answers the old value. -/
def State.doRmw (s : State) (who : Who) (t : Target) (h : Hint) (n : Nat) (ret : Bool) (f : Nat → Option Nat)
    (m : TokMark) : State × Nat :=
  match s.firstWrite who t with
  | (s, .loc va l) => (s.demand who.core who.tenant va h l (!(ret && l.atomInL1))).rmwAt who.core who.tenant va l h n ret f m
  | (s, .peer dom tn va l _) => s.withDom dom 0 fun s =>
      let (s, old) := (s.homeUse tn va l h).homeRead va l n
      match f old with
      | none => (s.setDom (s.dom.setDirty (l.key va)), old)
      | some x => (s.homeWrite tn va l n x m, old)
  | (s, .fabric _ key _) =>
    let old := rdN s.fabricMem key n
    match f old with
    | none => (s, old)
    | some x => (s.fabricPut key n x m, old)

/-- A write at the home slice whatever the region, as engines and units make it (R217, R368), with its hint (R167): the core's own
copy is written back and invalidated first. -/
def State.unitWrite (s : State) (who : Who) (t : Target) (h : Hint) (n val : Nat) (m : TokMark) : State :=
  match s.firstWrite who t with
  | (s, .loc va l) => ((s.flushL1 (fun x => x.is who.core (l.key va / 64)) false).homeUse who.tenant va l h).homeWrite who.tenant va l n val m
  | (s, .peer dom tn va l _) => (s.withDom dom () fun s => ((s.homeUse tn va l h).homeWrite tn va l n val m, ())).1
  | (s, .fabric _ key _) => s.fabricPut key n val m

/-- A read at the home slice as engines make it: the core's own dirty copy is taken first. -/
def State.unitRead (s : State) (who : Who) (t : Target) (h : Hint) (n : Nat) : State × Nat :=
  match t with
  | .loc va l =>
    ((s.flushL1 (fun x => x.is who.core (l.key va / 64) && x.dirty) true).homeUse who.tenant va l h).homeRead va l n
  | .peer dom tn va l _ => s.withDom dom 0 fun s => (s.homeUse tn va l h).homeRead va l n
  | .fabric _ key _ => (s, rdN s.fabricMem key n)

/-! What a lock holds off of the device's own units (R15, R346) -/

/-- R15, R346: a plain write of `n` bytes by a unit of the device that no path waits for. At a sector that a lock holds it bounces, and
performs as the lock frees (log 136). -/
def State.unitPut (s : State) (who : Who) (t : Target) (n val : Nat) : State :=
  let late := fun (s : State) (core : Nat) (tenant : BitVec 8) (va : W64) (l : Leaf) =>
    ({ s with dom := { s.dom with late := s.dom.late ++ [.put core tenant va l n val] } } : State)
  match t with
  | .loc va l =>
    if s.dom.lockedAt (l.key va / 64) true then late s who.core who.tenant va l else s.unitWrite who t .normal n val .plain
  | .peer dom tn va l own =>
    if s.lockedFor who t true then
      (s.withDom dom () fun s => (late s 96 tn va l, ())).1
    else s.unitWrite who (.peer dom tn va l own) .normal n val .plain
  | .fabric _ _ _ => s.unitWrite who t .normal n val .plain

/-- R379: a write of the trace unit, at a physical byte. -/
def State.rawPut (s : State) (key n val : Nat) : State := (s.recall 96 (key / 64) false).homePut none key n val .plain

/-- R285: the swap failed on an entry that has been rewritten: no store goes on without a walk under a translation that knows D. -/
def Dom.forgetD (d : Dom) : Dom :=
  let f := fun l : Leaf => { l with dirty := false }
  { d with tlb := d.tlb.map fun t => { t with leaf := f t.leaf }, l1 := d.l1.map fun x => { x with leaf := f x.leaf } }

/-- R15, R285: what a lock has held off performs. A swap of the walker changes nothing in an entry that is not the one it read. -/
def State.latePut (s : State) : Late → State
  | .ad addr seen write =>
    if s.dom.entryAt addr = seen then s.setDom (s.dom.setAD addr write)
    else { s with dom := s.dom.forgetD }
  | .put core tenant va l n val =>
    s.unitWrite { core := core, tenant := tenant, user := false, unit := 0, serial := false } (.loc va l) .normal n val .plain
  | .raw key n val => s.rawPut key n val
  | .bit a k => s.setDom (s.dom.setBit a k)

/-- R346, R355: the locks of the serial lane are free: what they have held off performs, in its order. -/
def State.unlock (s : State) : State :=
  let late := s.dom.late
  let s : State := { s with dom := { s.dom with serial := none, locks := [], late := [] } }
  late.foldl State.latePut s

/-- R346, R355: the serial lane locks a sector at its home slice, which takes the owners' copies first: no dirty copy of it stands in an
L1 while the lock does. DEDUCED (log 131). -/
def State.takeLock (s : State) (sector : Nat) (locks : List Lock) : State :=
  let t := s.flushL1 (fun x => x.key == sector && x.dirty) true
  { t with dom := { t.dom with locks := locks } }

/-- R355: `n` bytes are written at the home slice in place, under the serial lane's exclusive lock, or put back as they stood before it.
No other party learns of it: neither the token cache nor a monitor nor the dirty-page bitmap, before the lane commits. -/
def State.quietPut (s : State) (tenant : BitVec 8) (key n val : Nat) : State :=
  let t := s.l2Access (some tenant) key (if s.dom.l2.any (s.dom.lineOf key 0 0 none).same then 0 else 1) none false
  { t with dom := { t.dom with mem := wrN t.dom.mem key n val } }

/-- R355: the serial lane's own write. -/
def State.serialWrite (s : State) (who : Who) (va : W64) (l : Leaf) (h : Hint) (n val : Nat) : State :=
  let key := l.key va
  let s := (s.firstWrite who (.loc va l)).1
  let s := s.flushL1 (fun x => x.key == key / 64 && (x.core == who.core || x.leaf.reg == 2)) false
  (s.homeUse who.tenant va l h).quietPut who.tenant key n val

/-- R346, R355, R367: the serial lane's writes to a sector become visible, with the token of its path. -/
def State.publish (s : State) (sector : Nat) (m : TokMark) : State :=
  let s := s.setDom (s.dom.setDirty (sector * 64))
  let d := (s.dom.markToken sector m).hitMonitors sector
  { s with dom := d.seeWrite sector fun off n => rdN d.mem (sector * 64 + off) n }

/-- The blocks of the domain in focus, the focused one among them. -/
def State.allBlocks (s : State) : List Block :=
  match s.kind with
  | .idle => s.dom.blocks
  | .path => insertBy Block.id (s.block.withWave (s.wave.withPath s.path)) s.dom.blocks
  | .stream => insertBy Block.id s.block s.dom.blocks

def Block.base (b : Block) (i : Nat) : Nat := (b.bases[i]?).getD 0
def Block.size (b : Block) (i : Nat) : Nat := (b.sizes[i]?).getD 0

/-- R43, R155: the AB run that a wave addresses. -/
def State.abBase (s : State) : Nat := if s.block.task then s.wave.abbase else s.block.base 0
def State.abSize (s : State) : Nat := if s.block.task then s.wave.absize else s.block.size 0

/-- R156: the AB runs of a launch on a core: those of its resident blocks, and of the waves of its task block. -/
def State.abRuns (s : State) (launch : W32) (core : Nat) : List (Nat × Nat) :=
  (s.allBlocks.filter fun b => b.launch == launch && b.core == core && b.res == .resident).flatMap fun b =>
    if b.task then b.waves.map fun w => (w.abbase, w.absize) else [(b.base 0, b.size 0)]

/-- R156: an AB address: the core and the byte, and whether it came through the cluster window. Bits [63:24] must be 0; with bit 23
clear the offset lies in the wave's own run, whole; with bit 23 set bits [22:20] name a core of the cluster, and bits [19:0] a byte
of its AB, which must lie, whole, in a run that one resident block of the same launch has there. -/
def State.abAddr (s : State) (a : W64) (n : Nat) : Except Fail (Nat × Nat × Bool) :=
  let x := a.toNat
  if 2 ^ 24 ≤ x then .error ⟨1, .bufferRange, 0, false⟩
  else if x < 2 ^ 23 then
    if x + n ≤ s.abSize then .ok (s.core.ix, s.abBase + x, false) else .error ⟨1, .bufferRange, 0, false⟩
  else
    let core := s.cluster * 8 + bitsOf x 20 3
    let off := bitsOf x 0 20
    if (s.abRuns s.block.launch core).any fun r => r.1 ≤ off && off + n ≤ r.1 + r.2 then .ok (core, off, true)
    else .error ⟨1, .bufferRange, 0, false⟩

/-- R156, R158: range before alignment. -/
def State.abCheck (s : State) (a : W64) (n : Nat) : Except Fail (Nat × Nat × Bool) :=
  match s.abAddr a n with
  | .error f => .error f
  | .ok r => if n ≠ 0 ∧ a.toNat % n ≠ 0 then .error ⟨2, .misaligned, 0, false⟩ else .ok r

/-- R155: the ACC byte that an offset names. -/
def State.accCheck (s : State) (a : W64) (n : Nat) : Except Fail Nat :=
  let sz := if s.block.task then 0 else s.block.size 2
  if sz < a.toNat + n then .error ⟨1, .bufferRange, 0, false⟩
  else if a.toNat % n ≠ 0 then .error ⟨2, .misaligned, 0, false⟩
  else .ok (s.block.base 2 + a.toNat)

/-- AB bytes of a core. -/
def State.abRead (s : State) (core byte n : Nat) : Nat := rdN (s.coreAt core).ab byte n
def State.abWrite (s : State) (core byte n val : Nat) : State :=
  s.updCore core fun c => ({ c with ab := wrN c.ab byte n val } : Core).mend 0 byte n

/-- R160: a sector enters a core's constant cache, 128 sets of 4 ways. DESIGN CHOICE (log 79): va[12:6] names its set, and the
least recently used sector of a full set leaves. -/
def Dom.constFill (d : Dom) (x : CSector) : Dom :=
  let set := fun y : CSector => y.core == x.core && y.va.toNat % 128 == x.va.toNat % 128
  let rest := d.ccache.filter fun y => !(y.core == x.core && y.tenant == x.tenant && y.va == x.va)
  let rest := match if (rest.filter set).length < 4 then none else (rest.filter set).getLast? with
    | none => rest
    | some old => rest.filter fun y => y != old
  { d with ccache := x :: rest }

/-- R153, R160: a constant read through the core's constant cache, which keeps no device sector (R163), and none that the serial lane
reads while it holds it exclusive, whose value may be undone (R355). DESIGN CHOICE (log 80):
a peer-window page, which R149 leaves out of constant space, raises PROTECTION once the checks of R174 have passed. -/
def State.constRead (s : State) (who : Who) (va : W64) (n : Nat) : State × Except Fail Nat :=
  let w : Want := { n := n, write := false, atomic := false, tags := true, sc := none, tlb := true }
  if bitsOf va.toNat 60 4 ≠ 0 then (s, .error ⟨1, .protection, 0, false⟩)
  else if va.toNat % n ≠ 0 then (s, .error ⟨2, .misaligned, 0, false⟩)
  else match s.dom.ccache.find? fun x => x.core == who.core && x.tenant == who.tenant && x.va == sectorVa va with
    | some x => match s.leafFail 96 who.user va x.leaf { w with tags := false } with
      | some f => (s, .error f)
      | none =>
        if x.leaf.tagen = true ∧ tagsFail (tagIn x.tags) va (x.leaf.key va) n = true then (s, .error ⟨7, .tagMismatch, 0, false⟩)
        else ({ s with dom := s.dom.constFill x }, .ok (sectorRead x.data (va.toNat % 64) n))
    | none =>
      match s.check who va w with
      | (s, .error f) => (s, .error f)
      | (s, .ok (.loc va l)) =>
        let (s, v) := (s.homeUse who.tenant va l .normal).homeRead va l n
        if l.reg = 3 || s.dom.lockedAt (l.key va / 64) false then (s, .ok v)
        else
          let sec := l.key va / 64
          let data := BitVec.ofNat 512 (s.home (sec * 64) 64)
          let x : CSector := { core := who.core, key := sec, va := sectorVa va, tenant := who.tenant, leaf := l, data := data,
                               tags := s.dom.tagsAt sec }
          ({ s with dom := s.dom.constFill x }, .ok (sectorRead data (va.toNat % 64) n))
      | (s, .ok _) => (s, .error ⟨5, .protection, 0, false⟩)

end Sys2Proof.Machine
end

