-- ==== Sys2Proof/Machine/Uses.lean ====
section
/-! DEFINITION. What each form reads and writes (R74, R81, R82, R113), its pipe (R86), and whether it honours
its lookahead count (R81). -/

namespace Sys2Proof

open Sys2Proof.Machine

/-- The registers an operand of `v` vector and `s` uniform registers names. -/
def Opnd.regs (o : Opnd) (v s : Nat) : List Reg :=
  match o with
  | .v n => (List.range v).map fun i => .v (n.toNat + i)
  | .pair n => [.v (2 * n.toNat), .v (2 * n.toNat + 1)]
  | .s n => (List.range s).map fun i => .s (n.toNat + i)
  | .q n => [.q n.toNat]
  | _ => []

/-- What a form reads and writes. -/
structure Uses where
  reads : List Reg
  writes : List Reg
  deriving DecidableEq, Repr

/-- R74, R78: the vector registers of a typed operand. -/
def vw (t : ITy) : Nat := if t.wide then 2 else 1

/-- R177: the vector and the uniform registers of a memory operand. -/
def szV : Size → Nat
  | .n64 => 2
  | .b128 => 4
  | _ => 1

def szS : Size → Nat
  | .b128 => 2
  | _ => 1

/-- The usual shape: D is written; A, B, C and the guard predicate are read. DESIGN CHOICE (log 118): a guard of q7 is no read of q7,
which a window whose D is q7 would otherwise meet (R82); an operand q7 is one. -/
def mkUses (o : Args) (dv ds av bv cv cs : Nat) : Uses :=
  let g : List Reg := if o.h.pred = 7 then [] else [.q o.h.pred.toNat]
  { reads := g ++ Opnd.regs o.a av 1 ++ Opnd.regs o.b bv 1 ++ Opnd.regs o.c cv cs,
    writes := Opnd.regs o.d dv ds }

/-- D is read, nothing is written. -/
def Uses.dRead (u : Uses) : Uses := { reads := u.writes ++ u.reads, writes := [] }
/-- D is read as well as written. -/
def Uses.dBoth (u : Uses) : Uses := { u with reads := u.writes ++ u.reads }
/-- R117: C is a second destination. -/
def Uses.cBoth (u : Uses) (o : Args) : Uses := { u with writes := u.writes ++ Opnd.regs o.c 1 1 }
/-- R390: D and A name bounds; nothing is read. -/
def Uses.bounds (_ : Uses) (o : Args) : Uses :=
  { reads := if o.h.pred = 7 then [] else [.q o.h.pred.toNat], writes := [] }
def allQ : List Reg := (List.range 7).map .q

/-- The registers a form reads and writes; an event names none. DESIGN CHOICE (log 94): D of `cpl`, `cpt`, `cpts` and `cpta`,
which is read as a source, is among the reads, and the destination set of R81 is empty. -/
def Instr.uses : Instr → Uses
  | .nop o => mkUses o 1 1 1 1 1 1
  | .yieldI o => mkUses o 1 1 1 1 1 1
  | .exitI o => mkUses o 1 1 1 1 1 1
  | .trapI o => mkUses o 1 1 1 1 1 1
  | .bkpt o => mkUses o 1 1 1 1 1 1
  | .fbk _ o => (mkUses o 1 1 1 1 1 1).bounds o
  | .bra _ o => mkUses o 1 1 1 1 1 1
  | .brx _ _ o => mkUses o 1 1 1 1 1 1
  | .jmp o => mkUses o 1 1 2 1 1 1
  | .callI _ o => mkUses o 1 1 1 1 1 1
  | .callx o => mkUses o 1 1 2 1 1 1
  | .ret o => mkUses o 1 1 1 1 1 1
  | .recon _ o => mkUses o 1 1 1 1 1 1
  | .joinI o => mkUses o 1 1 1 1 1 1
  | .wsync o => mkUses o 1 1 1 1 1 1
  | .pathq _ o => mkUses o 1 1 1 1 1 1
  | .pand o => mkUses o 1 1 1 1 1 1
  | .por o => mkUses o 1 1 1 1 1 1
  | .pxor o => mkUses o 1 1 1 1 1 1
  | .pnot o => mkUses o 1 1 1 1 1 1
  | .psetM o => mkUses o 1 1 1 1 1 1
  | .psetP o => { mkUses o 1 1 1 1 1 1 with writes := allQ }
  | .pget o => let u := mkUses o 1 1 1 1 1 1; { u with reads := u.reads ++ allQ }
  | .iadd _ t o => mkUses o (vw t) 1 (vw t) (vw t) 1 1
  | .isub _ t o => mkUses o (vw t) 1 (vw t) (vw t) 1 1
  | .iaddc t o => (mkUses o (vw t) 1 (vw t) (vw t) 1 1).cBoth o
  | .isubb t o => (mkUses o (vw t) 1 (vw t) (vw t) 1 1).cBoth o
  | .imul _ t o => mkUses o (vw t) 1 (vw t) (vw t) 1 1
  | .imulh t o => mkUses o (vw t) 1 (vw t) (vw t) 1 1
  | .imad _ t o => mkUses o (vw t) 1 (vw t) (vw t) (vw t) 1
  | .idiv t o => mkUses o (vw t) 1 (vw t) (vw t) 1 1
  | .irem t o => mkUses o (vw t) 1 (vw t) (vw t) 1 1
  | .imin t o => mkUses o (vw t) 1 (vw t) (vw t) 1 1
  | .imax t o => mkUses o (vw t) 1 (vw t) (vw t) 1 1
  | .iabs _ t o => mkUses o (vw t) 1 (vw t) 1 1 1
  | .ineg _ t o => mkUses o (vw t) 1 (vw t) 1 1 1
  | .isat t o => mkUses o (vw t) 1 (vw t) (vw t) (vw t) 1
  | .andI t o => mkUses o (vw t) 1 (vw t) (vw t) 1 1
  | .orI t o => mkUses o (vw t) 1 (vw t) (vw t) 1 1
  | .xorI t o => mkUses o (vw t) 1 (vw t) (vw t) 1 1
  | .notI t o => mkUses o (vw t) 1 (vw t) 1 1 1
  | .andn t o => mkUses o (vw t) 1 (vw t) (vw t) 1 1
  | .shl t o => mkUses o (vw t) 1 (vw t) 1 1 1
  | .shr t o => mkUses o (vw t) 1 (vw t) 1 1 1
  | .sar t o => mkUses o (vw t) 1 (vw t) 1 1 1
  | .rotl t o => mkUses o (vw t) 1 (vw t) 1 1 1
  | .bfe t o => mkUses o (vw t) 1 (vw t) 1 1 1
  | .bfi t o => mkUses o (vw t) 1 (vw t) (vw t) 1 1
  | .popc t o => mkUses o (vw t) 1 (vw t) 1 1 1
  | .clz t o => mkUses o (vw t) 1 (vw t) 1 1 1
  | .ctz t o => mkUses o (vw t) 1 (vw t) 1 1 1
  | .brev t o => mkUses o (vw t) 1 (vw t) 1 1 1
  | .bsel t o => mkUses o (vw t) 1 (vw t) (vw t) 1 1
  | .icmp _ t o => mkUses o (vw t) 1 (vw t) (vw t) 1 1
  | .isel t o => mkUses o (vw t) 1 (vw t) (vw t) (vw t) 1
  | .lea _ t _ o => mkUses o (vw t) 1 1 1 1 1
  | .mov t o => mkUses o (vw t) 1 (vw t) 1 1 1
  | .movi t o => (mkUses o (vw t) 1 1 1 1 1).dBoth
  | .cvti _ sty t o => mkUses o (vw t) 1 (vw sty) 1 1 1
  | .shfl _ _ t o => mkUses o (vw t) 1 (vw t) 1 1 1
  | .vote _ o => mkUses o 1 1 1 1 1 1
  | .ballot o => mkUses o 2 1 1 1 1 1
  | .redux _ t o => mkUses o (vw t) 1 (vw t) 1 1 1
  | .scan _ _ t o => mkUses o (vw t) 1 (vw t) 1 1 1
  | .matchL t o => mkUses o 1 1 (vw t) 1 1 1
  | .rdlane t o => mkUses o (vw t) 1 (vw t) 1 1 1
  | .wrlane t o => mkUses o (vw t) 1 (vw t) 1 1 1
  | .fadd _ _ o => mkUses o 1 1 1 1 1 1
  | .fsub _ _ o => mkUses o 1 1 1 1 1 1
  | .fmul _ _ o => mkUses o 1 1 1 1 1 1
  | .ffma _ _ o => mkUses o 1 1 1 1 1 1
  | .fmin _ _ o => mkUses o 1 1 1 1 1 1
  | .fmax _ _ o => mkUses o 1 1 1 1 1 1
  | .fcmp _ _ _ o => mkUses o 1 1 1 1 1 1
  | .fclass _ o => mkUses o 1 1 1 1 1 1
  | .fscale _ _ o => mkUses o 1 1 1 1 1 1
  | .frnd _ _ o => mkUses o 1 1 1 1 1 1
  | .frcp _ _ o => mkUses o 1 1 1 1 1 1
  | .frsq _ _ o => mkUses o 1 1 1 1 1 1
  | .fsqrt _ _ o => mkUses o 1 1 1 1 1 1
  | .fdiv _ _ o => mkUses o 1 1 1 1 1 1
  | .fexp2 _ o => mkUses o 1 1 1 1 1 1
  | .flog2 _ o => mkUses o 1 1 1 1 1 1
  | .fsin _ o => mkUses o 1 1 1 1 1 1
  | .fcos _ o => mkUses o 1 1 1 1 1 1
  | .ftanh _ o => mkUses o 1 1 1 1 1 1
  | .hadd2 _ _ o => mkUses o 1 1 1 1 1 1
  | .hmul2 _ _ o => mkUses o 1 1 1 1 1 1
  | .hfma2 _ _ o => mkUses o 1 1 1 1 1 1
  | .hmin2 _ _ o => mkUses o 1 1 1 1 1 1
  | .hmax2 _ _ o => mkUses o 1 1 1 1 1 1
  | .cvt _ _ _ o => mkUses o 1 1 1 1 1 1
  | .cvtfi _ ty _ o => mkUses o (vw ty) 1 1 1 1 1
  | .cvtif _ ty _ o => mkUses o 1 1 (vw ty) 1 1 1
  | .dot4 _ _ _ o => mkUses o 1 1 1 1 1 1
  | .dot2 _ _ o => mkUses o 1 1 1 1 1 1
  | .setfmt o => mkUses o 1 1 1 1 1 1
  | .getfmt o => mkUses o 1 1 1 1 1 1
  | .jbexp o => mkUses o 1 1 1 1 1 1
  | .jbpack o => mkUses o 1 1 1 1 1 1
  | .jbunpack o => mkUses o 1 1 1 1 1 1
  | .rdflags o => mkUses o 1 1 1 1 1 1
  | .clrflags o => mkUses o 1 1 1 1 1 1
  | .ld _ _ _ sz _ o => mkUses o (szV sz) (szS sz) 1 1 1 1
  | .st _ _ _ sz _ o => mkUses o 1 1 1 1 (szV sz) (szS sz)
  | .prefetch _ _ o => mkUses o 1 1 1 1 1 1
  | .prefetchL2 _ _ o => mkUses o 1 1 1 1 1 1
  | .cctlWb _ o => mkUses o 1 1 1 1 1 1
  | .cctlWbinv _ o => mkUses o 1 1 1 1 1 1
  | .cctlDemoteEf _ o => mkUses o 1 1 1 1 1 1
  | .cctlDemote _ o => mkUses o 1 1 1 1 1 1
  | .cctlSettag _ o => mkUses o 1 1 1 1 1 1
  | .mwait _ _ sz _ o => mkUses o (szV sz) (szS sz) 1 1 (szV sz) (szS sz)
  | .fence _ _ o => mkUses o 1 1 1 1 1 1
  | .lds sz _ o => mkUses o (szV sz) (szS sz) 1 1 1 1
  | .sts sz _ o => mkUses o 1 1 1 1 (szV sz) (szS sz)
  | .ldacc sz _ o => mkUses o (szV sz) (szS sz) 1 1 1 1
  | .stacc sz _ o => mkUses o 1 1 1 1 (szV sz) (szS sz)
  | .ldc sz _ o => mkUses o (szV sz) (szS sz) 1 1 1 1
  | .atom _ _ _ _ sz _ o => mkUses o (szV sz) (szS sz) 1 1 (szV sz) (szS sz)
  | .cas _ _ _ sz _ o => mkUses o (szV sz) (szS sz) 1 1 (2 * szV sz) 2
  | .red _ _ _ _ sz _ o => mkUses o 1 1 1 1 (szV sz) (szS sz)
  | .cpl _ _ _ o => (mkUses o 1 1 1 1 1 1).dRead
  | .cplOut _ _ _ o => (mkUses o 1 1 1 1 1 1).dRead
  | .cpclose o => mkUses o 1 1 1 1 1 1
  | .cpwait o => mkUses o 1 1 1 1 1 1
  | .cptAb _ o => (mkUses o 1 1 1 1 1 1).dRead
  | .cptWb _ o => (mkUses o 1 1 1 1 1 1).dRead
  | .cpts _ o => (mkUses o 1 1 1 1 1 1).dRead
  | .cpta _ o => (mkUses o 1 1 1 1 1 1).dRead
  | .tlwait o => mkUses o 1 1 1 1 1 1
  | .tlreadDone o => mkUses o 1 1 1 1 1 1
  | .tlreadIss o => mkUses o 1 1 1 1 1 1
  | .psigSet _ _ o => mkUses o 1 1 1 1 (szV .n64) (szS .n64)
  | .psigAdd _ _ o => mkUses o 1 1 1 1 (szV .n64) (szS .n64)
  | .binit _ o => mkUses o 1 1 1 1 1 1
  | .barv _ o => mkUses o 1 1 1 1 1 1
  | .bwait _ o => mkUses o 1 1 1 1 1 1
  | .bsync _ o => mkUses o 1 1 1 1 1 1
  | .bdrop _ o => mkUses o 1 1 1 1 1 1
  | .gbar o => mkUses o 1 1 1 1 1 1
  | .bstat _ _ o => mkUses o 1 1 1 1 1 1
  | .qinit _ o => mkUses o 1 1 1 1 1 1
  | .qpush _ o => mkUses o 1 1 1 1 1 1
  | .qpop _ o => mkUses o 1 1 1 1 1 1
  | .qtry _ o => mkUses o 1 2 1 1 1 1
  | .qclose _ o => mkUses o 1 1 1 1 1 1
  | .sigwait _ _ _ _ o => mkUses o 1 1 1 1 1 1
  | .signal _ _ _ _ o => mkUses o 1 1 1 1 1 1
  | .rgres _ o => mkUses o 1 2 1 1 1 1
  | .rgcmt _ o => mkUses o 1 1 1 1 1 1
  | .rgpop _ o => mkUses o 1 2 1 1 1 1
  | .rgfree _ o => mkUses o 1 1 1 1 1 1
  | .spawn _ _ _ o => mkUses o 1 1 1 2 1 1
  | .rbsurrHold _ o => mkUses o 1 1 1 1 1 1
  | .rbsurrSkip _ o => mkUses o 1 1 1 1 1 1
  | .rbclaim _ o => mkUses o 1 1 1 1 1 1
  | .mzero _ => { reads := [], writes := [] }
  | .mma _ _ _ _ => { reads := [], writes := [] }
  | .mmas _ _ _ _ => { reads := [], writes := [] }
  | .mcvt _ _ _ => { reads := [], writes := [] }
  | .madd _ => { reads := [], writes := [] }
  | .marv _ _ => { reads := [], writes := [] }
  | .mwaitb _ _ => { reads := [], writes := [] }
  | .mpop _ _ => { reads := [], writes := [] }
  | .mpush _ _ => { reads := [], writes := [] }
  | .mloop _ _ => { reads := [], writes := [] }
  | .mjmp _ _ => { reads := [], writes := [] }
  | .mend _ => { reads := [], writes := [] }
  | .txb _ o => mkUses o 1 1 1 1 1 1
  | .txe o => mkUses o 1 1 1 1 1 1
  | .txabt o => mkUses o 1 1 1 1 1 1
  | .txst _ o => mkUses o 1 1 1 1 1 1
  | .stepb o => mkUses o 1 1 1 1 1 1
  | .stepe o => mkUses o 1 1 1 1 1 1
  | .fgmark o => mkUses o 1 1 1 1 1 1
  | .rngpush o => mkUses o 1 1 1 1 1 1
  | .rngpop o => mkUses o 1 1 1 1 1 1
  | .srd o => mkUses o 1 1 1 1 1 1
  | .swr o => mkUses o 1 1 1 1 1 1
  | .rte o => { reads := .s 127 :: (mkUses o 1 1 1 1 1 1).reads, writes := (List.range 4).map fun k => .s (124 + k) }
  | .tlbiPage _ o => mkUses o 1 1 1 1 1 1
  | .tlbiTenant o => mkUses o 1 1 1 1 1 1
  | .tlbiAll o => mkUses o 1 1 1 1 1 1
  | _ => { reads := [], writes := [] }

/-- R81: the forms that honour L. -/
def Instr.long : Instr → Bool
  | .idiv _ _ => true
  | .irem _ _ => true
  | .shfl _ _ _ _ => true
  | .vote _ _ => true
  | .ballot _ => true
  | .redux _ _ _ => true
  | .scan _ _ _ _ => true
  | .matchL _ _ => true
  | .rdlane _ _ => true
  | .wrlane _ _ => true
  | .frcp _ _ _ => true
  | .frsq _ _ _ => true
  | .fsqrt _ _ _ => true
  | .fdiv _ _ _ => true
  | .fexp2 _ _ => true
  | .flog2 _ _ => true
  | .fsin _ _ => true
  | .fcos _ _ => true
  | .ftanh _ _ => true
  | .ld _ _ _ _ _ _ => true
  | .st _ _ _ _ _ _ => true
  | .prefetch _ _ _ => true
  | .prefetchL2 _ _ _ => true
  | .cctlWb _ _ => true
  | .cctlWbinv _ _ => true
  | .cctlDemoteEf _ _ => true
  | .cctlDemote _ _ => true
  | .cctlSettag _ _ => true
  | .mwait _ _ _ _ _ => true
  | .fence _ _ _ => true
  | .lds _ _ _ => true
  | .sts _ _ _ => true
  | .ldacc _ _ _ => true
  | .stacc _ _ _ => true
  | .ldc _ _ _ => true
  | .atom _ _ _ _ _ _ _ => true
  | .cas _ _ _ _ _ _ => true
  | .red _ _ _ _ _ _ _ => true
  | .cpl _ _ _ _ => true
  | .cplOut _ _ _ _ => true
  | .cpclose _ => true
  | .cpwait _ => true
  | .cptAb _ _ => true
  | .cptWb _ _ => true
  | .cpts _ _ => true
  | .cpta _ _ => true
  | .tlwait _ => true
  | .tlreadDone _ => true
  | .tlreadIss _ => true
  | .psigSet _ _ _ => true
  | .psigAdd _ _ _ => true
  | _ => false

/-- R86: the pipe of a form; an instruction with U = 1 issues on the uniform unit, but for OP 0x01 to 0x03 (R27). -/
def Instr.pipeClass : Instr → Pipe
  | .idiv _ _ => .trans
  | .irem _ _ => .trans
  | .shfl _ _ _ _ => .xbar
  | .vote _ _ => .xbar
  | .ballot _ => .xbar
  | .redux _ _ _ => .xbar
  | .scan _ _ _ _ => .xbar
  | .matchL _ _ => .xbar
  | .rdlane _ _ => .xbar
  | .wrlane _ _ => .xbar
  | .fadd _ _ _ => .flt
  | .fsub _ _ _ => .flt
  | .fmul _ _ _ => .flt
  | .ffma _ _ _ => .flt
  | .fmin _ _ _ => .flt
  | .fmax _ _ _ => .flt
  | .fcmp _ _ _ _ => .flt
  | .fclass _ _ => .flt
  | .fscale _ _ _ => .flt
  | .frnd _ _ _ => .flt
  | .frcp _ _ _ => .trans
  | .frsq _ _ _ => .trans
  | .fsqrt _ _ _ => .trans
  | .fdiv _ _ _ => .trans
  | .fexp2 _ _ => .trans
  | .flog2 _ _ => .trans
  | .fsin _ _ => .trans
  | .fcos _ _ => .trans
  | .ftanh _ _ => .trans
  | .hadd2 _ _ _ => .flt
  | .hmul2 _ _ _ => .flt
  | .hfma2 _ _ _ => .flt
  | .hmin2 _ _ _ => .flt
  | .hmax2 _ _ _ => .flt
  | .cvt _ _ _ _ => .flt
  | .cvtfi _ _ _ _ => .flt
  | .cvtif _ _ _ _ => .flt
  | .dot4 _ _ _ _ => .flt
  | .dot2 _ _ _ => .flt
  | .setfmt _ => .flt
  | .getfmt _ => .flt
  | .jbexp _ => .flt
  | .jbpack _ => .flt
  | .jbunpack _ => .flt
  | .rdflags _ => .flt
  | .clrflags _ => .flt
  | .ld _ _ _ _ _ _ => .mem
  | .st _ _ _ _ _ _ => .mem
  | .prefetch _ _ _ => .mem
  | .prefetchL2 _ _ _ => .mem
  | .cctlWb _ _ => .mem
  | .cctlWbinv _ _ => .mem
  | .cctlDemoteEf _ _ => .mem
  | .cctlDemote _ _ => .mem
  | .cctlSettag _ _ => .mem
  | .mwait _ _ _ _ _ => .mem
  | .fence _ _ _ => .mem
  | .lds _ _ _ => .mem
  | .sts _ _ _ => .mem
  | .ldacc _ _ _ => .mem
  | .stacc _ _ _ => .mem
  | .ldc _ _ _ => .mem
  | .atom _ _ _ _ _ _ _ => .mem
  | .cas _ _ _ _ _ _ => .mem
  | .red _ _ _ _ _ _ _ => .mem
  | .cpl _ _ _ _ => .mem
  | .cplOut _ _ _ _ => .mem
  | .cpclose _ => .mem
  | .cpwait _ => .mem
  | .cptAb _ _ => .mem
  | .cptWb _ _ => .mem
  | .cpts _ _ => .mem
  | .cpta _ _ => .mem
  | .tlwait _ => .mem
  | .tlreadDone _ => .mem
  | .tlreadIss _ => .mem
  | .psigSet _ _ _ => .mem
  | .psigAdd _ _ _ => .mem
  | .binit _ _ => .mem
  | .barv _ _ => .mem
  | .bwait _ _ => .mem
  | .bsync _ _ => .mem
  | .bdrop _ _ => .mem
  | .gbar _ => .mem
  | .bstat _ _ _ => .mem
  | .qinit _ _ => .mem
  | .qpush _ _ => .mem
  | .qpop _ _ => .mem
  | .qtry _ _ => .mem
  | .qclose _ _ => .mem
  | .sigwait _ _ _ _ _ => .mem
  | .signal _ _ _ _ _ => .mem
  | .rgres _ _ => .mem
  | .rgcmt _ _ => .mem
  | .rgpop _ _ => .mem
  | .rgfree _ _ => .mem
  | .spawn _ _ _ _ => .mem
  | .rbsurrHold _ _ => .mem
  | .rbsurrSkip _ _ => .mem
  | .rbclaim _ _ => .mem
  | .mzero _ => .mseq
  | .mma _ _ _ _ => .mseq
  | .mmas _ _ _ _ => .mseq
  | .mcvt _ _ _ => .mseq
  | .madd _ => .mseq
  | .marv _ _ => .mseq
  | .mwaitb _ _ => .mseq
  | .mpop _ _ => .mseq
  | .mpush _ _ => .mseq
  | .mloop _ _ => .mseq
  | .mjmp _ _ => .mseq
  | .mend _ => .mseq
  | .txb _ _ => .mem
  | .txe _ => .mem
  | .txabt _ => .mem
  | .txst _ _ => .mem
  | .stepb _ => .mem
  | .stepe _ => .mem
  | .fgmark _ => .mem
  | .rngpush _ => .mem
  | .rngpop _ => .mem
  | _ => .int

/-- R391: the forms that invalidate a flashback point. -/
def Instr.sideEffect : Instr → Bool
  | .st _ _ _ _ _ _ => true
  | .cctlWb _ _ => true
  | .cctlWbinv _ _ => true
  | .cctlDemoteEf _ _ => true
  | .cctlDemote _ _ => true
  | .cctlSettag _ _ => true
  | .mwait _ _ _ _ _ => true
  | .fence _ _ _ => true
  | .sts _ _ _ => true
  | .stacc _ _ _ => true
  | .atom _ _ _ _ _ _ _ => true
  | .cas _ _ _ _ _ _ => true
  | .red _ _ _ _ _ _ _ => true
  | .cpl _ _ _ _ => true
  | .cplOut _ _ _ _ => true
  | .cpclose _ => true
  | .cpwait _ => true
  | .cptAb _ _ => true
  | .cptWb _ _ => true
  | .cpts _ _ => true
  | .cpta _ _ => true
  | .tlwait _ => true
  | .psigSet _ _ _ => true
  | .psigAdd _ _ _ => true
  | .binit _ _ => true
  | .barv _ _ => true
  | .bwait _ _ => true
  | .bsync _ _ => true
  | .bdrop _ _ => true
  | .gbar _ => true
  | .qinit _ _ => true
  | .qpush _ _ => true
  | .qpop _ _ => true
  | .qtry _ _ => true
  | .qclose _ _ => true
  | .sigwait _ _ _ _ _ => true
  | .signal _ _ _ _ _ => true
  | .rgres _ _ => true
  | .rgcmt _ _ => true
  | .rgpop _ _ => true
  | .rgfree _ _ => true
  | .spawn _ _ _ _ => true
  | .rbsurrHold _ _ => true
  | .rbsurrSkip _ _ => true
  | .rbclaim _ _ => true
  | .txb _ _ => true
  | .txe _ => true
  | .stepb _ => true
  | .stepe _ => true
  | .fgmark _ => true
  | .swr _ => true
  | _ => false

/-- R87: the matrix-stream forms, and the privileged ones. -/
def Instr.matrixOnly (i : Instr) : Bool := match i.opsub with
  | some (op, _) => op == 0x50 || op == 0x51
  | none => false

def Instr.isNop : Instr → Bool
  | .nop _ => true
  | _ => false

def Instr.privileged : Instr → Bool
  | .rte _ | .tlbiPage _ _ | .tlbiTenant _ | .tlbiAll _ => true
  | _ => false

/-- R79: the two halves of an order. -/
def Ord.isAcq : Sys2Proof.Ord → Bool
  | .acq | .acqrel => true
  | _ => false

def Ord.isRel : Sys2Proof.Ord → Bool
  | .rel | .acqrel => true
  | _ => false

/-- R222, R216: the forms that are a release when they act; those of a Clasp region stand apart. -/
def Instr.releases : Instr → Bool
  | .st _ ord _ _ _ _ | .atom _ _ ord _ _ _ _ | .cas _ ord _ _ _ _ | .red _ _ ord _ _ _ _ => ord.isRel
  | .fence _ _ _ | .cpl _ _ _ _ | .cplOut _ _ _ _ | .cptAb _ _ | .cptWb _ _ | .cpts _ _ | .cpta _ _ => true
  | .psigSet _ _ _ | .psigAdd _ _ _ | .barv _ _ | .bsync _ _ | .bdrop _ _ | .gbar _ | .qpush _ _ => true
  | .signal _ _ _ _ _ | .rgcmt _ _ | .rgfree _ _ | .rbsurrHold _ _ | .rbsurrSkip _ _ | .spawn _ _ _ _ => true
  | .stepe _ | .tlbiPage _ _ | .tlbiTenant _ | .tlbiAll _ => true
  | .txe _ => false
  | _ => false

/-- R201, R416: a release that performs at once inside a region too: that of an atomic of AB. -/
def Instr.releasesAb : Instr → Bool
  | .atom _ _ ord sc _ _ _ | .red _ _ ord sc _ _ _ => sc == .ab && ord.isRel
  | .cas _ ord sc _ _ _ => sc == .ab && ord.isRel
  | _ => false

/-- R84: forms whose lanes with a true guard may go elsewhere than to the next sequential PC. -/
def Instr.transfers : Instr → Bool
  | .exitI _ | .trapI _ | .bkpt _ | .bra _ _ | .brx _ _ _ | .jmp _ | .callI _ _ | .callx _ | .ret _ | .rte _ => true
  | _ => false

/-- R84, R336, R337: the forms of the stream that need not go on to the next sequential PC. -/
def Instr.streamTransfers : Instr → Bool
  | .mloop _ _ | .mjmp _ _ | .mend _ => true
  | _ => false

/-- R275: an arrival that is a release at wave scope. -/
def Instr.isWsync : Instr → Bool
  | .wsync _ => true
  | _ => false

def Instr.isTxe : Instr → Bool
  | .txe _ => true
  | _ => false

/-- R249: the memory, copy, counter, queue, Clasp and Filigree forms, and `tlbi`. -/
def Instr.touchesLocket (i : Instr) : Bool := match i.opsub with
  | some (op, sub) => decide (0x30 ≤ op ∧ op ≤ 0x44) || op == 0x60 || op == 0x61 || (op == 0x70 && sub == 3)
  | none => false

/-- R314, R201, R349: OP, which a NOLOG or WAIT abort reports. -/
def Instr.opByte (i : Instr) : Nat := match i.opsub with
  | some (op, _) => op
  | none => 0

/-- R390: the bound that `fbk` names. -/
def Instr.fbBound : Instr → List Reg
  | .fbk _ o => Opnd.regs o.d 1 1
  | _ => []

/-- R27: which unit issues an instruction. -/
def Instr.uniform (i : Instr) : Bool := match i.opsub, i.args with
  | some (op, _), some o => o.h.u && decide (3 < op)
  | _, _ => false

end Sys2Proof
end

