-- ==== Sys2Proof/Machine/Ops.lean ====
section
/-! DEFINITION. The named operations of a path: registers, guards, tokens and records, dividing a path,
taking a trap and returning from one, Clasp aborts, parks, stream faults (R72, R82, R83, R263, R351 to R357,
R366 to R372, R380, R383 to R389, R396). -/

namespace Sys2Proof.Machine

/-! Registers -/

def Wave.vGet (w : Wave) (lane n : Nat) : W32 := mget w.v (256 * lane + n)
def Wave.vSet (w : Wave) (lane n : Nat) (x : W32) : Wave := { w with v := mset w.v (256 * lane + n) x }
def Wave.sGet (w : Wave) (n : Nat) : W64 := mget w.s n
def Wave.sSet (w : Wave) (n : Nat) (x : W64) : Wave := { w with s := mset w.s n x }
/-- R111: register s`n` as the instruction of the focused path reads it: as it stood when that instruction issued, in a cycle in which other
paths of the wave issue too; R220: an access that its path makes again reads what it read as it bounced. -/
def State.sVal (s : State) (n : Nat) : W64 :=
  match s.path.kept.bind (·.regs), s.path.seen with
  | some m, _ | none, some m => mget m n
  | none, none => s.wave.sGet n
/-- R107: q7 reads true. -/
def Wave.qGet (w : Wave) (lane n : Nat) : Bool := n == 7 || mget w.q (8 * lane + n) == 1
/-- R74: a write to q7 is discarded. -/
def Wave.qSet (w : Wave) (lane n : Nat) (x : Bool) : Wave :=
  if n = 7 then w else { w with q := mset w.q (8 * lane + n) (if x then 1 else 0) }

/-- R72: the lanes of the path whose guard holds. -/
def State.guard (s : State) (h : Hdr) : W64 :=
  maskOf ((lanesOf s.path.mask).filter fun l => s.wave.qGet l h.pred.toNat != h.neg)

/-- R105: ORs flags into FLAGS. -/
def State.orFlags (s : State) (f : W32) : State := { s with path := { s.path with flags := s.path.flags ||| f } }

/-- R270, R262: the lanes of the wave that have not exited. -/
def Wave.live (w : Wave) : W64 := fullMask w.width &&& ~~~w.exited

/-! The sequential PC (R84) -/

def legalPc (pc : W64) : Bool :=
  let o := pc.toNat % 64
  bitsOf pc.toNat 56 8 == 0 && (o == 0 || o == 12 || o == 24 || o == 36 || o == 48)

def pcIndex (pc : W64) : Nat := pc.toNat / 64 * 5 + pc.toNat % 64 / 12

/-- The PC of an instruction index; an index out of range gives an address that is not a legal PC. -/
def indexPc (i : Int) : W64 := if i < 0 then BitVec.ofNat 64 (2 ^ 63) else BitVec.ofNat 64 (i.toNat / 5 * 64 + i.toNat % 5 * 12)

def nextPc (pc : W64) : W64 := indexPc (pcIndex pc + 1)

/-- The target of a branch with offset `k`. -/
def branchPc (pc : W64) (k : BitVec 24) : W64 := indexPc (pcIndex pc + k.toInt)

/-! Tokens and records -/

/-- R366: the token that a signalling act carries. -/
def carried (token e : W64) : W64 :=
  BitVec.ofNat 64 (min (token.toNat / 2 ^ 26 + e.toNat / 2 ^ 24) (2 ^ 38 - 1) * 2 ^ 26 + token.toNat % 2 ^ 26)

/-- R366; R220: an access that its path makes again keeps the token that it carried as it bounced. -/
def State.carry (s : State) : W64 := (s.path.kept.map (·.token)).getD (carried s.path.token s.path.e)

def State.count (s : State) (ev : PerfEvent) : State :=
  { s with core := s.core.count s.dom.isolation s.tenant ev }

/-- R313: an event at the home slice of a sector of the domain, in the slice counters that select it. -/
def State.countSlice (s : State) (ev : PerfEvent) (sector : Nat) : State :=
  let sel := fun x : Nat × Counter => decide (sector < 2 ^ 60) && x.1 / 8 == sliceOf (sector * 64) && x.2.takes s.dom.isolation s.tenant ev
  { s with dom := { s.dom with slicePerf := updIf sel (fun x => (x.1, x.2.tick)) s.dom.slicePerf } }

/-- Who the focused path is, to memory. -/
def State.who (s : State) : Who :=
  { core := s.core.ix, tenant := s.tenant, user := !s.path.priv, unit := s.pathUnit,
    serial := (s.path.region.map (·.serial)).getD false }

/-- A unit that acts for the focused block at user level or at supervisor level. -/
def State.unitWho (s : State) (user : Bool) (unit : W32) : Who :=
  { core := s.core.ix, tenant := s.tenant, user := user, unit := unit, serial := false }

/-! The Locket area (R226, R250) -/

/-- R250: the size of a wave's part of a Locket area, and of an area. -/
def waveCtx (width regs : Nat) : Nat := 122880 + 4 * width * regs

def areaSize (waves width regs ab wb acc scl : Nat) : Nat :=
  (0x3000 + waves * waveCtx width regs + ab * 4096 + wb * 4096 + acc * 4096 + scl * 256 + 65535) / 65536 * 65536

def Launch.regs (l : Launch) : Nat := 8 * (l.regblk + 1)

def Launch.stride (l : Launch) : Nat := areaSize l.waves l.width l.regs l.abu l.wbu l.accu l.sclu

def Launch.tstride (l : Launch) : Nat := areaSize 128 l.width 128 256 0 0 0

/-- R250: the Locket area of the focused block, as an offset from LOCKETBASE. DESIGN CHOICE (log 120): `b` of R250 is the block's number
within its own part of a linked launch, for which that part's LOCKETBASE stands, and not BLOCKID, which counts across parts (R108). -/
def State.areaOff (s : State) : Nat :=
  match s.launch with
  | none => 0
  | some l =>
    if s.block.task then l.nblocks * l.stride + s.block.core * l.tstride
    else (s.block.blockid.toNat - l.firstBlock) * l.stride

def State.areaVa (s : State) (off : Nat) : W64 :=
  ((s.launch.map (·.locketbase)).getD 0) + BitVec.ofNat 64 (s.areaOff + off)

/-- R250: the area can be written at this offset. -/
def State.areaOk (s : State) (off : Nat) : Bool :=
  match (s.check (s.unitWho false s.pathUnit) (s.areaVa off) { n := 8, write := true, atomic := false, tags := true, sc := none }).2 with
  | .ok _ => true
  | .error _ => false

/-- R250: the part of the area that a wave has, and its spill slots: of requests, and of stack entries. -/
def State.waveOff (s : State) (w : Wave) : Nat :=
  let regs := if s.block.task then 128 else (s.launch.map Launch.regs).getD 8
  0x3000 + w.wid * waveCtx w.width regs

def State.spillOff (s : State) (slot : Nat) : Nat := s.waveOff s.wave + 0x18000 + slot * 128

def State.stackOff (s : State) (slot : Nat) : Nat := s.waveOff s.wave + 0x1C000 + slot * 128

/-- R250: a copy context's spill slot. -/
def copyOff (slot : Nat) : Nat := 0x1000 + slot * 128

/-- R46, R249, R250, R291: the device writes `n` sectors of the area from an offset on, with the contents that `f` gives
them; false when it could not. R346: a sector that a lock holds is written as the lock frees. -/
def State.areaFill : Nat → State → Nat → (Nat → Nat) → State × Bool
  | 0, s, _, _ => (s, true)
  | n + 1, s, off, f =>
    let who := s.unitWho false s.pathUnit
    match s.check who (s.areaVa off) { n := 64, write := true, atomic := false, tags := true, sc := none } with
    | (s, .error _) => (s, false)
    | (s, .ok t) => State.areaFill n (s.unitPut who t 64 (f 0 % 2 ^ 512)) (off + 64) (fun k => f (k + 1))

def State.areaPut (n : Nat) (s : State) (off x : Nat) : State × Bool := State.areaFill n s off fun k => x / 2 ^ (512 * k)

/-- R15, R346: what a unit of the device that no path waits for reads at a sector that the serial lane holds. DESIGN CHOICE (log 116): the
bytes from before that lane's writes, with what the device has still to write there. -/
def State.heldRead (s : State) (key n : Nat) : Nat :=
  let old := ((s.dom.serial.map (·.undo)).getD []).foldl (fun m u => wrN m u.1 8 u.2.toNat) s.dom.mem
  let put := fun (m : SMap 8) (l : Late) => match l with
    | .put _ _ va l k x => wrN m (l.key va) k x
    | .raw a k x => wrN m a k x
    | _ => m
  rdN (s.dom.late.foldl put old) key n

/-- A read by such a unit. -/
def State.unitGet (s : State) (who : Who) (t : Target) (n : Nat) : State × Nat :=
  match t with
  | .loc va l => if s.dom.lockedAt (l.key va / 64) true then (s, s.heldRead (l.key va) n) else s.unitRead who t .normal n
  | .peer dom _ va l _ =>
    if s.lockedFor who t true then s.withDom dom 0 fun s => (s, s.heldRead (l.key va) n) else s.unitRead who t .normal n
  | .fabric _ _ _ => s.unitRead who t .normal n

/-- The device reads `n` sectors of the area; none when it cannot. -/
def State.areaGet : Nat → State → Nat → State × Option Nat
  | 0, s, _ => (s, some 0)
  | n + 1, s, off =>
    let who := s.unitWho false s.pathUnit
    match s.check who (s.areaVa off) { n := 64, write := false, atomic := false, tags := true, sc := none } with
    | (s, .error _) => (s, none)
    | (s, .ok t) =>
      let r := s.unitGet who t 64
      match State.areaGet n r.1 (off + 64) with
      | (s, some y) => (s, some (r.2 + 2 ^ 512 * y))
      | (s, none) => (s, none)

/-- R226: the CRC of a spilled entry: that of its bytes 4 to 127. -/
def spillCrc (x : Nat) : Nat := crc32c 124 (x / 2 ^ 32)

/-- A spilled entry whose fields are those of `x`, with its CRC. -/
def spilledBits (x : Nat) : Nat := x / 2 ^ 32 * 2 ^ 32 + spillCrc x

/-- R226: a slot that is filled back passes its check. -/
def State.slotOk (s : State) (off : Nat) : State × Bool :=
  match s.areaGet 2 off with
  | (s, some x) => (s, spillCrc x == x % 2 ^ 32)
  | (s, none) => (s, false)

/-- R368: record indices wrap from 2^26 − 1 to 1. -/
def nextIndex (i : Nat) : Nat := if i + 1 < 2 ^ 26 then i + 1 else 1

/-- R368: the next index of the launch's ring, from the core's reserved run of sixteen; `stop` counts what is left. -/
def State.ringIndex (s : State) : State × Nat :=
  match s.core.runs.find? fun r => r.launch == s.block.launch && r.stop != 0 with
  | some r =>
    let runs := updIf (fun x => x == r) (fun x => { x with next := nextIndex x.next, stop := x.stop - 1 }) s.core.runs
    ({ s with core := { s.core with runs := runs } }, r.next)
  | none =>
    let last := (s.launch.map (·.ringNext)).getD 0
    let first := nextIndex last
    let new := (List.range 16).foldl (fun i _ => nextIndex i) last
    let runs := { launch := s.block.launch, next := nextIndex first, stop := 15 } ::
      s.core.runs.filter fun r => r.launch != s.block.launch
    ({ s.updLaunch fun l => { l with ringNext := new } with core := { s.core with runs := runs } }, first)

/-- R368: writes the record of index `i`; answers whether it was dropped. -/
def State.ringWrite (s : State) (unit : W32) (i : Nat) (rcd : Nat) : State × Bool :=
  match s.launch with
  | none => (s, true)
  | some l =>
    let who := s.unitWho true unit
    let va := l.ringbase + BitVec.ofNat 64 (i % 2 ^ l.ringlog * 32)
    match s.check who va { n := 32, write := true, atomic := false, tags := true, sc := none } with
    | (s, .error _) => (s, true)
    | (s, .ok t) => (s.unitPut who t 32 rcd, false)

/-- R369: the fields of an edge record. -/
def edgeRecord (kind : Nat) (wrap drop : Bool) (total seg prev step wait : Nat) (cons prod : W32) : Nat :=
  kind * 2 ^ 252 + b2n wrap * 2 ^ 251 + b2n drop * 2 ^ 250 + total % 2 ^ 38 * 2 ^ 212 + seg % 2 ^ 38 * 2 ^ 174
    + prev % 2 ^ 26 * 2 ^ 148 + step % 2 ^ 32 * 2 ^ 116 + wait % 2 ^ 52 * 2 ^ 64 + cons.toNat * 2 ^ 32 + prod.toNat

/-- R365: the fields of a token. -/
def tokLen (t : W64) : Nat := t.toNat / 2 ^ 26
def tokIdx (t : W64) : Nat := t.toNat % 2 ^ 26
def mkTok (len idx : Nat) : W64 := BitVec.ofNat 64 (len * 2 ^ 26 + idx)

/-- R372: a path that has waited adopts a token and writes its record; without a token it writes one that
names no producer. A wait counts at least one cycle (log 1). -/
def State.adoptAt (s : State) (kind wait seg : Nat) (t : Option (W64 × W32)) : State :=
  let (s, i) := s.ringIndex
  let p := s.path
  match t with
  | some (tok, prod) =>
    let r := edgeRecord kind false false (tokLen tok) seg (tokIdx tok) p.stepid.toNat wait s.pathUnit prod
    let (s, d) := s.ringWrite s.pathUnit i r
    { s with path := { s.path with token := mkTok (tokLen tok) i, e := 0, drop := s.path.drop || d } }
  | none =>
    let r := edgeRecord kind false false (tokLen (carried p.token p.e)) seg (tokIdx p.token) p.stepid.toNat wait
      s.pathUnit unitUnknown
    let (s, d) := s.ringWrite s.pathUnit i r
    { s with path := { s.path with drop := s.path.drop || d } }

def State.adopt (s : State) (kind : Nat) (t : Option (W64 × W32)) : State :=
  s.adoptAt kind (max 1 (s.path.joinTimer + (s.core.cycles.toNat - s.path.since))) s.path.seg t

/-- R379: a path matches the trace configuration. -/
def State.traced (s : State) (c : TraceCfg) (type : Nat) : Bool :=
  let p := s.path
  c.events.getLsbD type && (c.launch == none || c.launch == some s.block.launch)
    && (c.tenant == none || c.tenant == some s.tenant) && decide (c.pcLo.toNat ≤ p.pc.toNat ∧ p.pc.toNat ≤ c.pcHi.toNat)
    && (c.mask == 0 || p.ranges.any fun l => l &&& c.mask == c.label &&& c.mask)

/-- R380: a trace record of the focused path. -/
def State.traceBits (s : State) (type : Nat) : Nat :=
  let p := s.path
  type * 2 ^ 252 + s.dom.ix * 2 ^ 248 + s.core.ix * 2 ^ 240 + s.wave.ctx * 2 ^ 232 + p.pid * 2 ^ 226
    + p.mask.toNat * 2 ^ 160 + p.pc.toNat % 2 ^ 56 * 2 ^ 104 + s.core.cycles.toNat % 2 ^ 48 * 2 ^ 56
    + (if type = 5 then p.trapcause.toNat % 256 * 2 ^ 48 else 0) + (p.ranges.headD 0).toNat

/-- R379: the 32-byte pieces of a record go to the circular trace buffer; R346: those at a sector that a lock holds, as the lock frees
(log 136). -/
def State.tracePut (s : State) (c : TraceCfg) : List Nat → State
  | [] => s
  | x :: xs =>
    let key := pkey 0 (c.base.toNat + s.dom.tracePos % c.size)
    let t : State := if s.dom.lockedAt (key / 64) true then { s with dom := { s.dom with late := s.dom.late ++ [.raw key 32 x] } }
      else s.rawPut key 32 x
    ({ t with dom := { t.dom with tracePos := (t.dom.tracePos + 32) % c.size } }).tracePut c xs

/-- R379: writes one record to the trace buffer. DESIGN CHOICE (log 138): a sample, a record of TYPE 4 with 32 bytes more, is one record
of the count. -/
def State.traceLog (s : State) (pieces : List Nat) : State :=
  match s.dom.trace with
  | none => s
  | some c =>
    let t := s.tracePut c pieces
    { t with dom := { t.dom with traceCount := t.dom.traceCount + 1 } }

/-- R379: writes one record to the trace buffer, when the path matches. -/
def State.traceWrite (s : State) (type : Nat) (pieces : List Nat) : State :=
  if (s.dom.trace.map fun c => s.traced c type).getD false then s.traceLog pieces else s

def State.trace (s : State) (type : Nat) : State := s.traceWrite type [s.traceBits type]

/-! Windows, issue and completion -/

/-- R81: an issued instruction counts in the open windows of its path. -/
def Path.countDown (p : Path) : Path :=
  { p with windows := (p.windows.map fun w => { w with left := w.left - 1 }).filter fun w => w.left != 0 }

/-- R81, R83: an instruction counts in the windows of its path and opens its own. -/
def Path.tick (p : Path) : Path :=
  let old := p.countDown.windows
  match p.ir with
  | some i =>
    match i.args with
    | some o => if i.long && o.h.look != 0 && !i.uses.writes.isEmpty then
        { p with windows := { pc := p.pc, dest := i.uses.writes, left := o.h.look.toNat, old := false } :: old }
      else { p with windows := old }
    | none => { p with windows := old }
  | _ => { p with windows := old }

/-- The path goes on at `pc`. -/
def Path.goto (p : Path) (pc : W64) : Path :=
  { p.tick with pc := pc, ir := none, status := .running, age := 0, again := false, kept := none }

/-- R82: the window that forbids an instruction. DESIGN CHOICE (log 86): of several, the one opened last, whose PC TRAPINFO
then holds. -/
def Path.violates (p : Path) (u : Uses) : Option Window :=
  p.windows.find? fun w => w.dest.any fun r => u.reads.contains r || u.writes.contains r

/-- R74, R110: a vector register at or beyond the launch's count. -/
def overCount (n : Nat) (rs : List Reg) : Bool := rs.any fun r => match r with | .v k => decide (n ≤ k) | _ => false

/-- R148: the registers of a JB block under FMT. -/
def jbSpan (fmt : W32) : Nat := if fmt.toNat % 4 = 0 then 2 else if fmt.toNat % 4 = 1 then 3 else 5

/-- R146, R148: the block forms name ranges that depend on the path's FMT. -/
def usesAt (fmt : W32) : Instr → Uses
  | .jbexp o => mkUses o 1 1 16 1 1 1
  | .jbpack o => mkUses o (jbSpan fmt) 1 16 1 1 1
  | .jbunpack o => mkUses o 16 1 (jbSpan fmt) 1 1 1
  | i => i.uses

/-- R360, R395: `fbk` and `txb` name a legal PC. -/
def badTarget (pc : W64) : Instr → Bool
  | .fbk off _ => !legalPc (branchPc pc off)
  | .txb off _ => !legalPc (branchPc pc off) || !(decide (0 < off.toInt))
  | _ => false

/-- R361: an aborted lane that arrives at the region's end finds another instruction than `txe` there. -/
def Path.strayed (p : Path) (i : Instr) : Bool :=
  match p.region with
  | some r => p.txdepth != 0 && r.aborted && p.pc == r.stop && (match i with | .txe _ => false | _ => true)
  | none => false

/-- R281, R427: the address of a slot of the domain's tensor table; TTBASE is a virtual address, as a label of `.data` is (log
112). -/
def Dom.tensorVa (d : Dom) (slot : Nat) : W64 := d.ttbase + BitVec.ofNat 64 (64 * slot)

/-- R283, R286: the reads of a tensor record, by the copy engine. -/
def tensorWant : Want := { n := 64, write := false, atomic := false, tags := true, sc := none, tlb := true }

/-- R192, R281: the rank in the tensor record that a handle names; 0 when the handle is stale, or the record cannot be read. -/
def State.rankOf (s : State) (who : Who) (h : Nat) : Nat :=
  let slot := bitsOf h 12 20
  match if s.dom.ttslots ≤ slot then (s, .error ⟨6, .staleHandle, 0, false⟩) else s.check who (s.dom.tensorVa slot) tensorWant with
  | (s, .ok t) =>
    let r := (s.unitRead who t .normal 64).2
    if bitsOf r 444 12 ≠ bitsOf h 0 12 then 0 else bitsOf r 437 3
  | _ => 0

/-- R83, R111: a Locket entry of the wave has still to write an s register. -/
def Wave.pendingS (w : Wave) (n : Nat) : Bool :=
  w.locket.any fun e => (Opnd.regs e.req.d (szV e.req.sz) (szS e.req.sz)).contains (.s n)

/-- R82, R192: the coordinates that a tensor copy reads, s(k) to s(k + rank − 1). While the handle itself has still to be written
they are not known: the copy waits for it, and is examined again as it issues. -/
def State.coordRegs (s : State) (who : Who) (w : Wave) (o : Args) : List Reg :=
  match o.a, o.b with
  | .s h, .s k => if w.pendingS h.toNat then []
    else (List.range (min 5 (s.rankOf who ((w.sGet h.toNat).toNat % 2 ^ 32)))).map fun d => Reg.s (k.toNat + d)
  | _, _ => []

/-- R82: what an instruction reads and writes as a path of wave `w` under FMT `fmt`. -/
def State.usesIn (s : State) (who : Who) (w : Wave) (fmt : W32) (i : Instr) : Uses :=
  let u := usesAt fmt i
  match i with
  | .cptAb _ o | .cptWb _ o | .cpts _ o | .cpta _ o => { u with reads := u.reads ++ s.coordRegs who w o }
  | _ => u

def State.usesOf (s : State) (i : Instr) : Uses := s.usesIn s.who s.wave s.path.fmt i

/-- R83, R111, R176: a Locket entry leaves a register pending that the path's instruction names: a v register or predicate
of an entry that binds the path, an s register for every path of the wave. -/
def Wave.pendingFor (w : Wave) (p : Path) (u : Uses) : Bool :=
  w.locket.any fun e => (e.paths.contains p.pid || e.req.d.isS) &&
    (Opnd.regs e.req.d (szV e.req.sz) (szS e.req.sz)).any fun r => u.reads.contains r || u.writes.contains r

/-- R88 rows 5 to 8, for a decoded instruction of the focused path: the cause, and TRAPINFO. -/
def State.refuses (s : State) (i : Instr) : Option (Cause × W64) :=
  if i.matrixOnly then some (.mstream, 0)
  else if i.privileged && !s.path.priv then some (.priv, 0)
  else if !i.wf || badTarget s.path.pc i || overCount s.wave.nregs ((s.usesOf i).reads ++ (s.usesOf i).writes ++ i.fbBound) then some (.illegalOperand, 0)
  else match s.path.violates (s.usesOf i) with
    | some w => some (.lookahead, w.pc)
    | none => none

/-! Dividing a path (R263) -/

/-- The lowest PATHIDs that are free. -/
def freePids (used : List Nat) : List Nat := (List.range 64).filter fun i => !used.contains i

/-- Runs `f` with another path of the same wave in focus, then puts the first back. -/
def State.withPid (s : State) (pid : Nat) (f : State → State) : State :=
  if s.path.pid = pid then f s
  else
    let all := (s.wave.withPath s.path).paths
    match takeFirst (fun p : Path => p.pid == pid) all with
    | none => s
    | some (p, rest) => f { s with path := p, wave := { s.wave with paths := rest } }

/-- R183: what is left of posted operations for the lanes `m`. -/
def postedFor (m : W64) (xs : List Posted) : List Posted :=
  (xs.map fun x => { x with lanes := x.lanes.filter fun l => hasLane m l.1 }).filter fun x => !x.lanes.isEmpty

/-- R183: posted operations none of whose lanes the path holds any more. -/
def postedBut (m : W64) (xs : List Posted) : List Posted := xs.filter fun x => !x.lanes.any fun l => hasLane m l.1

/-- A part of a divided path: its lanes, and what happens to it. -/
abbrev Part := W64 × (State → State)

/-- Puts the parts in ascending order of their lowest lanes. -/
def sortParts (ps : List Part) : List Part :=
  ps.foldr (fun p acc => if p.1 = 0 then acc else
    (acc.takeWhile fun q => lowLane q.1 < lowLane p.1) ++ p :: (acc.dropWhile fun q => lowLane q.1 < lowLane p.1)) []

/-- R263: one path per part; the part with the lowest lane keeps the PATHID, the others take the lowest free
ones; each part then has its own continuation run, and the first stands in focus. Each part keeps the posted operations of its
lanes (R183). -/
def State.divide (s : State) (ps : List Part) : State :=
  match sortParts ps with
  | [] => s
  | [p] => p.2 { s with path := { s.path with mask := p.1 } }
  | p :: rest =>
    let ids := freePids (s.path.pid :: s.wave.paths.map Path.pid)
    let own := s.path.posted
    let others := (rest.zip ids).map fun (x : Part × Nat) =>
      (({ s.path with pid := x.2, mask := x.1.1, age := 0, posted := postedFor x.1.1 own } : Path), x.1.2)
    let w := { s.wave with paths := others.foldl (fun l (x : Path × (State → State)) => insertBy Path.pid x.1 l) s.wave.paths }
    let first := s.path.pid
    let bind := fun e : Entry => if e.paths.contains first then { e with paths := e.paths ++ others.map fun (x : Path × (State → State)) => x.1.pid } else e
    let w := { w with locket := w.locket.map bind }
    let s := { s with path := { s.path with mask := p.1, age := 0, posted := postedFor p.1 own ++ postedBut s.path.mask own }, wave := w }
    let acts := (first, p.2) :: others.map fun (x : Path × (State → State)) => (x.1.pid, x.2)
    let s := acts.foldl (fun s a => s.withPid a.1 fun s => (a.2 s).trace 1) s
    s.withPid first id

/-- Lanes `m` act as `f`, the other lanes of the path as `g`. -/
def State.part (s : State) (m : W64) (f g : State → State) : State :=
  s.divide [(s.path.mask &&& m, f), (s.path.mask &&& ~~~m, g)]

/-! Clasp aborts (R349 to R357) -/

def TxCause.code : TxCause → Nat
  | .conflict => 1 | .rdovf => 2 | .wrovf => 3 | .nolog => 4 | .explicit => 5 | .wait => 6 | .fault => 7
  | .remote => 8 | .reduction => 9

/-- R343: the lane logs of these lanes are freed. -/
def State.freeLogs (s : State) (m : W64) : State :=
  let n := (s.wave.logs.filter fun g => hasLane m g.lane).length
  { s with wave := { s.wave with logs := s.wave.logs.filter fun g => !hasLane m g.lane },
           core := { s.core with logs := s.core.logs - n } }

/-! The reconvergence stack (R264, R265) -/

/-- R265: a pop that empties the on-core part brings back the newest spilled entry. -/
def fillTop : List RecEntry → List RecEntry
  | [] => []
  | e :: st => { e with slot := none } :: st

/-- R265: how many entries of a stack stand on core. -/
def onCore (st : List RecEntry) : Nat := (st.filter fun e => e.slot.isNone).length

/-- R265: the spill slots that the paths of the wave hold. DESIGN CHOICE (log 106): the copies that division makes of a spilled
entry share its slot, and count once towards the 64. -/
def State.stackSlots (s : State) : List Nat := s.wavePaths.flatMap fun p => p.stack.filterMap (·.slot)

def State.freeSlot (s : State) : Option Nat := (List.range 64).find? fun k => !s.stackSlots.contains k

/-- R265: a push has room: on core, or in the wave's spill region. -/
def State.pushRoom (s : State) : Bool := decide (onCore s.path.stack < 16) || s.freeSlot.isSome

/-- R264: the layout of an entry. -/
def RecEntry.bits (e : RecEntry) : Nat :=
  e.mask.toNat * 2 ^ 128 + e.pc.toNat % 2 ^ 56 * 2 ^ 72 + e.etag.toNat * 2 ^ 56 + e.fmts.toNat * 2 ^ 48 + b2n e.call * 2 ^ 40

/-- The oldest entry that stands on core takes a spill slot; the entries are newest first. -/
def spillOldest (k : Nat) : List RecEntry → List RecEntry
  | [] => []
  | [e] => [{ e with slot := some k }]
  | e :: x :: st => if x.slot.isSome then { e with slot := some k } :: x :: st else e :: spillOldest k (x :: st)

/-- The entry that a spill moves. -/
def oldestOnCore (st : List RecEntry) : Option RecEntry := (st.filter fun e => e.slot.isNone).getLast?

/-- R265: pushes an entry for which there is room (`pushRoom`); beyond sixteen on core the oldest of them is spilled. A spill
that the area does not take is UNCORRECTABLE (R250). -/
def State.pushEntry (s : State) (e : RecEntry) : State :=
  let st := s.path.stack
  if onCore st < 16 then { s with path := { s.path with stack := e :: st } }
  else match s.freeSlot, oldestOnCore st with
    | some k, some old =>
      let r := State.areaPut 2 s (s.stackOff k) (spilledBits (old.bits * 2 ^ 512 + 0xFF * 2 ^ 128))
      let t := r.1
      { t with path := { t.path with stack := e :: spillOldest k st, uncorr := t.path.uncorr || !r.2 } }
    | _, _ => s

/-- R226, R265: what stands at the top after `n` pops of `st` is filled back when it had been spilled. -/
def State.fillCheck (s : State) (st : List RecEntry) (n : Nat) : State :=
  match (st.drop n).head?.bind (·.slot) with
  | none => s
  | some k =>
    let r := s.slotOk (s.stackOff k)
    let t := r.1
    { t with path := { t.path with uncorr := t.path.uncorr || !r.2 } }

/-- R388, R391: pops `n` entries; the handler's entry may go with them, and so may a flashback point. -/
def Path.popped (p : Path) (n : Nat) : Path :=
  let st := fillTop (p.stack.drop n)
  { p with stack := st, hdepth := if st.length < p.hdepth then 0 else p.hdepth,
           fb := p.fb.filter fun f => decide (f.depth ≤ st.length) }

/-- Pops `n` entries of the focused path's stack. -/
def State.pop (s : State) (n : Nat) : State :=
  let t := s.fillCheck s.path.stack n
  { t with path := t.path.popped n }

/-- R264: a join record is freed when no path's stack holds its ETAG. -/
def State.freeJoins (s : State) : State :=
  let held := fun (r : JoinRec) => s.wavePaths.any fun p => p.stack.any fun e => !e.call && e.etag == r.etag
  { s with wave := { s.wave with joins := s.wave.joins.filter held } }

/-- R351, R392: cuts the stack to a depth; the lanes leave the join records of the entries that are cut. -/
def State.cutStack (s : State) (depth : Nat) : State :=
  let n := s.path.stack.length - depth
  let cut := (s.path.stack.take n).filter fun e => !e.call
  let drop := fun r : JoinRec => if cut.any fun e => e.etag == r.etag then { r with mask := r.mask &&& ~~~s.path.mask } else r
  let s : State := { s with wave := { s.wave with joins := s.wave.joins.map drop } }
  (s.pop n).freeJoins

/-- R349: what an abort leaves in SERNEXT and in the conflict run of a lane. -/
def Wave.abortLane (w : Wave) (l : Nat) (c : TxCause) (detail depth : Nat) (ser : Bool) : Wave :=
  let run := (mget w.run l).toNat
  let run := if c = .conflict then min 4 (run + 1) else run
  let sn : Bool := match c with
    | .conflict => run == 4 || mget w.sernext l == 1
    | .rdovf | .wrovf => !ser
    | .fault => true
    | .wait => mget w.sernext l == 1
    | _ => false
  let tc := run * 2 ^ 17 + b2n ser * 2 ^ 16 + detail % 256 * 2 ^ 8 + depth % 8 * 2 ^ 5 + c.code
  { w with run := mset w.run l (BitVec.ofNat 3 run), sernext := mset w.sernext l (if sn then 1 else 0),
           txcause := mset w.txcause l (BitVec.ofNat 32 tc) }

/-- R355: one undo entry is restored at its home slice, which tells no one, as it told no one of the write. The locks have kept every
copy of the sector in an L1 from what the serial lane wrote, and what such a copy holds stays there. R402: through a failed port the write
does not perform. -/
def State.undoOne (s : State) (key : Nat) (v : W64) : State :=
  if s.tier2Failed key then { s with path := { s.path with uncorr := true } } else s.quietPut s.tenant key 8 v.toNat

/-- R355: a serial lane's writes are undone, newest first; then its locks and the token are released. -/
def State.rollback (s : State) : State :=
  match s.dom.serial with
  | none => s
  | some x => (x.undo.foldl (fun s u => s.undoOne u.1 u.2) s).unlock

/-- The path is the serial lane's. -/
def Path.serial (p : Path) : Bool := (p.region.map (·.serial)).getD false

/-- R201: the path is inside a region and has not aborted it. -/
def Path.inRegion (p : Path) : Bool := p.txdepth != 0 && !(p.region.map (·.aborted)).getD false

def Path.speculative (p : Path) : Bool := p.inRegion && !p.serial

/-- R226: the paths that an entry binds take UNCORRECTABLE. -/
def State.uncorrFor (s : State) (e : Entry) : State :=
  let up := fun p : Path => if e.paths.contains p.pid then { p with uncorr := true } else p
  { s with path := up s.path, wave := { s.wave with paths := s.wave.paths.map up } }

/-! The Locket of a wave: its requests and its parked lane copies (R190, R249) -/

/-- The places of the parked lane copies of a wave of the focused block. -/
def State.parkedPlaces (s : State) (wave : Nat) : List CopyLock :=
  (s.block.copy.elems.filter fun e => e.wave == wave).filterMap (·.place)

/-- R249: the tags of what stands on core in the Locket of a wave of the focused block. -/
def State.onCoreTags (s : State) (w : Wave) : List Nat :=
  (w.locket.filter fun e => !e.spilled).map (·.tag) ++ ((s.parkedPlaces w.wid).filter fun l => l.slot.isNone).map (·.tag)

/-- R249: of what is spilled the lowest tag, with its slot. -/
def State.lowestSpilled (s : State) (w : Wave) : Option (Nat × Nat) :=
  let all := w.locket.filterMap (fun e => e.slot.map fun k => (e.tag, k)) ++ (s.parkedPlaces w.wid).filterMap fun l => l.slot.map fun k => (l.tag, k)
  all.foldl (fun (b : Option (Nat × Nat)) x => match b with
    | some y => if y.1 ≤ x.1 then b else some x
    | none => some x) none

/-- R190: how many batches are complete: no element of them or of a lower batch is left. -/
def batchesDone (wave : Nat) (elems : List Elem) : Nat → Nat → Nat
  | 0, done => done
  | k + 1, done => if elems.any fun e => e.wave == wave && decide (e.batch ≤ done + 1) then done else batchesDone wave elems k (done + 1)

/-- R371: a path in `cpwait` or `tlwait` whose target lies in what has become complete, from `lo` to `hi`, takes the token. -/
def Path.covered (p : Path) (batch : Bool) (lo hi : Nat) (tok : Option W64) : Path :=
  let takes := fun n : Nat => decide (lo < n ∧ n ≤ hi)
  match p.status with
  | .waiting (.batch n) => if batch && takes n then { p with adopts := tok <|> p.adopts } else p
  | .waiting (.timeline n) => if !batch && takes n then { p with adopts := tok <|> p.adopts } else p
  | _ => p

/-- Completes the batches that are complete; `tok` is the token of the element that performed. -/
def Wave.settleBatches (w : Wave) (elems : List Elem) (tok : Option W64) : Wave :=
  let n := batchesDone w.wid elems (w.batchOpen - 1 - w.batchDone) w.batchDone
  { w with batchDone := n, paths := w.paths.map fun p => p.covered true w.batchDone n tok }

/-- The element leaves the context, with its failure; its wave's batches may be complete. -/
def State.endElem (s : State) (e : Elem) (f : Option (Cause × W64)) : State :=
  let c := s.block.copy
  let els := c.elems.erase e
  let fails := match f with
    | some (x, va) => [({ wave := e.wave, batch := e.batch, lane := e.lane, cause := x, addr := va, pc := e.pc } : ElemFail)]
    | none => []
  let tok := some (carried e.token e.e)
  let up := fun w : Wave => w.settleBatches els tok
  let b := s.block
  let s := { s with block := { b with copy := { c with elems := els, efails := c.efails ++ fails },
                                      waves := updIf (fun w => w.wid == e.wave) up b.waves } }
  if s.kind = .path ∧ s.wave.wid = e.wave then
    let w := up s.wave
    { s with wave := w, path := s.path.covered true s.wave.batchDone w.batchDone tok }
  else s

/-- R249: in the Locket of the focused wave, when a place on core is free, what is spilled and has the lowest tag comes back. What fails
its check is not reissued (R226). -/
def State.fillBack (s : State) : State :=
  if 16 ≤ (s.onCoreTags s.wave).length then s
  else match s.lowestSpilled s.wave with
    | none => s
    | some (tag, k) =>
      let r := s.slotOk (s.spillOff k)
      let s := r.1
      let w := s.wave
      let c := s.block.copy
      match w.locket.find? fun e => e.tag == tag with
      | some x =>
        if r.2 then { s with wave := { w with locket := updIf (fun e => e.tag == tag) (fun e => { e with slot := none }) w.locket } }
        else ({ s with wave := { w with locket := w.locket.filter fun e => e.tag != tag } } : State).uncorrFor x
      | none =>
        let mine := fun e : Elem => e.wave == w.wid && (e.place.map (·.tag)) == some tag
        if r.2 then
          let on := fun e : Elem => { e with place := e.place.map fun l => { l with slot := none } }
          { s with block := { s.block with copy := { c with elems := updIf mine on c.elems } } }
        else match c.elems.find? mine with
          | some e => s.endElem e (some (.uncorrectable, e.ga))
          | none => s

def RKind.isAgain : RKind → Bool
  | .again _ _ => true
  | _ => false

/-- R344, R351: an entry of a region without the lanes `m`, which have left path `pid`; none when nothing is left of it. -/
def Entry.without (e : Entry) (pid : Nat) (m : W64) : Option Entry :=
  if e.req.kind.isAgain && e.paths.contains pid then
    let share := e.req.share.map fun x => x &&& ~~~m
    let lanes := if share.isSome then e.req.lanes else e.req.lanes.filter fun r => !hasLane m r.lane
    let paths := e.paths.filter (· != pid)
    if paths = [] ∨ lanes = [] ∨ share = some 0 then none else some { e with paths := paths, req := { e.req with share := share, lanes := lanes } }
  else some e

/-- R249: every place that has become free on core takes a spilled entry back. -/
def State.fillBacks : Nat → State → State
  | 0, s => s
  | k + 1, s => State.fillBacks k s.fillBack

/-- R344, R351: the region's entries of the Locket are discarded, with the lanes of the path in focus. -/
def State.dropAgain (s : State) : State :=
  let n := s.wave.locket.length
  let s : State := { s with wave := { s.wave with locket := s.wave.locket.filterMap fun e => e.without s.path.pid s.path.mask },
                            path := { s.path with again := false, kept := none } }
  State.fillBacks (n - s.wave.locket.length) s

/-- R351: every lane of the focused path aborts, each with its cause and detail. -/
def State.abortWith (s : State) (f : Nat → TxCause × Nat) : State :=
  match s.path.region with
  | none => s
  | some r =>
    let w := (lanesOf s.path.mask).foldl (fun w l => w.abortLane l (f l).1 (f l).2 s.path.txdepth r.serial) s.wave
    let s := ({ s with wave := w }).freeLogs s.path.mask
    let s := if r.serial then s.rollback else s
    let s := s.dropAgain.cutStack r.depth
    let s := { s with path := { s.path with pc := r.stop, txdepth := 1, region := some { r with serial := false, aborted := true },
                                            ir := none, status := .running } }
    (lanesOf s.path.mask).foldl (fun s l => s.count (.claspAbort (f l).1.code)) s

/-- R351: every lane of the focused path aborts. -/
def State.abort (s : State) (c : TxCause) (detail : Nat) : State := s.abortWith fun _ => (c, detail)

/-- R81, R351: the lanes abort at an instruction that has issued: it counts in the windows that stay open. -/
def State.abortHere (s : State) (c : TxCause) (detail : Nat) : State :=
  ({ s with path := s.path.countDown }).abort c detail

/-- R353, R356, R357: a serial lane is rolled back and stands at the region's begin, SERNEXT set again. -/
def State.unserial (s : State) : State :=
  match s.path.region with
  | none => s
  | some r =>
    let s := (s.rollback).dropAgain.cutStack r.depth
    let w := (lanesOf s.path.mask).foldl (fun w l => { w with sernext := mset w.sernext l 1 }) s.wave
    { s with wave := w, path := { s.path with pc := r.begin, txdepth := 0, region := none, ir := none, status := .running } }

/-! Traps (R383 to R389) -/

def Cause.code : Cause → Nat
  | .illegalOpcode => 0x01 | .illegalOperand => 0x02 | .priv => 0x03 | .mstream => 0x04 | .lookahead => 0x05
  | .illegalPc => 0x06 | .bundleCheck => 0x07 | .pageFault => 0x08 | .protection => 0x09 | .tagMismatch => 0x0A
  | .keyAlias => 0x0B | .misaligned => 0x0C | .atomicUnsupported => 0x0D | .atomicResultLost => 0x0E
  | .remoteError => 0x0F | .staleHandle => 0x10 | .badTensor => 0x11 | .bufferRange => 0x12 | .brxRange => 0x18
  | .reconMismatch => 0x19 | .callDepth => 0x1A | .barOver => 0x20 | .barCount => 0x21 | .queueClosed => 0x22
  | .spawnDepth => 0x23 | .rblock => 0x24 | .claspWait => 0x28 | .trapInsn => 0x38 | .bkpt => 0x39 | .step => 0x3A
  | .uncorrectable => 0x40

/-- R384: the causes that a user handler may receive. -/
def Cause.recoverable (c : Cause) : Bool := (0x09 ≤ c.code && c.code ≤ 0x24) || c.code == 0x38

/-- R387: TRAPPC is the next instruction for TRAP_INSN; a path that takes STEP stands at the next instruction already. -/
def Cause.resumesNext (c : Cause) : Bool := c == .trapInsn

/-- R387: a double fault: the launch is terminated and reported; its paths issue no more. -/
def State.doubleFault (s : State) (c : Cause) (pc : W64) : State :=
  let s := s.updLaunch fun l => { l with dead := true }
  { s with dom := { s.dom with reports := s.dom.reports ++ [.faulted s.block.launch c pc] } }

/-- R389: the wave's save area. -/
def State.saveArea (s : State) : W64 :=
  s.dom.supsave + BitVec.ofNat 64 (32 * (128 * s.core.ix + s.wave.ctx))

/-- R391: a flashback point of which a live register is written. -/
def FbPoint.touched (f : FbPoint) (own : Bool) (ws : List Reg) : Bool :=
  ws.any fun r => match r with
    | .v n => own && (f.vN.map fun b => decide (n ≤ b.toNat)).getD false
    | .s n => (f.sM.map fun b => decide (n ≤ b.toNat)).getD false
    | .q _ => false

/-- R391: registers of lanes `m` are written: points of which one is live become invalid. A path that has been rewound
keeps its point, which stands for its saved state (R392). -/
def Path.touch (p : Path) (m : W64) (ws : List Reg) : Path :=
  if p.status = .rewound then p else { p with fb := p.fb.filter fun f => !f.touched (p.mask &&& m != 0) ws }

def State.fbTouch (s : State) (m : W64) (ws : List Reg) : State :=
  { s with path := s.path.touch m ws, wave := { s.wave with paths := s.wave.paths.map fun p => p.touch m ws } }

/-! Writing an s register (R111) -/

/-- R111: a path that waits at an instruction which writes register s`n` at the end of the wait loses that write to one that
issued later (log 110). -/
def Path.loses (p : Path) (n : Nat) : Path :=
  let mine : List Reg := match p.status with
    | .waiting (.barrier _ _ d) | .waiting (.gang _ _ d) | .waiting (.pop _ d) | .waiting (.sig _ _ _ _ _ d) | .waiting (.wsync _ d) =>
      Opnd.regs d 1 1
    | .waiting (.mon _ sz _ _ d) => Opnd.regs d (szV sz) (szS sz)
    | _ => []
  if mine.contains (.s n) && !p.lost.contains n then { p with lost := n :: p.lost } else p

/-- R111: the instruction of path `w` comes after that of `q` though both issue in one cycle: the uniform unit issues it, and an octet pipe
the other. Of two that wait, that is the cycle in which both began. -/
def Path.over (w q : Path) : Bool :=
  let uni := fun p : Path => p.ir.map Instr.uniform
  let waits := fun p : Path => match p.status with
    | .waiting _ => true
    | _ => false
  uni w == some true && uni q == some false && (if waits w && waits q then w.since == q.since else w.seen.isSome && q.seen.isSome)

/-- R111, R391: what the write of register s`n` by the instruction of path `w` does to another path of the wave: a flashback point
that lives on the register becomes invalid; an instruction that comes before that of `w` loses its own write: that of a wait that began
before, and that of an octet pipe in the cycle in which the uniform unit issues `w`. -/
def Path.meets (q w : Path) (n : Nat) : Path :=
  let q := q.touch 0 [.s n]
  let earlier : Bool := match w.status with
    | .waiting _ => decide (q.stamp < w.stamp)
    | _ => true
  if w.over q then (if q.status = .running then { q with under := n :: q.under } else q.loses n)
  else if earlier && !q.over w then q.loses n else q

/-- R111: the instruction of the focused path writes register s`n`, unless one that issued later has written it already. -/
def State.sPut (s : State) (n : Nat) (x : W64) : State :=
  if s.path.lost.contains n then s
  else { s with wave := { s.wave.sSet n x with paths := s.wave.paths.map fun q => q.meets s.path n } }

/-- The write of consecutive registers, from s`n` on. -/
def State.sPuts (s : State) (n : Nat) : List W64 → State
  | [] => s
  | x :: xs => (s.sPut n x).sPuts (n + 1) xs

/-- R83: the Locket entries of the instructions whose windows the path holds open. -/
def State.windowTags (s : State) : List Nat :=
  (s.wave.locket.filter fun e => e.paths.contains s.path.pid && s.path.windows.any fun w => w.pc == e.req.pc).map (·.tag)

/-- R83: a handler starts with no open window. -/
def State.handlerAt (s : State) (pc : W64) : State :=
  { s with path := { s.path with windows := [], pc := pc, status := .running } }

/-! Waiting -/

/-- The path waits at its instruction (R372: E and the cycle at the start). A wait that stands already keeps
its start. -/
def State.await (s : State) (w : Wait) : State :=
  match s.path.status with
  | .waiting _ => { s with path := { s.path with status := .waiting w } }
  | _ => { s with path := { s.path with status := .waiting w, since := s.core.cycles.toNat, joinTimer := 0, seg := s.path.e.toNat / 2 ^ 24, stamp := s.now, adopts := none },
                  now := s.now + 1 }

/-! Handlers -/

/-- R346: a lock holds the sector of these bytes from supervisor entry (`write`) or from `rte`. -/
def State.saveHeld (s : State) (va : W64) (write : Bool) : Bool :=
  let who := { s.unitWho false s.pathUnit with user := false }
  match (s.check who va { n := 32, write := write, atomic := false, tags := true, sc := none }).2 with
  | .ok t => s.lockedFor who t write
  | .error _ => false

/-- R389: the path enters the supervisor handler. -/
def State.superviseNow (s : State) : State :=
  let sv := s.saveArea
  let who := { s.unitWho false s.pathUnit with user := false }
  let bits := (s.wave.sGet 124).toNat + (s.wave.sGet 125).toNat * 2 ^ 64 + (s.wave.sGet 126).toNat * 2 ^ 128
    + (s.wave.sGet 127).toNat * 2 ^ 192
  match s.check who sv { n := 32, write := true, atomic := false, tags := true, sc := none } with
  | (s, .error f) => s.doubleFault f.cause s.path.trappc
  | (s, .ok t) =>
    let s := s.doWrite who t .normal 32 bits .plain
    let s := ({ s with path := { s.path with priv := true, privFor := 0, lost := [] } } : State).sPut 127 sv
    s.handlerAt s.dom.supentry

/-- R389: a path that waits to enter is ordered by the cycle in which it began, and then by its PATHID. -/
def State.supervStamp (s : State) : Nat := 64 * (s.core.cycles.toNat + 1) + s.path.pid

/-- R389: supervisor entry; it waits while another path of the wave stands at PRIV 1, or waits to enter already. R346: it waits too while
a lock holds the sector of its save area. -/
def State.enterSupervisor (s : State) : State :=
  if (s.wave.paths.any fun p => p.priv || p.status == .waiting .superv) || s.saveHeld s.saveArea true then
    { s with path := { s.path with status := .waiting .superv, since := s.core.cycles.toNat, stamp := s.supervStamp } }
  else s.superviseNow

/-- R388: user-handler entry. -/
def State.enterUser (s : State) (entry : W64) : State :=
  let p := s.path
  let e : RecEntry := { call := true, mask := p.trapmask, pc := p.trappc, etag := 0, fmts := p.fmt.setWidth 4 }
  let t := s.pushEntry e
  ({ t with path := { t.path with hdepth := p.stack.length + 1 } }).handlerAt entry

/-- R386: a park; its record waits until it is written to the fault queue. -/
def State.park (s : State) (what : Parked) (kind : Nat) (va pc mask : W64) (unit : W32) : State × W32 :=
  let id := s.dom.nextPark
  let k : Park := { id := id, what := what, kind := BitVec.ofNat 4 kind, va := va, pc := pc, mask := mask, unit := unit, tenant := s.tenant, slot := none, failed := false }
  ({ s with dom := { s.dom with nextPark := id + 1, parks := s.dom.parks ++ [k] } }, id)

/-- R387: writes the trap registers of the focused path, all of whose lanes trap. R420: the access of an instruction that traps is not
made again. -/
def State.trapRegs (s : State) (c : Cause) (addr info : Nat → W64) : State :=
  let p := s.path
  let w := (lanesOf p.mask).foldl (fun w l =>
    { w with trapaddr := mset w.trapaddr l (addr l), trapinfo := mset w.trapinfo l (info l) }) s.wave
  let tc := BitVec.ofNat 32 c.code
  { s with wave := w, path := { p with trapcause := tc, trappc := if c.resumesNext then nextPc p.pc else p.pc, trapmask := p.mask, fb := none, ir := none, age := 0, status := .running, again := false, kept := none } }

/-- R385: a path that parks keeps its trap registers. Its windows complete while it is parked: they end at a replay, and a handler
that FAULT_FAIL makes it enter waits for them (R83, R387). -/
def State.parkRegs (s : State) : State :=
  { s with path := { s.path with fb := none, ir := none, age := 0, status := .running } }

/-- R387: the handler that takes a cause: the user's, or the supervisor's. -/
def State.enterHandler (s : State) (c : Cause) : State :=
  let entry := (s.launch.map (·.trapentry)).getD 0
  if c.recoverable = true ∧ entry ≠ 0 ∧ s.path.hdepth = 0 ∧ s.pushRoom = true then s.enterUser entry else s.enterSupervisor

/-- R83, R387: the open windows end; the path goes on as `f` once the bounced instructions that opened them have completed. -/
def State.afterWindows (s : State) (f : State → State) : State :=
  let tags := s.windowTags
  let s : State := { s with path := { s.path with windows := [] } }
  if tags = [] then f s else s.await (.windows tags)

/-- R387: routes the cause. `replay` marks a PAGE_FAULT that the fault service may replay; `kind` is the
access kind of its park record. -/
def State.route (s : State) (c : Cause) (replay : Bool) (kind : Nat) (addr : Nat → W64) : State :=
  let p := s.path
  if p.priv then s.doubleFault c p.trappc
  else if c = .pageFault ∧ replay = true then
    let (s, id) := s.park (.path s.pref) kind (addr (lowLane p.mask)) p.pc p.mask s.pathUnit
    let at_ := fun k : Park => { k with addrs := (lanesOf p.mask).map fun l => (l, addr l) }
    { s with path := { s.path with status := .parked id, since := s.core.cycles.toNat },
             dom := { s.dom with parks := updIf (fun k => k.id == id) at_ s.dom.parks } }
  else if (c = .bkpt ∨ c = .step) ∧ s.dom.dbg = true then
    if p.speculative then let s := s.abort .wait 0; { s with path := { s.path with halted := true } }
    else { s with path := { p with halted := true, pc := p.trappc } }
  else s.afterWindows fun s => s.enterHandler c

/-- R349, R357: the causes that are raised as usual inside a region. -/
def Cause.asUsual (c : Cause) : Bool := c == .bundleCheck || c == .uncorrectable

/-- Taking a trap, for every lane of the focused path (R387), with what a Clasp region makes of it (R349,
R353, R357). DESIGN CHOICE (log 104): a PAGE_FAULT that parks is a trap entry of the trace too, a record of TYPE 5, whose CAUSE is
what TRAPCAUSE still holds, since a park does not write it. -/
def State.trapFull (s : State) (c : Cause) (replay : Bool) (kind : Nat) (addr info : Nat → W64) : State :=
  let p := s.path
  let parks := c == .pageFault && replay && !p.priv
  if p.speculative && !c.asUsual && c != .bkpt && c != .step then s.abortHere .fault c.code
  else if p.inRegion && p.serial && !c.asUsual then
    let pc := p.pc
    let s := s.unserial
    let t := s.trapRegs c addr (fun _ => pc)
    let s := if parks then s.parkRegs else { t with path := { t.path with trappc := t.path.pc } }
    (s.trace 5).route c replay kind addr
  else
    let s := if parks then s.parkRegs else s.trapRegs c addr info
    (s.trace 5).route c replay kind addr

/-- A trap of every lane of the path, with one TRAPINFO and TRAPADDR 0. -/
def State.trap (s : State) (c : Cause) (info : W64) : State := s.trapFull c false 0 (fun _ => 0) (fun _ => info)

/-- R88: a word that is refused does not issue, and counts in no window. -/
def State.refuse (s : State) (c : Cause) (info : W64) : State :=
  if s.path.speculative && !c.asUsual then s.abort .fault c.code else s.trap c info

/-- R81, R88: a word that could not be fetched did not issue either. -/
def State.fetchTrap (s : State) (c : Cause) (addr info : Nat → W64) : State :=
  if s.path.speculative && !c.asUsual then s.abort .fault c.code else s.trapFull c true 3 addr info

/-- Lanes `m` trap; the others of the path act as `g`. -/
def State.trapLanes (s : State) (m : W64) (c : Cause) (replay : Bool) (kind : Nat) (addr info : Nat → W64)
    (g : State → State) : State := s.part m (fun s => s.trapFull c replay kind addr info) g

/-- The path has executed its instruction and goes on in sequence; a step past the last bundle is
ILLEGAL_PC at the instruction (R84). -/
def State.advance (s : State) : State :=
  if legalPc (nextPc s.path.pc) then { s with path := s.path.goto (nextPc s.path.pc) } else s.trap .illegalPc 0

/-- R72: a trap of a form that acts once: the lanes whose guard holds trap, and the others go on. -/
def State.trapOnce (s : State) (h : Hdr) (c : Cause) (info : W64) : State :=
  s.trapLanes (s.guard h) c false 0 (fun _ => 0) (fun _ => info) State.advance

/-- The path stays at its instruction and executes it again: it has not issued it yet (R394). -/
def State.stay (s : State) : State := { s with path := { s.path with ir := none, status := .running, stepped := false } }

/-- R396: `rte`: restores s124 to s127, leaves supervisor level, and goes on at TRAPPC; a TRAPPC that is not
legal is a double fault. R346: while a lock holds the sector of the save area, its read bounces and it waits. -/
def State.returnFromTrap (s : State) : State :=
  if !legalPc s.path.trappc then s.doubleFault .illegalPc s.path.pc
  else
    let sv := s.sVal 127
    let who := { s.unitWho false s.pathUnit with user := false }
    if s.saveHeld sv false then s.await .bounced
    else match s.check who sv { n := 32, write := false, atomic := false, tags := true, sc := none } with
    | (s, .error f) => s.doubleFault f.cause s.path.pc
    | (s, .ok t) =>
      let (s, x) := s.doRead who t .normal 32
      let s := s.sPuts 124 ((List.range 4).map fun k => BitVec.ofNat 64 (x / 2 ^ (64 * k)))
      { s with path := { s.path.goto s.path.trappc with priv := false } }

/-! Waiting in a region -/

/-- R72: the lanes on which a form acts: those whose guard holds. -/
def State.actsOn (s : State) (i : Instr) : W64 := (i.args.map fun o => s.guard o.h).getD s.path.mask

/-- R314, R201: a wait form inside a region: its lanes abort with WAIT; in serial mode CLASP_WAIT (log 77). -/
def State.waitInRegion (s : State) (i : Instr) : State :=
  if s.path.serial then s.trap .claspWait 0
  else s.part (s.actsOn i) (fun s => s.abortHere .wait i.opByte) State.advance

/-- A form that a region does not log: its lanes abort with NOLOG, the others go on (log 77). -/
def State.nolog (s : State) (i : Instr) : State :=
  s.part (s.actsOn i) (fun s => s.abortHere .nolog i.opByte) State.advance

/-- R162 to R165: a sector that lies outside the domain. -/
def remoteSector (sec : Nat) : Bool := decide (2 ^ 60 ≤ sec ∧ sec < 2 ^ 80)

/-- R178, R182, R183, R200: the issuing path does not wait for these where they leave the domain. -/
def RKind.posted : RKind → Bool
  | .store | .red _ | .psig _ => true
  | _ => false

/-- R183: a posted operation that has bounced: a store or a `red` to the peer-window or host tier, or a `psig` to any. -/
def Entry.isPosted (e : Entry) : Bool :=
  match e.req.kind with
  | .psig _ => true
  | k => k.posted && (remoteSector e.sector || tierOf (e.sector * 64) == 3)

/-- R183: the posted operations of the path that stand in the Locket. -/
def State.postedTags (s : State) : List Nat :=
  (s.wave.locket.filter fun e => e.isPosted && e.paths.contains s.path.pid).map (·.tag)

/-- R183: a remote-error point: every posted operation is acknowledged, those that have bounced too; the first that failed is
raised here for its lanes, and the others of the path go on as `k`. DESIGN CHOICE (log 119): when the path holds none of those lanes,
which have exited or lie in another path, it is raised for the path's whole active mask. -/
def State.remotePoint (s : State) (k : State → State) : State :=
  if s.postedTags ≠ [] then s.await (.retry s.postedTags)
  else match s.path.posted.find? fun x => x.cause != none with
  | none => k { s with path := { s.path with posted := [] } }
  | some x =>
    let rest := s.path.posted.filter fun y => y != x
    let s := { s with path := { s.path with posted := rest } }
    match x.cause with
    | none => k s
    | some c =>
      let ls := maskOf (x.lanes.map (·.1))
      let m := if s.path.mask &&& ls = 0 then s.path.mask else ls
      let first := (x.lanes.head?.map (·.2)).getD 0
      let addr := fun l => ((x.lanes.find? fun (y : Nat × W64) => y.1 == l).map (·.2)).getD first
      s.trapLanes m c false 0 addr (fun _ => x.pc) State.stay

/-- R222: an entry of the Locket that is older and binds the path. -/
def State.hasOlder (s : State) : Bool := s.wave.locket.any fun e => e.paths.contains s.path.pid

/-! Issue -/

/-- R391: what issuing an instruction does to the flashback point of its path. -/
def State.fbIssue (s : State) (i : Instr) : State :=
  let act := match i.args with
    | some o => s.guard o.h != 0
    | none => true
  if !act then s
  else
    let ws := (s.usesOf i).writes
    { s with path := { s.path with fb := s.path.fb.filter fun f => !(i.sideEffect || f.touched true ws) } }

/-- The instruction issues: its word stands in the path, its ageing counter is 0, it is counted (R28, R313). -/
def State.begin (s : State) (i : Instr) : State :=
  let s := s.fbIssue i
  let s := { s with path := { s.path with ir := some i, age := 0, stepped := s.path.stepBit, lost := s.path.under, under := [], status := match s.path.status with
    | .waiting w => .waiting w
    | _ => .running } }
  s.count (.issued (if i.uniform then .uni else i.pipeClass))

/-- R394: a path that DBG_STEP has let issue one instruction takes STEP in place of the next. -/
def State.takeStep (s : State) : State :=
  ({ s with path := { s.path with stepBit := false, stepped := false } }).trap .step 0

/-- R226, R250, R265: what the Locket area did not take, or give back, is UNCORRECTABLE at the path's next instruction. -/
def State.takeUncorr (s : State) : State := ({ s with path := { s.path with uncorr := false } }).trap .uncorrectable 0

/-! Stream faults (R338) -/

/-- R296: every barrier that holds the stream marks it arrived and dropped. -/
def Barrier.dropStream (b : Barrier) : Barrier :=
  if b.reg.getLsbD 32 then { b with arr := b.arr ||| (1 : BitVec 33) <<< 32, penddrop := b.penddrop ||| (1 : BitVec 33) <<< 32 } else b

/-- R295: completes a phase of a barrier when ARR covers REG; `tok` and `unit` are those of the arrival. -/
def Barrier.settle (b : Barrier) (tok : W64) (unit : W32) : Barrier :=
  if b.reg ≠ 0 ∧ b.reg &&& ~~~b.arr = 0 then
    { b with lastflg := b.flg, flg := 0, lasttok := tok, lastUnit := unit, reg := b.reg &&& ~~~b.penddrop, penddrop := 0,
             arr := 0, lmask := [], ph := b.ph + 1 }
  else b

/-- R296, R337: the stream leaves every barrier; its exit is its arrival. -/
def Block.dropStream (b : Block) (tok : W64) (unit : W32) : Block :=
  { b with bars := b.bars.map fun x => if x.reg.getLsbD 32 then x.dropStream.settle tok unit else x }

/-- R338: a stream that a fault stops is stopped once everything it issued has completed and its held arrivals have
performed: the cause is recorded, the pending flags are discarded, and the barriers are left as at `mend`. A bundle
that fails its check leaves no record. -/
def State.streamSettle (s : State) : State :=
  match s.block.stream with
  | none => s
  | some m =>
    match m.status with
    | .stopping c pc off =>
      if m.doneOps = m.issuedOps ∧ m.held = [] then
        let bars := (List.range 16).filter fun i => ((s.block.bars[i]?).map fun b => b.reg.getLsbD 32).getD false
        let f : SFault := { cause := c, pc := pc, off := off, bars := bars }
        let m' := { m with status := .stopped, rcd := if c = .bundleCheck then none else some f, opFlags := [] }
        { s with block := ({ s.block with stream := some m' }).dropStream (carried m.token m.e) s.streamUnit }
      else s
    | _ => s

/-- R338: the stream of the focused block takes a stream fault; one of a bundle's check ends its launch at once. -/
def State.streamFault (s : State) (c : Cause) (pc off : W64) : State :=
  match s.block.stream with
  | none => s
  | some m =>
    let s := { s with block := { s.block with stream := some { m with status := .stopping c pc off, ir := none } } }
    let s := if c = .bundleCheck then s.doubleFault .uncorrectable pc else s
    s.streamSettle

/-- R222: an acquire of the path has bounced and has not performed. -/
def State.acqPending (s : State) : Bool := s.wave.locket.any fun e => e.paths.contains s.path.pid && e.req.ord.isAcq

/-- R190, R249: LOCKETCNT of a wave of the focused block: its bounced requests, and its lane copies that are parked. -/
def State.locketCount (s : State) (w : Wave) : Nat :=
  w.locket.length + (s.block.copy.elems.filter fun e => e.wave == w.wid && e.parked.isSome).length

/-- R222, R249: why an instruction waits before it issues: a full Locket; older entries before a release, which inside a region a
commit or an atomic of AB is (R201); an acquire that has not performed. DESIGN CHOICE (log 143): a form whose guard holds for no active
lane, which makes no access, issues while LOCKETCNT is 144. -/
def State.blockedBy (s : State) (i : Instr) : Option Wait :=
  if i.isWsync then (if s.hasOlder then some .older else none)
  else if !i.touchesLocket || (i.args.map fun o => s.guard o.h == 0).getD false then none
  else if 144 ≤ s.locketCount s.wave then some .locketRoom
  else if s.hasOlder && (s.acqPending || (if s.path.txdepth != 0 then (i.isTxe && s.path.txdepth == 1) || i.releasesAb else i.releases)) then some .older
  else none

/-! The shape of a meaning -/

/-- An instruction of the vector stream: refused by R88 it traps; on a matrix stream it is the stream fault
MSTREAM; otherwise it issues and acts. -/
def State.issueVec (s : State) (i : Instr) (body : State → State) : State :=
  match s.kind with
  | .idle => s
  | .stream =>
    match s.block.stream with
    | none => s
    | some m => s.streamFault .mstream m.pc 0
  | .path =>
    match s.refuses i with
    | some r => s.refuse r.1 r.2
    | none =>
      if s.path.strayed i then s.trap .reconMismatch 0
      else if !legalPc (nextPc s.path.pc) && !i.transfers then (s.begin i).trap .illegalPc 0
      else match s.blockedBy i with
        | some w => s.await w
        | none => body (s.begin i)

end Sys2Proof.Machine
end

