-- ==== Sys2Proof/Machine/Operands.lean ====
section
/-! DEFINITION. Reading and writing operands: every operand form of R74 to R76, R90, R113, R136, R171, R172,
R177, R178, and the special registers (R75, R108). -/

namespace Sys2Proof.Machine

/-- The width of an integer type. -/
def tyBits : ITy → Nat
  | .i8 | .n8 => 8
  | .i16 | .n16 => 16
  | .i32 | .n32 => 32
  | .i64 | .n64 => 64

/-- Whether a type is signed. -/
def tySigned : ITy → Bool
  | .i8 | .i16 | .i32 | .i64 => true
  | _ => false

/-- The low bits of a value read as a type. -/
def tyVal (t : ITy) (x : W64) : Int :=
  if tySigned t then toInt (tyBits t) x.toNat else (x.toNat % 2 ^ tyBits t : Nat)

/-- R90: the 64 bits a result of a type has in an s register: extended by its signedness. -/
def tyExt (t : ITy) (x : Int) : W64 :=
  if tySigned t then (BitVec.ofInt (tyBits t) x).signExtend 64 else (BitVec.ofInt (tyBits t) x).setWidth 64

/-- `sat(x, type)`: the nearest value of the type. -/
def tyMin (t : ITy) : Int := if tySigned t then -(2 ^ (tyBits t - 1)) else 0
def tyMax (t : ITy) : Int := if tySigned t then 2 ^ (tyBits t - 1) - 1 else 2 ^ tyBits t - 1
def tySat (t : ITy) (x : Int) : Int := max (tyMin t) (min x (tyMax t))

/-- R108: GANGS of the block (a task wave reads 0), and the other special registers. -/
def State.special (s : State) (l : Nat) (r : SReg) : W64 :=
  let n := fun x : Nat => BitVec.ofNat 64 x
  let bs := fun i => if s.block.task then 0 else n (s.block.base i)
  let sz := fun i => if s.block.task then 0 else n (s.block.size i)
  match r with
  | .laneid => n l
  | .waveid => n s.wave.wid
  | .wavew => n s.wave.width
  | .blockid => s.block.blockid.setWidth 64
  | .launchid => s.block.launch.setWidth 64
  | .core => n s.core.ix
  | .clusterid => n (s.core.ix / 8)
  | .diedom => n s.dom.ix
  | .gangs => s.block.gangs
  | .pathid => n s.path.pid
  | .pathmask => s.path.mask
  | .fmt => s.path.fmt.setWidth 64
  | .flags => s.path.flags.setWidth 64
  | .cycles => s.core.cycles
  | .nspercyc => s.core.nspercyc
  | .stepid => s.path.stepid.setWidth 64
  | .token => s.path.token
  | .txdepth => n s.path.txdepth
  | .txcause => (mget s.wave.txcause l).setWidth 64
  | .trapcause => s.path.trapcause.setWidth 64
  | .trappc => s.path.trappc
  | .trapmask => s.path.trapmask
  | .trapaddr => mget s.wave.trapaddr l
  | .trapinfo => mget s.wave.trapinfo l
  | .priv => n (b2n s.path.priv)
  | .bncinj => s.wave.bncinj.setWidth 64
  | .locketcnt => n (s.locketCount s.wave)
  | .abbase => n s.abBase
  | .absize => n s.abSize
  | .wbbase => bs 1
  | .wbsize => sz 1
  | .accbase => bs 2
  | .accsize => sz 2
  | .sclbase => bs 3
  | .sclsize => sz 3
  | .spawndepth => n s.wave.spawndepth
  | .rngtop => ((s.path.ranges.headD 0)).setWidth 64

/-- A pair of vector registers from `n` (R90). -/
def Wave.wGet (w : Wave) (l n : Nat) : W64 := (w.vGet l (n + 1)) ++ (w.vGet l n)

/-- R74, R76, R113: an integer operand for a lane, as 64 bits; `wide` reads a `w` pair at a v code. -/
def State.rd (s : State) (wide : Bool) (l : Nat) (o : Opnd) : W64 :=
  match o with
  | .v n => if wide then s.wave.wGet l n.toNat else (s.wave.vGet l n.toNat).setWidth 64
  | .pair n => s.wave.wGet l (2 * n.toNat)
  | .s n => s.sVal n.toNat
  | .q n => if s.wave.qGet l n.toNat then 1 else 0
  | .sr r => s.special l r
  | .k c => c.signExtend 64
  | .immI kd x => if kd = 1 then x.setWidth 64 else x.signExtend 64
  | .immC x => x.signExtend 64
  | .absent => 0

/-- A typed source (R113). -/
def State.src (s : State) (t : ITy) (l : Nat) (o : Opnd) : Int := tyVal t (s.rd t.wide l o)

/-- R113, R116: the low `n` bits of a typed source, as a number. -/
def State.bits (s : State) (t : ITy) (l : Nat) (o : Opnd) : Nat := (s.rd t.wide l o).toNat % 2 ^ tyBits t

/-- R90: writes a result for a lane: a v register or a pair, or a predicate that is true when it is nonzero. -/
def Wave.putLane (w : Wave) (wide : Bool) (l : Nat) (d : Opnd) (x : W64) : Wave :=
  match d with
  | .v n => if wide then (w.vSet l n.toNat (x.setWidth 32)).vSet l (n.toNat + 1) (x.extractLsb' 32 32)
            else w.vSet l n.toNat (x.setWidth 32)
  | .pair n => (w.vSet l (2 * n.toNat) (x.setWidth 32)).vSet l (2 * n.toNat + 1) (x.extractLsb' 32 32)
  | .q n => w.qSet l n.toNat (x != 0)
  | _ => w

/-- R73: writes per lane; an s destination takes the value of the lowest lane. -/
def State.put (s : State) (wide : Bool) (m : W64) (d : Opnd) (f : Nat → W64) : State :=
  match d with
  | .s n => if m = 0 then s else s.sPut n.toNat (f (lowLane m))
  | _ => { s with wave := (lanesOf m).foldl (fun w l => w.putLane wide l d (f l)) s.wave }

/-- An integer result of a type. -/
def State.putTy (s : State) (t : ITy) (m : W64) (d : Opnd) (f : Nat → Int) : State :=
  s.put t.wide m d fun l => match d with
    | .q _ => BitVec.ofNat 64 (BitVec.ofInt (tyBits t) (f l)).toNat
    | _ => tyExt t (f l)

/-- A uniform source (R73, R75): as the lowest lane of the path reads it. -/
def State.uni (s : State) (o : Opnd) : W64 := s.rd false (lowLane s.path.mask) o

/-- R171, R172: the address of a memory operand for a lane. -/
def State.addr (s : State) (l : Nat) (x : Idx) (a b : Opnd) : W64 :=
  let base := s.rd false l a
  let ix : W64 := match b with
    | .v n => (s.wave.vGet l n.toNat).signExtend 64
    | .s n => s.sVal n.toNat
    | _ => 0
  base + (ix <<< x.scale.val) + x.disp.signExtend 64

/-- The bytes of an access size. -/
def sizeBytes : Size → Nat
  | .n8 | .i8 => 1
  | .n16 | .i16 => 2
  | .n32 => 4
  | .n64 => 8
  | .b128 => 16

/-- R177, R178: the data of a memory operand for a lane, 128 bits. -/
def State.data (s : State) (sz : Size) (l : Nat) (o : Opnd) : BitVec 128 :=
  match sz, o with
  | .b128, .v n => (s.wave.wGet l (n.toNat + 2)) ++ (s.wave.wGet l n.toNat)
  | .b128, .s n => (s.sVal (n.toNat + 1)) ++ (s.sVal n.toNat)
  | .n64, o => (s.rd true l o).setWidth 128
  | _, o => (s.rd false l o).setWidth 128

/-- R181: the compare and the new value of `cas`: the operand, and the register or pair that follows it. -/
def State.casData (s : State) (sz : Size) (l : Nat) (o : Opnd) : BitVec 128 × BitVec 128 :=
  let next : Opnd := match o with
    | .v n => .v (n + BitVec.ofNat 8 (szV sz))
    | .s n => .s (n + 1)
    | o => o
  (s.data sz l o, s.data sz l next)

/-- R90: the extension of a loaded value. -/
def extLoad (sz : Size) (x : Nat) : W64 :=
  match sz with
  | .i8 => sx 8 x
  | .i16 => sx 16 x
  | _ => BitVec.ofNat 64 x

/-- R177: writes a loaded value for a lane. -/
def Wave.putLoad (w : Wave) (sz : Size) (l : Nat) (d : Opnd) (x : Nat) : Wave :=
  match sz, d with
  | .b128, .v n => (List.range 4).foldl (fun w k => w.vSet l (n.toNat + k) (BitVec.ofNat 32 (x / 2 ^ (32 * k)))) w
  | .n64, .v n => w.putLane true l (.v n) (BitVec.ofNat 64 x)
  | sz, d => w.putLane false l d (extLoad sz x)

/-- R73, R177: writes the loaded values of the lanes, ascending; an s destination takes the lowest lane's. -/
def State.putLoads (s : State) (sz : Size) (d : Opnd) (vs : List (Nat × Nat)) : State :=
  match d, vs with
  | .s n, (_, x) :: _ =>
    match sz with
    | .b128 => s.sPuts n.toNat [BitVec.ofNat 64 x, BitVec.ofNat 64 (x / 2 ^ 64)]
    | _ => s.sPut n.toNat (extLoad sz x)
  | .s _, [] => s
  | _, _ => { s with wave := vs.foldl (fun w v => w.putLoad sz v.1 d v.2) s.wave }

/-- R73: with U = 1 an instruction acts once, with U = 0 for each of these lanes. -/
def execLanes (h : Hdr) (m : W64) : W64 := if h.u then (1 : W64) <<< lowLane m else m

/-- A compute form: for the lanes whose guard holds, D takes `f` of the lane; the path goes on in sequence. -/
def State.compute (s : State) (o : Args) (t : ITy) (f : Nat → Int) : State :=
  (s.putTy t (s.guard o.h) o.d f).advance

/-- R59, R72: a form that acts once, when its guard holds for some active lane. -/
def State.once (s : State) (o : Args) (f : State → State) : State :=
  if s.guard o.h = 0 then s.advance else f s

/-- R133: a value that FMT does not take. -/
def fmtBad (x : W32) : Bool := x.toNat / 16 != 0 || x.toNat % 4 == 3

/-- R302: writes an s destination, when there is one. -/
def State.putS (s : State) (d : Opnd) (x : W64) : State :=
  match d with
  | .s n => s.sPut n.toNat x
  | _ => s

end Sys2Proof.Machine
end

