-- ==== Sys2Proof/Machine/Int.lean ====
section
/-! DEFINITION. Integer arithmetic, logic, bit fields, comparison, moves and predicates: OP 0x04 and 0x10 to
0x12 (R113 to R123, R277). -/

namespace Sys2Proof.Machine

open Sys2Proof (Instr)

/-- The answer of a vector-stream instruction: its effect on the path, or what R88 makes of it. -/
def vec (i : Instr) (s : State) (f : State → State) : Host.Outcome State Fault Refusal := .next (s.issueVec i f)

/-- R116: an exact result, saturated or wrapped. -/
def finish (sat : Bool) (t : ITy) (x : Int) : Int := if sat then tySat t x else x

/-- A binary form over exact values. -/
def intBin (i : Instr) (t : ITy) (o : Args) (f : Int → Int → Int) (s : State) : Host.Outcome State Fault Refusal :=
  vec i s fun s => s.compute o t fun l => f (s.src t l o.a) (s.src t l o.b)

/-- A unary form over exact values. -/
def intUn (i : Instr) (t : ITy) (o : Args) (f : Int → Int) (s : State) : Host.Outcome State Fault Refusal :=
  vec i s fun s => s.compute o t fun l => f (s.src t l o.a)

/-- A form over the low `n` bits of its operands. -/
def bitBin (i : Instr) (t : ITy) (o : Args) (f : Nat → Nat → Nat) (s : State) : Host.Outcome State Fault Refusal :=
  vec i s fun s => s.compute o t fun l => (f (s.bits t l o.a) (s.bits t l o.b) : Nat)

def bitUn (i : Instr) (t : ITy) (o : Args) (f : Nat → Nat) (s : State) : Host.Outcome State Fault Refusal :=
  vec i s fun s => s.compute o t fun l => (f (s.bits t l o.a) : Nat)

/-- A form whose B is a count or a control, read as n32. -/
def bitCtl (i : Instr) (t : ITy) (o : Args) (f : Nat → Nat → Nat) (s : State) : Host.Outcome State Fault Refusal :=
  vec i s fun s => s.compute o t fun l => (f (s.bits t l o.a) (s.bits .n32 l o.b) : Nat)

def execIadd (sat : Bool) (t : ITy) (o : Args) (s : State) : Host.Outcome State Fault Refusal :=
  intBin (.iadd sat t o) t o (fun a b => finish sat t (a + b)) s

def execIsub (sat : Bool) (t : ITy) (o : Args) (s : State) : Host.Outcome State Fault Refusal :=
  intBin (.isub sat t o) t o (fun a b => finish sat t (a - b)) s

/-- R117: the carry that C gives to a lane. -/
def State.carryIn (s : State) (l : Nat) (c : Opnd) : Nat :=
  match c with
  | .q n => b2n (s.wave.qGet l n.toNat)
  | .s n => (s.sVal n.toNat).toNat % 2
  | _ => 0

/-- R117: `iaddc` and `isubb`: `f` answers the sum and the carry out; C takes the carry when it is a register. -/
def carryForm (i : Instr) (t : ITy) (o : Args) (f : Nat → Nat → Nat → Int × Bool) (s : State) :
    Host.Outcome State Fault Refusal :=
  vec i s fun s =>
    let m := s.guard o.h
    let r := fun l => f (s.bits t l o.a) (s.bits t l o.b) (s.carryIn l o.c)
    ((s.putTy t m o.d fun l => (r l).1).put false m o.c fun l => BitVec.ofNat 64 (b2n (r l).2)).advance

def execIaddc (t : ITy) (o : Args) (s : State) : Host.Outcome State Fault Refusal :=
  carryForm (.iaddc t o) t o (fun a b c => (((a + b + c : Nat) : Int), decide (2 ^ tyBits t ≤ a + b + c))) s

def execIsubb (t : ITy) (o : Args) (s : State) : Host.Outcome State Fault Refusal :=
  carryForm (.isubb t o) t o (fun a b c => ((a : Int) - b - c, decide (a < b + c))) s

def execImul (sat : Bool) (t : ITy) (o : Args) (s : State) : Host.Outcome State Fault Refusal :=
  intBin (.imul sat t o) t o (fun a b => finish sat t (a * b)) s

/-- R116: the upper half of the exact product. -/
def execImulh (t : ITy) (o : Args) (s : State) : Host.Outcome State Fault Refusal :=
  intBin (.imulh t o) t o (fun a b => (a * b).fdiv (2 ^ tyBits t)) s

def execImad (sat : Bool) (t : ITy) (o : Args) (s : State) : Host.Outcome State Fault Refusal :=
  vec (.imad sat t o) s fun s =>
    s.compute o t fun l => finish sat t (s.src t l o.a * s.src t l o.b + s.src t l o.c)

/-- R117: the quotient and the remainder, with the defined edge cases. -/
def idivOf (t : ITy) (a b : Int) : Int := if b = 0 then 2 ^ tyBits t - 1 else a.tdiv b
def iremOf (a b : Int) : Int := if b = 0 then a else a.tmod b

def execIdiv (t : ITy) (o : Args) (s : State) : Host.Outcome State Fault Refusal :=
  intBin (.idiv t o) t o (idivOf t) s

def execIrem (t : ITy) (o : Args) (s : State) : Host.Outcome State Fault Refusal :=
  intBin (.irem t o) t o iremOf s

def execImin (t : ITy) (o : Args) (s : State) : Host.Outcome State Fault Refusal :=
  intBin (.imin t o) t o (fun a b => min a b) s

def execImax (t : ITy) (o : Args) (s : State) : Host.Outcome State Fault Refusal :=
  intBin (.imax t o) t o (fun a b => max a b) s

def execIabs (sat : Bool) (t : ITy) (o : Args) (s : State) : Host.Outcome State Fault Refusal :=
  intUn (.iabs sat t o) t o (fun a => finish sat t a.natAbs) s

def execIneg (sat : Bool) (t : ITy) (o : Args) (s : State) : Host.Outcome State Fault Refusal :=
  intUn (.ineg sat t o) t o (fun a => finish sat t (-a)) s

def execIsat (t : ITy) (o : Args) (s : State) : Host.Outcome State Fault Refusal :=
  vec (.isat t o) s fun s => s.compute o t fun l => min (max (s.src t l o.a) (s.src t l o.b)) (s.src t l o.c)

/-! Logic and bit fields (R118 to R120) -/

def execAnd (t : ITy) (o : Args) (s : State) : Host.Outcome State Fault Refusal :=
  bitBin (.andI t o) t o (fun a b => a &&& b) s

def execOr (t : ITy) (o : Args) (s : State) : Host.Outcome State Fault Refusal :=
  bitBin (.orI t o) t o (fun a b => a ||| b) s

def execXor (t : ITy) (o : Args) (s : State) : Host.Outcome State Fault Refusal :=
  bitBin (.xorI t o) t o (fun a b => a ^^^ b) s

def execNot (t : ITy) (o : Args) (s : State) : Host.Outcome State Fault Refusal :=
  bitUn (.notI t o) t o (fun a => 2 ^ tyBits t - 1 - a) s

def execAndn (t : ITy) (o : Args) (s : State) : Host.Outcome State Fault Refusal :=
  bitBin (.andn t o) t o (fun a b => a &&& (2 ^ tyBits t - 1 - b)) s

def execShl (t : ITy) (o : Args) (s : State) : Host.Outcome State Fault Refusal :=
  bitCtl (.shl t o) t o (fun a c => if tyBits t ≤ c then 0 else a * 2 ^ c) s

def execShr (t : ITy) (o : Args) (s : State) : Host.Outcome State Fault Refusal :=
  bitCtl (.shr t o) t o (fun a c => if tyBits t ≤ c then 0 else a / 2 ^ c) s

/-- R118: from `n` on every bit equals the top bit. -/
def execSar (t : ITy) (o : Args) (s : State) : Host.Outcome State Fault Refusal :=
  vec (.sar t o) s fun s => s.compute o t fun l =>
    (toInt (tyBits t) (s.bits t l o.a)) >>> (min (tyBits t) (s.bits .n32 l o.b))

def execRotl (t : ITy) (o : Args) (s : State) : Host.Outcome State Fault Refusal :=
  bitCtl (.rotl t o) t o (fun a c => a * 2 ^ (c % tyBits t) + a / 2 ^ (tyBits t - c % tyBits t)) s

/-- R119: the field of `len` bits from `pos`, with the bits past the top as the type fills them. -/
def bfeOf (t : ITy) (a ctl : Nat) : Int :=
  let n := tyBits t
  let pos := min (ctl % 256) n
  let len := min (ctl / 256 % 256) n
  let x : Int := if tySigned t then (toInt n a) >>> pos else ((a / 2 ^ pos : Nat) : Int)
  if len = 0 then 0 else if tySigned t then (BitVec.ofInt len x).toInt else ((BitVec.ofInt len x).toNat : Int)

def execBfe (t : ITy) (o : Args) (s : State) : Host.Outcome State Fault Refusal :=
  vec (.bfe t o) s fun s => s.compute o t fun l => bfeOf t (s.bits t l o.a) (s.bits .n32 l o.b)

/-- R119: bits `pos` to `pos + len − 1` of `b` replaced by the low bits of `a`; what passes the top is dropped. -/
def bfiOf (t : ITy) (a b ctl : Nat) : Nat :=
  let n := tyBits t
  let pos := min (ctl % 256) n
  let len := min (min (ctl / 256 % 256) n) (n - pos)
  b - b / 2 ^ pos % 2 ^ len * 2 ^ pos + a % 2 ^ len * 2 ^ pos

def execBfi (t : ITy) (o : Args) (s : State) : Host.Outcome State Fault Refusal :=
  vec (.bfi t o) s fun s => s.compute o t fun l =>
    (bfiOf t (s.bits t l o.a) (s.bits t l o.b) (s.bits .n32 l o.c) : Nat)

/-- The bits of a number, lowest first. -/
def bitList (n x : Nat) : List Bool := (List.range n).map fun i => x.testBit i
def ofBitList (l : List Bool) : Nat := l.foldr (fun b x => b2n b + 2 * x) 0

def execPopc (t : ITy) (o : Args) (s : State) : Host.Outcome State Fault Refusal :=
  bitUn (.popc t o) t o (fun a => (bitList (tyBits t) a).countP id) s

def execClz (t : ITy) (o : Args) (s : State) : Host.Outcome State Fault Refusal :=
  bitUn (.clz t o) t o (fun a => ((bitList (tyBits t) a).reverse.takeWhile (! ·)).length) s

def execCtz (t : ITy) (o : Args) (s : State) : Host.Outcome State Fault Refusal :=
  bitUn (.ctz t o) t o (fun a => ((bitList (tyBits t) a).takeWhile (! ·)).length) s

def execBrev (t : ITy) (o : Args) (s : State) : Host.Outcome State Fault Refusal :=
  bitUn (.brev t o) t o (fun a => ofBitList (bitList (tyBits t) a).reverse) s

/-- R120: one output byte. -/
def bselByte (pool ctl : Nat) : Nat :=
  let p := bitsOf pool (8 * bitsOf ctl 0 3) 8
  match bitsOf ctl 3 2 with
  | 0 => p
  | 1 => 0
  | 2 => if p < 128 then 0 else 255
  | _ => ofBitList (bitList 8 p).reverse

def bselOf (a b c : Nat) : Nat :=
  (List.range 4).foldl (fun x k => x + bselByte (a + b * 2 ^ 32) (bitsOf c (8 * k) 8) * 2 ^ (8 * k)) 0

def execBsel (t : ITy) (o : Args) (s : State) : Host.Outcome State Fault Refusal :=
  vec (.bsel t o) s fun s => s.compute o t fun l =>
    (bselOf (s.bits t l o.a) (s.bits t l o.b) (s.bits .n32 l o.c) : Nat)

/-! Comparison, selection, moves and addresses (R121 to R123) -/

/-- R121: the conditions. -/
def ccHolds (cc : Cc) (a b : Int) : Bool :=
  match cc with
  | .eq => a == b
  | .ne => a != b
  | .lt => decide (a < b)
  | .le => decide (a ≤ b)
  | .gt => decide (b < a)
  | .ge => decide (b ≤ a)

def execIcmp (cc : Cc) (t : ITy) (o : Args) (s : State) : Host.Outcome State Fault Refusal :=
  intBin (.icmp cc t o) t o (fun a b => b2n (ccHolds cc a b)) s

def execIsel (t : ITy) (o : Args) (s : State) : Host.Outcome State Fault Refusal :=
  vec (.isel t o) s fun s => s.compute o t fun l =>
    if s.bits t l o.c = 0 then s.src t l o.b else s.src t l o.a

/-- R122: an address, without an access. -/
def execLea (scale : Fin 5) (t : ITy) (disp : BitVec 24) (o : Args) (s : State) : Host.Outcome State Fault Refusal :=
  vec (.lea scale t disp o) s fun s => s.compute o t fun l =>
    (s.addr l { scale := scale, disp := 0 } o.a o.b + disp.signExtend 64).toNat

def execMov (t : ITy) (o : Args) (s : State) : Host.Outcome State Fault Refusal :=
  intUn (.mov t o) t o (fun a => a) s

/-- R121: `movi` writes the upper half and keeps the lower. -/
def execMovi (t : ITy) (o : Args) (s : State) : Host.Outcome State Fault Refusal :=
  vec (.movi t o) s fun s => s.compute o t fun l =>
    (((s.rd false l o.a).setWidth 32 ++ (s.rd true l o.d).setWidth 32 : W64)).toNat

def execCvti (sat : Bool) (sty t : ITy) (o : Args) (s : State) : Host.Outcome State Fault Refusal :=
  vec (.cvti sat sty t o) s fun s => s.compute o t fun l => finish sat t (s.src sty l o.a)

/-! Predicates, OP 0x04 (R277, R278) -/

/-- D takes `f` of the lane, for the lanes whose guard holds. -/
def predForm (i : Instr) (o : Args) (f : State → Nat → Bool) (s : State) : Host.Outcome State Fault Refusal :=
  vec i s fun s => (s.put false (s.guard o.h) o.d fun l => BitVec.ofNat 64 (b2n (f s l))).advance

/-- A predicate operand. -/
def State.pred (s : State) (l : Nat) (o : Opnd) : Bool := s.rd false l o != 0

def execPand (o : Args) (s : State) : Host.Outcome State Fault Refusal :=
  predForm (.pand o) o (fun s l => s.pred l o.a && s.pred l o.b) s

def execPor (o : Args) (s : State) : Host.Outcome State Fault Refusal :=
  predForm (.por o) o (fun s l => s.pred l o.a || s.pred l o.b) s

def execPxor (o : Args) (s : State) : Host.Outcome State Fault Refusal :=
  predForm (.pxor o) o (fun s l => s.pred l o.a != s.pred l o.b) s

def execPnot (o : Args) (s : State) : Host.Outcome State Fault Refusal :=
  predForm (.pnot o) o (fun s l => !s.pred l o.a) s

def execPsetM (o : Args) (s : State) : Host.Outcome State Fault Refusal :=
  predForm (.psetM o) o (fun s l => (s.rd false l o.a).getLsbD l) s

/-- R277: q0 to q6 of a lane from bits [6:0]. -/
def Wave.setPreds (w : Wave) (l : Nat) (x : W64) : Wave :=
  (List.range 7).foldl (fun w k => w.qSet l k (x.getLsbD k)) w

def execPsetP (o : Args) (s : State) : Host.Outcome State Fault Refusal :=
  vec (.psetP o) s fun s =>
    ({ s with wave := (lanesOf (s.guard o.h)).foldl (fun w l => w.setPreds l (s.rd false l o.a)) s.wave }).advance

/-- R277: q6 to q0 in bits [6:0], bit 7 set. -/
def Wave.getPreds (w : Wave) (l : Nat) : Nat :=
  (List.range 7).foldl (fun x k => x + b2n (w.qGet l k) * 2 ^ k) 128

def execPget (o : Args) (s : State) : Host.Outcome State Fault Refusal :=
  vec (.pget o) s fun s =>
    (s.put false (s.guard o.h) o.d fun l => BitVec.ofNat 64 (s.wave.getPreds l)).advance

end Sys2Proof.Machine
end

