-- ==== Sys2Proof/Machine/Ctl.lean ====
section
/-! DEFINITION. Control flow: OP 0x01 to 0x03 without the trap forms (R31, R44, R263 to R276). -/

namespace Sys2Proof.Machine

/-! Moving lanes to their next PCs (R263) -/

/-- The lanes of each distinct PC, in the order in which the PCs first appear. -/
def groupPcs (ts : List (Nat × W64)) : List (W64 × W64) :=
  ts.foldl (fun gs (t : Nat × W64) =>
    let bit : W64 := (1 : W64) <<< t.1
    if gs.any fun (g : W64 × W64) => g.2 == t.2 then updIf (fun (g : W64 × W64) => g.2 == t.2) (fun g => (g.1 ||| bit, g.2)) gs
    else gs ++ [(bit, t.2)]) []

/-- The path goes on at `pc`. -/
def State.goto (s : State) (pc : W64) : State := { s with path := s.path.goto pc }

/-- R271: lanes go to their targets, those with an illegal target trap, once `undo` has been done in their part; `others` are the
remaining parts. -/
def State.transfer (s : State) (ts : List (Nat × W64)) (undo : State → State) (others : List Part) : State :=
  let good := ts.filter fun t => legalPc t.2
  let bad := maskOf ((ts.filter fun t => !legalPc t.2).map (·.1))
  s.divide ((groupPcs good).map (fun (g : W64 × W64) => ((g.1, fun s => s.goto g.2) : Part))
    ++ (bad, fun s => (undo s).trap .illegalPc 0) :: others)

/-- The lanes whose guard is false go on in sequence. -/
def State.passPart (s : State) (m : W64) : Part := (s.path.mask &&& ~~~m, State.advance)

/-! OP 0x01 -/

/-- R269, R318: in the matrix stream it advances the stream's PC. -/
def execNop (o : Args) (s : State) : Host.Outcome State Fault Refusal :=
  match s.kind, s.block.stream with
  | .stream, some m =>
    .next (if !(Instr.nop o).wf || o.h.neg || o.h.pred != 7 then s.streamFault .illegalOperand m.pc 0
      else if legalPc (nextPc m.pc) then { s with block := { s.block with stream := some { m with pc := nextPc m.pc, ir := none } } }
      else s.streamFault .illegalPc m.pc 0)
  | _, _ => vec (.nop o) s State.advance

/-- R269: the path may issue again in the 17th cycle of its slot after this one, which CYCLES has counted already. -/
def execYield (o : Args) (s : State) : Host.Outcome State Fault Refusal :=
  vec (.yieldI o) s fun s => s.once o fun s =>
    ({ s with path := { s.path with hold := s.core.cycles.toNat + Config.yieldHold } }).advance

/-! OP 0x02 (R271 to R273) -/

/-- `bra` and `jmp`: every lane whose guard holds goes to its target. -/
def jumpForm (i : Instr) (o : Args) (f : State → Nat → W64) (s : State) : Host.Outcome State Fault Refusal :=
  vec i s fun s =>
    let m := s.guard o.h
    let rest := (lanesOf (s.path.mask &&& ~~~m)).map fun l => (l, nextPc s.path.pc)
    s.transfer ((lanesOf m).map (fun l => (l, f s l)) ++ rest) id []

def execBra (off : BitVec 24) (o : Args) (s : State) : Host.Outcome State Fault Refusal :=
  jumpForm (.bra off o) o (fun s _ => branchPc s.path.pc off) s

def execJmp (o : Args) (s : State) : Host.Outcome State Fault Refusal :=
  jumpForm (.jmp o) o (fun s l => s.rd true l o.a) s

/-- A CALL entry for these lanes (R264). -/
def State.callEntry (s : State) (m : W64) : RecEntry :=
  { call := true, mask := m, pc := nextPc s.path.pc, etag := 0, fmts := s.path.fmt.setWidth 4 }

/-- The stack, and what the path owes, as they stood in `s`. -/
def State.unpush (t s : State) : State := { t with path := { t.path with stack := s.path.stack, uncorr := s.path.uncorr } }

/-- `call` and `callx`: one CALL entry on the stack of the part that calls, before it divides. A lane with an illegal target takes
ILLEGAL_PC; when the push has no room the lanes that call take CALL_DEPTH, and no lane moves. -/
def callForm (i : Instr) (o : Args) (f : State → Nat → W64) (s : State) : Host.Outcome State Fault Refusal :=
  vec i s fun s =>
    let m := s.guard o.h
    if m = 0 then s.advance
    else
      let ts := (lanesOf m).map fun l => (l, f s l)
      let good := maskOf ((ts.filter fun t => legalPc t.2).map (·.1))
      let e := s.callEntry good
      if good ≠ 0 ∧ s.pushRoom = false then
        s.divide [(good, fun s => s.trap .callDepth 0), (m &&& ~~~good, fun s => s.trap .illegalPc 0), (s.path.mask &&& ~~~m, State.stay)]
      else
        let t := if good = 0 then s else s.pushEntry e
        t.transfer ts (fun u => u.unpush s) [(s.path.mask &&& ~~~m, fun u => (u.unpush s).advance)]

def execCall (off : BitVec 24) (o : Args) (s : State) : Host.Outcome State Fault Refusal :=
  callForm (.callI off o) o (fun s _ => branchPc s.path.pc off) s

def execCallx (o : Args) (s : State) : Host.Outcome State Fault Refusal :=
  callForm (.callx o) o (fun s l => s.rd true l o.a) s

/-- The path returns to its top entry, which must be a CALL entry. -/
def State.doReturn (s : State) : State :=
  match s.path.stack with
  | e :: _ =>
    if e.call then
      if legalPc e.pc then (s.pop 1).goto e.pc else s.trap .illegalPc 0
    else s.trap .reconMismatch 0
  | [] => s.trap .reconMismatch 0

def execRet (o : Args) (s : State) : Host.Outcome State Fault Refusal :=
  vec (.ret o) s fun s => s.part (s.guard o.h) State.doReturn State.advance

/-- The next ETAG that no record uses (R264). -/
def freeEtag (used : List (BitVec 16)) : Nat → BitVec 16 → BitVec 16
  | 0, e => e
  | k + 1, e => if used.contains e then freeEtag used k (e + 1) else e

/-- R264: pushes a RECON entry for the whole path, with its join record. -/
def State.pushRecon (s : State) (pc : W64) : State :=
  let used := s.wave.joins.map (·.etag)
  let e := freeEtag used (used.length + 1) s.wave.nextEtag
  let r : JoinRec := { etag := e, mask := s.path.mask, arrived := 0, expired := false }
  let s := { s with wave := { s.wave with joins := r :: s.wave.joins, nextEtag := e + 1 } }
  s.pushEntry { call := false, mask := s.path.mask, pc := pc, etag := e, fmts := s.path.fmt.setWidth 4 }

/-- R346, R355: a plain read of this address would meet a sector that the serial lane holds exclusive. -/
def State.vaHeld (s : State) (va : W64) : Bool :=
  match (s.check s.who va { n := 0, write := false, atomic := false, tags := false, sc := none }).2 with
  | .ok t => s.lockedFor s.who t false
  | .error _ => false

/-- R163: the target is a device page. -/
def Target.device : Target → Bool
  | .loc _ l | .peer _ _ _ l _ => l.reg == 3
  | .fabric _ _ _ => false

/-- R222: an older entry that binds the path touches the sector; R163: accesses of a path to device pages keep their
order. -/
def State.behind (s : State) (sector : Nat) (dev : Bool) : Bool :=
  s.wave.locket.any fun e => (e.sector == sector || (dev && e.dev)) && e.paths.contains s.path.pid

/-- R175: of failing lanes, those whose cause is raised now: the earliest check but PAGE_FAULT; the others. -/
def splitFails (fs : List (Nat × W64 × Fail)) : List (Nat × W64 × Fail) × List (Nat × W64 × Fail) :=
  let hard := fs.filter fun f => f.2.2.cause != .pageFault
  match hard with
  | [] => (fs, [])
  | h :: t =>
    let k := t.foldl (fun k f => min k f.2.2.order) h.2.2.order
    (hard.filter fun f => f.2.2.order == k, fs.filter fun f => f.2.2.cause == .pageFault || f.2.2.order != k)

/-- The address and the detail of a lane among failing ones. -/
def failAddr (fs : List (Nat × W64 × Fail)) (l : Nat) : W64 := ((fs.find? fun f => f.1 == l).map (·.2.1)).getD 0
def failInfo (fs : List (Nat × W64 × Fail)) (l : Nat) : W64 := ((fs.find? fun f => f.1 == l).map (·.2.2.info)).getD 0

/-- R175: the parts of lanes that failed: those that trap or park, and those that stay; `kind` is the access
kind of a park record, `replay` marks a PAGE_FAULT that may park. -/
def failParts (fs : List (Nat × W64 × Fail)) (kind : Nat) (replay : Bool := true) : List Part :=
  let (now, later) := splitFails fs
  match now with
  | [] => []
  | f :: _ =>
    [((maskOf (now.map (·.1)), fun s => s.trapFull f.2.2.cause replay kind (failAddr now) (failInfo now)) : Part),
     ((maskOf (later.map (·.1)), State.stay) : Part)]

/-! OP 0x03 (R266, R274 to R276) -/

def execRecon (off : BitVec 24) (o : Args) (s : State) : Host.Outcome State Fault Refusal :=
  vec (.recon off o) s fun s => s.once o fun s =>
    if !s.pushRoom then s.trapOnce o.h .callDepth 0
    else (s.pushRecon (branchPc s.path.pc off)).advance

/-- The record of an ETAG. -/
def Wave.joinRec (w : Wave) (e : BitVec 16) : Option JoinRec := w.joins.find? fun r => r.etag == e

def Wave.updJoin (w : Wave) (e : BitVec 16) (f : JoinRec → JoinRec) : Wave :=
  { w with joins := updIf (fun r => r.etag == e) f w.joins }

def Path.waitsJoin (p : Path) (e : BitVec 16) : Bool := p.status == .waiting (.join e)

/-- R266, R267: every lane of the record has arrived or exited, or left it; the join waits for a path that has been halted at it, whose
halt the merged path has no place for (R394). -/
def State.joinReady (s : State) (e : BitVec 16) : Bool :=
  !(s.wavePaths.any fun p => p.waitsJoin e && p.halted) && match s.wave.joinRec e with
    | none => true
    | some r => covers (r.arrived ||| s.wave.exited) r.mask

/-- R83: the windows of two paths that merge: the larger remaining count of each. -/
def mergeWindows (a b : List Window) : List Window :=
  let up := fun w : Window => match b.find? fun x => x.pc == w.pc && x.dest == w.dest with
    | some x => { w with left := max w.left x.left }
    | none => w
  a.map up ++ b.filter fun w => !(a.any fun x => x.pc == w.pc && x.dest == w.dest)

/-- R266: `p` and the others that wait with it become one path; `ps` are in ascending PATHID. DESIGN CHOICE (log 109): a STEP that one of
them owes the debugger is the merged path's (R394). DESIGN CHOICE (log 133): with the token, E and STEPID that R373 names, the DROP flag
and the index at which the step began come from the path whose token is taken. -/
def mergePaths (p : Path) (ps : List Path) : Path :=
  let best := ps.foldl (fun (b : Path) q => if tokLen b.token < tokLen q.token then q else b) p
  let m := ps.foldl (fun m q => m ||| q.mask) p.mask
  let fmts : BitVec 4 := (p.stack.head?.map (·.fmts)).getD 0
  { p with
    mask := m, fmt := fmts.setWidth 32, flags := ps.foldl (fun f q => f ||| q.flags) p.flags,
    token := best.token, e := best.e, stepid := best.stepid, stepStart := best.stepStart, drop := best.drop,
    ranges := best.ranges, windows := ps.foldl (fun w q => mergeWindows w q.windows) p.windows, age := 0,
    fb := if ps.isEmpty then p.fb else none, stepBit := ps.foldl (fun b q => b || q.stepBit) p.stepBit,
    stepped := ps.foldl (fun b q => b || q.stepped) p.stepped, uncorr := ps.foldl (fun b q => b || q.uncorr) p.uncorr,
    posted := ps.foldl (fun l q => l ++ q.posted.filter fun x => !l.contains x) p.posted }

/-- The paths that wait at the join merge, and the merged path goes on. -/
def State.merge (s : State) (e : BitVec 16) : State :=
  let all := s.wavePaths
  match all.filter fun p => p.waitsJoin e with
  | [] => s
  | p :: ps =>
    let m := (mergePaths p.tick (ps.map Path.tick)).popped 1
    let rest := all.filter fun q => !q.waitsJoin e
    let bind := fun x : Entry => if x.paths.any fun i => ps.any fun q => q.pid == i then { x with paths := p.pid :: x.paths.filter fun i => !(i == p.pid || ps.any fun q => q.pid == i) } else x
    let w := { s.wave with paths := rest, locket := s.wave.locket.map bind }
    let m := { m with pc := nextPc p.pc, ir := none, status := .running, joinTimer := 0 }
    let s := (({ s with path := m, wave := w } : State).fillCheck p.stack 1).freeJoins
    if ps = [] then s else s.trace 2

/-- R31: a path leaves the entry of an expired join and goes on alone. -/
def State.passJoin (s : State) : State := (s.pop 1).freeJoins.advance

def execJoin (o : Args) (s : State) : Host.Outcome State Fault Refusal :=
  vec (.joinI o) s fun s =>
    match s.path.stack with
    | [] => s.trap .reconMismatch 0
    | e :: _ =>
      if e.call || e.pc != s.path.pc then s.trap .reconMismatch 0
      else if ((s.wave.joinRec e.etag).map (·.expired)).getD false then s.passJoin
      else
        let s := { s with wave := s.wave.updJoin e.etag fun r => { r with arrived := r.arrived ||| s.path.mask } }
        let s := s.await (.join e.etag)
        if s.joinReady e.etag then s.merge e.etag else s

/-- The local cycles for which a path has waited at its `join` or `wsync` (R31, R46). -/
def State.joinWaited (s : State) : Nat := s.path.joinTimer + (s.core.cycles.toNat - s.path.since)

/-- R31: JOIN_TIMEOUT: the record is marked expired, and every path that waits on it goes on alone. -/
def execJoinTimeout (p : PRef) (s : State) : Host.Outcome State Fault Refusal :=
  .next (s.atPath p fun s =>
    match s.path.status with
    | .waiting (.join e) =>
      if s.block.res != .resident || decide (s.joinWaited ≤ Config.joinBound) then s
      else
        let s := { s with wave := s.wave.updJoin e fun r => { r with expired := true } }
        let ids := (s.wavePaths.filter fun q => q.waitsJoin e).map Path.pid
        ids.foldl (fun s id => s.withPid id fun s => (s.trace 3).passJoin) s
    | _ => s)

/-- R275: the lanes of the paths that wait in `wsync`. -/
def State.wsyncArrived (s : State) : W64 :=
  s.wavePaths.foldl (fun m p => match p.status with
    | .waiting (.wsync _ _) => m ||| p.mask
    | _ => m) 0

/-- A path of the set goes on: D ← true, or false at its timeout. -/
def State.wsyncPass (s : State) (r : Bool) : State :=
  match s.path.status with
  | .waiting (.wsync _ d) => (s.put false s.path.mask d fun _ => BitVec.ofNat 64 (b2n r)).advance
  | _ => s

/-- Every lane of `w` that has not exited is in an arrived path. -/
def State.wsyncReady (s : State) (w : W64) : Bool := covers (s.wsyncArrived ||| s.wave.exited) w

/-- The W of a path that waits in `wsync`. -/
def Path.wsyncSet (p : Path) : Option W64 :=
  match p.status with
  | .waiting (.wsync w _) => some w
  | _ => none

/-- R275: lanes `m` lie in a W, of an arrived path, that is complete: the arrived path whose lanes they are goes on. -/
def State.wsyncGoes (s : State) (m : W64) : Bool :=
  (s.wavePaths.filterMap Path.wsyncSet).any fun w => s.wsyncReady w && covers w m

/-- R275: every arrived path whose lanes lie in a W that is complete goes on. -/
def State.wsyncDone (s : State) : State :=
  let ids := (s.wavePaths.filter fun q => q.wsyncSet.isSome && s.wsyncGoes q.mask).map Path.pid
  ids.foldl (fun s id => s.withPid id fun s => s.wsyncPass true) s

/-- R275: the arrival is a release, and so a remote-error point (R183). DESIGN CHOICE (log 139): bits of A at and above the wave's width,
of which the spec says nothing, name no lane. -/
def execWsync (o : Args) (s : State) : Host.Outcome State Fault Refusal :=
  vec (.wsync o) s fun s =>
    let w := match o.a with
      | .s n => s.sVal n.toNat &&& fullMask s.wave.width
      | _ => fullMask s.wave.width
    s.remotePoint fun s => (s.await (.wsync w o.d)).wsyncDone

/-- R275: WSYNC_TIMEOUT. -/
def execWsyncTimeout (p : PRef) (s : State) : Host.Outcome State Fault Refusal :=
  .next (s.atPath p fun s =>
    match s.path.status with
    | .waiting (.wsync _ _) => if s.block.res != .resident || decide (s.joinWaited ≤ Config.joinBound) then s else s.wsyncPass false
    | _ => s)

/-- R269: YIELD_EXPIRY: the hold has passed. -/
def execYieldExpiry (p : PRef) (s : State) : Host.Outcome State Fault Refusal :=
  .next (s.atPath p fun s => if s.block.res == .resident && decide (s.path.hold ≤ s.core.cycles.toNat) then { s with path := { s.path with hold := 0 } } else s)

def execPathq (k : BitVec 2) (o : Args) (s : State) : Host.Outcome State Fault Refusal :=
  vec (.pathq k o) s fun s => s.once o fun s =>
    let x : W64 := match k.toNat with
      | 0 => s.wave.live
      | 1 => BitVec.ofNat 64 s.path.stack.length
      | 2 => BitVec.ofNat 64 s.wavePaths.length
      | _ => (s.path.stack.head?.map (·.pc)).getD 0
    (s.putS o.d x).advance

end Sys2Proof.Machine
end

