-- ==== Sys2Proof/Machine/Flags.lean ====
section
/-! DEFINITION. Number formats, the one rounding step, the flag bits, and the JB blocks (R91 to R99, R104, R139,
R140). A result is a pair: the bits, and the flags it raises. -/

namespace Sys2Proof.Machine

/-! The flag bits (R104) -/
def flNX : Nat := 1
def flUF : Nat := 2
def flOF : Nat := 4
def flDZ : Nat := 8
def flNV : Nat := 16
def flSAT : Nat := 32
def flNB : Nat := 64

/-- R91: the bits of the fraction and of the exponent of a format. -/
def frBits : FTy → Nat
  | .f32 => 23
  | .f16 => 10
  | .bf16 => 7

def exBits : FTy → Nat
  | .f16 => 5
  | _ => 8

def fBias (f : FTy) : Int := 2 ^ (exBits f - 1) - 1
/-- The exponent of the smallest subnormal. -/
def fQmin (f : FTy) : Int := 1 - fBias f - frBits f
def fWidth (f : FTy) : Nat := 1 + exBits f + frBits f
def fInf (f : FTy) : Nat := (2 ^ exBits f - 1) * 2 ^ frBits f
def fSign (f : FTy) : Nat := 2 ^ (exBits f + frBits f)
/-- R91: the canonical NaN. -/
def fNan (f : FTy) : Nat := fInf f + 2 ^ (frBits f - 1)

/-- A decoded number: NaN (signalling or quiet), infinity, or (−1)^neg · m · 2^e. -/
inductive Fp
  | nan (sig : Bool) | inf (neg : Bool) | fin (neg : Bool) (m : Nat) (e : Int)
  deriving DecidableEq, Repr

/-- R91: decodes the bits of a format. -/
def Fp.of (f : FTy) (x : Nat) : Fp :=
  let neg := x.testBit (exBits f + frBits f)
  let ex := bitsOf x (frBits f) (exBits f)
  let fr := bitsOf x 0 (frBits f)
  if ex = 2 ^ exBits f - 1 then (if fr = 0 then .inf neg else .nan (!fr.testBit (frBits f - 1)))
  else if ex = 0 then .fin neg fr (fQmin f)
  else .fin neg (2 ^ frBits f + fr) (fQmin f + (ex - 1))

def Fp.isNan : Fp → Bool | .nan _ => true | _ => false
def Fp.isSig : Fp → Bool | .nan b => b | _ => false
def Fp.isInf : Fp → Bool | .inf _ => true | _ => false
def Fp.isZero : Fp → Bool | .fin _ 0 _ => true | _ => false
def Fp.neg : Fp → Bool | .nan _ => false | .inf n => n | .fin n _ _ => n
def Fp.flip : Fp → Fp | .nan b => .nan b | .inf n => .inf !n | .fin n m e => .fin (!n) m e

/-- `num / den · 2^k` as a quotient and what the rounding looks at. -/
def scaleDiv (num den : Nat) (k : Int) : Nat × Nat × Nat :=
  let a := if 0 ≤ k then num * 2 ^ k.toNat else num
  let b := if 0 ≤ k then den else den * 2 ^ (-k).toNat
  (a / b, a % b, b)

/-- R92: rounds a nonnegative quotient to an integer. -/
def roundInt (rm : Rm) (neg : Bool) (q r d : Nat) : Nat :=
  let up : Bool := match rm with
    | .rne => decide (d < 2 * r) || (2 * r == d && q % 2 == 1)
    | .rtz => false
    | .rup => r != 0 && !neg
    | .rdn => r != 0 && neg
  if up then q + 1 else q

/-- The exponent of the leading bit of `num / den`. -/
def ratLog (num den : Nat) : Int :=
  let l : Int := (num.log2 : Int) - den.log2
  let (q, _, _) := scaleDiv num den (-l)
  if q = 0 then l - 1 else l

/-- R92: what an overflow delivers. -/
def overflow (f : FTy) (rm : Rm) (neg : Bool) : Nat :=
  let toInf := match rm with
    | .rne => true
    | .rtz => false
    | .rup => !neg
    | .rdn => neg
  b2n neg * fSign f + (if toInf then fInf f else fInf f - 1)

/-- R92, R93: rounds (−1)^neg · num / den · 2^e, not zero, once; `sticky` says that the exact value lies above
`num / den` by less than any bit the rounding looks at. -/
def roundRat (f : FTy) (rm : Rm) (neg : Bool) (num den : Nat) (e : Int) : Nat × Nat :=
  let x := ratLog num den + e
  let q0 := x - frBits f
  let (a, r, d) := scaleDiv num den (e - q0)
  let k0 := roundInt rm neg a r d
  let tiny := decide ((if k0 = 2 ^ (frBits f + 1) then x + 1 else x) < 1 - fBias f)
  let q := max q0 (fQmin f)
  let (a, r, d) := scaleDiv num den (e - q)
  let k := roundInt rm neg a r d
  let bits := (q - fQmin f).toNat * 2 ^ frBits f + k
  if fInf f ≤ bits then (overflow f rm neg, flOF + flNX)
  else (b2n neg * fSign f + bits, if r = 0 then 0 else flNX + (if tiny then flUF else 0))

/-- Rounds a dyadic number that is not zero. -/
def roundDy (f : FTy) (rm : Rm) (m : Int) (e : Int) : Nat × Nat := roundRat f rm (m < 0) m.natAbs 1 e

/-- The sum of two dyadic numbers: significand at the lower exponent. -/
def dyAdd (m1 : Int) (e1 : Int) (m2 : Int) (e2 : Int) : Int × Int :=
  let e := min e1 e2
  (m1 * 2 ^ (e1 - e).toNat + m2 * 2 ^ (e2 - e).toNat, e)

def signed (neg : Bool) (m : Nat) : Int := if neg then -(m : Int) else m

/-- R139: the sign of an exact zero. -/
def zeroOf (f : FTy) (rm : Rm) (addends : List Fp) : Nat :=
  let allNegZero := addends.all fun a => a.isZero && a.neg
  let allPosZero := addends.all fun a => a.isZero && !a.neg
  if allNegZero || (rm == .rdn && !allPosZero) then fSign f else 0

/-- R139: NV for a signalling input. -/
def sigFlag (xs : List Fp) : Nat := if xs.any Fp.isSig then flNV else 0

/-- R139: a sum of terms none of which is NaN: infinities, exact zero, or one rounding. -/
def sumTerms (f : FTy) (rm : Rm) (ts : List Fp) : Nat × Nat :=
  if ts.any fun t => t.isInf then
    if (ts.any fun t => t.isInf && t.neg) && (ts.any fun t => t.isInf && !t.neg) then (fNan f, flNV)
    else ((if ts.any fun t => t.isInf && t.neg then fSign f else 0) + fInf f, 0)
  else
    let step := fun (a : Int × Int) t => match t with
      | Fp.fin n m e => dyAdd a.1 a.2 (signed n m) e
      | _ => a
    match ts with
    | .fin n m e :: rest =>
      let (m, e) := rest.foldl step (signed n m, e)
      if m = 0 then (zeroOf f rm ts, 0) else roundDy f rm m e
    | _ => (zeroOf f rm ts, 0)

/-- The exact product; `none` for 0 × ∞. -/
def mulFp (a b : Fp) : Option Fp :=
  match a, b with
  | .fin n m e, .fin n' m' e' => some (.fin (n != n') (m * m') (e + e'))
  | .inf n, .fin n' m' _ => if m' = 0 then none else some (.inf (n != n'))
  | .fin n m _, .inf n' => if m = 0 then none else some (.inf (n != n'))
  | .inf n, .inf n' => some (.inf (n != n'))
  | _, _ => some (.nan false)

def faddOf (f : FTy) (rm : Rm) (x y : Nat) : Nat × Nat :=
  let a := Fp.of f x
  let b := Fp.of f y
  let r := if a.isNan || b.isNan then (fNan f, 0) else sumTerms f rm [a, b]
  (r.1, r.2 ||| sigFlag [a, b])

def fsubOf (f : FTy) (rm : Rm) (x y : Nat) : Nat × Nat := faddOf f rm x (y ^^^ fSign f)

/-- R139: `ffma`: 0 × ∞ is invalid even beside a quiet NaN. -/
def ffmaOf (f : FTy) (rm : Rm) (x y z : Nat) : Nat × Nat :=
  let a := Fp.of f x
  let b := Fp.of f y
  let c := Fp.of f z
  let r := match mulFp a b with
    | none => (fNan f, flNV)
    | some p => if p.isNan || c.isNan then (fNan f, 0) else sumTerms f rm [p, c]
  (r.1, r.2 ||| sigFlag [a, b, c])

/-- A finite product or quotient rounded; a zero keeps its sign. -/
def roundFin (f : FTy) (rm : Rm) (p : Fp) : Nat × Nat :=
  match p with
  | .nan _ => (fNan f, 0)
  | .inf n => (b2n n * fSign f + fInf f, 0)
  | .fin n m e => if m = 0 then (b2n n * fSign f, 0) else roundRat f rm n m 1 e

def fmulOf (f : FTy) (rm : Rm) (x y : Nat) : Nat × Nat :=
  let a := Fp.of f x
  let b := Fp.of f y
  let r := match mulFp a b with
    | none => (fNan f, flNV)
    | some p => roundFin f rm p
  (r.1, r.2 ||| sigFlag [a, b])

/-- R139: `fscale`; past 4,096 the exponent makes no further difference. -/
def fscaleOf (f : FTy) (rm : Rm) (x : Nat) (b : Int) : Nat × Nat :=
  let a := Fp.of f x
  let r := match a with
    | .fin n m e => roundFin f rm (.fin n m (e + max (-4096) (min 4096 b)))
    | _ => roundFin f rm a
  (r.1, r.2 ||| sigFlag [a])

/-- R139: `frnd`. -/
def frndOf (f : FTy) (rm : Rm) (x : Nat) : Nat × Nat :=
  let a := Fp.of f x
  match a with
  | .fin n m e =>
    if m = 0 ∨ 0 ≤ e then (x, 0)
    else
      let (q, r, d) := scaleDiv m 1 e
      let k := roundInt rm n q r d
      let fl := if r = 0 then 0 else flNX
      if k = 0 then (b2n n * fSign f, fl) else ((roundRat f rm n k 1 0).1, fl)
  | .inf _ => (x, 0)
  | .nan sg => (fNan f, if sg then flNV else 0)

/-- The order of two numbers that are not NaN, −0 below +0 when `zs`. -/
def fpLess (zs : Bool) (a b : Fp) : Bool :=
  match a, b with
  | .inf n, .inf n' => n && !n'
  | .inf n, _ => n
  | _, .inf n' => !n'
  | .fin n m e, .fin n' m' e' =>
    let (d, _) := dyAdd (signed n m) e (-(signed n' m')) e'
    decide (d < 0) || (d == 0 && zs && n && !n')
  | _, _ => false

/-- R139: `fmin` and `fmax`. -/
def fminmax (f : FTy) (isMax prop : Bool) (x y : Nat) : Nat × Nat :=
  let a := Fp.of f x
  let b := Fp.of f y
  let fl := sigFlag [a, b]
  if a.isNan || b.isNan then
    if prop || (a.isNan && b.isNan) then (fNan f, fl) else (if a.isNan then y else x, fl)
  else
    let less := fpLess true a b
    (if less != isMax then x else y, fl)

/-- R140: the conditions of `fcmp`. -/
def fcmpOf (f : FTy) (cc : FCc) (sig : Bool) (x y : Nat) : Bool × Nat :=
  let a := Fp.of f x
  let b := Fp.of f y
  let un := a.isNan || b.isNan
  let fl := if sig && un then flNV else sigFlag [a, b]
  let lt := !un && fpLess false a b
  let gt := !un && fpLess false b a
  let eq := !un && !lt && !gt
  (match cc with
    | .eq => eq
    | .ne => !eq
    | .lt => lt
    | .le => lt || eq
    | .gt => gt
    | .ge => gt || eq
    | .un => un
    | .ord => !un, fl)

/-- R140: the mask of `fclass`. -/
def fclassOf (f : FTy) (x : Nat) : Nat :=
  match Fp.of f x with
  | .nan true => 1
  | .nan false => 2
  | .inf true => 4
  | .inf false => 512
  | .fin n m _ =>
    if m = 0 then (if n then 32 else 64)
    else if m < 2 ^ frBits f then (if n then 16 else 128)
    else (if n then 8 else 256)

/-! Conversions (R99) -/

/-- Between float formats. -/
def cvtOf (src dst : FTy) (rm : Rm) (x : Nat) : Nat × Nat :=
  let a := Fp.of src x
  let r := roundFin dst rm a
  (r.1, r.2 ||| sigFlag [a])

/-- Float to integer: saturating; NaN gives 0. -/
def toIntOf (f : FTy) (rm : Rm) (t : ITy) (x : Nat) : Int × Nat :=
  match Fp.of f x with
  | .nan _ => (0, flNV)
  | .inf n => (if n then tyMin t else tyMax t, flNV)
  | .fin n m e =>
    let (q, r, d) := scaleDiv m 1 e
    let k := signed n (roundInt rm n q r d)
    if k < tyMin t ∨ tyMax t < k then (tySat t k, flNV) else (k, if r = 0 then 0 else flNX)

/-- Integer to float. -/
def ofIntOf (f : FTy) (rm : Rm) (x : Int) : Nat × Nat := if x = 0 then (0, 0) else roundDy f rm x 0

/-! Roots and quotients (R141, R142) -/

/-- The integer square root, over the bits below `2^k`. -/
def isqrt (x : Nat) : Nat → Nat → Nat
  | 0, r => r
  | k + 1, r => isqrt x k (if (r + 2 ^ k) * (r + 2 ^ k) ≤ x then r + 2 ^ k else r)

/-- The square root of `num / den · 2^e`, with 40 bits more than any format, then one rounding; the last bit
stands for what was cut. -/
def rootRound (f : FTy) (rm : Rm) (num den : Nat) (e : Int) : Nat × Nat :=
  let sh : Nat := 80 + den.log2 + (if (e - (80 + den.log2 : Nat)) % 2 = 0 then 0 else 1)
  let a := num * 2 ^ sh / den
  let r := isqrt a (a.log2 / 2 + 2) 0
  let exact := r * r * den == num * 2 ^ sh
  roundRat f rm false (2 * r + b2n (!exact)) 1 ((e - sh) / 2 - 1)

def fsqrtOf (f : FTy) (rm : Rm) (x : Nat) : Nat × Nat :=
  match Fp.of f x with
  | .nan sg => (fNan f, if sg then flNV else 0)
  | .inf n => if n then (fNan f, flNV) else (x, 0)
  | .fin n m e => if m = 0 then (x, 0) else if n then (fNan f, flNV) else rootRound f rm m 1 e

def frsqOf (f : FTy) (rm : Rm) (x : Nat) : Nat × Nat :=
  match Fp.of f x with
  | .nan sg => (fNan f, if sg then flNV else 0)
  | .inf n => if n then (fNan f, flNV) else (0, 0)
  | .fin n m e =>
    if m = 0 then (b2n n * fSign f + fInf f, flDZ) else if n then (fNan f, flNV) else rootRound f rm 1 m (-e)

def fdivOf (f : FTy) (rm : Rm) (x y : Nat) : Nat × Nat :=
  let a := Fp.of f x
  let b := Fp.of f y
  let sg := b2n (a.neg != b.neg) * fSign f
  let r := if a.isNan || b.isNan then (fNan f, 0)
    else match a, b with
      | .inf _, .inf _ => (fNan f, flNV)
      | .inf _, _ => (sg + fInf f, 0)
      | _, .inf _ => (sg, 0)
      | .fin _ m e, .fin _ m' e' =>
        if m' = 0 then (if m = 0 then (fNan f, flNV) else (sg + fInf f, flDZ))
        else if m = 0 then (sg, 0)
        else roundRat f rm (a.neg != b.neg) m m' (e - e')
      | _, _ => (fNan f, 0)
  (r.1, r.2 ||| sigFlag [a, b])

def frcpOf (f : FTy) (rm : Rm) (x : Nat) : Nat × Nat :=
  match Fp.of f x with
  | .nan sg => (fNan f, if sg then flNV else 0)
  | .inf n => (b2n n * fSign f, 0)
  | .fin n m e => if m = 0 then (b2n n * fSign f + fInf f, flDZ) else roundRat f rm n 1 m (-e)

/-! JB blocks (R95 to R98) -/

/-- R95: the magnitude bits of JBF 0, 1 and 2. -/
def jbM (jbf : Nat) : Nat := if jbf = 0 then 2 else if jbf = 1 then 4 else 7
/-- R148: the bytes of a block. -/
def jbBytes (jbf : Nat) : Nat := if jbf = 0 then 8 else if jbf = 1 then 12 else 18

def jbX (b : Nat) : Nat := bitsOf b 0 8
def jbMu (b e : Nat) : Nat := bitsOf b (8 + e / 2) 1
def jbMag (m b e : Nat) : Nat := bitsOf b (16 + (1 + m) * e + 1) m
def jbNeg (m b e : Nat) : Bool := bitOf b (16 + (1 + m) * e)

/-- R96, R97: an element as f32; a zero magnitude is +0; a NaN block's elements are the canonical NaN. -/
def jbElem (m b e : Nat) : Nat :=
  let mag := jbMag m b e
  if jbX b = 255 then fNan .f32
  else if mag = 0 then 0
  else (roundRat .f32 .rne (jbNeg m b e) mag 1 ((jbX b : Int) - 127 - jbMu b e - (m - 1 : Nat))).1

/-- R98: |v| < 2^k, for a value that is not NaN. -/
def absBelow (v : Fp) (k : Int) : Bool :=
  match v with
  | .fin _ m e => m == 0 || decide ((m.log2 : Int) + e < k)
  | _ => false

/-- R98: the shared exponent of sixteen values none of which is NaN. -/
def jbExpOf (vs : List Fp) : Nat :=
  let top := vs.foldl (fun (t : Option Int) v => match v with
    | .inf _ => some 1000
    | .fin _ m e => if m = 0 then t else some (match t with
        | none => (m.log2 : Int) + e
        | some x => max x ((m.log2 : Int) + e))
    | .nan _ => t) none
  match top with
  | none => 0
  | some x => (min 254 (max 0 (x + 127))).toNat

/-- R98: one element: its magnitude and sign, whether it saturated, whether it differs. -/
def jbEnc (m : Nat) (rm : Rm) (x mu : Nat) (v : Fp) : Nat × Bool × Bool × Bool :=
  match v with
  | .fin n k e =>
    let (q, r, d) := scaleDiv k 1 (e - ((x : Int) - 127 - mu - (m - 1 : Nat)))
    let j := roundInt rm n q r d
    let sat := decide (2 ^ m - 1 < j)
    let j := min j (2 ^ m - 1)
    (j, n && j != 0, sat, r != 0 || sat)
  | .inf n => (2 ^ m - 1, n, true, true)
  | .nan _ => (0, false, false, false)

/-- R98: encodes sixteen f32 values. -/
def jbEncode (jbf : Nat) (rm : Rm) (xs : List Nat) : Nat × Nat :=
  let m := jbM jbf
  let vs := xs.map (Fp.of .f32)
  if vs.any Fp.isNan then (255, flNB + (if vs.any Fp.isSig then flNV else 0))
  else
    let x := jbExpOf vs
    let get := fun e => (vs[e]?).getD (.fin false 0 0)
    let mu := fun i => b2n (absBelow (get (2 * i)) ((x : Int) - 128) && absBelow (get (2 * i + 1)) ((x : Int) - 128))
    let es := (List.range 16).map fun e => jbEnc m rm x (mu (e / 2)) (get e)
    let elems := (es.zip (List.range 16)).foldl (fun a p => a + (b2n p.1.2.1 + 2 * p.1.1) * 2 ^ (16 + (1 + m) * p.2)) 0
    let mus := (List.range 8).foldl (fun a i => a + mu i * 2 ^ (8 + i)) 0
    let fl := (if es.any fun p => p.2.2.1 then flSAT else 0) + (if es.any fun p => p.2.2.2 then flNX else 0)
    (x + mus + elems, fl)

end Sys2Proof.Machine
end

