-- ==== Sys2Proof/Machine/Request.lean ====
section
/-! DEFINITION. Requests to global memory and to AB: what a lane's request does where it performs, what a
bounce leaves in the Locket, the applied tags, posted operations, and the parts into which a path divides when
some lanes fail (R165, R174 to R183, R220 to R224, R249, R250, R420). -/

namespace Sys2Proof.Machine

/-! What is asked -/

/-- R180: the new value of an `n`-bit word. -/
def atomNew (op : AOp) (n old v : Nat) : Nat :=
  match op with
  | .add => (old + v) % 2 ^ n
  | .umin => min old v
  | .umax => max old v
  | .smin => if toInt n old ≤ toInt n v then old else v
  | .smax => if toInt n old ≤ toInt n v then v else old
  | .and => old &&& v
  | .or => old ||| v
  | .xor => old ^^^ v
  | .exch => v
  | .inc => if v ≤ old then 0 else (old + 1) % 2 ^ n
  | .dec => if old = 0 ∨ v < old then v else old - 1
  | .fadd => (faddOf .f32 .rne old v).1

/-- R308: the new value of a signal word. -/
def sigNew (op : SigOp) (n old v : Nat) : Nat :=
  match op with
  | .set => v
  | .add => (old + v) % 2 ^ n
  | .sub => (old + 2 ^ n - v) % 2 ^ n

/-- The value that a request writes, given the old one; `none` when it writes nothing (a `cas` that fails). -/
def RKind.update (k : RKind) (n old val cmp : Nat) : Option Nat :=
  match k with
  | .load => none
  | .store => some val
  | .atom op | .red op => some (atomNew op n old val)
  | .cas => if old = cmp then some val else none
  | .psig add => some (if add then (old + val) % 2 ^ n else val)
  | .signal op => some (sigNew op n old val)
  | .again _ _ => none

def RKind.atomic : RKind → Bool
  | .load | .store | .again _ _ => false
  | _ => true

/-- A request whose answer goes to a register. -/
def RKind.returns : RKind → Bool
  | .load | .atom _ | .cas => true
  | _ => false

def RKind.writes : RKind → Bool
  | .load => false
  | .again _ w => w
  | _ => true

/-- The access kind in a park record (R386). -/
def RKind.parkKind (k : RKind) : Nat := if k.atomic then 2 else if k.writes then 1 else 0

def RKind.isSignal : RKind → Bool
  | .signal _ => true
  | _ => false

/-- R420: a `signal` is no form of OP 0x30 to 0x36, nor is a ring operation, which `again` stands for as it is made. -/
def RKind.counts (k : RKind) : Bool := !k.isSignal && !k.isAgain

/-- What R174 checks for a request. -/
def Req.want (q : Req) : Want :=
  { n := sizeBytes q.sz, write := q.kind.writes, atomic := q.kind.atomic, tags := true,
    sc := if q.kind.atomic || q.ord != .plain then some q.sc else none }

/-- R202, R367: what a write of the request leaves with its sector. -/
def Req.mark (q : Req) : TokMark := if q.ord.isRel then .tok q.token q.unit else .plain

def Req.bits (q : Req) : Nat := 8 * sizeBytes q.sz

/-- R223: the owner-and-sequence tag. -/
def State.ostag (s : State) (lane : Nat) (seq : BitVec 16) : BitVec 112 :=
  let unit := if s.block.task then ((s.wave.task.map (·.serial)).getD 0) else s.block.blockid
  BitVec.ofNat 112 (s.dom.ix * 2 ^ 108 + b2n s.block.task * 2 ^ 107 + s.block.launch.toNat * 2 ^ 74
    + unit.toNat * 2 ^ 42 + s.wave.wid % 128 * 2 ^ 35 + lane % 64 * 2 ^ 29 + seq.toNat)

/-! Applied tags (R224) -/

/-- The number of the unit that performs atomics on a target: a home slice, or a fabric port. -/
def Target.unit : Target → Nat
  | .loc va l => sliceOf (l.key va)
  | .peer _ _ va l _ => sliceOf (l.key va)
  | .fabric port _ _ => 48 + port

/-- R165: whether the unit is not the issuing core's L1. -/
def Target.atUnit (t : Target) (ret : Bool) : Bool :=
  match t with
  | .loc _ l => !(ret && l.atomInL1)
  | _ => true

/-- The target lies outside the domain's own memory, or in host memory: stores to it are posted. -/
def Target.remote : Target → Bool
  | .loc _ l => l.tier == 3
  | _ => true

/-- The target lies behind a peer window. -/
def Target.away : Target → Bool
  | .loc _ _ => false
  | _ => true

/-- Runs `f` in the domain that holds the target. -/
def State.atTarget {α : Type} (s : State) (t : Target) (dflt : α) (f : State → State × α) : State × α :=
  match t with
  | .peer dom _ _ _ _ => s.withDom dom dflt f
  | _ => f s

def State.appliedFind (s : State) (t : Target) (tag : BitVec 112) : Option (BitVec 128) :=
  (s.atTarget t none fun s => (s, (s.dom.applied.find? fun a => a.unit == t.unit && a.tag == tag).map (·.val))).2

def State.appliedFull (s : State) (t : Target) : Bool :=
  (s.atTarget t false fun s => (s, decide (512 ≤ (s.dom.applied.filter fun a => a.unit == t.unit).length))).2

def State.appliedAdd (s : State) (t : Target) (tag : BitVec 112) (v : BitVec 128) : State :=
  (s.atTarget t () fun s =>
    ({ s with dom := { s.dom with applied := { unit := t.unit, tag := tag, val := v } :: s.dom.applied } }, ())).1

def State.appliedFree (s : State) (t : Target) (tag : BitVec 112) : State :=
  (s.atTarget t () fun s =>
    ({ s with dom := { s.dom with applied := s.dom.applied.filter fun a => !(a.unit == t.unit && a.tag == tag) } }, ())).1

/-! One lane's request -/

/-- What becomes of a lane's request: it performed and answers a value; it bounced; a check failed; or a posted
operation was sent, to its virtual sector, and has the outcome that a remote-error point will report. -/
inductive LaneRes
  | done (v : Nat)
  | bounce (sector : Nat) (applied : Bool)
  | fail (f : Fail)
  | posted (sector : Nat) (c : Option Cause)
  deriving DecidableEq, Repr

/-- The issuer of a request, on the core where its block stands. -/
def State.reqWho (s : State) (q : Req) : Who :=
  { core := s.core.ix, tenant := s.tenant, user := q.user, unit := q.unit, serial := false }

/-- How a request performs at its place, once nothing holds it up: the state and the old value. -/
def State.reqAct (s : State) (q : Req) (r : LaneReq) (t : Target) : State × Nat :=
  let n := sizeBytes q.sz
  match q.kind with
  | .load => s.doRead (s.reqWho q) t q.hint n
  | .store => (s.doWrite (s.reqWho q) t q.hint n r.val.toNat q.mark, 0)
  | .again _ _ => (s, 0)
  | k => s.doRmw (s.reqWho q) t q.hint n k.returns
      (fun old => k.update q.bits old (r.val.toNat % 2 ^ q.bits) (r.cmp.toNat % 2 ^ q.bits)) q.mark

/-- R151: the number of a virtual sector. -/
def vsector (va : W64) : Nat := (sectorVa va).toNat

/-- A lane's global request. `inj` marks an injected bounce; `fresh` the first issue. R11: one that was in flight as its target's domain
began a reset comes back with REMOTE_ERROR. DESIGN CHOICE (log 53): a posted `red` or `psig` that was applied and whose answer is lost
reports ATOMIC_RESULT_LOST at its remote-error point: its effect stands, and R11 has that cause for every remote atomic, where R183
names the value-returning ones. R310: a `signal` meets the checks before the eighth first. -/
def State.reqGlobal (s : State) (q : Req) (r : LaneReq) (inj fresh : Bool) : State × LaneRes :=
  match if r.cut then (s, .error ⟨9, .remoteError, 0, true⟩) else s.check (s.reqWho q) r.va q.want with
  | (s, .error f) =>
    if f.remote && q.kind.isSignal && decide (8 < f.order) then (s, .fail ⟨8, .atomicUnsupported, 0, false⟩)
    else if f.remote && q.kind.isSignal then (s, .fail f)
    else if f.remote && q.kind.posted then
      (s, .posted (vsector r.va) (some (if r.applied then .atomicResultLost else f.cause)))
    else (s, .fail f)
  | (s, .ok t) =>
    let ans := fun v : Nat => if q.kind.posted && t.remote then LaneRes.posted (vsector r.va) none else .done v
    if q.kind.isSignal && t.away then (s, .fail ⟨8, .atomicUnsupported, 0, false⟩)
    else if (fresh && s.behind t.sector t.device) || s.lockedFor (s.reqWho q) t q.kind.writes then (s, .bounce t.sector r.applied)
    else if q.kind.atomic && t.atUnit q.kind.returns then
      let tag := s.ostag r.lane r.seq
      match s.appliedFind t tag with
      | some v => (s.appliedFree t tag, ans v.toNat)
      | none =>
        if s.appliedFull t then (s, .bounce t.sector false)
        else
          let (s, old) := s.reqAct q r t
          if inj then (s.appliedAdd t tag (BitVec.ofNat 128 old), .bounce t.sector true) else (s, ans old)
    else if inj then (s, .bounce t.sector false)
    else
      let (s, old) := s.reqAct q r t
      (s, ans old)

/-- The sector number of an AB byte, apart from those of global memory. -/
def abSector (core byte : Nat) : Nat := 2 ^ 80 + core * 2 ^ 14 + byte / 64

/-- R407: the request reads AB bytes that hold an uncorrectable error. -/
def State.abFlawed (s : State) (q : Req) (core byte : Nat) : Bool :=
  (q.kind.returns || q.kind.atomic) && (s.coreAt core).flawed 0 byte (sizeBytes q.sz)

/-- A lane's AB request (R156, R158, R165). Only an access through the cluster window can bounce; so only such an atomic needs a
record of its tag, and bounces while the core's table of 64 has no room for one (R224, log 81). -/
def State.reqAb (s : State) (q : Req) (r : LaneReq) (inj fresh : Bool) : State × LaneRes :=
  let n := sizeBytes q.sz
  match s.abCheck r.va n with
  | .error f => (s, .fail f)
  | .ok (core, byte, win) =>
    let sec := abSector core byte
    let tag := s.ostag r.lane r.seq
    let old := s.abRead core byte n
    let new := q.kind.update q.bits old (r.val.toNat % 2 ^ q.bits) (r.cmp.toNat % 2 ^ q.bits)
    let act := fun (s : State) => match new with
      | some x => s.abWrite core byte n x
      | none => s
    if q.kind.atomic && q.sz == .b128 then (s, .fail ⟨8, .atomicUnsupported, 0, false⟩)
    else if fresh && s.behind sec false then (s, .bounce sec r.applied)
    else if q.kind.atomic then
      let table := (s.coreAt core).abTags
      match table.find? fun a => a.1 == tag with
      | some a => (s.updCore core fun c => { c with abTags := c.abTags.filter fun x => x.1 != tag }, .done a.2.toNat)
      | none =>
        if win && decide (64 ≤ table.length) then (s, .bounce sec false)
        else if s.abFlawed q core byte then (s, .fail ⟨10, .uncorrectable, 0, false⟩)
        else if inj && win then
          ((act s).updCore core fun c => { c with abTags := (tag, BitVec.ofNat 128 old) :: c.abTags }, .bounce sec true)
        else (act s, .done old)
    else if inj && win then (s, .bounce sec false)
    else if s.abFlawed q core byte then (s, .fail ⟨10, .uncorrectable, 0, false⟩)
    else (act s, .done old)

def State.reqLane (s : State) (q : Req) (r : LaneReq) (inj fresh : Bool) : State × LaneRes :=
  if q.ab then s.reqAb q r inj fresh else s.reqGlobal q r inj fresh

/-- Lanes act one after another, ascending, each with its result. -/
def laneSeq (f : State → LaneReq → State × LaneRes) : State → List LaneReq → State × List (LaneReq × LaneRes)
  | s, [] => (s, [])
  | s, r :: rs =>
    let (s, x) := f s r
    let (s, xs) := laneSeq f s rs
    (s, (r, x) :: xs)

/-- The lanes of a request. -/
def State.reqLanes (s : State) (q : Req) (inj fresh : Bool) (rs : List LaneReq) : State × List (LaneReq × LaneRes) :=
  laneSeq (fun s r => s.reqLane q r inj fresh) s rs

/-- R168: TRAPADDR of a tag mismatch is the address of the granule. -/
def failVa (va : W64) (f : Fail) : W64 := if f.cause = .tagMismatch then va &&& ~~~31 else va

def doneOf (xs : List (LaneReq × LaneRes)) : List (Nat × Nat) :=
  xs.filterMap fun x => match x.2 with
    | .done v => some (x.1.lane, v)
    | _ => none

def failsOf (xs : List (LaneReq × LaneRes)) : List (Nat × W64 × Fail) :=
  xs.filterMap fun x => match x.2 with
    | .fail f => some (x.1.lane, failVa x.1.va f, f)
    | _ => none

def bouncedOf (xs : List (LaneReq × LaneRes)) : List (Nat × LaneReq) :=
  xs.filterMap fun x => match x.2 with
    | .bounce sec a => some (sec, { x.1 with applied := a })
    | _ => none

/-- R183, R203: the lanes of the access that a part stands for, with its address. -/
def Req.lanesAt (q : Req) (r : LaneReq) : List (Nat × W64) :=
  match q.share with
  | some m => (lanesOf m).map fun l => (l, r.va)
  | none => [(r.lane, r.va)]

/-- R183: the posted operations of an instruction, one for each sector and outcome. -/
def postedOf (q : Req) (xs : List (LaneReq × LaneRes)) : List Posted :=
  xs.foldl (fun (ps : List Posted) x => match x.2 with
    | .posted sec c =>
      let p := fun y : Posted => y.sector == sec && y.cause == c
      let ls := q.lanesAt x.1
      if ps.any p then updIf p (fun y => { y with lanes := y.lanes ++ ls }) ps
      else ps ++ [{ lanes := ls, pc := q.pc, sector := sec, cause := c }]
    | _ => ps) []

/-! The Locket (R249, R250) -/

/-- R249: the code of a spilled entry's kind: the spec names the kinds, and the model numbers them (log 78). -/
def aopNum : AOp → Nat
  | .add => 0 | .umin => 1 | .umax => 2 | .smin => 3 | .smax => 4 | .and => 5 | .or => 6 | .xor => 7 | .exch => 8
  | .inc => 9 | .dec => 10 | .fadd => 11

def RKind.num : RKind → Nat
  | .load => 0x01 | .store => 0x02 | .atom op => 0x10 + aopNum op | .cas => 0x20 | .red op => 0x30 + aopNum op
  | .psig add => 0x40 + b2n add | .signal .set => 0x48 | .signal .add => 0x49 | .signal .sub => 0x4A | .again c _ => c

/-- R249: ORDER and SCOPE as R79 gives them. -/
def ordNum : Ord → Nat
  | .plain => 0 | .acq => 1 | .rel => 2 | .acqrel => 3

def scopeNum : Scope → Nat
  | .wv => 0 | .blk => 1 | .cl => 2 | .die => 3 | .pkg => 4 | .sys => 5 | .ab => 6

/-- R223, R249: the entry's request takes an owner-and-sequence tag: an atomic, also one that its path makes again. -/
def RKind.tagged : RKind → Bool
  | .again c _ => decide (0x10 ≤ c)
  | k => k.atomic

/-- R249: the layout of a spilled entry, without its CRC. DESIGN CHOICE (log 126): where lanes name the same bytes DATA is the OR of
their values; OSTAG is the tag of the first lane, of the tags that R223 gives the lanes of an atomic; and DATA, which has a place for one
operand of each lane, holds of a `cas` the new value and not the value that it compares with. -/
def State.entryBits (s : State) (e : Entry) : Nat :=
  let q := e.req
  let n := sizeBytes q.sz
  let data := if q.kind.writes then q.lanes.foldl (fun x r => x ||| (r.val.toNat % 256 ^ n * 256 ^ (r.va.toNat % 64)) % 2 ^ 512) 0 else 0
  let words := q.lanes.foldl (fun x r => (List.range ((n + 3) / 4)).foldl (fun x k => x ||| 2 ^ ((r.va.toNat % 64 / 4 + k) % 16)) x) 0
  let tag := if q.kind.tagged then (q.lanes.head?.map fun r => (s.ostag r.lane r.seq).toNat).getD 0 else 0
  data * 2 ^ 512 + (maskOf (q.lanes.map (·.lane))).toNat * 2 ^ 448 + q.token.toNat * 2 ^ 384 + tag * 2 ^ 272
    + e.tag % 2 ^ 64 * 2 ^ 208 + ((q.lanes.head?.map (·.va.toNat)).getD 0 % 2 ^ 56 / 64 * 64) * 2 ^ 152 + words * 2 ^ 136
    + q.kind.num * 2 ^ 128 + ordNum q.ord * 2 ^ 126 + scopeNum q.sc * 2 ^ 122

/-- R249: the layout of a spilled copy element: its data, where it writes `val` of `n` bytes, lane, token, tag, sector, the words it
touches there, and kind. -/
def lockBits (token : W64) (tag : Nat) (ga : W64) (lane n : Nat) (val : Option Nat) : Nat :=
  let off := ga.toNat % 64
  let last := min 15 ((off + max n 1 - 1) / 4)
  let data := (val.getD 0 % 256 ^ n * 256 ^ off) % 2 ^ 512
  data * 2 ^ 512 + 2 ^ (448 + lane) + token.toNat * 2 ^ 384 + tag % 2 ^ 64 * 2 ^ 208
    + ga.toNat % 2 ^ 56 / 64 * 64 * 2 ^ 152 + (2 ^ (last + 1) - 2 ^ (off / 4)) * 2 ^ 136 + 0x60 * 2 ^ 128

/-- The AB run that a wave of the focused block addresses. -/
def State.abRunOf (s : State) (wave : Nat) : Nat × Nat :=
  if s.block.task then ((s.blockWaves.find? fun w => w.wid == wave).map fun w => (w.abbase, w.absize)).getD (0, 0)
  else (s.block.base 0, s.block.size 0)

/-- The byte of AB where an element ends, on which core: its run, or a window of the cluster (R156). -/
def State.elemAb (s : State) (e : Elem) : Except Fail (Nat × Nat) :=
  let a := e.ab.toNat
  let run := s.abRunOf e.wave
  if 2 ^ 23 ≤ a then
    match s.abAddr e.ab e.bytes with
    | .ok r => .ok (r.1, r.2.1)
    | .error f => .error f
  else if a + e.bytes ≤ run.2 then .ok (s.core.ix, run.1 + a) else .error ⟨1, .bufferRange, 0, false⟩

/-- R249: how an element is spilled under a tag. -/
def State.elemBits (s : State) (e : Elem) (tag : Nat) : Nat :=
  let val := match e.out, s.elemAb e with
    | true, .ok (core, byte) => some (s.abRead core byte e.bytes)
    | _, _ => none
  lockBits e.token tag e.ga e.lane e.bytes val

/-- R249: the lowest free spill slot of a wave. -/
def freeSpill (used : List Nat) : Nat := ((List.range 128).find? fun k => !used.contains k).getD 0

/-- R249: what stands under a tag in the Locket of wave `w` of the focused block, as it is spilled. -/
def State.placeBits (s : State) (w : Wave) (tag : Nat) : Nat :=
  match w.locket.find? fun e => e.tag == tag with
  | some e => ({ s with wave := w } : State).entryBits e
  | none => ((s.block.copy.elems.find? fun e => e.wave == w.wid && e.place.map (·.tag) == some tag).map fun e => s.elemBits e tag).getD 0

/-- R249: a bounce has made more than sixteen places on core in the Locket of wave `w`: what has the highest tag is spilled, with its CRC.
Answers the wave, and whether the area has taken the spill (R250). -/
def State.spillTop (s : State) (w : Wave) : State × Wave × Bool :=
  let on := s.onCoreTags w
  if on.length ≤ 16 then (s, w, true)
  else
    let top := on.foldl max 0
    let k := freeSpill (w.locket.filterMap (·.slot) ++ (s.parkedPlaces w.wid).filterMap (·.slot))
    let r := State.areaPut 2 (s.count .spill) (s.waveOff w + 0x18000 + k * 128) (spilledBits (s.placeBits w top))
    let c := r.1.block.copy
    let els := updIf (fun e : Elem => e.wave == w.wid && e.place.map (·.tag) == some top)
      (fun e => { e with place := e.place.map fun l => { l with slot := some k } }) c.elems
    ({ r.1 with block := { r.1.block with copy := { c with elems := els } } },
      { w with locket := updIf (fun e => e.tag == top) (fun e => { e with slot := some k }) w.locket }, r.2)

/-- R249: an entry joins the Locket, under the next tag; R220: under the tag `old` that it had, when its path makes its access again.
DESIGN CHOICE (log 134): a spill that the area does not take is UNCORRECTABLE (R250) for the path whose bounce made it. -/
def State.addEntry (s : State) (sector : Nat) (dev inj : Bool) (q : Req) (old : Option Nat := none) : State :=
  let w := s.wave
  let e : Entry :=
    { tag := old.getD w.nextTag, sector := sector, paths := [s.path.pid], req := q, parked := none, slot := none, dev := dev,
      since := s.core.cycles.toNat, inj := inj }
  let w := { w with locket := insertBy Entry.tag e w.locket, nextTag := if old.isSome then w.nextTag else w.nextTag + 1 }
  let r := ((s.count .bounce).countSlice .bounce sector).spillTop w
  let t := r.1
  { t with wave := r.2.1, path := { t.path with uncorr := t.path.uncorr || !r.2.2 } }

/-- R381: the sample of an access that bounced is written with its bounces. -/
def State.sampleEnd (s : State) (tag : Nat) : State :=
  match (s.wave.locket.find? fun e => e.tag == tag).bind fun e => e.sample.map fun ps => (ps, e.bounces) with
  | some ([a, b], n) => s.traceLog [a, b + min 255 n * 2 ^ 160]
  | _ => s

def State.dropEntry (s : State) (tag : Nat) : State :=
  let s := s.sampleEnd tag
  ({ s with wave := { s.wave with locket := s.wave.locket.filter fun e => e.tag != tag } } : State).fillBack

/-- The bounced lanes by sector, in the order in which the sectors first appear. -/
def bySector (bs : List (Nat × LaneReq)) : List (Nat × List LaneReq) :=
  bs.foldl (fun (gs : List (Nat × List LaneReq)) b =>
    if gs.any fun (g : Nat × List LaneReq) => g.1 == b.1 then
      updIf (fun (g : Nat × List LaneReq) => g.1 == b.1) (fun g => (g.1, g.2 ++ [b.2])) gs
    else gs ++ [(b.1, [b.2])]) []

/-- R73: the value that goes to an s destination is the lowest lane's; the entries of other lanes write nothing. -/
def entryDest (d : Opnd) (low : Nat) (ls : List LaneReq) : Opnd :=
  match d with
  | .s _ => if ls.any fun r => r.lane == low then d else .absent
  | _ => d

/-! Issue -/

/-- R223: the sequence numbers that the lanes of an atomic take. -/
def State.takeSeqs (s : State) (q : Req) : State × Req :=
  if q.kind.atomic then
    let w := q.lanes.foldl (fun (w : Wave) r => { w with seq := mset w.seq r.lane (mget w.seq r.lane + 1) }) s.wave
    ({ s with wave := w }, { q with lanes := q.lanes.map fun r => { r with seq := mget s.wave.seq r.lane } })
  else (s, q)

/-- R223: some lane's next number is that of an atomic of its own that waits in the Locket. -/
def State.seqBusy (s : State) (q : Req) : Bool :=
  q.kind.atomic && s.wave.locket.any fun e => e.req.kind.atomic && e.req.lanes.any fun x =>
    q.lanes.any fun r => r.lane == x.lane && mget s.wave.seq r.lane == x.seq

/-- R420: whether the access is made to bounce, and what BNCINJ and an imposed bounce become. -/
def State.inject (s : State) (q : Req) : State × Bool :=
  let counts := !s.path.again && q.kind.counts && (!q.ab || q.lanes.any fun r => decide (2 ^ 23 ≤ r.va.toNat))
  let b := counts && s.wave.bncinj != 0
  let s := if b then { s with wave := { s.wave with bncinj := s.wave.bncinj - 1 } } else s
  let f := !s.path.again && s.path.forced != 0
  let s := if f then { s with path := { s.path with forced := s.path.forced - 1 } } else s
  (s, b || f)

/-- R420: a form that counts issues, and makes no access: its lanes abort in their region, or trap. -/
def State.countOff (s : State) : State :=
  if s.path.again || s.wave.bncinj == 0 then s else { s with wave := { s.wave with bncinj := s.wave.bncinj - 1 } }

/-- The device bit of the sector that a lane's access meets. -/
def State.laneDev (s : State) (q : Req) (r : LaneReq) : Bool :=
  !q.ab && match (s.check (s.reqWho q) r.va { q.want with n := 0 }).2 with
    | .ok t => t.device
    | .error _ => false

/-- R249: the Locket has a place for each of `n` requests (log 101). -/
def State.locketFor (s : State) (n : Nat) : Bool := decide (s.locketCount s.wave + n ≤ 144)

/-- The lanes of a request whose checks pass, each with its sector; `w` is what R174 checks for it. -/
def State.reqSectors (s : State) (q : Req) (w : Want := q.want) : List (Nat × LaneReq) :=
  q.lanes.filterMap fun r => match (s.check (s.reqWho q) r.va w).2 with
    | .ok t => some (t.sector, r)
    | .error _ => none

/-- The Locket has room for the sectors of an access that bounces whole. -/
def State.wholeRoom (s : State) (q : Req) (w : Want := q.want) : Bool := s.locketFor (bySector (s.reqSectors q w)).length

/-- R220: the tag that an access which its path makes again has for a sector. -/
def Path.oldTag (p : Path) (sector : Nat) : Option Nat := p.kept.bind fun k => (k.tags.find? fun x => x.1 == sector).map (·.2)

/-- R220: what an access that bounces whole keeps; `regs` for one that its path makes again as it was issued. -/
def Path.keep (p : Path) (regs : Option (SMap 64)) (token : W64) (tags : List (Nat × Nat)) : Path :=
  let old := p.kept.getD { regs := none, token := token, tags := [] }
  { p with kept := some { regs := old.regs <|> regs, token := old.token, tags := old.tags ++ tags.filter fun x => !old.tags.any fun y => y.1 == x.1 } }

/-- R15, R220: entries for the sectors of an access stand in the Locket, and the path waits for them; none when all its lanes
fail a check. They keep the access whole: its kind, its data, its order and scope, its token, its tags, and the s registers that it reads
when it is made again. -/
def State.lockSectors (s : State) (inj : Bool) (q : Req) (k : List Nat → Wait) (w : Want := q.want) : Option State :=
  if !s.wholeRoom q w then some (s.await .locketRoom)
  else
    let again : RKind := match q.kind with
      | .again c w => .again c w
      | k => .again k.num k.writes
    let r := (bySector (s.reqSectors q w)).foldl (fun (r : State × List (Nat × Nat)) g =>
      let t := r.1
      let old := t.path.oldTag g.1
      (t.addEntry g.1 ((g.2.head?.map (t.laneDev q)).getD false) inj { q with kind := again, lanes := g.2 } old,
        r.2 ++ [(g.1, old.getD t.wave.nextTag)])) (s, [])
    match r.2 with
    | [] => none
    | tags =>
      let t := r.1
      let regs := match k [] with
        | .reissue _ => some (s.path.seen.getD s.wave.s)
        | _ => none
      some (({ t with path := t.path.keep regs q.token tags } : State).await (k (tags.map (·.2))))

/-- R220, R420: the access of a form that is performed at its path bounces whole, made to (`inj`) or at a unit: its path waits
until its entries have been reissued. Lanes that fail a check do not bounce. -/
def State.bounceWhole (s : State) (inj : Bool) (q : Req) (w : Want := q.want) : Option State := s.lockSectors inj q Wait.reissue w

/-- Plain reads at these addresses, as they stand in the Locket. -/
def State.readReq (s : State) (d : Opnd) (as : List (Nat × W64)) : Req :=
  { kind := .load, sz := .n64, ord := .plain, sc := .wv, hint := .normal, ab := false, user := !s.path.priv, unit := s.pathUnit,
    token := s.carry, pc := s.path.pc, d := d, share := none,
    lanes := as.map fun a => { lane := a.1, va := a.2, val := 0, cmp := 0, seq := 0, applied := false } }

/-- R15, R346: a form meets a sector that a lock holds from it. R420: it has counted, also when no entry stands for it. -/
def State.bounceHeld (s : State) (q : Req) (w : Want := q.want) : State :=
  (s.bounceWhole false q w).getD (({ s with path := { s.path with again := true } } : State).await .bounced)

/-- What holds a read off, whatever its size. -/
def plainRead : Want := { n := 0, write := false, atomic := false, tags := false, sc := none }

/-- A read with which the wait of the path could end has bounced, and stands in the Locket. -/
def State.waitBounced (s : State) : Bool :=
  s.wave.locket.any fun e => e.req.kind.isAgain && e.paths.contains s.path.pid && e.req.pc == s.path.pc

/-- R15: such reads can be made, or can bounce. -/
def State.mayRead (s : State) (as : List (Nat × W64)) : Bool :=
  !s.waitBounced && (!(as.any fun a => s.vaHeld a.2) || s.wholeRoom (s.readReq .absent as) plainRead)

/-- R15, R346: such a read meets a sector that a lock holds: it bounces, and the path waits on. -/
def State.bounceWaiting (s : State) (as : List (Nat × W64)) : State :=
  match s.path.status with
  | .waiting w => if s.mayRead as then (s.lockSectors false (s.readReq .absent as) (fun _ => w) plainRead).getD s else s
  | _ => s

/-- R420: the same for a form that BNCINJ counts and has not counted yet. -/
def State.bounceCounted (s : State) (q : Req) (w : Want := q.want) : State :=
  if s.wholeRoom q w then (s.inject q).1.bounceHeld q w else s.await .locketRoom

/-- R420: BNCINJ, or the environment, bounces the access of such a form, or it performs. -/
def State.orBounce (s : State) (q : Req) (f : State → State) (w : Want := q.want) : State :=
  let r := s.inject q
  if r.2 then
    if s.wholeRoom q w then (r.1.bounceWhole true q w).getD (f r.1) else s.await .locketRoom
  else f r.1

/-- R222: an access of the request would pass an older entry at its sector, whatever its address. -/
def State.reqBehind (s : State) (q : Req) : Bool :=
  s.hasOlder && q.lanes.any fun r => match (s.check (s.reqWho q) r.va { q.want with n := 0 }).2 with
    | .ok t => s.behind t.sector t.device
    | .error _ => false

/-- R346, R355: a lane whose checks pass meets a sector that a lock holds from it. -/
def State.reqHeld (s : State) (q : Req) : Bool :=
  q.lanes.any fun r => match (s.check (s.reqWho q) r.va q.want).2 with
    | .ok t => s.lockedFor s.who t false
    | .error _ => false

/-- R222, R346: a form that reads at its path performs `f`, unless it would pass an older entry, or an acquire that has not
performed, or meets a sector that a lock holds, where it bounces; `counted` for a form that BNCINJ counts. -/
def State.orderedReads (s : State) (counted : Bool) (q : Req) (f : State → State) : State :=
  if s.acqPending || s.reqBehind q then s.await .older
  else if s.reqHeld q then (if counted then s.bounceCounted q else s.bounceHeld q)
  else f s

/-- R220, R223, R249: the request that stands for an operation that is made once, in the Locket: its code, its order, and its operand `val`. -/
def State.unitReq (s : State) (code : Nat) (ord : Ord) (sc : Scope) (va : W64) (m : W64) (val : W64 := 0) : Req :=
  { kind := .again code true, sz := .n64, ord := ord, sc := sc, hint := .normal, ab := false, user := !s.path.priv,
    unit := s.pathUnit, token := s.carry, pc := s.path.pc, d := .absent, share := some m,
    lanes := [{ lane := lowLane m, va := va, val := val.setWidth 128, cmp := 0, seq := mget s.wave.seq (lowLane m), applied := false }] }

/-- R223: the lane that stands for the operation counts it. -/
def State.takeSeq (s : State) (m : W64) : State :=
  let l := lowLane m
  { s with wave := { s.wave with seq := mset s.wave.seq l (mget s.wave.seq l + 1) } }

/-- The path goes on, or waits for value-returning accesses to another domain that bounced. -/
def State.afterReq (s : State) (tags : List Nat) : State :=
  if tags ≠ [] then s.await (.held tags) else s.advance

/-- R72, R203: the lanes that take part in the one access of a form with U = 1. -/
def State.shareOf (s : State) (h : Hdr) : Option W64 := if h.u then some (s.guard h) else none

/-- R72, R203: with U = 1 the access is one event of the lanes that take part, and so is its failure. -/
def sharedFails (share : Option W64) (fs : List (Nat × W64 × Fail)) : List (Nat × W64 × Fail) :=
  match share, fs with
  | some m, f :: _ => (lanesOf m).map fun l => (l, f.2)
  | _, fs => fs

/-- R310: a `signal` to a word where no atomic is performed fails for the path's active mask. -/
def State.failing (s : State) (q : Req) (xs : List (LaneReq × LaneRes)) : List (Nat × W64 × Fail) :=
  match q.kind, failsOf xs with
  | .signal _, f :: fs =>
    if f.2.2.cause = .atomicUnsupported then (lanesOf s.path.mask).map fun l => (l, f.2) else sharedFails q.share (f :: fs)
  | _, fs => sharedFails q.share fs

/-- R175: the lanes that did not fail go on as `k`. -/
def State.endLanes (s : State) (fs : List (Nat × W64 × Fail)) (kind : Nat) (k : State → State) (replay : Bool := true) : State :=
  s.divide ((s.path.mask &&& ~~~maskOf (fs.map (·.1)), k) :: failParts fs kind replay)

/-- R79, R416: the scope at which an ordered request acts on the caches: with a lane that goes through the cluster window of AB it is
the cluster's. -/
def Req.orderScope (q : Req) : Scope :=
  if q.ab then (if q.lanes.any fun r => decide (2 ^ 23 ≤ r.va.toNat) then .cl else .blk) else q.sc

/-- How many sectors the lanes of a request name. -/
def Req.sectors (q : Req) : Nat := (distinct (q.lanes.map fun r => vsector r.va)).length

/-- R183: the names of the physical sector at an address of the path: that of the domain's own leaf, and where it goes. -/
def State.sectorNames (s : State) (va : W64) : List Nat :=
  match (s.leafFor s.who va plainRead).2 with
  | .error _ => []
  | .ok l => l.key va / 64 :: match (s.check s.who va plainRead).2 with
    | .ok t => [t.sector]
    | .error _ => []

/-- R183: posted operations with the names of their sectors. -/
def State.named (s : State) (xs : List Posted) : List Posted :=
  xs.map fun p => { p with phys := distinct (p.lanes.flatMap fun l => s.sectorNames l.2) }

/-- A request issues: every lane that can perform does, bounced lanes go to the Locket, failing lanes trap or
park by R175. -/
def State.sendReq (s : State) (q : Req) : State :=
  if !s.locketFor q.sectors then s.await .locketRoom
  else if s.seqBusy q then s.await .older
  else
    let (s, inj) := s.inject q
    let (s, q) := s.takeSeqs q
    let s := if q.ord.isRel then s.release s.core.ix q.orderScope else s
    let s := if q.ord.isAcq then s.acquire s.core.ix q.orderScope else s
    let (s, xs) := s.reqLanes q inj true q.lanes
    let bs := bouncedOf xs
    let low := ((xs.filter fun x => match x.2 with | .done _ | .bounce _ _ => true | _ => false).head?.map (·.1.lane)).getD 64
    let vals := (doneOf xs).filter fun v => match q.d with | .s _ => v.1 == low | _ => true
    let s := if q.kind.returns then s.putLoads q.sz q.d vals else s
    let first := s.wave.nextTag
    let s := (bySector bs).foldl (fun s g => s.addEntry g.1 ((g.2.head?.map (s.laneDev q)).getD false) inj { q with d := if q.kind.returns then entryDest q.d low g.2 else .absent, lanes := g.2 }) s
    let new := s.wave.locket.filter fun e => decide (first ≤ e.tag)
    let held := if q.kind.returns && !q.ab then (new.filter fun e => remoteSector e.sector).map (·.tag) else []
    let s := { s with path := { s.path with posted := s.path.posted ++ s.named (postedOf q xs) } }
    s.endLanes (s.failing q xs) q.kind.parkKind fun s => s.afterReq held

/-- R183: the path has a posted operation, acknowledged or not, or one that has bounced, to the sector of one of these addresses, whatever
the addresses are under which the two know it. -/
def State.meetsPosted (s : State) (as : List W64) : Bool :=
  let mine := fun e : Entry => e.isPosted && e.paths.contains s.path.pid
  (s.path.posted != [] || s.wave.locket.any mine) && as.any fun a =>
    let names := s.sectorNames a
    (s.path.posted.any fun p => p.sector == vsector a || p.phys.any names.contains) ||
      s.wave.locket.any fun e => mine e && (names.contains e.sector || e.req.lanes.any fun r =>
        vsector r.va == vsector a || (s.sectorNames r.va).any names.contains)

/-- R183: the remote-error points of a request: a release; the path's own load or atomic to the sector of a posted
operation. -/
def State.issueReq (s : State) (q : Req) : State :=
  if q.ord.isRel || (!q.ab && (q.kind.returns || q.kind.atomic) && s.meetsPosted (q.lanes.map (·.va))) then s.remotePoint fun s => s.sendReq q else s.sendReq q

/-- The request of a form for these lanes. -/
def State.mkReq (s : State) (kind : RKind) (sz : Size) (ord : Ord) (sc : Scope) (hint : Hint) (x : Idx) (o : Args) (m : W64) : Req :=
  { kind := kind, sz := sz, ord := ord, sc := sc, hint := hint, ab := sc == .ab, user := !s.path.priv, unit := s.pathUnit,
    token := s.carry, pc := s.path.pc, d := o.d, share := s.shareOf o.h,
    lanes := (lanesOf m).map fun l =>
      let va := s.addr l x o.a o.b
      match kind with
      | .load => { lane := l, va := va, val := 0, cmp := 0, seq := 0, applied := false }
      | .cas => { lane := l, va := va, val := (s.casData sz l o.c).2, cmp := (s.casData sz l o.c).1, seq := 0, applied := false }
      | _ => { lane := l, va := va, val := s.data sz l o.c, cmp := 0, seq := 0, applied := false } }

end Sys2Proof.Machine
end

