-- ==== Sys2Proof/Machine/Region.lean ====
section
/-! DEFINITION. Global accesses inside a Clasp region: the lane logs and the serial lane's locks and undo log
(R201, R344, R345, R349, R355, R357). -/

namespace Sys2Proof.Machine

/-- What a lane's transactional access comes to. -/
inductive TxRes
  | ok (v : Nat)
  | abort (c : TxCause) (detail : Nat)
  | fail (f : Fail)
  deriving DecidableEq, Repr

/-- R344: the granules of an access: the address of each, with the offset and the number of its bytes. -/
def granules (va : W64) (n : Nat) : List (W64 × Nat × Nat) :=
  if n ≤ 8 then [(va &&& ~~~7, va.toNat % 8, n)] else [(va, 0, 8), (va + 8, 0, 8)]

/-- The bytes of a mask replaced. -/
def mergeBytes (base w : W64) (mask : BitVec 8) : W64 :=
  BitVec.ofNat 64 ((List.range 8).foldl (fun x k => x + (if mask.getLsbD k then bitsOf w.toNat (8 * k) 8 else bitsOf base.toNat (8 * k) 8) * 2 ^ (8 * k)) 0)

def LaneLog.rdOf (g : LaneLog) (key : Nat) : Option Gran := g.rd.find? fun x => x.key == key
def LaneLog.wrOf (g : LaneLog) (key : Nat) : Option Gran := g.wr.find? fun x => x.key == key

/-- The log of a lane; a lane of a speculative region holds one (R343). -/
def State.logOf (s : State) (lane : Nat) : LaneLog :=
  (s.wave.logs.find? fun g => g.lane == lane).getD { lane := lane, rd := [], wr := [], since := s.core.cycles.toNat }

def State.putLog (s : State) (g : LaneLog) : State :=
  { s with wave := { s.wave with logs := g :: s.wave.logs.filter fun x => x.lane != g.lane } }

/-- R344, R167: the value of a granule in a lane's view, read at the home slice, with the access's hint, when it is not in the read
log. -/
def State.granRead (s : State) (who : Who) (h : Hint) (l : Leaf) (g : LaneLog) (va : W64) : State × LaneLog × W64 :=
  let key := l.key va
  let overlay := fun x : W64 => match g.wrOf key with
    | some w => mergeBytes x w.val w.bytes
    | none => x
  match g.rdOf key with
  | some r => (s, g, overlay r.val)
  | none =>
    let (s, x) := s.unitRead who (.loc va l) h 8
    let v := BitVec.ofNat 64 x
    (s, { g with rd := g.rd ++ [{ va := va, key := key, val := v, bytes := 255 }] }, overlay v)

/-- R344: merges bytes into the write log; the granule keeps the highest priority that a store of it applies, for its commit (R167). -/
def LaneLog.write (g : LaneLog) (p : Nat) (va : W64) (key off n : Nat) (val : Nat) : LaneLog :=
  let mask := BitVec.ofNat 8 ((2 ^ n - 1) * 2 ^ off)
  let w := BitVec.ofNat 64 (val % 256 ^ n * 256 ^ off)
  match g.wrOf key with
  | some o => { g with wr := updIf (fun x => x.key == key) (fun x => { x with val := mergeBytes o.val w mask, bytes := o.bytes ||| mask, prio := max o.prio p }) g.wr }
  | none => { g with wr := g.wr ++ [{ va := va, key := key, val := w, bytes := mask, prio := p }] }

/-- R345: how many new entries an access needs in each log. -/
def LaneLog.needs (g : LaneLog) (l : Leaf) (gs : List (W64 × Nat × Nat)) : Nat × Nat :=
  ((gs.filter fun x => (g.rdOf (l.key x.1)).isNone).length, (gs.filter fun x => (g.wrOf (l.key x.1)).isNone).length)

/-- The value of an access in the lane's view. -/
def State.viewRead (s : State) (who : Who) (h : Hint) (l : Leaf) (g : LaneLog) : List (W64 × Nat × Nat) → State × LaneLog × Nat
  | [] => (s, g, 0)
  | (va, off, n) :: rest =>
    let (s, g, x) := s.granRead who h l g va
    let (s, g, y) := s.viewRead who h l g rest
    (s, g, x.toNat / 256 ^ off % 256 ^ n + 256 ^ n * y)

def LaneLog.viewWrite (g : LaneLog) (p : Nat) (l : Leaf) (val : Nat) : List (W64 × Nat × Nat) → LaneLog
  | [] => g
  | (va, off, n) :: rest => (g.write p va (l.key va) off n val).viewWrite p l (val / 256 ^ n) rest

/-- R344, R345: a speculative lane's access. -/
def State.specAccess (s : State) (q : Req) (r : LaneReq) (l : Leaf) : State × TxRes :=
  let g := s.logOf r.lane
  let gs := granules r.va (sizeBytes q.sz)
  let (nr, nw) := g.needs l gs
  let reads := q.kind.returns
  let p := (prioOf (hintOf q.hint l)).toNat
  if reads && decide (16 < g.rd.length + nr) then (s, .abort .rdovf 0)
  else if q.kind.writes && decide (8 < g.wr.length + nw) then (s, .abort .wrovf 0)
  else if reads then
    let (s, g, old) := s.viewRead s.who q.hint l g gs
    match q.kind.update q.bits old (r.val.toNat % 2 ^ q.bits) (r.cmp.toNat % 2 ^ q.bits) with
    | some x => (s.putLog (g.viewWrite p l x gs), .ok old)
    | none => (s.putLog g, .ok old)
  else (s.putLog (g.viewWrite p l r.val.toNat gs), .ok 0)

/-- R342: the device writes the 16-byte entry `ix` of the serial log in memory: the lock entries first, then the undo
entries; an address in the low half, a value in the high half (log 88). None where the log is not mapped writable. -/
def State.serialPut (s : State) (ix : Nat) (e : Nat × W64) : Option State :=
  let who := s.unitWho false s.pathUnit
  match s.check who (s.dom.serialBase + BitVec.ofNat 64 (16 * ix)) { n := 16, write := true, atomic := false, tags := true, sc := none } with
  | (s, .ok t) => some (s.unitPut who t 16 (e.1 % 2 ^ 64 + 2 ^ 64 * e.2.toNat))
  | (_, .error _) => none

def State.serialPuts (s : State) (ix : Nat) : List (Nat × W64) → Option State
  | [] => some s
  | e :: es => (s.serialPut ix e).bind fun s => s.serialPuts (ix + 1) es

/-- R355: the locks after the serial lane locks a sector. -/
def lockSector (ls : List Lock) (sec : Nat) (excl : Bool) : List Lock :=
  if ls.any fun x => x.sector == sec then updIf (fun x => x.sector == sec) (fun x => { x with excl := x.excl || excl }) ls
  else ls ++ [{ sector := sec, excl := excl }]

/-- R355: the old values of the granules, newest first. -/
def State.undoOf (s : State) (l : Leaf) (gs : List (W64 × Nat × Nat)) : List (Nat × W64) :=
  (gs.map fun x => (l.key x.1, BitVec.ofNat 64 (s.home (l.key x.1) 8))).reverse

/-- R342, R355: the serial lane's access, which takes the owners' copies of its sector before it locks it; an access that writes nothing, a `cas` whose compare fails, saves nothing. DESIGN CHOICE
(log 108): beyond 4,096 the lock of a plain store and an undo entry are WROVF, the lock of a load, an `atom` or a `cas` is RDOVF. -/
def State.serialAccess (s : State) (q : Req) (r : LaneReq) (l : Leaf) : State × TxRes :=
  match s.dom.serial with
  | none => (s, .ok 0)
  | some x =>
    let n := sizeBytes q.sz
    let t : Target := .loc r.va l
    let locks := lockSector s.dom.locks t.sector q.kind.writes
    let unmapped : TxRes := .fail ⟨11, .uncorrectable, 0, false⟩
    if 4096 < locks.length then (s, .abort (if q.kind.writes && !q.kind.returns then .wrovf else .rdovf) 0)
    else
      let (s, old) := s.unitRead s.who t q.hint n
      match s.serialPut (locks.findIdx fun y => y.sector == t.sector) (t.sector * 64, if q.kind.writes then 1 else 0) with
      | none => (s, unmapped)
      | some s =>
        let s := s.takeLock t.sector locks
        let new := match q.kind with
          | .load => none
          | k => k.update q.bits old (r.val.toNat % 2 ^ q.bits) (r.cmp.toNat % 2 ^ q.bits)
        match new with
        | none => (s, .ok old)
        | some v =>
          let saved := s.undoOf l (granules r.va n)
          if 4096 < x.undo.length + saved.length then (s, .abort .wrovf 0)
          else match s.serialPuts (4096 + x.undo.length) saved.reverse with
            | none => (s, unmapped)
            | some s =>
              let s : State := { s with dom := { s.dom with serial := some { x with undo := saved ++ x.undo } } }
              (s.serialWrite s.who r.va l q.hint n v, .ok old)

/-- R201: the domain's own tables name a peer-window or a host-tier page. -/
def State.farPage (s : State) (r : LaneReq) (w : Want) : Bool :=
  match (s.leafFor s.who r.va { w with write := false }).2 with
  | .ok l => l.tier == 2 || l.tier == 3
  | .error _ => false

/-- R201: what a page is inside a region; the causes of R349. An access to a peer-window or host-tier page aborts with REMOTE whatever
check it fails there; one that fails before the page is known, by its address or by its alignment, with FAULT. -/
def State.txLane (s : State) (i : Instr) (q : Req) (r : LaneReq) : State × TxRes :=
  match s.check s.who r.va q.want with
  | (s, .error f) => if f.remote || (decide (4 < f.order) && s.farPage r q.want) then (s, .abort .remote 0) else (s, .fail f)
  | (s, .ok (.loc _ l)) =>
    if l.tier = 3 then (s, .abort .remote 0)
    else if l.reg = 3 then (s, .abort .nolog i.opByte)
    else if s.path.serial then s.serialAccess q r l
    else s.specAccess q r l
  | (s, .ok _) => (s, .abort .remote 0)

/-- R344: some lane would read a sector that the serial lane holds exclusive. -/
def State.txHeld (s : State) (q : Req) : Bool :=
  q.kind.returns && !s.path.serial && q.lanes.any fun r =>
    match (s.check s.who r.va q.want).2 with
    | .ok (.loc va l) =>
      s.lockedFor s.who (.loc va l) false && (granules r.va (sizeBytes q.sz)).any fun g => ((s.logOf r.lane).rdOf (l.key g.1)).isNone
    | _ => false

def State.txLanes (s : State) (i : Instr) (q : Req) : List LaneReq → State × List (LaneReq × TxRes)
  | [] => (s, [])
  | r :: rs =>
    let (s, x) := s.txLane i q r
    let (s, xs) := s.txLanes i q rs
    (s, (r, x) :: xs)

/-- R349: in speculative mode a fault is an abort, but for the causes that are raised as usual. -/
def txOutcome (spec : Bool) (x : TxRes) : TxRes :=
  match x with
  | .fail f => if spec && !f.cause.asUsual then .abort .fault f.cause.code else x
  | _ => x

/-- R222: an access of the request would pass an older entry of the Locket at its sector. -/
def State.txBehind (s : State) (q : Req) : Bool :=
  s.hasOlder && q.lanes.any fun r => match (s.check s.who r.va q.want).2 with
    | .ok t => s.behind t.sector t.device
    | .error _ => false

/-- R203: with U = 1 the access is one event of the lanes that take part, and so is its abort (log 76). -/
def sharedAborts (share : Option W64) (xs : List (Nat × TxCause × Nat)) : List (Nat × TxCause × Nat) :=
  match share, xs with
  | some m, a :: _ => (lanesOf m).map fun l => (l, a.2)
  | _, xs => xs

/-- R201, R344, R351: `ld`, `st`, `atom` and `cas` inside a region. The lanes that abort form one path. -/
def State.txForm (s : State) (i : Instr) (q : Req) : State :=
  if s.txBehind q then s.await .older
  else if s.txHeld q then s.bounceCounted q
  else s.orBounce q fun s =>
    let spec := s.path.speculative
    let (s, xs) := s.txLanes i q q.lanes
    let xs := xs.map fun x => (x.1, txOutcome spec x.2)
    let vals := xs.filterMap fun x => match x.2 with | .ok v => some (x.1.lane, v) | _ => none
    let aborts := sharedAborts q.share (xs.filterMap fun x => match x.2 with | .abort c d => some (x.1.lane, (c, d)) | _ => none)
    let fs := sharedFails q.share (xs.filterMap fun x => match x.2 with | .fail f => some (x.1.lane, failVa x.1.va f, f) | _ => none)
    let s := if q.kind.returns then s.putLoads q.sz q.d vals else s
    let am := maskOf (aborts.map (·.1))
    let fm := maskOf (fs.map (·.1))
    let why := fun l => ((aborts.find? fun a => a.1 == l).map (·.2)).getD (.fault, 0)
    s.divide ((s.path.mask &&& ~~~am &&& ~~~fm, State.advance) :: (am, fun s => ({ s with path := s.path.countDown } : State).abortWith why) :: failParts fs q.kind.parkKind)

/-- Lanes `m` abort; the others of the path go on in sequence. -/
def State.abortPart (s : State) (m : W64) (c : TxCause) (detail : Nat) : State := s.part m (fun s => s.abortHere c detail) State.advance

end Sys2Proof.Machine
end

