-- ==== Sys2Proof/Machine/Trap.lean ====
section
/-! DEFINITION. The trap-state forms and the events of traps, parks and invalidations (R288, R289, R383 to
R396). -/

namespace Sys2Proof.Machine

/-! OP 0x01, SUB 3 to 5 -/

def execTrap (o : Args) (s : State) : Host.Outcome State Fault Refusal :=
  vec (.trapI o) s fun s =>
    let x := s.uni o.a
    s.trapLanes (s.guard o.h) .trapInsn false 0 (fun _ => 0) (fun _ => x) State.advance

def execBkpt (o : Args) (s : State) : Host.Outcome State Fault Refusal :=
  vec (.bkpt o) s fun s => s.trapLanes (s.guard o.h) .bkpt false 0 (fun _ => 0) (fun _ => 0) State.advance

/-- R266, R392: a path that leaves the `join` at which it waits has not arrived there. -/
def State.leaveJoin (s : State) : State :=
  match s.path.status with
  | .waiting (.join e) => { s with wave := s.wave.updJoin e fun r => { r with arrived := r.arrived &&& ~~~s.path.mask } }
  | _ => s

/-- R392: the path goes back to its flashback point and stands there until its block has been saved. -/
def State.rewind (s : State) : State :=
  match s.path.fb with
  | none => s
  | some f =>
    let s := s.leaveJoin.cutStack f.depth
    { s with path := { s.path with pc := f.pc, fmt := f.fmt, windows := s.path.windows.filter (·.old), ir := none,
                                   fb := some f, status := .rewound, again := false, kept := none } }

/-- R390: sets the point; inside a Clasp region it only invalidates it. A pre-emption that waits rewinds the
path at once (R392). -/
def execFbk (off : BitVec 24) (o : Args) (s : State) : Host.Outcome State Fault Refusal :=
  vec (.fbk off o) s fun s => s.once o fun s =>
    if s.path.inRegion then ({ s with path := { s.path with fb := none } }).advance
    else
      let f : FbPoint :=
        { pc := s.path.pc, recipe := branchPc s.path.pc off,
          vN := match o.d with | .v n => some n | _ => none,
          sM := match o.a with | .s n => some n | _ => none,
          fmt := s.path.fmt, depth := s.path.stack.length }
      let old := s.path.windows.map fun w => { w with old := true }
      let s := ({ s with path := { s.path with fb := some f, windows := old } }).advance
      if s.block.preempt.isSome then s.rewind else s

/-! OP 0x70 (R395, R396) -/

/-- R90, R396: a special register is read as 64 bits; a v register takes the low half. -/
def execSrd (o : Args) (s : State) : Host.Outcome State Fault Refusal :=
  vec (.srd o) s fun s => (s.put false (s.guard o.h) o.d fun l => s.rd false l o.a).advance

/-- Who may write a special register with `swr` (R108). -/
inductive SwrLevel
  | user | supervisor | never
  deriving DecidableEq, Repr

def swrLevel : SReg → SwrLevel
  | .fmt | .flags | .bncinj => .user
  | .token | .trapcause | .trappc | .trapmask | .trapaddr | .trapinfo => .supervisor
  | _ => .never

/-- R396: a value with a bit in a reserved field. -/
def swrReserved (r : SReg) (x : W64) : Bool :=
  match r with
  | .fmt => fmtBad (x.setWidth 32)
  | .flags => decide (128 ≤ x.toNat % 2 ^ 32)
  | .trapcause => decide (256 ≤ x.toNat % 2 ^ 32)
  | _ => false

/-- R396: the fault of a refused write. -/
def State.swrFault (s : State) (r : SReg) (x : W64) : Option Cause :=
  match swrLevel r with
  | .never => some .illegalOperand
  | .supervisor => if !s.path.priv then some .priv else if swrReserved r x then some .illegalOperand else none
  | .user =>
    if r == .bncinj && !((s.launch.map (·.validate)).getD false) then some .priv
    else if swrReserved r x then some .illegalOperand else none

/-- The write itself, for the lanes `m`. -/
def State.swrPut (s : State) (r : SReg) (m : W64) (f : Nat → W64) : State :=
  let x := f (lowLane m)
  let p := s.path
  match r with
  | .fmt => { s with path := { p with fmt := x.setWidth 32 } }
  | .flags => { s with path := { p with flags := x.setWidth 32 } }
  | .token => { s with path := { p with token := x } }
  | .trapcause => { s with path := { p with trapcause := x.setWidth 32 } }
  | .trappc => { s with path := { p with trappc := x } }
  | .trapmask => { s with path := { p with trapmask := x } }
  | .trapaddr => { s with wave := (lanesOf m).foldl (fun w l => { w with trapaddr := mset w.trapaddr l (f l) }) s.wave }
  | .trapinfo => { s with wave := (lanesOf m).foldl (fun w l => { w with trapinfo := mset w.trapinfo l (f l) }) s.wave }
  | .bncinj => { s with wave := { s.wave with bncinj := x.setWidth 32 } }
  | _ => s

def execSwr (o : Args) (s : State) : Host.Outcome State Fault Refusal :=
  vec (.swr o) s fun s => s.once o fun s =>
    let m := s.guard o.h
    let x := s.rd false (lowLane m) o.a
    match o.d with
    | .sr r =>
      match s.swrFault r x with
      | some c => s.trapLanes m c false 0 (fun _ => 0) (fun _ => 0) State.advance
      | none => (s.swrPut r m fun l => s.rd false l o.a).advance
    | _ => s.trap .illegalOperand 0

def execRte (o : Args) (s : State) : Host.Outcome State Fault Refusal :=
  vec (.rte o) s fun s => s.once o State.returnFromTrap

/-- R396: `tlbi`: release at die scope, then the invalidation is issued and the path waits for it. -/
def State.invalidate (s : State) (r : InvalRange) (tenant : Option (BitVec 8)) : State :=
  let s := s.release s.core.ix .die
  if (tenant.map fun t => !(s.dom.ptroot.any fun x => x.1 == t)).getD false then s.advance
  else
    let n := s.dom.nextInval
    let x : Inval := { num := n, r := r, cmd := none }
    ({ s with dom := { s.dom with invals := s.dom.invals ++ [x], nextInval := n + 1 } }).await (.inval n)

/-- `tlbi`: aborts a Clasp region; it is a release. -/
def tlbiForm (i : Instr) (o : Args) (f : State → InvalRange × Option (BitVec 8)) (s : State) :
    Host.Outcome State Fault Refusal :=
  vec i s fun s => s.once o fun s =>
    if s.path.inRegion then s.nolog i
    else s.remotePoint fun s => let r := f s; s.invalidate r.1 r.2

def execTlbiPage (sz : PgSz) (o : Args) (s : State) : Host.Outcome State Fault Refusal :=
  tlbiForm (.tlbiPage sz o) o (fun s => let t := (s.uni o.b).setWidth 8; (.page t (s.uni o.a) sz, some t)) s

def execTlbiTenant (o : Args) (s : State) : Host.Outcome State Fault Refusal :=
  tlbiForm (.tlbiTenant o) o (fun s => let t := (s.uni o.b).setWidth 8; (.tenant t, some t)) s

def execTlbiAll (o : Args) (s : State) : Host.Outcome State Fault Refusal :=
  tlbiForm (.tlbiAll o) o (fun _ => (.all, none)) s

/-! Invalidations (R288) -/

def PgSz.bits : PgSz → Nat
  | .k64 => 16
  | .m64 => 26
  | .g64 => 36

/-- Whether a page of `2^n` bytes at a virtual address of a tenant meets the range. -/
def rangeMeets (r : InvalRange) (tenant : BitVec 8) (va n : Nat) : Bool :=
  match r with
  | .all => true
  | .tenant t => t == tenant
  | .page t a sz =>
    let b := max n (PgSz.bits sz)
    t == tenant && a.toNat % 2 ^ 56 / 2 ^ b == va % 2 ^ 56 / 2 ^ b

/-- R288: the translations of the range go, and with them every line that they brought in. -/
def State.doInval (s : State) (r : InvalRange) : State :=
  let s := s.flushL1 (fun x => rangeMeets r x.tenant (x.va.toNat * 64) 0) false
  let d := s.dom
  { s with dom := { d with
      tlb := d.tlb.filter fun t => !rangeMeets r t.tenant (t.vpage / 4 * 2 ^ pageBits t.leaf.level) (pageBits t.leaf.level),
      ccache := d.ccache.filter fun x => !rangeMeets r x.tenant (x.va.toNat * 64) 0,
      icache := d.icache.filter fun x => !rangeMeets r x.tenant (x.va.toNat * 64) 0 } }

/-- R398: a completion record. -/
def State.complete (s : State) (queue : Nat) (seq : W32) (st : Status) (data : List Nat) : State :=
  let c : Completion := { queue := queue, seq := seq, status := st, data := data }
  { s with dom := { s.dom with completions := s.dom.completions ++ [c] } }

/-- R288: the tables no longer give a granule of a tenant's lane log the translation under which it was logged. -/
def Dom.granStale (d : Dom) (tenant : BitVec 8) (write : Bool) (g : Gran) : Bool :=
  match d.walk tenant g.va with
  | .leaf _ l => l.key g.va != g.key || !l.user || (write && !l.w)
  | .fail _ => true

/-- R288: an access under a translation that an invalidation removes has still to perform: one in a Clasp log, whose commit reads or
writes the old frame. DESIGN CHOICE (log 121): the serial lane, whose commit or rollback reaches the sectors that it holds locked by
their physical addresses, holds every invalidation of its domain up; both end within a bound. -/
def State.invalHeld (s : State) (r : InvalRange) : Bool :=
  (s.dom.serial.isSome && !s.dom.locks.isEmpty) || s.allBlocks.any fun b =>
    let t := ((s.dom.launch b.launch).map (·.tenant)).getD 0
    let stale := fun (w : Bool) (g : Gran) => rangeMeets r t g.va.toNat 0 && s.dom.granStale t w g
    b.waves.any fun w => w.logs.any fun g => g.rd.any (stale false) || g.wr.any (stale true)

/-- R288: a cache still holds a leaf of the range that the tables no longer give. -/
def Dom.leafStale (d : Dom) (tenant : BitVec 8) (va : Nat) (l : Leaf) : Bool :=
  match d.walk tenant (BitVec.ofNat 64 va) with
  | .leaf _ x => x != { l with dirty := x.dirty }
  | .fail _ => true

/-- R288: the oldest invalidation has something to do: it can complete, or translations of its range stand that it removes. -/
def State.invalDue (s : State) : Bool :=
  match s.dom.invals with
  | [] => false
  | x :: _ => !s.invalHeld x.r ||
    (s.dom.tlb.any fun t =>
      let va := t.vpage / 4 * 2 ^ pageBits t.leaf.level
      rangeMeets x.r t.tenant va (pageBits t.leaf.level) && s.dom.leafStale t.tenant va t.leaf) ||
    s.dom.l1.any fun y => rangeMeets x.r y.tenant (y.va.toNat * 64) 0 && s.dom.leafStale y.tenant (y.va.toNat * 64) y.leaf

/-- INVALIDATION_COMPLETE: the translations of the domain's oldest invalidation go, and it completes when nothing holds it up. -/
def execInvalidationComplete (dom : Nat) (s : State) : Host.Outcome State Fault Refusal :=
  let s := s.focusDom dom
  .next (match s.dom.invals with
    | [] => s
    | x :: rest =>
      let s := s.doInval x.r
      if s.invalHeld x.r then s
      else
      let s := { s with dom := { s.dom with invals := rest } }
      match x.cmd with
      | some (q, n) => s.complete q n .ok []
      | none => s)

/-! Supervisor entry and its bound (R389) -/

/-- R389: no path of the wave stands at PRIV 1, and none that waits to enter began before this one; of those that began in
one cycle the lowest PATHID is first. R346: no lock holds the sector of the save area. -/
def State.supervTurn (s : State) : Bool :=
  !(s.wave.paths.any fun p => p.priv) &&
    !(s.wave.paths.any fun p => p.status == .waiting .superv && decide (p.stamp < s.path.stamp)) &&
    !s.saveHeld s.saveArea true

def execSupervisorEntry (p : PRef) (s : State) : Host.Outcome State Fault Refusal :=
  .next (s.atPath p fun s =>
    if s.path.status = .waiting .superv ∧ s.supervTurn = true ∧ s.block.res = .resident then
      ({ s with path := { s.path with status := .running } }).superviseNow
    else s)

/-- R384: the causes with their codes. -/
def allCauses : List Cause :=
  [.illegalOpcode, .illegalOperand, .priv, .mstream, .lookahead, .illegalPc, .bundleCheck, .pageFault, .protection,
   .tagMismatch, .keyAlias, .misaligned, .atomicUnsupported, .atomicResultLost, .remoteError, .staleHandle,
   .badTensor, .bufferRange, .brxRange, .reconMismatch, .callDepth, .barOver, .barCount, .queueClosed, .spawnDepth,
   .rblock, .claspWait, .trapInsn, .bkpt, .step, .uncorrectable]

def Cause.ofCode (n : Nat) : Option Cause := allCauses.find? fun c => c.code == n

/-- The cause that TRAPCAUSE holds. -/
def Path.cause (p : Path) : Cause := (Cause.ofCode (p.trapcause.toNat % 256)).getD .uncorrectable

def execSupervisorBoundExpiry (p : PRef) (s : State) : Host.Outcome State Fault Refusal :=
  .next (s.atPath p fun s =>
    if s.path.priv = true ∧ s.dom.cfg.supervisor < s.path.privFor then s.doubleFault s.path.cause s.path.pc
    else s)

/-! The fault queue (R386) -/

/-- The layout of a park record. -/
def Park.record (k : Park) : Nat :=
  k.va.toNat % 2 ^ 56 * 2 ^ 200 + k.unit.toNat * 2 ^ 168 + k.pc.toNat % 2 ^ 56 * 2 ^ 112 + k.mask.toNat * 2 ^ 48
    + k.tenant.toNat * 2 ^ 40 + k.kind.toNat * 2 ^ 36 + k.id.toNat

/-- R397: the MSI-X vector of an interrupt. DESIGN CHOICE (log 103). -/
def Intr.vector : Intr → Nat
  | .faultPending => 0
  | .qslotStarved _ => 1

/-- R38, R386, R397: an interrupt to the host. -/
def Dom.interrupt (d : Dom) (i : Intr) : Dom :=
  { d with interrupts := d.interrupts ++ [i], msix := d.msix ||| (1 : BitVec 16) <<< i.vector }

/-- The home-slice byte at which the next record of the fault queue goes. -/
def Dom.faultKey (d : Dom) : Nat := pkey 0 (d.faultqBase.toNat + 32 * (d.fqnext % d.fqsize))

/-- FAULT_QUEUE_WRITE: the oldest record that waits is written, unless the queue is full: the slot still holds
the record of a live park. R346: it waits while a lock holds the sector of the slot. The host is notified. -/
def execFaultQueueWrite (dom : Nat) (s : State) : Host.Outcome State Fault Refusal :=
  let s := s.focusDom dom
  .next (match s.dom.parks.find? fun k => k.slot == none with
    | none => s
    | some k =>
      let slot := s.dom.fqnext % s.dom.fqsize
      let key := s.dom.faultKey
      if s.dom.fqsize = 0 ∨ (s.dom.parks.any fun x => x.slot == some slot) ∨ s.dom.lockedAt (key / 64) true = true then s
      else
        let s := (s.recall 96 (key / 64) false).homePut none key 32 k.record .plain
        { s with dom := { s.dom with fqnext := s.dom.fqnext + 1,
                                     parks := updIf (fun x => x.id == k.id) (fun x => { x with slot := some slot }) s.dom.parks
                                   }.interrupt .faultPending })

end Sys2Proof.Machine
end

