-- ==== Sys2Proof/Machine/MemI.lean ====
section
/-! DEFINITION. OP 0x30 to 0x33 and 0x36: loads, stores, buffer and constant accesses, atomics, prefetch, cache
control, the monitored wait, fences and remote signals (R153, R170 to R187, R200, R201). -/

namespace Sys2Proof.Machine

/-- A global or AB access: inside a region a global one is transactional (R201). -/
def memForm (i : Instr) (o : Args) (q : State → W64 → Req) (s : State) : Host.Outcome State Fault Refusal :=
  vec i s fun s => s.once o fun s =>
    let m := s.guard o.h
    let r := q s (execLanes o.h m)
    if s.path.inRegion && !r.ab then s.txForm i r else s.issueReq r

def execLd (hint : Hint) (ord : Sys2Proof.Ord) (sc : Scope) (sz : Size) (x : Idx) (o : Args) (s : State) :
    Host.Outcome State Fault Refusal :=
  memForm (.ld hint ord sc sz x o) o (fun s m => s.mkReq .load sz ord sc hint x o m) s

def execSt (hint : Hint) (ord : Sys2Proof.Ord) (sc : Scope) (sz : Size) (x : Idx) (o : Args) (s : State) :
    Host.Outcome State Fault Refusal :=
  memForm (.st hint ord sc sz x o) o (fun s m => s.mkReq .store sz ord sc hint x o m) s

def execAtom (op : AOp) (hint : Hint) (ord : Sys2Proof.Ord) (sc : Scope) (sz : Size) (x : Idx) (o : Args) (s : State) :
    Host.Outcome State Fault Refusal :=
  memForm (.atom op hint ord sc sz x o) o (fun s m => s.mkReq (.atom op) sz ord sc hint x o m) s

def execCas (hint : Hint) (ord : Sys2Proof.Ord) (sc : Scope) (sz : Size) (x : Idx) (o : Args) (s : State) :
    Host.Outcome State Fault Refusal :=
  memForm (.cas hint ord sc sz x o) o (fun s m => s.mkReq .cas sz ord sc hint x o m) s

/-- R182, R201: a global `red` aborts its lanes inside a region. -/
def execRed (op : AOp) (hint : Hint) (ord : Sys2Proof.Ord) (sc : Scope) (sz : Size) (x : Idx) (o : Args) (s : State) :
    Host.Outcome State Fault Refusal :=
  vec (.red op hint ord sc sz x o) s fun s => s.once o fun s =>
    let m := s.guard o.h
    if s.path.inRegion && sc != .ab then s.countOff.abortPart m .reduction 0
    else s.issueReq (s.mkReq (.red op) sz ord sc hint x o (execLanes o.h m))

/-- R200: `psig` always carries release. -/
def psigForm (i : Instr) (add : Bool) (sc : Scope) (x : Idx) (o : Args) (s : State) : Host.Outcome State Fault Refusal :=
  vec i s fun s => s.once o fun s =>
    let m := s.guard o.h
    if s.path.inRegion then s.countOff.abortPart m .nolog i.opByte
    else s.issueReq (s.mkReq (.psig add) .n64 .rel sc .normal x o (execLanes o.h m))

def execPsigSet (sc : Scope) (x : Idx) (o : Args) (s : State) : Host.Outcome State Fault Refusal :=
  psigForm (.psigSet sc x o) false sc x o s

def execPsigAdd (sc : Scope) (x : Idx) (o : Args) (s : State) : Host.Outcome State Fault Refusal :=
  psigForm (.psigAdd sc x o) true sc x o s

/-! `brx` (R273) -/

/-- A plain 8-byte read of a lane (R273), with the checks of R174. -/
def State.tableRead (s : State) (va : W64) : State × Except Fail W64 :=
  match s.check s.who va { n := 8, write := false, atomic := false, tags := true, sc := none } with
  | (s, .error f) => (s, .error f)
  | (s, .ok t) => let r := s.doRead s.who t .normal 8; (r.1, .ok (BitVec.ofNat 64 r.2))

/-- R273: the reads of the targets, one lane after another. -/
def State.brxReads (s : State) (tbl : W64) : List (Nat × Nat) → State × List (Nat × W64) × List (Nat × W64 × Fail)
  | [] => (s, [], [])
  | (l, i) :: rest =>
    let va := tbl + 8 + BitVec.ofNat 64 (8 * i)
    let (s, r) := s.tableRead va
    let (s, ts, fs) := s.brxReads tbl rest
    match r with
    | .ok t => (s, (l, t) :: ts, fs)
    | .error f => (s, ts, (l, failVa va f, f) :: fs)

/-- R168, R273: a table's length, and the targets of the lanes within it, are plain reads of the path (R204, R222). -/
def execBrx (rj : Bool) (off : BitVec 24) (o : Args) (s : State) : Host.Outcome State Fault Refusal :=
  vec (.brx rj off o) s fun s => s.once o fun s =>
    let m := s.guard o.h
    let tbl := s.uni o.a
    let ix := fun l => (s.rd false l o.b).toNat % 2 ^ 32
    let out := fun (n : W64) l => n = 0 || 4096 < n.toNat || n.toNat ≤ ix l
    let ins := match (s.tableRead tbl).2 with
      | .ok n => (lanesOf m).filter fun l => !out n l
      | .error _ => []
    s.orderedReads false (s.readReq .absent ((lowLane m, tbl) :: ins.map fun l => (l, tbl + 8 + BitVec.ofNat 64 (8 * ix l)))) fun s =>
    match s.tableRead tbl with
    | (s, .error f) => s.trapLanes m f.cause true 0 (fun _ => failVa tbl f) (fun _ => f.info) State.advance
    | (s, .ok n) =>
      if rj = true ∧ s.pushRoom = false then s.part m (fun s => s.trap .callDepth 0) State.stay
      else
        let s := if rj then s.pushRecon (branchPc s.path.pc off) else s
        let outs := maskOf ((lanesOf m).filter (out n))
        let (s, ts, fs) := s.brxReads tbl (ins.map fun l => (l, ix l))
        let rest := (lanesOf (s.path.mask &&& ~~~m)).map fun l => (l, nextPc s.path.pc)
        let range : Part := (outs, fun s => s.trapFull .brxRange false 0 (fun _ => tbl) (fun l => BitVec.ofNat 64 (ix l)))
        s.transfer (ts ++ rest) id (range :: failParts fs 0)

/-! OP 0x31 -/

def execLds (sz : Size) (x : Idx) (o : Args) (s : State) : Host.Outcome State Fault Refusal :=
  memForm (.lds sz x o) o (fun s m => s.mkReq .load sz .plain .ab .normal x o m) s

def execSts (sz : Size) (x : Idx) (o : Args) (s : State) : Host.Outcome State Fault Refusal :=
  memForm (.sts sz x o) o (fun s m => s.mkReq .store sz .plain .ab .normal x o m) s

/-- ACC and constant accesses; `const` for the latter, which keep their place behind older accesses of the path (R163, R222), count
for BNCINJ and may bounce (R420), and are remote-error points at the sector of a posted operation of the path (R177, R183). -/
def bufForm (i : Instr) (o : Args) (sz : Size) (const : Bool) (q : State → W64 → Req)
    (f : State → LaneReq → State × LaneRes) (s : State) : Host.Outcome State Fault Refusal :=
  vec i s fun s => s.once o fun s =>
    let q := q s (execLanes o.h (s.guard o.h))
    let act := fun (s : State) =>
      let (s, xs) := laneSeq f s q.lanes
      let s := if q.kind.returns then s.putLoads sz q.d (doneOf xs) else s
      s.endLanes (s.failing q xs) q.kind.parkKind State.advance
    if const then
      let go := fun (s : State) => s.orderedReads true q fun s => s.orBounce q act
      if s.meetsPosted (q.lanes.map (·.va)) then s.remotePoint go else go s
    else act s

def execLdacc (sz : Size) (x : Idx) (o : Args) (s : State) : Host.Outcome State Fault Refusal :=
  bufForm (.ldacc sz x o) o sz false (fun s m => s.mkReq .load sz .plain .wv .normal x o m) (fun s r =>
    match s.accCheck r.va (sizeBytes sz) with
    | .error f => (s, .fail f)
    | .ok a =>
      if s.core.flawed 2 a (sizeBytes sz) then (s, .fail ⟨10, .uncorrectable, 0, false⟩)
      else (s, .done (rdN s.core.acc a (sizeBytes sz)))) s

def execStacc (sz : Size) (x : Idx) (o : Args) (s : State) : Host.Outcome State Fault Refusal :=
  bufForm (.stacc sz x o) o sz false (fun s m => s.mkReq .store sz .plain .wv .normal x o m) (fun s r =>
    match s.accCheck r.va (sizeBytes sz) with
    | .error f => (s, .fail f)
    | .ok a =>
      ({ s with core := ({ s.core with acc := wrN s.core.acc a (sizeBytes sz) r.val.toNat } : Core).mend 2 a (sizeBytes sz) }, .done 0)) s

def execLdc (sz : Size) (x : Idx) (o : Args) (s : State) : Host.Outcome State Fault Refusal :=
  bufForm (.ldc sz x o) o sz true (fun s m => s.mkReq .load sz .plain .wv .normal x o m) (fun s r =>
    match s.constRead s.who r.va (sizeBytes sz) with
    | (s, .error f) => (s, .fail f)
    | (s, .ok v) => (s, .done v)) s

/-! Prefetch and cache control (R184, R185) -/

/-- R184: where a prefetch goes: a TLB hit on a page of the domain that passes the checks and is cached. -/
def State.pfTarget (s : State) (va : W64) : Option Leaf :=
  if bitsOf va.toNat 60 4 ≠ 0 then none
  else match s.dom.tlbFind s.cluster s.tenant va with
    | none => none
    | some l =>
      let w : Want := { n := 0, write := false, atomic := false, tags := true, sc := none }
      if l.tier = 2 ∨ l.reg = 3 ∨ (s.leafFail s.core.ix s.who.user va l w).isSome = true ∨ s.lockedFor s.who (.loc va l) false = true then none
      else some l

/-- R184: one lane's prefetch of the 512-byte line, without the sectors that a Clasp commit holds locked (R355), and those that the L1
holds under another address (R162). It uses a sector that the L1 holds at its hint (R167). The cache that it is for carries its mark
(R382). -/
def State.prefetchLane (s : State) (toL1 : Bool) (h : Hint) (va : W64) : State :=
  let s := s.count .pfIssued
  match s.pfTarget va with
  | none => s.count .pfDropped
  | some l =>
    let hh := hintOf h l
    let inL1 := toL1 && hh != 3
    let held := s.dom.l2.any (s.dom.lineOf (l.key va) 0 s.tenant none).same
    let s := s.l2Access (some s.tenant) (l.key va) (prioOf hh).toNat (if held || inL1 then none else some s.core.ix) false
    if inL1 then
      let line := va &&& ~~~511
      (List.range 8).foldl (fun s k =>
        let a := line + BitVec.ofNat 64 (64 * k)
        let other := (s.dom.copyOf s.core.ix (l.key a / 64)).any fun x => !(x.va == sectorVa a && x.tenant == s.tenant)
        if other || s.lockedFor s.who (.loc a l) false then s
        else s.fill s.core.ix s.tenant a l hh true) s
    else s

def prefetchForm (i : Instr) (toL1 : Bool) (hint : Hint) (x : Idx) (o : Args) (s : State) : Host.Outcome State Fault Refusal :=
  vec i s fun s =>
    ((lanesOf (execLanes o.h (s.guard o.h))).foldl (fun s l => if s.guard o.h = 0 then s else s.prefetchLane toL1 hint (s.addr l x o.a o.b)) s).advance

def execPrefetch (hint : Hint) (x : Idx) (o : Args) (s : State) : Host.Outcome State Fault Refusal :=
  prefetchForm (.prefetch hint x o) true hint x o s

def execPrefetchL2 (hint : Hint) (x : Idx) (o : Args) (s : State) : Host.Outcome State Fault Refusal :=
  prefetchForm (.prefetchL2 hint x o) false hint x o s

/-- R185: the priority of a line in the core's L1 and at the home slice. -/
def State.demote (s : State) (core key : Nat) (ef : Bool) : State :=
  let low := fun p : BitVec 2 => if ef then 0 else if p.toNat < 1 then p else 1
  let d := s.dom
  let here := fun x : L1Sector => x.core == core && x.key / 8 == key / 512
  { s with dom := { d with l1 := updIf (fun x => d.l1.any fun y => here y && y.sameLine x) (fun x => { x with prio := low x.prio }) d.l1,
                           l2 := updIf (d.lineOf key 0 0 none).same (fun y => { y with prio := if ef then 0 else min y.prio 1 }) d.l2 } }

/-- R168, R185: writes the tag of a granule under a leaf, in memory and in the copy that core `core` has of the sector; as at
a write the directory recalls the other copies of a coherent one. -/
def State.setTag (s : State) (core : Nat) (l : Leaf) (va : W64) (tag : BitVec 4) : State × LaneRes :=
  if l.tagen then
    let key := l.key va
    let s := if l.reg = 2 then s.recall core (key / 64) false else s
    let tags := mset s.dom.tags (key / 32) tag
    let d := { s.dom with tags := tags }
    let new := d.tagsAt (key / 64)
    ({ s with dom := { d with l1 := updIf (fun x => x.is core (key / 64)) (fun x => { x with tags := new }) d.l1 } }, .done 0)
  else (s, .fail ⟨5, .protection, 0, false⟩)

/-- R185: the actions of `cctl`. -/
inductive CctlOp
  | wb | wbinv | demoteEf | demote | settag
  deriving DecidableEq, Repr

/-- R174, R185: what is checked for an action. -/
def cctlWant (op : CctlOp) : Want :=
  { n := if op == .settag then 32 else 0, write := op == .settag, atomic := false, tags := false, sc := none }

/-- R185: one lane's action. DESIGN CHOICE (log 98): memory behind a fabric port is the peer package's, whose leaves the model does not
hold, and `settag` leaves nothing there. -/
def State.cctlLane (s : State) (op : CctlOp) (r : LaneReq) : State × LaneRes :=
  match s.check s.who r.va (cctlWant op) with
  | (s, .error f) => (s, .fail f)
  | (s, .ok t) =>
    match op, t with
    | .settag, t =>
      match t with
      | .loc va l => if l.tagen then (s.firstWrite s.who t).1.setTag s.core.ix l va (r.val.setWidth 4) else s.setTag s.core.ix l va 0
      | .peer dom _ va l _ =>
        let s := if l.tagen then (s.firstWrite s.who t).1 else s
        s.withDom dom (.done 0) fun s => s.setTag 96 l va (r.val.setWidth 4)
      | .fabric _ _ _ => ((s.firstWrite s.who t).1, .done 0)
    | op, .loc va l =>
      let key := l.key va
      let line := fun x : L1Sector => x.core == s.core.ix && x.key / 8 == key / 512
      match op with
      | .wb => (s.flushL1 line true, .done 0)
      | .wbinv => (s.flushL1 line false, .done 0)
      | .demoteEf => (s.demote s.core.ix key true, .done 0)
      | _ => (s.demote s.core.ix key false, .done 0)
    | _, _ => (s, .done 0)

/-- R346: a lane's action meets a lock: the tag's write does. -/
def State.cctlHeld (s : State) (op : CctlOp) (r : LaneReq) : Bool :=
  op == .settag && match (s.check s.who r.va (cctlWant op)).2 with
    | .ok t => s.lockedFor s.who t true
    | .error _ => false

/-- R185: `cctl` counts as an access for BNCINJ, and may bounce (R420). -/
def cctlForm (i : Instr) (op : CctlOp) (x : Idx) (o : Args) (s : State) : Host.Outcome State Fault Refusal :=
  vec i s fun s => s.once o fun s =>
    let m := s.guard o.h
    if s.path.inRegion then s.countOff.abortPart m .nolog i.opByte
    else if s.hasOlder then s.await .older
    else
      let q := s.mkReq .store .n8 .plain .wv .normal x o (execLanes o.h m)
      if q.lanes.any (s.cctlHeld op) then s.bounceCounted q (w := cctlWant op)
      else s.orBounce q (w := cctlWant op) fun s =>
        let (s, xs) := laneSeq (fun s r => s.cctlLane op r) s q.lanes
        s.endLanes (s.failing q xs) (if op == .settag then 1 else 0) State.advance

def execCctlWb (x : Idx) (o : Args) (s : State) : Host.Outcome State Fault Refusal :=
  cctlForm (.cctlWb x o) .wb x o s

def execCctlWbinv (x : Idx) (o : Args) (s : State) : Host.Outcome State Fault Refusal :=
  cctlForm (.cctlWbinv x o) .wbinv x o s

def execCctlDemoteEf (x : Idx) (o : Args) (s : State) : Host.Outcome State Fault Refusal :=
  cctlForm (.cctlDemoteEf x o) .demoteEf x o s

def execCctlDemote (x : Idx) (o : Args) (s : State) : Host.Outcome State Fault Refusal :=
  cctlForm (.cctlDemote x o) .demote x o s

def execCctlSettag (x : Idx) (o : Args) (s : State) : Host.Outcome State Fault Refusal :=
  cctlForm (.cctlSettag x o) .settag x o s

/-! Fences (R187) -/

/-- A fence waits for older Locket entries and is a remote-error point; ORDER 0 is `.sc`. -/
def execFence (ord : Sys2Proof.Ord) (sc : Scope) (o : Args) (s : State) : Host.Outcome State Fault Refusal :=
  vec (.fence ord sc o) s fun s => s.once o fun s =>
    if s.path.inRegion then s.nolog (.fence ord sc o)
    else s.remotePoint fun s =>
      let s := if ord.isRel || ord == .plain then s.release s.core.ix sc else s
      let s := if ord.isAcq || ord == .plain then s.acquire s.core.ix sc else s
      s.advance

/-! Monitored wait (R186) -/

/-- R371: the token and the writer of the write that a read of a sector returns: of the core's own dirty copy; of a clean copy those of its
home slice, unless the slice has another write's by now; else those of the home slice. -/
def State.tokenAt (s : State) (t : Target) : Option (W64 × W32) :=
  match t with
  | .loc va l =>
    let sec := l.key va / 64
    match s.dom.copyOf s.core.ix sec with
    | some x => if x.dirty then (match x.mark with | .tok t u => some (t, u) | _ => none)
      else if s.dom.tokOf sec = x.tok then x.tok else none
    | none => s.dom.tokOf sec
  | .peer dom _ va l _ => (s.withDom dom none fun s => (s, s.dom.tokOf (l.key va / 64))).2
  | .fabric _ key _ => (s.fabricTok.find? fun e => e.sector == key / 64).map fun e => (e.token, e.unit)

/-- Arms a monitor on the sector of a target, in the domain that holds it; that of a `sigwait` watches the word, by its size, its
condition and its value (R48). -/
def State.arm (s : State) (p : PRef) (t : Target) (word : Option (Nat × SigCond × Nat) := none) : State :=
  let put := fun (s : State) (sec off : Nat) =>
    let m : Monitor := { p := p, sector := sec, hit := false, watch := word.map fun w => { off := off, n := w.1, cond := w.2.1, val := w.2.2 } }
    { s with dom := { s.dom with monitors := m :: s.dom.monitors } }
  match t with
  | .loc va l => put s (l.key va / 64) (l.key va % 64)
  | .peer dom _ va l _ => (s.withDom dom () fun s => (put s (l.key va / 64) (l.key va % 64), ())).1
  | .fabric _ key _ => put s (fabricSector key) (key % 64)

/-- The domain and the sector of the monitor that watches a target. -/
def Target.watched (t : Target) (own : Nat) : Nat × Nat :=
  match t with
  | .loc va l => (own, l.key va / 64)
  | .peer dom _ va l _ => (dom, l.key va / 64)
  | .fabric _ key _ => (own, fabricSector key)

/-- Removes every monitor of a path. -/
def Dom.disarm (d : Dom) (p : PRef) : Dom := { d with monitors := d.monitors.filter fun m => m.p != p }

def State.disarm (s : State) (p : PRef) : State := { s with dom := s.dom.disarm p, doms := s.doms.map fun d => d.disarm p }

/-- A write has reached a sector that the path monitors. -/
def State.monHit (s : State) (p : PRef) : Bool :=
  (s.dom :: s.doms).any fun d => d.monitors.any fun m => m.p == p && m.hit

/-- The checks of R174 for every lane of a wait, before any acts. -/
def State.checkAll (s : State) (w : Want) : List (Nat × W64) → State × List (Nat × W64 × Target) × List (Nat × W64 × Fail)
  | [] => (s, [], [])
  | (l, va) :: rest =>
    match s.check s.who va w with
    | (s, .error f) => let r := s.checkAll w rest; (r.1, r.2.1, (l, failVa va f, f) :: r.2.2)
    | (s, .ok t) => let r := s.checkAll w rest; (r.1, (l, va, t) :: r.2.1, r.2.2)

/-- R186: lanes of an `mwait` failed: it completes for all its lanes or for none. -/
def State.allOrNone (s : State) (share : Option W64) (fs : List (Nat × W64 × Fail)) : State :=
  let (now, _) := splitFails fs
  match now with
  | [] => s.stay
  | f :: _ =>
    let addr := fun l => ((now.find? fun x => x.1 == l).map (·.2.1)).getD f.2.1
    if f.2.2.cause = .pageFault then s.trapFull .pageFault true 0 addr (fun _ => 0)
    else
      let m := share.getD (maskOf (now.map (·.1)))
      s.trapLanes m f.2.2.cause false 0 addr (fun _ => f.2.2.info) State.stay

/-- The reads of a wait. -/
def State.readAll (s : State) (n : Nat) : List (Nat × W64 × Target) → State × List (Nat × Nat)
  | [] => (s, [])
  | (l, _, t) :: rest =>
    let (s, v) := s.doRead s.who t .normal n
    let (s, vs) := s.readAll n rest
    (s, (l, v) :: vs)

def mwaitWant (sz : Size) (ord : Sys2Proof.Ord) (sc : Scope) : Want :=
  { n := sizeBytes sz, write := false, atomic := false, tags := true, sc := if ord.isAcq then some sc else none }

/-- Arms the monitors, reads, and completes or waits; at a sector that a lock holds the access `q` bounces. -/
def State.mwaitStart (s : State) (ord : Sys2Proof.Ord) (sc : Scope) (sz : Size) (o : Args) (q : Req) (ts : List (Nat × W64 × Target)) : State :=
  let p := s.pref
  let s := ts.foldl (fun s t => s.arm p t.2.2) s
  let s := if ord.isAcq then s.acquire s.core.ix sc else s
  if ts.any fun t => s.lockedFor s.who t.2.2 false then (s.disarm p).bounceHeld q
  else
  let (s, vs) := s.readAll (sizeBytes sz) ts
  if vs.any fun v => v.2 != (s.data sz v.1 o.c).toNat % 2 ^ (8 * sizeBytes sz) then
    ((s.disarm p).putLoads sz o.d vs).advance
  else s.await (.mon (ts.map fun t => (t.1, t.2.1)) sz ord sc o.d)

def execMwait (ord : Sys2Proof.Ord) (sc : Scope) (sz : Size) (x : Idx) (o : Args) (s : State) : Host.Outcome State Fault Refusal :=
  vec (.mwait ord sc sz x o) s fun s => s.once o fun s =>
    let m := s.guard o.h
    if s.path.inRegion then
      if s.path.serial then s.countOff.trap .claspWait 0 else s.countOff.abortPart m .wait (Instr.mwait ord sc sz x o).opByte
    else
      let q := s.mkReq .load sz ord sc .normal x o (execLanes o.h m)
      if s.reqBehind q then s.await .older
      else
        let go := fun (s : State) => s.orBounce q fun s =>
          match s.checkAll (mwaitWant sz ord sc) (q.lanes.map fun r => (r.lane, r.va)) with
          | (s, ts, []) => s.mwaitStart ord sc sz o q ts
          | (s, _, fs) => s.allOrNone q.share fs
        if s.meetsPosted (q.lanes.map (·.va)) then s.remotePoint go else go s

/-- The header of the instruction at which the path stands. -/
def Path.irHdr (p : Path) : Hdr := ((p.ir.bind Instr.args).map (·.h)).getD { neg := false, pred := 7, look := 0, u := false }

/-- R186, R371: the path in `mwait` wakes: it reads again and goes on, with the token of the write that its read
returns. DESIGN CHOICE (log 105): where its lanes read several sectors, that of the lowest lane whose sector was hit, and of the
first lane when none was. -/
def State.mwaitFinish (s : State) : State :=
  match s.path.status with
  | .waiting (.mon lanes sz ord sc d) =>
    if lanes.any fun l => s.vaHeld l.2 then s.bounceWaiting lanes
    else
    let hit := (s.dom :: s.doms).flatMap fun x => (x.monitors.filter fun m => m.p == s.pref && m.hit).map fun m => (x.ix, m.sector)
    let s := s.disarm s.pref
    match s.checkAll (mwaitWant sz ord sc) lanes with
    | (s, ts, []) =>
      let s := if ord.isAcq then s.acquire s.core.ix sc else s
      let (s, vs) := s.readAll (sizeBytes sz) ts
      let t := (ts.find? fun t => hit.contains (t.2.2.watched s.dom.ix)).orElse fun _ => ts.head?
      let tok := t.bind fun t => s.tokenAt t.2.2
      ((s.putLoads sz d vs).adopt 5 tok).advance
    | (s, _, fs) => s.allOrNone (s.shareOf s.path.irHdr) fs
  | _ => s

/-- MWAIT_TIMEOUT (R186). -/
def execMwaitTimeout (p : PRef) (s : State) : Host.Outcome State Fault Refusal :=
  .next (s.atPath p fun s => if s.block.res = .resident ∧ s.dom.cfg.mwait < s.joinWaited * s.core.nspercyc.toNat then s.mwaitFinish else s)

/-! The Locket and the units that perform atomics (R15, R183, R220 to R225) -/

/-- BOUNCE: the environment makes the path's next access bounce (log 8). -/
def execBounce (p : PRef) (s : State) : Host.Outcome State Fault Refusal :=
  .next (s.atPath p fun s => { s with path := { s.path with forced := s.path.forced + 1 } })

/-- R183: the words that a lost atomic leaves in its destination. -/
def lostValue : Nat := 0xFFF00BADFFF00BADFFF00BADFFF00BAD

/-- The path in focus waits for this entry. -/
def State.holds (s : State) (tag : Nat) : Bool :=
  match s.path.status with
  | .waiting (.held ts) => ts.contains tag
  | _ => false

/-- R183: the destination words of lanes whose answer is lost. -/
def State.putLost (s : State) (q : Req) (ls : List Nat) : State :=
  match q.d with
  | .s _ => if ls = [] then s else s.putLoads (if q.sz = .b128 then .b128 else .n64) q.d (ls.map fun l => (l, lostValue))
  | _ => s.putLoads q.sz q.d (ls.map fun l => (l, lostValue))

/-- R183: posted operations of an entry go to the paths that it binds, each to the one that holds the lane; what no path holds
stands with the path in focus. -/
def State.addPosted (s : State) (paths : List Nat) (xs : List Posted) : State :=
  let up := fun p : Path => if paths.contains p.pid then { p with posted := p.posted ++ postedFor p.mask xs } else p
  let held := (s.wavePaths.filter fun p => paths.contains p.pid).foldl (fun m p => m ||| p.mask) (0 : W64)
  let p := up s.path
  { s with path := { p with posted := p.posted ++ postedBut held xs }, wave := { s.wave with paths := s.wave.paths.map up } }

/-- Failures of lanes of an entry: precise where the path waits for it, else posted failures (log 17). Lanes
whose atomic was applied and lost trap first and are never reissued (R183); the others by R175. `replay` is false for a
PAGE_FAULT that FAULT_FAIL raises (R386). -/
def State.entryFails (s : State) (e : Entry) (bad : List (LaneReq × Fail)) (replay : Bool := true) : State :=
  if s.holds e.tag then
    let lost := bad.filter fun x => x.1.applied && x.2.remote
    let fs := bad.map fun x => (x.1.lane, failVa x.1.va x.2, x.2)
    let lm := maskOf (lost.map (·.1.lane))
    if lost ≠ [] then
      let s := s.putLost e.req (lost.map (·.1.lane))
      let m := e.req.share.getD lm
      s.divide [(m, fun s => s.trapFull .atomicResultLost false 0 (failAddr fs) (failInfo fs)),
        (maskOf (fs.map (·.1)) &&& ~~~m, State.stay), (s.path.mask &&& ~~~m &&& ~~~maskOf (fs.map (·.1)), id)]
    else
      s.endLanes (sharedFails e.req.share fs) e.req.kind.parkKind id (replay := replay)
  else
    s.addPosted e.paths (s.named (bad.map fun x =>
      { lanes := e.req.lanesAt { x.1 with va := failVa x.1.va x.2 }, pc := e.req.pc, sector := vsector x.1.va, cause := some x.2.cause }))

/-! Which entry reissues (R221, R222) -/

/-- The issuer of an entry's request. -/
def State.entryWho (s : State) (e : Entry) : Who :=
  let serial := s.dom.serial.any fun x => x.p.dom == s.dom.ix && x.p.blk == s.block.id && x.p.wave == s.wave.wid && e.paths.contains x.p.pid
  { s.reqWho e.req with serial := serial }

/-- R221: the unit that a lane's request of an entry meets reports room, or its domain has begun a reset (R11): no lock holds the sector from it, and an atomic finds
a place for its tag. -/
def State.laneRoom (s : State) (e : Entry) (r : LaneReq) : Bool :=
  let q := e.req
  let tag := s.ostag r.lane r.seq
  if r.cut then true
  else if q.ab then
    match s.abCheck r.va (sizeBytes q.sz) with
    | .ok (core, _, true) =>
      let table := (s.coreAt core).abTags
      !q.kind.atomic || (table.any fun a => a.1 == tag) || decide (table.length < 64)
    | _ => true
  else
    match (s.check (s.entryWho e) r.va { q.want with n := 0, tags := false }).2 with
    | .ok t => !s.lockedFor (s.entryWho e) t q.kind.writes
        && (!(q.kind.atomic && t.atUnit q.kind.returns) || (s.appliedFind t tag).isSome || !s.appliedFull t)
    | .error _ => true

def State.entryRoom (s : State) (e : Entry) : Bool := e.req.lanes.all (s.laneRoom e)

/-- R221: the bounce bound that firmware has set has passed since the entry bounced. -/
def State.boundPassed (s : State) (e : Entry) : Bool :=
  let now := s.core.cycles.toNat
  decide (now < e.since) || decide (s.dom.cfg.bounce ≤ (now - e.since) * s.core.nspercyc.toNat)

/-- R163, R222: `e` keeps its place behind the older entry `x`: the same owner's at the same sector, or on device pages. -/
def Entry.after (e x : Entry) : Bool := (x.sector == e.sector || (x.dev && e.dev)) && x.paths.any e.paths.contains

/-- The entries that are not parked and stand behind no older one, by ascending tag. -/
def freeEntries : List Entry → List Entry → List Entry
  | _, [] => []
  | before, e :: es =>
    let rest := freeEntries (e :: before) es
    if e.parked.isNone && !(before.any fun x => e.after x) then e :: rest else rest

/-- R221: the entry of the wave that reissues next, by ascending tag: one whose unit reports room, an injected one once the bounce
bound has passed (R420); else one for which the bound has passed. DESIGN CHOICE (log 100): an entry without room is passed over. -/
def State.nextEntry (s : State) : Option Entry :=
  let es := freeEntries [] s.wave.locket
  (es.find? fun e => s.entryRoom e && (!e.inj || s.boundPassed e)).orElse fun _ => es.find? s.boundPassed

/-- The entry has bounced again. -/
def State.bounceAgain (s : State) (tag : Nat) (f : Entry → Entry) : State :=
  let up := fun e : Entry => f { e with bounces := e.bounces + 1, since := s.core.cycles.toNat, inj := false }
  { s with wave := { s.wave with locket := updIf (fun e => e.tag == tag) up s.wave.locket } }

/-- R11: an access that bounced whole comes back with REMOTE_ERROR: at the remote-error point of a posted ring form (R255), else for the
lanes of its entry; the others of a path that waits in `mwait` or `sigwait` make it again. -/
def State.cutAgain (s : State) (e : Entry) : State :=
  let code := e.req.kind.num
  let va := (e.req.lanes.head?.map (·.va)).getD 0
  let m := e.req.share.getD (maskOf (e.req.lanes.map (·.lane)))
  if code == 0x71 || code == 0x73 || code == 0x74 || code == 0x75 then
    let x : Posted := { lanes := (lanesOf m).map fun l => (l, va), pc := e.req.pc, sector := vsector va, cause := some .remoteError, phys := [e.sector] }
    ({ s with path := { s.path with posted := s.path.posted ++ [x], status := .running } } : State).advance
  else
    let addr := fun l => ((e.req.lanes.find? fun r => r.lane == l).map (·.va)).getD va
    (s.disarm s.pref).trapLanes m .remoteError false 0 addr (fun _ => 0) fun s => match s.path.status with
      | .waiting (.mon _ _ _ _ _) | .waiting (.sig _ _ _ _ _ _) => s.stay
      | _ => s

/-- R420: the reissue of an access that bounced whole: its path performs it next, unless a lock still holds the sector (R344,
R346), or its domain has begun a reset (R11). -/
def State.reissueAgain (s : State) (e : Entry) : State :=
  if e.req.lanes.any (·.cut) then (s.dropEntry e.tag).cutAgain e else if s.entryRoom e then s.dropEntry e.tag else s.bounceAgain e.tag id

/-- R221: an entry is reissued: lanes that perform leave it; a page fault parks it. -/
def State.reissueReq (s : State) (e : Entry) : State :=
  let q := e.req
  let s := if q.ord.isAcq then s.acquire s.core.ix q.orderScope else s
  let (s, xs) := s.reqLanes q false false q.lanes
  let s := if q.kind.returns then (s.putLoads q.sz q.d (doneOf xs)).fbTouch (maskOf ((doneOf xs).map (·.1))) (Opnd.regs q.d (szV q.sz) (szS q.sz)) else s
  let s := s.addPosted e.paths (s.named (postedOf q xs))
  let parks := xs.filterMap fun x => match x.2 with
    | .fail f => if f.cause = .pageFault then some x.1 else none
    | _ => none
  let bad := xs.filterMap fun x => match x.2 with
    | .fail f => if f.cause = .pageFault then none else some (x.1, f)
    | _ => none
  let left := ((bouncedOf xs).map (·.2) ++ parks).foldl (fun l r => insertBy LaneReq.lane r l) []
  let s : State :=
    if left = [] then s.dropEntry e.tag
    else
      let r : State × Option W32 := match parks with
        | [] => (s, none)
        | p :: _ =>
          let k := s.park (.entry s.bref s.wave.wid e.tag) q.kind.parkKind p.va q.pc (maskOf (parks.map (·.lane))) q.unit
          (k.1, some k.2)
      r.1.bounceAgain e.tag fun x => { x with parked := r.2, req := { q with lanes := left } }
  if bad = [] then s else s.entryFails e bad

def State.reissue (s : State) (e : Entry) : State := if e.req.kind.isAgain then s.reissueAgain e else s.reissueReq e

/-- R226, R249: an entry that reissues while it is spilled is read back; one that fails its check is not reissued. -/
def State.reissueStored (s : State) (e : Entry) : State :=
  match e.slot with
  | none => s.reissue e
  | some k =>
    let r := s.slotOk (s.spillOff k)
    if r.2 then r.1.reissue e else (r.1.dropEntry e.tag).uncorrFor e

/-- Runs `f` with a path in focus that waits for the entry, else with one that it binds. -/
def State.atEntry (s : State) (e : Entry) (f : State → State) : State :=
  let waits := fun p : Path => match p.status with
    | .waiting (.held ts) | .waiting (.reissue ts) => ts.contains e.tag
    | _ => false
  match ((s.wavePaths.find? waits).orElse fun _ => s.wavePaths.find? fun p => e.paths.contains p.pid) with
  | some p => s.withPid p.pid f
  | none => f s

/-- With a block in focus, brings a wave into focus by its first path. -/
def State.openWave (s : State) (wave : Nat) : Option State :=
  ((s.block.waves.find? fun w => w.wid == wave).bind fun w => w.paths.head?).bind fun p => s.openPath wave p.pid

/-- LOCKET_REISSUE. -/
def execLocketReissue (b : BRef) (wave : Nat) (s : State) : Host.Outcome State Fault Refusal :=
  .next (s.atBlock b fun s =>
    if s.block.res == .resident then
      match s.openWave wave with
      | none => s
      | some t => match t.nextEntry with
        | none => s
        | some e => t.atEntry e fun s => s.reissueStored e
    else s)

/-- R224: an atomic arrives at its unit: a home slice (below 48), or the AB atomic unit of core `unit − 48`. -/
def execAtomicApply (dom : Nat) (unit : Nat) (tag : BitVec 112) (r : AtomReq) (s : State) : Host.Outcome State Fault Refusal :=
  let s := s.focusDom dom
  let n := 8 * r.bytes
  let new := fun old : Nat => match r.cmp with
    | some c => if old = c.toNat % 2 ^ n then some (r.val.toNat % 2 ^ n) else none
    | none => some (atomNew r.op n old (r.val.toNat % 2 ^ n))
  .next (
    if unit < 48 then
      if s.dom.applied.any fun a => a.unit == unit && a.tag == tag then s
      else if 512 ≤ (s.dom.applied.filter fun a => a.unit == unit).length ∨ sliceOf r.key ≠ unit
          ∨ s.dom.lockedAt (r.key / 64) true = true ∨ s.tier2Failed r.key = true then s
      else
        let s := s.recall 96 (r.key / 64) false
        let old := s.home r.key r.bytes
        let s := match new old with
          | some x => s.homePut none r.key r.bytes x .plain
          | none => s.setDom (s.dom.setDirty r.key)
        { s with dom := { s.dom with applied := { unit := unit, tag := tag, val := BitVec.ofNat 128 old } :: s.dom.applied } }
    else
      s.updCore (unit - 48) fun c =>
        if (c.abTags.any fun a => a.1 == tag) || decide (64 ≤ c.abTags.length) || c.flawed 0 r.key r.bytes then c
        else
          let old := rdN c.ab r.key r.bytes
          let ab := match new old with
            | some x => wrN c.ab r.key r.bytes x
            | none => c.ab
          ({ c with ab := ab, abTags := (tag, BitVec.ofNat 128 old) :: c.abTags } : Core).mend 0 r.key r.bytes)

/-- R224: the issuer's acknowledgement frees the entry. -/
def execAtomicAck (dom : Nat) (unit : Nat) (tag : BitVec 112) (s : State) : Host.Outcome State Fault Refusal :=
  let s := s.focusDom dom
  .next (
    if unit < 48 then { s with dom := { s.dom with applied := s.dom.applied.filter fun a => !(a.unit == unit && a.tag == tag) } }
    else s.updCore (unit - 48) fun c => { c with abTags := c.abTags.filter fun a => a.1 != tag })

/-- R183: the oldest posted operation of the path that has not failed is acknowledged. -/
def execPostedAck (p : PRef) (s : State) : Host.Outcome State Fault Refusal :=
  .next (s.atPath p fun s =>
    match takeFirst (fun x : Posted => x.cause == none) s.path.posted with
    | none => s
    | some (_, rest) => { s with path := { s.path with posted := rest } })

/-- R367, R371: what a request from outside leaves with its sector: the token that it carries. Of one from a peer package the
producer is the fabric port through which it came. -/
def remoteMark (r : RemoteReq) (dom : Nat) : TokMark :=
  match r.carry with
  | none => .plain
  | some (t, u) => .tok t (match r.port with | some p => unitId dom 5 p 0 0 | none => u)

/-- R9, R400, R401: a request from outside the domain is performed at the home slice under the domain's own checks; at a
locked sector it bounces (log 13), and through a port that is down or is not the domain's none comes. -/
def execRemoteAccess (dom : Nat) (r : RemoteReq) (s : State) : Host.Outcome State Fault Refusal :=
  let s := s.focusDom dom
  let n := 8 * r.bytes
  let w : Want := { n := r.bytes, write := r.store.isSome || r.op.isSome, atomic := r.op.isSome, tags := true, sc := none }
  .next (
    if !s.dom.up || (r.port.any fun p => !((s.ports[p]?).any fun x => x.up && x.dom == dom)) then s
    else match s.exportCheck r.gen r.slot r.page r.off r.tag.toNat r.user w with
      | (s, .error _) => s
      | (s, .ok (va, l)) =>
        if s.dom.lockedAt (l.key va / 64) w.write then s
        else
        let tn := (s.dom.exportAt r.slot).tenant
        let s := if w.write then s.markD tn va else s
        let s := s.homeUse tn va l .normal
        match r.store, r.op with
        | some x, _ => s.homeWrite tn va l r.bytes x.toNat (remoteMark r dom)
        | none, some op =>
          let (s, old) := s.homeRead va l r.bytes
          s.homeWrite tn va l r.bytes (atomNew op n old (r.val.toNat % 2 ^ n)) (remoteMark r dom)
        | none, none => (s.homeRead va l r.bytes).1)

end Sys2Proof.Machine
end

