-- ==== Sys2Proof/Machine/Fetch.lean ====
section
/-! DEFINITION. Instruction fetch: bundles, their check, the instruction cache, and what the front end makes of
a word (R84, R85, R87, R88, R318). -/

namespace Sys2Proof.Machine

/-- R84: a bundle passes its check. -/
def bundleOk (b : Nat) : Bool := crc32c 60 (b % 2 ^ 480) == b / 2 ^ 480 % 2 ^ 32

/-- The word at an offset of a bundle. -/
def bundleWord (b off : Nat) : IWord := BitVec.ofNat 96 (b / 256 ^ off)

/-- R84, R149: a page from which a level may fetch: executable, of the domain's own memory. -/
def Leaf.fetchable (l : Leaf) (user : Bool) : Bool := l.x && l.tier.toNat ≤ 1 && (l.user || !user)

/-- What a fetch comes to: a bundle, a fault, or a sector that the serial lane holds, where it bounces (R346). -/
inductive Fetched
  | bundle (b : Nat)
  | fail (f : Fail)
  | held (sector : Nat)
  deriving DecidableEq, Repr

/-- R85, R88 rows 1 to 3: the bundle that holds a PC, through the cluster's instruction cache. DESIGN CHOICE (log 85): the spec
gives that cache no size, and a bundle stays in it until an invalidation; of a bundle that is rewritten meanwhile R85 lets
the fetch give the old one. -/
def State.fetchBundle (s : State) (user : Bool) (pc : W64) : State × Fetched :=
  if !legalPc pc then (s, .fail ⟨0, .illegalPc, 0, false⟩)
  else
    match s.dom.icache.find? fun x => x.cluster == s.cluster && x.tenant == s.tenant && x.va == pc / 64 with
    | some x => if x.leaf.fetchable user then (s, .bundle x.data.toNat) else (s, .fail ⟨5, .protection, 0, false⟩)
    | none =>
      let (d, r) := s.dom.translate none s.cluster s.tenant pc false
      let s := s.setDom d
      match r with
      | .error f => (s, .fail f)
      | .ok l =>
        let w : Want := { n := 0, write := false, atomic := false, tags := false, sc := none, tlb := true }
        let a := pc / 64 * 64
        if !l.fetchable user then (s, .fail ⟨5, .protection, 0, false⟩)
        else match s.leafFail 96 user pc l w with
          | some f => (s, .fail f)
          | none =>
            if s.dom.lockedAt (l.key a / 64) false then (s, .held (l.key a / 64))
            else
              let s := s.homeUse s.tenant a l .normal
              let (s, b) := s.homeRead a l 64
              if !bundleOk b then (s, .fail ⟨6, .bundleCheck, 0, false⟩)
              else
                let x : ISector := { cluster := s.cluster, tenant := s.tenant, va := pc / 64, leaf := l, data := BitVec.ofNat 512 b }
                ({ s with dom := { s.dom with icache := x :: s.dom.icache } }, .bundle b)

/-- R88 rows 4 to 7 for a word that is no instruction. -/
def badWord (stream priv : Bool) (d : Decoded) : Cause :=
  match d with
  | .illegalOperand .vector => if stream then .mstream else .illegalOperand
  | .illegalOperand .matrix => if stream then .illegalOperand else .mstream
  | .illegalOperand .priv => if stream then .mstream else if priv then .illegalOperand else .priv
  | .illegalOperand .both => .illegalOperand
  | _ => .illegalOpcode

/-- R387: TRAPADDR of a fetch that faults: the PC of an access, 0 where the rule of the cause gives none. -/
def fetchAddr (c : Cause) (pc : W64) : W64 := if c = .illegalPc ∨ c = .bundleCheck then 0 else pc

/-- The word at the path's PC is fetched, and examined as it arrives (R88): a fault takes the trap in place of issuing; a fetch
that meets a sector that the serial lane holds bounces into the Locket (R15, R346), under the same tag until it has performed (R220). What the path owes before its next
instruction comes first (R226, R394). -/
def State.fetchPath (s : State) : State :=
  let pc := s.path.pc
  if s.path.uncorr then s.takeUncorr
  else if s.path.stepped then s.takeStep
  else match s.fetchBundle (!s.path.priv) pc with
  | (s, .fail f) => s.fetchTrap f.cause (fun _ => fetchAddr f.cause pc) (fun _ => f.info)
  | (s, .held _) => (s.lockSectors false (s.readReq .absent [(lowLane s.path.mask, pc)]) Wait.retry plainRead).getD (s.await .bounced)
  | (s, .bundle b) =>
    match decode (bundleWord b (pc.toNat % 64)) with
    | .instr i =>
      match s.refuses i with
      | some r => s.refuse r.1 r.2
      | none => { s with path := { s.path with ir := some i, kept := s.path.kept.filter fun k => k.regs.isSome } }
    | d => s.refuse (badWord false s.path.priv d) 0

/-- R318, R386: the stream's fetch parks on a page fault. -/
def State.parkStream (s : State) (m : Stream) : State :=
  let (s, id) := s.park (.stream s.bref) 6 m.pc m.pc 0 s.streamUnit
  { s with block := { s.block with stream := some { m with status := .parked id } } }

/-- The word at the stream's PC is fetched. A request that meets a sector that the serial lane holds stands in the sequencer's
Locket (R239, R315) and is made again once the sector is free. DESIGN CHOICE (log 128): a fetch that fails with a cause that R338 does not
list, UNCORRECTABLE (R402, R407), is a stream fault that is recorded. -/
def State.fetchStream (s : State) : State :=
  match s.block.stream with
  | none => s
  | some m =>
    match s.fetchBundle true m.pc with
    | (s, .fail f) => if f.cause = .pageFault then s.parkStream m else s.streamFault f.cause m.pc 0
    | (s, .held sec) => { s with block := { s.block with stream := some { m with locket := [sec] } } }
    | (s, .bundle b) =>
      match decode (bundleWord b (m.pc.toNat % 64)) with
      | .instr i => { s with block := { s.block with stream := some { m with ir := some i, locket := [] } } }
      | d => s.streamFault (badWord true false d) m.pc 0

/-- INSTRUCTION_FETCH (R85): a running path or stream without a word takes the one at its PC. -/
def execInstructionFetch (p : PRef) (stream : Bool) (s : State) : Host.Outcome State Fault Refusal :=
  if stream then
    .next (s.atBlock { dom := p.dom, blk := p.blk } fun s =>
      match s.block.stream with
      | some m => if m.status == .running && m.ir.isNone && s.block.res == .resident then s.fetchStream else s
      | none => s)
  else
    .next (s.atPath p fun s =>
      if s.path.status == .running && s.path.ir.isNone && s.block.res == .resident then s.fetchPath else s)

end Sys2Proof.Machine
end

