-- ==== Sys2Proof/Machine/Barrier.lean ====
section
/-! DEFINITION. Block barriers and gang barriers, OP 0x40 (R293 to R307, R314, R339). -/

namespace Sys2Proof.Machine

/-! Block barriers -/

def State.bar (s : State) (n : Nat) : Barrier := (s.block.bars[n]?).getD (Barrier.start 0)

def State.setBar (s : State) (n : Nat) (b : Barrier) : State := { s with block := { s.block with bars := s.block.bars.set n b } }

/-- R295: phase `p` is complete. -/
def phaseDone (ph p : W32) : Bool := decide (0 < (ph - p).toInt)

/-- R294: lanes of wave `w` arrive; `all` is every lane of the wave, `gone` those that have exited. -/
def Barrier.arrive (b : Barrier) (w : Nat) (m all gone : W64) : Barrier :=
  let lm := mget b.lmask w ||| m
  { b with lmask := mset b.lmask w lm, arr := if covers (lm ||| gone) all then b.arr ||| (1 : BitVec 33) <<< w else b.arr }

/-- R297: why an arrival of the focused path is refused. -/
def State.arriveFault (s : State) (b : Barrier) : Option Cause :=
  if mget b.lmask s.wave.wid &&& s.path.mask ≠ 0 then some .barOver
  else if !b.reg.getLsbD s.wave.wid || b.penddrop.getLsbD s.wave.wid then some .barOver
  else none

/-- R294, R295, R298: the focused path arrives; `drop` marks the wave as leaving. -/
def State.arriveAt (s : State) (n : Nat) (drop : Bool) : State :=
  let b := (s.bar n).arrive s.wave.wid s.path.mask (fullMask s.wave.width) s.wave.exited
  let b := if drop then { b with penddrop := b.penddrop ||| (1 : BitVec 33) <<< s.wave.wid } else b
  s.setBar n (b.settle s.carry s.pathUnit)

/-- R339: the record of a stream fault that a completing wait on barrier `n` delivers. -/
def State.streamRecord (s : State) (n : Nat) : Option SFault :=
  match s.block.stream with
  | some m => m.rcd.filter fun f => f.bars.contains n
  | none => none

/-- R339: the record is raised at the instruction where the path stands, and is then empty. -/
def State.deliver (s : State) (f : SFault) : State :=
  let m := s.block.stream.map fun (m : Stream) => { m with rcd := none }
  let s := { s with block := { s.block with stream := m } }
  s.trapFull f.cause false 0 (fun _ => f.off) (fun _ => f.pc)

/-- R302: the value that a completed wait writes. -/
def Barrier.answer (b : Barrier) : W64 := b.ph ++ b.lastflg.setWidth 32

/-- A wait for phase `p` completes: `waited` when it waited. A `bsync` whose completion raises a stream fault has
arrived already and does not arrive again (R339). -/
def State.barDone (s : State) (n : Nat) (p : W32) (d : Opnd) (waited sync : Bool) : State :=
  match s.streamRecord n with
  | some f =>
    let s := if sync then { s with path := { s.path with redo := some (s.path.pc, p) } } else s
    s.deliver f
  | none =>
    let b := s.bar n
    let s := s.putS d b.answer
    (if waited then s.adopt 1 (some (b.lasttok, b.lastUnit)) else s).advance

/-- R302: waits for phase `p`, or goes on. -/
def State.barWait (s : State) (n : Nat) (p : W32) (d : Opnd) (sync : Bool) : State :=
  if phaseDone (s.bar n).ph p then s.barDone n p d false sync
  else if (s.bar n).reg = 0 then s.trap .barCount (BitVec.ofNat 64 n)
  else (s.count .barrierWait).await (.barrier n p d)

/-- The waiting path goes on. -/
def State.barFinish (s : State) : State :=
  match s.path.status with
  | .waiting (.barrier n p d) =>
    let sync : Bool := match s.path.ir with
      | some (.bsync _ _) => true
      | _ => false
    s.barDone n p d true sync
  | _ => s

/-- A form of a block barrier: once for the path. What a region makes of it comes first (R314); a task wave has no barrier
(R297). -/
def barForm (i : Instr) (n : BitVec 4) (o : Args) (inRegion : State → Option State) (f : State → State) (s : State) :
    Host.Outcome State Fault Refusal :=
  vec i s fun s => s.once o fun s =>
    match if s.path.inRegion then inRegion s else none with
    | some t => t
    | none => if s.block.task then s.trap .barCount (BitVec.ofNat 64 n.toNat) else f s

/-- An arrival: the checks of R297, the remote-error point, then `f` with the phase. -/
def State.arrival (s : State) (n : Nat) (drop : Bool) (f : State → W32 → State) : State :=
  match s.arriveFault (s.bar n) with
  | some c => s.trap c (BitVec.ofNat 64 n)
  | none => s.remotePoint fun s => let p := (s.bar n).ph; f (s.arriveAt n drop) p

/-- R297: `binit` is refused. -/
def State.binitBad (s : State) (n : Nat) (x : BitVec 33) : Bool :=
  let b := s.bar n
  let waves := (s.launch.map (·.waves)).getD 0
  let live := s.blockWaves.map Wave.wid
  b.arr != 0 || b.lmask.any (fun e => e.2 != 0)
    || (List.range 32).any (fun w => x.getLsbD w && (decide (waves ≤ w) || !live.contains w))
    || (x.getLsbD 32 && s.block.stream.isNone)

def execBinit (n : BitVec 4) (o : Args) (s : State) : Host.Outcome State Fault Refusal :=
  barForm (.binit n o) n o (fun s => some (s.nolog (.binit n o))) (fun s =>
    let x := (s.uni o.a).setWidth 33
    if s.binitBad n.toNat x then s.trap .barCount (BitVec.ofNat 64 n.toNat)
    else (s.setBar n.toNat { s.bar n.toNat with reg := x, penddrop := 0 }).advance) s

def execBarv (n : BitVec 4) (o : Args) (s : State) : Host.Outcome State Fault Refusal :=
  barForm (.barv n o) n o (fun s => some (s.nolog (.barv n o))) (fun s =>
    s.arrival n.toNat false fun s p => (s.putS o.d (p.setWidth 64)).advance) s

def execBwait (n : BitVec 4) (o : Args) (s : State) : Host.Outcome State Fault Refusal :=
  barForm (.bwait n o) n o (fun s => some (s.waitInRegion (.bwait n o))) (fun s =>
    s.barWait n.toNat ((s.uni o.a).setWidth 32) o.d false) s

def execBsync (n : BitVec 4) (o : Args) (s : State) : Host.Outcome State Fault Refusal :=
  barForm (.bsync n o) n o (fun s => some (s.waitInRegion (.bsync n o))) (fun s =>
    match s.path.redo with
      | some (pc, p) =>
        if pc = s.path.pc then ({ s with path := { s.path with redo := none } }).barWait n.toNat p o.d true
        else s.arrival n.toNat false fun s p => s.barWait n.toNat p o.d true
      | none => s.arrival n.toNat false fun s p => s.barWait n.toNat p o.d true) s

def execBdrop (n : BitVec 4) (o : Args) (s : State) : Host.Outcome State Fault Refusal :=
  barForm (.bdrop n o) n o (fun s => some (s.nolog (.bdrop n o))) (fun s =>
    s.arrival n.toNat true fun s _ => s.advance) s

/-- R304. -/
def execBstat (n : BitVec 4) (k : BitVec 2) (o : Args) (s : State) : Host.Outcome State Fault Refusal :=
  barForm (.bstat n k o) n o (fun _ => none) (fun s =>
    let b := s.bar n.toNat
    let x : W64 := match k.toNat with
      | 0 => b.ph.setWidth 64
      | 1 => b.reg.setWidth 64
      | 2 => b.arr.setWidth 64
      | _ => BitVec.ofNat 64 (b.lastflg.toNat * 256 + b.flg.toNat)
    (s.putS o.d x).advance) s

/-! Gang barriers (R305 to R307) -/

/-- R306: the phase completes when every registered member has arrived. -/
def Gang.settle (g : Gang) (tok : W64) (unit : W32) : Gang :=
  if g.reg ≠ [] ∧ (g.reg.all fun b => g.arr.contains b) = true then
    { g with ph := g.ph + 1, arr := [], lmask := [], lasttok := tok, lastUnit := unit }
  else g

/-- R306: a member has arrived, or has ended. -/
def Gang.member (g : Gang) (b : Nat) (ended : Bool) (tok : W64) (unit : W32) : Gang :=
  let arr := if g.arr.contains b then g.arr else b :: g.arr
  let g := { g with arr := arr }
  (if ended then { g with reg := g.reg.filter (· != b) } else g).settle tok unit

/-- The key of a wave in a gang's LMASK. -/
def gangKey (block wave : Nat) : Nat := 32 * block + wave

/-- R306: every lane of every wave of the focused block has arrived or exited. -/
def State.gangFull (s : State) (g : Gang) : Bool :=
  s.blockWaves.all fun w => covers (mget g.lmask (gangKey s.block.blockid.toNat w.wid) ||| w.exited) (fullMask w.width)

/-- R305: what another part of a linked launch is told, over Evelm. -/
def State.gangSend (s : State) (ix : Nat) (ended : Bool) (tok : W64) (unit : W32) : State :=
  match s.launch with
  | none => s
  | some l =>
    let others := s.doms.filter fun d => d.launches.any fun x => x.linked && x.tenant == l.tenant && x.linkid == l.linkid
    let sig : GangSig :=
      { tenant := l.tenant, link := l.linkid, gang := ix, block := s.block.blockid.toNat, ended := ended, token := tok, unit := unit }
    { s with sigs := s.sigs ++ others.map fun d => (d.ix, sig) }

def State.gangAt (s : State) (ix : Nat) : Option Gang := s.launch.bind fun l => l.gangs[ix]?

def State.updGang (s : State) (ix : Nat) (f : Gang → Gang) : State :=
  s.updLaunch fun l => { l with gangs := (l.gangs.zipIdx.map fun x => if x.2 = ix then f x.1 else x.1) }

/-- The focused block has arrived at a gang, or has ended: its unit learns it, and the units of other parts. -/
def State.gangMember (s : State) (ix : Nat) (ended : Bool) (tok : W64) (unit : W32) : State :=
  match s.gangAt ix with
  | none => s
  | some g =>
    let s := s.updGang ix fun g => g.member s.block.blockid.toNat ended tok unit
    if g.scope = .pkg then s.gangSend ix ended tok unit else s

/-- R307: lanes of the focused path arrive. -/
def State.gangArrive (s : State) (ix : Nat) : State :=
  let k := gangKey s.block.blockid.toNat s.wave.wid
  let s := s.updGang ix fun g => { g with lmask := mset g.lmask k (mget g.lmask k ||| s.path.mask) }
  match s.gangAt ix with
  | none => s
  | some g => if s.gangFull g then s.gangMember ix false s.carry s.pathUnit else s

/-- The valid fields of GANGS (R108). -/
def gangsOf (x : W64) : List Nat :=
  (List.range 4).filterMap fun k => if x.getLsbD (16 * k + 15) then some (bitsOf x.toNat (16 * k) 8) else none

/-- R306: exited lanes count as arrived: the gangs of the focused block look again. A block of which no lane is left has
arrived in every phase from now on, as one that has ended. -/
def State.gangRecheck (s : State) : State :=
  let gone := s.blockWaves.all fun w => covers w.exited (fullMask w.width)
  (gangsOf s.block.gangs).foldl (fun s ix => match s.gangAt ix with
    | some g => if gone then s.gangMember ix true s.carry s.pathUnit
      else if !g.arr.contains s.block.blockid.toNat && g.lmask.any (fun e => e.1 / 32 == s.block.blockid.toNat && e.2 != 0) && s.gangFull g
        then s.gangMember ix false s.carry s.pathUnit else s
    | none => s) s

/-- R307: a wait for phase `p` of a gang completes. -/
def State.gangDone (s : State) (ix : Nat) (sc : Scope) (d : Opnd) (waited : Bool) : State :=
  match s.gangAt ix with
  | none => s
  | some g =>
    let s := s.acquire s.core.ix sc
    let s := s.putS d (g.ph ++ (0 : W32))
    (if waited then s.adopt 2 (some (g.lasttok, g.lastUnit)) else s).advance

def State.gangFinish (s : State) : State :=
  match s.path.status with
  | .waiting (.gang ix _ d) => s.gangDone ix ((s.gangAt ix).map (·.scope) |>.getD .blk) d true
  | _ => s

def execGbar (o : Args) (s : State) : Host.Outcome State Fault Refusal :=
  vec (.gbar o) s fun s => s.once o fun s =>
    if s.path.inRegion then s.waitInRegion (.gbar o)
    else
      let ix := (s.uni o.a).toNat % 2 ^ 32
      match s.gangAt ix with
      | none => s.trap .barCount (BitVec.ofNat 64 ix)
      | some g =>
        if s.block.task ∨ !(gangsOf s.block.gangs).contains ix then s.trap .barCount (BitVec.ofNat 64 ix)
        else s.remotePoint fun s =>
          let p := g.ph
          let s := (s.release s.core.ix g.scope).gangArrive ix
          if ((s.gangAt ix).map fun g => phaseDone g.ph p).getD true then s.gangDone ix g.scope o.d false
          else (s.count .gangWait).await (.gang ix p o.d)

/-- GANG_ARRIVAL_SIGNAL (R305): another part tells of a member that arrived or ended. -/
def execGangArrivalSignal (dom : Nat) (g : GangSig) (s : State) : Host.Outcome State Fault Refusal :=
  let s := s.focusDom dom
  let up := fun l : Launch =>
    if l.linked && l.tenant == g.tenant && l.linkid == g.link then
      { l with gangs := l.gangs.zipIdx.map fun x =>
          if x.2 = g.gang ∧ x.1.scope = .pkg ∧ x.1.reg.contains g.block = true then x.1.member g.block g.ended g.token g.unit else x.1 }
    else l
  .next { s with dom := { s.dom with launches := s.dom.launches.map up } }

end Sys2Proof.Machine
end

