-- ==== Sys2Proof/Machine/Queue.lean ====
section
/-! DEFINITION. Hardware queues, OP 0x41; signal words, OP 0x42; and `spawn` with the task records and deques
(R41, R239 to R248, R256 to R258, R260, R308 to R311, R314). -/

namespace Sys2Proof.Machine

/-! Hardware queues -/

/-- R240: the producer number of the matrix stream, beyond every WAVEID. -/
def streamProd : Nat := 128

def State.hq (s : State) (n : Nat) : HQueue := (s.block.hq[n]?).getD HQueue.start

def State.setHq (s : State) (n : Nat) (q : HQueue) : State := { s with block := { s.block with hq := s.block.hq.set n q } }

/-- R242: a push is admitted. -/
def HQueue.admits (q : HQueue) (prod : Nat) : Bool :=
  !q.closed && decide (q.entries.length < q.depth ∧ (mget q.out prod).toNat < q.allow)

def HQueue.push (q : HQueue) (x tok : W64) (prod : Nat) (unit : W32) : HQueue :=
  { q with entries := q.entries ++ [{ val := x, token := tok, prod := prod, unit := unit }], out := mset q.out prod (mget q.out prod + 1) }

/-- R242: the oldest entry, and the queue without it. -/
def HQueue.pop (q : HQueue) : Option (QEntry × HQueue) :=
  match q.entries with
  | [] => none
  | e :: es => some (e, { q with entries := es, out := mset q.out e.prod (mget q.out e.prod - 1) })

/-- R242, R248: a push performs, or traps on a closed queue; `none` while it is not admitted. -/
def State.tryPush (s : State) (n : Nat) (x : W64) : Option State :=
  let q := s.hq n
  if q.closed then some (s.trap .queueClosed (BitVec.ofNat 64 n))
  else if q.admits s.wave.wid then some ((s.setHq n (q.push x s.carry s.wave.wid s.pathUnit)).advance)
  else none

/-- R242, R247: a pop performs, or traps on a queue that is closed and empty; `none` while it is empty. -/
def State.tryPop (s : State) (n : Nat) (d : Opnd) (waited : Bool) : Option State :=
  let q := s.hq n
  match q.pop with
  | some (e, q) =>
    let s := (s.setHq n q).putS d e.val
    some ((if waited then s.adopt 3 (some (e.token, e.unit)) else s).advance)
  | none => if q.closed then some (s.trap .queueClosed (BitVec.ofNat 64 n)) else none

/-- The path that waits in `qpush` or `qpop` goes on, when it can. -/
def State.queueFinish (s : State) : State :=
  match s.path.status with
  | .waiting (.push n x) => (s.tryPush n x).getD s
  | .waiting (.pop n d) => (s.tryPop n d true).getD s
  | _ => s

/-! The stream at a queue (R335, R341) -/

def State.putStream (s : State) (m : Stream) : State := { s with block := { s.block with stream := some m } }

/-- The stream goes on at a PC; one that is not legal stops it at its instruction (R336). -/
def State.streamGoto (s : State) (m : Stream) (pc : W64) : State :=
  if legalPc pc then s.putStream { m with pc := pc, ir := none, status := .running }
  else s.streamFault .illegalPc m.pc 0

def State.streamNext (s : State) (m : Stream) : State := s.streamGoto m (nextPc m.pc)

/-- R316: an operand of the stream. -/
def Stream.rd (m : Stream) (o : Opnd) : W64 :=
  match o with
  | .s n => mget m.s n.toNat
  | .k c => c.signExtend 64
  | .immI kd x => if kd = 1 then x.setWidth 64 else x.signExtend 64
  | _ => 0

def Stream.wr (m : Stream) (o : Opnd) (x : W64) : Stream :=
  match o with
  | .s n => { m with s := mset m.s n.toNat x }
  | _ => m

/-- R341, R372: the stream adopts a token after a wait, and writes its record. -/
def State.streamAdopt (s : State) (kind : Nat) (m : Stream) (tok : W64) (prod : W32) : State × Stream :=
  let wait := max 1 (m.waited + (s.core.cycles.toNat - m.since))
  let (s, i) := s.ringIndex
  let r := edgeRecord kind false false (tokLen tok) m.seg (tokIdx tok) 0 wait s.streamUnit prod
  let (s, _) := s.ringWrite s.streamUnit i r
  (s, { m with token := mkTok (tokLen tok) i, e := 0 })

/-- The stream waits at its instruction. -/
def State.streamAwait (s : State) (m : Stream) (w : Wait) : State :=
  ({ s with now := s.now + 1 }).putStream { m with status := .waiting w, waited := 0, since := s.core.cycles.toNat, seg := m.e.toNat / 2 ^ 24, stamp := s.now }

/-- R335: a pop, or none while the queue is empty. -/
def State.streamPop (s : State) (m : Stream) (n : Nat) (d : Opnd) (waited : Bool) : Option State :=
  let q := s.hq n
  match q.pop with
  | some (e, q) =>
    let s := s.setHq n q
    let m := m.wr d e.val
    let (s, m) := if waited then s.streamAdopt 3 m e.token e.unit else (s, m)
    some (s.streamNext m)
  | none => if q.closed then some (s.streamFault .queueClosed m.pc (BitVec.ofNat 64 n)) else none

/-- R335: a push, or none while it is not admitted. -/
def State.streamPush (s : State) (m : Stream) (n : Nat) (x : W64) : Option State :=
  let q := s.hq n
  if q.closed then some (s.streamFault .queueClosed m.pc (BitVec.ofNat 64 n))
  else if q.admits streamProd then some ((s.setHq n (q.push x (carried m.token m.e) streamProd s.streamUnit)).streamNext m)
  else none

/-! Waits on hardware queues -/

/-- R241, R242, R248: the waits of the block on queue `n` that can go on: when each began, and its path, or none for the
stream. -/
def State.queueWaits (s : State) (n : Nat) : List (Nat × Option PRef) :=
  let q := s.hq n
  let can := fun (w : Wait) (prod : Nat) => match w with
    | .push k _ => k == n && (q.closed || q.admits prod)
    | .pop k _ => k == n && (q.closed || !q.entries.isEmpty)
    | _ => false
  let paths := s.blockWaves.flatMap fun w => w.paths.filterMap fun p => match p.status with
    | .waiting x => if can x w.wid then some (p.stamp, some ({ dom := s.dom.ix, blk := s.block.id, wave := w.wid, pid := p.pid } : PRef)) else none
    | _ => none
  let stream := match s.block.stream with
    | some m => (match m.status with
      | .waiting x => if can x streamProd then [(m.stamp, none)] else []
      | _ => [])
    | none => []
  stream ++ paths

/-- The one that began first. -/
def firstWait (ws : List (Nat × Option PRef)) : Option (Nat × Option PRef) :=
  ws.foldl (fun b w => match b with
    | none => some w
    | some x => if w.1 < x.1 then some w else some x) none

/-- The stream that waits on a queue goes on. -/
def State.streamQueueFinish (s : State) : State :=
  match s.block.stream with
  | none => s
  | some m =>
    match m.status with
    | .waiting (.pop n d) => (s.streamPop m n d true).getD s
    | .waiting (.push n x) => (s.streamPush m n x).getD s
    | _ => s

/-- R242, R248: the waits on queue `n` that can go on do, in the order in which they began, before any later operation. -/
def State.serve : Nat → State → Nat → State
  | 0, s, _ => s
  | k + 1, s, n =>
    match firstWait (s.queueWaits n) with
    | none => s
    | some (_, some r) => State.serve k (s.atPath r fun s => s.queueFinish) n
    | some (_, none) => State.serve k s.streamQueueFinish n

/-- An operation on queue `n` has been performed: the waits that it lets go on do, and the focus comes back. -/
def State.settleQueue (s : State) (n : Nat) : State :=
  if (s.queueWaits n).isEmpty then s
  else
    let k := (s.blockWaves.foldl (fun k w => k + w.paths.length) 0) + 1
    let t := State.serve k s n
    match s.kind with
    | .path => (t.focusPath s.pref).getD t
    | _ => t.closePath

/-- R246. -/
def execQinit (n : BitVec 4) (o : Args) (s : State) : Host.Outcome State Fault Refusal :=
  vec (.qinit n o) s fun s => s.once o fun s =>
    if s.path.inRegion then s.nolog (.qinit n o)
    else
      let d := (s.uni o.a).toNat % 2 ^ 32
      let a := (s.uni o.b).toNat % 2 ^ 32
      if d < 1 ∨ 64 < d ∨ a < 1 ∨ d < a then s.trap .illegalOperand 0
      else ((s.setHq n.toNat { depth := d, allow := a, closed := false, entries := [], out := [] }).advance).settleQueue n.toNat

def execQpush (n : BitVec 4) (o : Args) (s : State) : Host.Outcome State Fault Refusal :=
  vec (.qpush n o) s fun s => s.once o fun s =>
    if s.path.inRegion then s.waitInRegion (.qpush n o)
    else s.remotePoint fun s =>
      let x := s.uni o.a
      ((s.tryPush n.toNat x).getD (s.await (.push n.toNat x))).settleQueue n.toNat

def execQpop (n : BitVec 4) (o : Args) (s : State) : Host.Outcome State Fault Refusal :=
  vec (.qpop n o) s fun s => s.once o fun s =>
    if s.path.inRegion then s.waitInRegion (.qpop n o)
    else ((s.tryPop n.toNat o.d false).getD (s.await (.pop n.toNat o.d))).settleQueue n.toNat

/-- The pair of registers that a status form writes. -/
def State.putPair (s : State) (d : Opnd) (x : Option W64) (status : Nat) : State :=
  match d with
  | .s n =>
    let t := match x with
      | some x => s.sPut n.toNat x
      | none => s
    t.sPut (n.toNat + 1) (BitVec.ofNat 64 status)
  | _ => s

/-- R247, R372: a `qtry` that takes an entry adopts its token, whether or not it waited. -/
def execQtry (n : BitVec 4) (o : Args) (s : State) : Host.Outcome State Fault Refusal :=
  vec (.qtry n o) s fun s => s.once o fun s =>
    if s.path.inRegion then s.nolog (.qtry n o)
    else
      let q := s.hq n.toNat
      match q.pop with
      | some (e, q) =>
        let s := (s.setHq n.toNat q).putPair o.d (some e.val) 0
        ((s.adoptAt 3 0 (s.path.e.toNat / 2 ^ 24) (some (e.token, e.unit))).advance).settleQueue n.toNat
      | none => (s.putPair o.d none (if q.closed then 2 else 1)).advance

def execQclose (n : BitVec 4) (o : Args) (s : State) : Host.Outcome State Fault Refusal :=
  vec (.qclose n o) s fun s => s.once o fun s =>
    if s.path.inRegion then s.nolog (.qclose n o)
    else ((s.setHq n.toNat { s.hq n.toNat with closed := true }).advance).settleQueue n.toNat

/-! Signal words -/

/-- R310. -/
def execSignal (op : SigOp) (sc : Scope) (sz : Size) (x : Idx) (o : Args) (s : State) : Host.Outcome State Fault Refusal :=
  vec (.signal op sc sz x o) s fun s => s.once o fun s =>
    if s.path.inRegion then s.nolog (.signal op sc sz x o)
    else s.issueReq (s.mkReq (.signal op) sz .rel sc .normal x o (execLanes o.h (s.guard o.h)))

/-- R309: reads the word: it goes on when the condition holds, else it waits. A failing check is that of the lanes `m` whose guard holds. -/
def State.sigTest (s : State) (va : W64) (sz : Size) (c : SigCond) (x : W64) (sc : Scope) (d : Opnd) (m : W64) (waited : Bool) : State :=
  let n := sizeBytes sz
  match s.check s.who va { n := n, write := false, atomic := false, tags := true, sc := some sc } with
  | (s, .error f) => (s.disarm s.pref).trapLanes m f.cause true 0 (fun _ => failVa va f) (fun _ => f.info) State.advance
  | (s, .ok t) =>
    let p := s.pref
    if s.lockedFor s.who t false then
      (if waited then s.bounceWaiting [(lowLane m, va)] else s.bounceHeld (s.readReq .absent [(lowLane m, va)]))
    else
    let s := ((s.disarm p).arm p t (some (n, c, x.toNat % 2 ^ (8 * n)))).acquire s.core.ix sc
    let (s, v) := s.doRead s.who t .normal n
    if sigHolds c v (x.toNat % 2 ^ (8 * n)) then
      let s := (s.disarm p).putS d (BitVec.ofNat 64 v)
      (if waited then s.adopt 4 (s.tokenAt t) else s).advance
    else s.await (.sig va sz c x sc d)

def execSigwait (cond : SigCond) (sc : Scope) (sz : Size) (x : Idx) (o : Args) (s : State) : Host.Outcome State Fault Refusal :=
  vec (.sigwait cond sc sz x o) s fun s => s.once o fun s =>
    if s.path.inRegion then s.waitInRegion (.sigwait cond sc sz x o)
    else
      let va := s.addr (lowLane s.path.mask) x o.a o.b
      if s.reqBehind (s.mkReq .load sz .acq sc .normal x o (s.guard o.h)) then s.await .older
      else s.sigTest va sz cond (s.uni o.c) sc o.d (s.guard o.h) false

/-- The path that waits in `sigwait` reads its word again. -/
def State.sigFinish (s : State) : State :=
  match s.path.status with
  | .waiting (.sig va sz c x sc d) => s.sigTest va sz c x sc d (s.guard s.path.irHdr) true
  | _ => s

/-- SIGWAIT_POLL (R309). -/
def execSigwaitPoll (p : PRef) (s : State) : Host.Outcome State Fault Refusal :=
  .next (s.atPath p fun s => if s.block.res = .resident then s.sigFinish else s)

/-! Tasks -/

/-- R256: the bytes of an AB class. -/
def abClassBytes (k : BitVec 3) : Nat := if k = 0 then 0 else 2 ^ (k.toNat + 11)

/-- R256: a task record without its check, and with it. -/
def Task.bits (t : Task) : Nat :=
  t.entry.toNat % 2 ^ 56 + t.arg.toNat * 2 ^ 64 + t.cnt.toNat % 2 ^ 56 * 2 ^ 128 + t.launch.toNat * 2 ^ 192
    + t.depth % 16 * 2 ^ 224 + t.regblk.toNat * 2 ^ 228 + t.abclass.toNat * 2 ^ 232 + t.serial.toNat * 2 ^ 256
    + t.token.toNat * 2 ^ 320

def Task.record (t : Task) : BitVec 512 := BitVec.ofNat 512 (t.bits + crc32c 60 t.bits * 2 ^ 480)

/-- R256: the check of a record. -/
def Task.recordOk (r : BitVec 512) : Bool := crc32c 60 (r.toNat % 2 ^ 480) == r.toNat / 2 ^ 480

/-- R256: the task that the fields of a record name. -/
def Task.ofBits (r : BitVec 512) : Task :=
  let x := r.toNat
  { entry := BitVec.ofNat 64 (bitsOf x 0 56), arg := BitVec.ofNat 64 (bitsOf x 64 64), cnt := BitVec.ofNat 64 (bitsOf x 128 56),
    launch := BitVec.ofNat 32 (bitsOf x 192 32), depth := bitsOf x 224 4, regblk := BitVec.ofNat 4 (bitsOf x 228 4),
    abclass := BitVec.ofNat 3 (bitsOf x 232 3), serial := BitVec.ofNat 32 (bitsOf x 256 32), token := BitVec.ofNat 64 (bitsOf x 320 64) }

/-- R41: a deque holds 256 records; a push that finds it full first moves the 64 oldest. The deque stands with its
top first. Answers the deque and the records that move, oldest first. -/
def dequePush (q : List Task) (t : Task) : List Task × List Task :=
  if q.length < 256 then (t :: q, []) else (t :: q.take 192, (q.drop 192).reverse)

/-- The pushes of an instruction: the deque, and all the records that move. -/
def dequePushAll (q : List Task) : List Task → List Task × List Task
  | [] => (q, [])
  | t :: ts =>
    let (q, m) := dequePush q t
    let (q, ms) := dequePushAll q ts
    (q, m ++ ms)

/-- R258: the counters of the participants, checked before anything happens. -/
def State.spawnTargets (s : State) (o : Args) : List Nat → State × List Target × List (Nat × W64 × Fail)
  | [] => (s, [], [])
  | l :: ls =>
    let va := s.rd true l o.b
    match s.check s.who va { n := 4, write := true, atomic := true, tags := true, sc := some .die } with
    | (s, .error f) => let r := s.spawnTargets o ls; (r.1, r.2.1, (l, failVa va f, f) :: r.2.2)
    | (s, .ok t) => let r := s.spawnTargets o ls; (r.1, t :: r.2.1, r.2.2)

/-- R258: the task of a participant; `k` numbers the participants. -/
def State.spawnTask (s : State) (regblk : BitVec 4) (abclass : BitVec 3) (off : BitVec 24) (o : Args) (l k : Nat) : Task :=
  { entry := branchPc s.path.pc off, arg := s.rd false l o.a, cnt := s.rd true l o.b &&& BitVec.ofNat 64 (2 ^ 56 - 1),
    launch := s.block.launch, depth := s.wave.spawndepth + 1, regblk := regblk, abclass := abclass,
    serial := s.dom.nextTask + BitVec.ofNat 32 k, token := s.carry }

def execSpawn (regblk : BitVec 4) (abclass : BitVec 3) (off : BitVec 24) (o : Args) (s : State) : Host.Outcome State Fault Refusal :=
  vec (.spawn regblk abclass off o) s fun s => s.once o fun s =>
    if s.path.inRegion then s.abortPart (s.guard o.h) .nolog (Instr.spawn regblk abclass off o).opByte
    else if 8 ≤ s.wave.spawndepth then s.trap .spawnDepth 0
    else
      let ls := lanesOf (execLanes o.h (s.guard o.h))
      match s.spawnTargets o ls with
      | (s, ts, []) =>
        let rq : Req := { s.unitReq 0 .rel .die 0 (s.guard o.h) with
          kind := .red .add, sz := .n32,
          lanes := ls.map fun l => { lane := l, va := s.rd true l o.b, val := 1, cmp := 0, seq := mget s.wave.seq l, applied := false } }
        if s.hasOlder || s.seqBusy rq then s.await .older
        else if ts.any (fun t => s.lockedFor s.who t true) || ts.any s.appliedFull then s.bounceHeld rq
        else
        let new := ls.zipIdx.map fun x => s.spawnTask regblk abclass off o x.1 x.2
        let (q, moved) := dequePushAll s.core.deque new
        if 2 ^ s.dom.cfg.dequeLog < s.dom.memDeque.length + moved.length then s.trap .spawnDepth 1
        else s.remotePoint fun s =>
          let s := (s.takeSeqs rq).1.release s.core.ix .die
          let s := ts.foldl (fun s t => (s.doRmw s.who t .normal 4 false (fun x => some ((x + 1) % 2 ^ 32)) .plain).1) s
          ({ s with core := { s.core with deque := q },
                    dom := { s.dom with nextTask := s.dom.nextTask + BitVec.ofNat 32 ls.length,
                                        memDeque := s.dom.memDeque ++ moved.map Task.record } }).advance
      | (s, _, fs) =>
        let now := (splitFails (sharedFails (s.shareOf o.h) fs)).1
        match now with
        | [] => s.stay
        | f :: _ => s.trapLanes (maskOf (now.map (·.1))) f.2.2.cause true 2 (failAddr now) (failInfo now) State.stay

end Sys2Proof.Machine
end

