-- ==== Sys2Proof/Machine/Ring.lean ====
section
/-! DEFINITION. Byte rings: `rgres`, `rgcmt`, `rgpop`, `rgfree`, `rbsurr` and `rbclaim` (R251 to R255, R260). -/

namespace Sys2Proof.Machine

/-- R251: a ring header; `ok` when no reserved field is set, the size is in range, and the positions are in order. -/
structure RingHdr where
  free : Nat
  read : Nat
  resv : Nat
  log : Nat
  data : Nat
  ok : Bool
  deriving DecidableEq, Repr

def RingHdr.size (h : RingHdr) : Nat := 2 ^ h.log

def RingHdr.ofBits (x : Nat) : RingHdr :=
  let f := bitsOf x 256 64
  let r := bitsOf x 192 64
  let v := bitsOf x 128 64
  let lg := bitsOf x 64 8
  { free := f, read := r, resv := v, log := lg, data := bitsOf x 0 56,
    ok := bitsOf x 320 192 == 0 && bitsOf x 72 56 == 0 && bitsOf x 56 8 == 0
      && decide (12 ≤ lg ∧ lg ≤ 30 ∧ f ≤ r ∧ r ≤ v ∧ v ≤ f + 2 ^ lg) }

def RingHdr.bits (h : RingHdr) : Nat :=
  h.free % 2 ^ 64 * 2 ^ 256 + h.read % 2 ^ 64 * 2 ^ 192 + h.resv % 2 ^ 64 * 2 ^ 128 + h.log * 2 ^ 64 + h.data

/-- R252: the states of a record. -/
inductive RecState
  | reserved | committed | popped | freed | skip | surrendered
  deriving DecidableEq, Repr

def RecState.code : RecState → Nat
  | .reserved => 0 | .committed => 1 | .popped => 2 | .freed => 3 | .skip => 4 | .surrendered => 5

def RecState.ofCode : Nat → Option RecState
  | 0 => some .reserved
  | 1 => some .committed
  | 2 => some .popped
  | 3 => some .freed
  | 4 => some .skip
  | 5 => some .surrendered
  | _ => none

/-- R252: a record header. -/
structure RecHdr where
  owner : W64
  st : RecState
  len : Nat
  deriving DecidableEq, Repr

def RecHdr.ofBits (x : Nat) : Option RecHdr :=
  (RecState.ofCode (bitsOf x 24 4)).map fun st => { owner := BitVec.ofNat 64 (bitsOf x 64 64), st := st, len := bitsOf x 0 24 }

def RecHdr.bits (r : RecHdr) : Nat := r.owner.toNat * 2 ^ 64 + r.st.code * 2 ^ 24 + r.len % 2 ^ 24

/-- R252: the span of a record. -/
def spanOf (len : Nat) : Nat := 16 + (len + 15) / 16 * 16

/-- R252: how the issuing wave is named in OWNER. -/
def State.ringOwner (s : State) : W64 :=
  let unit := if s.block.task then ((s.wave.task.map (·.serial)).getD 0) else s.block.blockid
  BitVec.ofNat 64 (s.dom.ix * 2 ^ 60 + b2n s.block.task * 2 ^ 59 + s.wave.wid % 128 * 2 ^ 52 + unit.toNat * 2 ^ 20
    + s.block.launch.toNat % 2 ^ 20)

/-- Why a ring form stops. -/
inductive RingErr
  | block
  /-- R346, R355: the serial lane holds the sector of this address: the form bounces. -/
  | locked (va : W64)
  | access (va : W64) (f : Fail)
  deriving DecidableEq, Repr

/-- R152, R174, R255: a byte of the data area of a ring in the domain in focus, which a handle of another domain reaches: under the
export's tables, with their key id, their permissions and their tags. -/
def State.ringByteAt (s : State) (tenant : BitVec 8) (user : Bool) (va : W64) : State × Except RingErr Target :=
  let w : Want := { n := 16, write := true, atomic := false, tags := true, sc := none }
  match s.dom.walk tenant va with
  | .fail f => (s, .error (.access va { f with remote := true }))
  | .leaf addr l =>
    if !s.dom.keysMatch l then (s, .error (.access va ⟨4, .keyAlias, 0, true⟩))
    else match s.leafFail 96 user va l w with
      | some f => (s, .error (.access va { f with remote := true }))
      | none =>
        if l.tier = 2 then (s, .error (.access va ⟨9, .remoteError, 0, true⟩))
        else if s.dom.lockedAt (l.key va / 64) true then (s, .error (.locked va))
        else (s.setDom (s.dom.setAD addr false), .ok (.peer s.dom.ix tenant va l none))

/-- R255: a byte of the data area as the unit of the ring's own domain reaches it. -/
def State.ringByte (s : State) (home : Target) (va : W64) : State × Except RingErr Target :=
  match home with
  | .loc _ _ =>
    match s.check s.who va { n := 16, write := true, atomic := false, tags := true, sc := none } with
    | (s, .error f) => (s, .error (.access va f))
    | (s, .ok t) => (s, if s.lockedFor s.who t true then .error (.locked va) else .ok t)
  | .peer dom _ hva _ _ =>
    let user := !s.path.priv
    s.withDom dom (.error .block) fun s =>
      match s.dom.exports.find? fun x => x.live && decide (x.base.toNat ≤ hva.toNat % 2 ^ 56 ∧ hva.toNat % 2 ^ 56 < x.base.toNat + x.pages * 65536) with
      | none => (s, .error .block)
      | some x => s.ringByteAt x.tenant user va
  | .fabric port _ _ => (s, .ok (.fabric port (2 ^ 90 + va.toNat % 2 ^ 56) none))

/-- The unit that performs a ring operation acts at the home slice. -/
def State.ringWho (s : State) : Who := s.unitWho (!s.path.priv) s.pathUnit

/-- The address of a position of the data area. -/
def RingHdr.va (h : RingHdr) (p : Nat) : W64 := BitVec.ofNat 64 (h.data + p % h.size)

/-- A ring operation under way: the ring is written only when it succeeds, so the writes are collected. -/
structure RingOp where
  h : RingHdr
  recs : List (Target × Nat)
  deriving DecidableEq, Repr

/-- Reads the record header at a position, through the writes that the operation has collected. -/
def State.recAt (s : State) (home : Target) (op : RingOp) (p : Nat) : State × Except RingErr (Target × RecHdr) :=
  match s.ringByte home (op.h.va p) with
  | (s, .error e) => (s, .error e)
  | (s, .ok t) =>
    let r : State × Nat := match op.recs.find? fun x => x.1 == t with
      | some x => (s, x.2)
      | none => s.unitRead s.ringWho t .normal 16
    match RecHdr.ofBits r.2 with
    | none => (r.1, .error .block)
    | some x => (r.1, .ok (t, x))

def RingOp.put (op : RingOp) (t : Target) (r : RecHdr) : RingOp := { op with recs := (t, r.bits) :: op.recs.filter fun x => x.1 != t }

/-- What a ring form answers: the operation, and D's position and status. -/
abbrev RingRes := State × Except RingErr (RingOp × Option W64 × Nat)

/-- R253: `rgres`. -/
def State.rgres (s : State) (home : Target) (op : RingOp) (b : Nat) : RingRes :=
  let h := op.h
  let len := b % 2 ^ 24
  let span := spanOf len
  if b / 2 ^ 24 ≠ 0 ∨ h.size / 2 < span then (s, .error .block)
  else
    let off := h.resv % h.size
    let pad := if h.size < off + span then h.size - off else 0
    if h.size < h.resv + pad + span - h.free then (s, .ok (op, none, 1))
    else
      let skip : State × Except RingErr RingOp :=
        if pad = 0 then (s, .ok op)
        else match s.ringByte home (h.va h.resv) with
          | (s, .error e) => (s, .error e)
          | (s, .ok t) => (s, .ok (op.put t { owner := 0, st := .skip, len := pad - 16 }))
      match skip with
      | (s, .error e) => (s, .error e)
      | (s, .ok op) =>
        let p := h.resv + pad
        match s.ringByte home (h.va p) with
        | (s, .error e) => (s, .error e)
        | (s, .ok t) =>
          let op := op.put t { owner := s.ringOwner, st := .reserved, len := len }
          (s, .ok ({ op with h := { h with resv := p + span } }, some (BitVec.ofNat 64 p), 0))

/-- R253: a form that changes a record that must be RESERVED and held by the issuing wave. -/
def State.rgheld (s : State) (home : Target) (op : RingOp) (b : Nat) (f : RecHdr → RecHdr) : RingRes :=
  match s.recAt home op b with
  | (s, .error e) => (s, .error e)
  | (s, .ok (t, r)) =>
    if r.st = .reserved ∧ r.owner = s.ringOwner then (s, .ok (op.put t (f r), none, 0)) else (s, .error .block)

/-- R253: `rgpop`; the fuel is the number of records that can stand between READ and RESV. -/
def State.rgpop (s : State) (home : Target) (op : RingOp) : Nat → RingRes
  | 0 => (s, .ok (op, none, 1))
  | k + 1 =>
    let h := op.h
    if h.resv ≤ h.read then (s, .ok (op, none, 1))
    else match s.recAt home op h.read with
      | (s, .error e) => (s, .error e)
      | (s, .ok (t, r)) =>
        match r.st with
        | .skip => s.rgpop home { op.put t { r with st := .freed } with h := { h with read := h.read + spanOf r.len } } k
        | .reserved | .surrendered => (s, .ok (op, none, 2))
        | _ =>
          (s, .ok ({ op.put t { r with st := .popped } with h := { h with read := h.read + spanOf r.len } },
            some (BitVec.ofNat 64 h.read), r.len * 2 ^ 32))

/-- R253: FREE passes every freed record. -/
def State.rgpass (s : State) (home : Target) (op : RingOp) : Nat → RingRes
  | 0 => (s, .ok (op, none, 0))
  | k + 1 =>
    let h := op.h
    if h.read ≤ h.free then (s, .ok (op, none, 0))
    else match s.recAt home op h.free with
      | (s, .error e) => (s, .error e)
      | (s, .ok (_, r)) =>
        if r.st = .freed then s.rgpass home { op with h := { h with free := h.free + spanOf r.len } } k else (s, .ok (op, none, 0))

/-- R253: `rgfree`. -/
def State.rgfree (s : State) (home : Target) (op : RingOp) (b : Nat) : RingRes :=
  match s.recAt home op b with
  | (s, .error e) => (s, .error e)
  | (s, .ok (t, r)) =>
    if r.st = .popped ∧ op.h.free ≤ b ∧ b < op.h.read then
      s.rgpass home (op.put t { r with st := .freed }) ((op.h.read - op.h.free) / 16 + 1)
    else (s, .error .block)

/-- R253: `rbclaim`. -/
def State.rbclaim (s : State) (home : Target) (op : RingOp) (b : Nat) : RingRes :=
  match s.recAt home op b with
  | (s, .error e) => (s, .error e)
  | (s, .ok (t, r)) =>
    if r.st = .surrendered ∧ op.h.read ≤ b ∧ b < op.h.resv then
      (s, .ok (op.put t { r with st := .reserved, owner := s.ringOwner }, none, 0))
    else (s, .ok (op, none, 1))

/-- How a ring form orders (R254) and whether it is posted (R255). -/
structure RingForm where
  rel : Bool
  token : Bool
  posted : Bool
  pos : Bool
  deriving DecidableEq, Repr

/-- R255: the status goes to the second register of a pair, or to the one that `rbclaim` names. -/
def State.putRing (s : State) (d : Opnd) (pair : Bool) (pos : Option W64) (status : Nat) : State :=
  if pair then s.putPair d pos status else s.putS d (BitVec.ofNat 64 status)

/-- R249: the code under which a ring operation stands in a Locket (log 78). -/
def ringCode : Instr → Nat
  | .rgres _ _ => 0x70
  | .rgcmt _ _ => 0x71
  | .rgpop _ _ => 0x72
  | .rgfree _ _ => 0x73
  | .rbsurrHold _ _ => 0x74
  | .rbsurrSkip _ _ => 0x75
  | _ => 0x76

/-- R15, R223: a ring operation bounces at the sector of an address; of a ring in another domain, whose data has no address in this
one, at its header. -/
def State.ringBounce (s : State) (home : Target) (q : Req) (a va : W64) : State :=
  let at_ := match home with
    | .loc _ _ => va
    | _ => a
  s.bounceHeld { q with lanes := q.lanes.map fun r => { r with va := at_ } } { plainRead with write := true }

/-- R253: the trap of a ring form: TRAPADDR holds A and TRAPINFO holds B for RBLOCK. -/
def State.ringTrap (s : State) (m : W64) (a b : W64) (e : RingErr) : State :=
  match e with
  | .locked _ => s.await .bounced
  | .block => s.trapLanes m .rblock false 0 (fun _ => a) (fun _ => b) State.advance
  | .access va f => s.trapLanes m f.cause true 2 (fun _ => failVa va f) (fun _ => f.info) State.advance

/-- R222: an older entry of the Locket stands at a sector that the operation touches. -/
def State.ringBehind (s : State) (ts : List Target) : Bool := s.hasOlder && ts.any fun t => s.behind t.sector t.device

/-- R253 to R255: a ring form, one indivisible step at the ring unit; its header is checked as an 8-byte atomic that must be 64-byte
aligned. What the unit answers to a posted form, and a failure
that comes back from another domain, is reported at a remote-error point (R183, log 87). -/
def State.ringAct (s : State) (m : W64) (q : Req) (k : RingForm) (sc : Scope) (a b : W64) (d : Opnd) (pair : Bool)
    (f : State → Target → RingOp → RingRes) : State :=
  let refuse := fun (s : State) (e : RingErr) (unit : Bool) =>
    let remote := match e with
      | .access _ f => f.remote || unit
      | .block => true
      | .locked _ => false
    if k.posted && remote then
      let c : Cause := match e with | .access _ f => f.cause | _ => .rblock
      let x : Posted := { lanes := (lanesOf m).map fun l => (l, a), pc := s.path.pc, sector := vsector a, cause := some c, phys := s.sectorNames a }
      ({ s with path := { s.path with posted := s.path.posted ++ [x] } }).advance
    else s.ringTrap m a b e
  let n := if a.toNat % 64 = 0 then 8 else 64
  match s.check s.who a { n := n, write := true, atomic := true, tags := true, sc := some sc } with
  | (s, .error e) => refuse s (.access a e) false
  | (s, .ok home) =>
    let narrow : Bool := match home with
      | .peer _ _ _ _ _ => sc != .pkg && sc != .sys
      | _ => false
    if narrow then s.trapLanes m .illegalOperand false 0 (fun _ => 0) (fun _ => 0) State.advance
    else if s.ringBehind [home] then s.await .older
    else if s.seqBusy { q with kind := .red .add } then s.await .older
    else if s.lockedFor s.who home true || s.appliedFull home then s.ringBounce home q a a
    else
      let s := if k.rel then s.release s.core.ix sc else s
      let (s, x) := s.unitRead s.ringWho home .normal 64
      let h := RingHdr.ofBits x
      let p := b.toNat
      if !h.ok || (k.pos && (p % 16 != 0 || decide (p < h.free ∨ h.resv < p))) then refuse (s.takeSeq m) .block true
      else match f s home { h := h, recs := [] } with
        | (s, .error (.locked va)) => s.ringBounce home q a va
        | (s, .error e) => refuse (s.takeSeq m) e true
        | (s, .ok (op, pos, status)) =>
          if s.ringBehind (op.recs.map (·.1)) then s.await .older
          else
          let s := s.takeSeq m
          let s := op.recs.reverse.foldl (fun s r => s.unitWrite s.ringWho r.1 .normal 16 r.2 .plain) s
          let s := if op.h ≠ h ∨ k.token then
              s.unitWrite s.ringWho home .normal 64 op.h.bits (if k.token then .tok s.carry s.pathUnit else .plain)
            else s
          let s := if !k.rel && status % 2 ^ 32 = 0 then s.acquire s.core.ix sc else s
          (s.putRing d pair pos status).advance

/-- A ring form: once; inside a region it aborts (R260); a release is a remote-error point. -/
def ringForm (i : Instr) (k : RingForm) (sc : Scope) (o : Args) (pair : Bool) (f : State → Target → RingOp → Nat → RingRes) (s : State) :
    Host.Outcome State Fault Refusal :=
  vec i s fun s => s.once o fun s =>
    if s.path.inRegion then s.nolog i
    else
      let a := s.uni o.a
      let b := if k.pos then s.uni o.b else BitVec.ofNat 64 ((s.uni o.b).toNat % 2 ^ 32)
      let go := fun (s : State) =>
        let m := s.guard o.h
        let q := s.unitReq (ringCode i) (if k.rel then .rel else .acq) sc a m b
        s.orBounce q (w := { n := 8, write := true, atomic := true, tags := true, sc := some sc }) fun s =>
          s.ringAct m q k sc a b o.d pair fun s t op => f s t op b.toNat
      if k.rel then s.remotePoint go else go s

def execRgres (sc : Scope) (o : Args) (s : State) : Host.Outcome State Fault Refusal :=
  ringForm (.rgres sc o) ⟨false, false, false, false⟩ sc o true (fun s t op b => s.rgres t op (b % 2 ^ 32)) s

def execRgcmt (sc : Scope) (o : Args) (s : State) : Host.Outcome State Fault Refusal :=
  ringForm (.rgcmt sc o) ⟨true, true, true, true⟩ sc o true
    (fun s t op b => s.rgheld t op b fun r => { r with st := .committed, owner := 0 }) s

def execRgpop (sc : Scope) (o : Args) (s : State) : Host.Outcome State Fault Refusal :=
  ringForm (.rgpop sc o) ⟨false, false, false, false⟩ sc o true
    (fun s t op _ => s.rgpop t op ((op.h.resv - op.h.read) / 16 + 1)) s

def execRgfree (sc : Scope) (o : Args) (s : State) : Host.Outcome State Fault Refusal :=
  ringForm (.rgfree sc o) ⟨true, false, true, true⟩ sc o true (fun s t op b => s.rgfree t op b) s

def execRbsurrHold (sc : Scope) (o : Args) (s : State) : Host.Outcome State Fault Refusal :=
  ringForm (.rbsurrHold sc o) ⟨true, true, true, true⟩ sc o true
    (fun s t op b => s.rgheld t op b fun r => { r with st := .surrendered, owner := 0 }) s

def execRbsurrSkip (sc : Scope) (o : Args) (s : State) : Host.Outcome State Fault Refusal :=
  ringForm (.rbsurrSkip sc o) ⟨true, true, true, true⟩ sc o true
    (fun s t op b => s.rgheld t op b fun r => { owner := 0, st := .skip, len := spanOf r.len - 16 }) s

def execRbclaim (sc : Scope) (o : Args) (s : State) : Host.Outcome State Fault Refusal :=
  ringForm (.rbclaim sc o) ⟨false, false, false, true⟩ sc o false (fun s t op b => s.rbclaim t op b) s

end Sys2Proof.Machine
end

