-- ==== Sys2Proof/Machine/Copy.lean ====
section
/-! DEFINITION. The copy engine, OP 0x34 and 0x35: lane copies and their batches, tensor records and boxes,
tensor copies and the timeline (R188 to R199, R217, R281 to R283, R322). -/

namespace Sys2Proof.Machine

/-! What the matrix engine names (R197, R321) -/

/-- R321: the bytes of a unit of 16 elements. -/
def mfUnit : MFmt → Nat
  | .jb3 => 8
  | .jb5 => 12
  | .jb8 => 18
  | .bf16 => 32
  | .i8 => 16

/-- R321: the bytes of a panel. -/
def mfPanel (f : MFmt) : Nat := 256 * mfUnit f

/-- The block of an operation of the engine, and where its allocation of a buffer begins. -/
def State.mopBase (s : State) (o : MOp) (i : Nat) : Nat :=
  ((s.allBlocks.find? fun b => b.id == o.blk).map fun b => b.base i).getD 0

/-- The bytes of AB, or of WB, that an operation names, as bytes of the core's buffer. -/
def State.mopRanges (s : State) (o : MOp) (wb : Bool) : List (Nat × Nat) :=
  let at0 := fun i off n => (s.mopBase o i + off, s.mopBase o i + off + n)
  match o.kind, wb with
  | .mma _ f, false | .mmas _ f, false => [at0 0 o.a (o.ks * mfPanel f)]
  | .mma _ f, true | .mmas _ f, true => [at0 1 o.b (o.ks * mfPanel f)]
  | .mcvt _ f, false => [at0 0 o.d (mfPanel f)]
  | _, _ => []

/-- R197: an operation that has been issued on core `c` and not consumed names a 4 KiB region that these bytes touch. -/
def State.engineNames (s : State) (c : Nat) (wb : Bool) (lo n : Nat) : Bool :=
  (s.coreAt c).engine.any fun o => o.phase != .consumed && (s.mopRanges o wb).any fun r =>
    decide (r.1 / 4096 ≤ (lo + n - 1) / 4096 ∧ lo / 4096 ≤ (r.2 - 1) / 4096)

/-! Tensor records (R281, R282) -/

def tType (r : Nat) : Nat := bitsOf r 440 4
def tRank (r : Nat) : Nat := bitsOf r 437 3
def tLayout (r : Nat) : Nat := bitsOf r 435 2
def tCirc (r d : Nat) : Bool := bitOf r (430 + d)
def tExt (r d : Nat) : Nat := bitsOf r (232 + 32 * d) 32
def tBox (r d : Nat) : Nat := bitsOf r (16 * d) 16

/-- R281: the element size of a type. -/
def tSize (ty : Nat) : Nat := ([1, 1, 2, 2, 4, 4, 4, 2, 2, 8, 12, 18, 8, 8][ty]?).getD 1

def tJb (ty : Nat) : Bool := 9 ≤ ty && ty ≤ 11

/-- The stride of a dimension, in bytes; that of dimension 0 is the element size. -/
def tStride (r d : Nat) : Int := if d = 0 then tSize (tType r) else toInt 38 (bitsOf r (80 + 38 * (d - 1)) 38)

/-- The largest power of two that divides an element size. -/
def tAlign (n : Nat) : Nat := if n = 12 then 4 else if n = 18 then 2 else n

/-- The dimensions of a record. -/
def tDims (r : Nat) : List Nat := List.range (tRank r)

/-- R194: the layouts that a type allows. -/
def layoutOk (r : Nat) : Bool :=
  let ty := tType r
  match tLayout r with
  | 0 => true
  | 1 => !tJb ty && decide (2 ≤ tRank r)
  | 2 => ty == 8 || ty == 1 || tJb ty
  | _ => (ty == 8 || ty == 1) && decide (2 ≤ tRank r)

/-- R192, R281: a record that no copy of this form may use. -/
def badTensor (form : CForm) (r : Nat) : Bool :=
  let ty := tType r
  let out := (List.range 5).filter fun d => decide (tRank r ≤ d)
  tRank r == 0 || decide (5 < tRank r) || decide (14 ≤ ty) || bitsOf r 428 2 != 0
    || (tDims r).any (fun d => tExt r d == 0 || tBox r d == 0)
    || out.any (fun d => tExt r d != 0 || tBox r d != 0 || tCirc r d || (d != 0 && tStride r d != 0))
    || bitsOf r 456 56 % tAlign (tSize ty) != 0
    || (tDims r).any (fun d => tStride r d % (tAlign (tSize ty) : Int) != 0)
    || !layoutOk r
    || (match form with
        | .scl => ty != 0 || tLayout r != 0
        | .acc => !(ty == 6 || ty == 7 || ty == 8 || ty == 1 || tJb ty)
        | _ => false)

/-! The order of a box in the buffer (R194, R322) -/

/-- The padded box. -/
def boxPad (r : Nat) : List Nat :=
  let up := fun n : Nat => (n + 15) / 16 * 16
  (tDims r).map fun d =>
    if tLayout r = 2 ∧ d = 0 ∧ tJb (tType r) = false then up (tBox r d)
    else if tLayout r = 3 ∧ d = 1 then up (tBox r d) else tBox r d

/-- How many elements the buffer image has. -/
def boxCount (r : Nat) : Nat := (boxPad r).foldl (· * ·) 1

/-- R194: the bytes of one element in the buffer. -/
def bufElem (form : CForm) (r : Nat) : Nat :=
  match form with
  | .acc => if tJb (tType r) then 64 else 4
  | _ => tSize (tType r)

/-- The digits of a position, lowest first. -/
def digits : List Nat → Nat → List Nat
  | [], _ => []
  | b :: bs, x => x % b :: digits bs (x / b)

/-- R322: row and unit of the unit at a position of an image of `h` rows and `u` units. -/
def unitAt (h u x : Nat) : Nat × Nat :=
  let g := x / (4 * h)
  let w := min 4 (u - 4 * g)
  (x % (4 * h) / w, 4 * g + x % (4 * h) % w)

/-- R194: the box index of the element at a position of the buffer. -/
def boxIndex (r j : Nat) : List Nat :=
  let p := boxPad r
  let g := fun d => (p[d]?).getD 1
  match tLayout r with
  | 0 => digits p j
  | 1 =>
    match digits (g 1 :: g 0 :: p.drop 2) j with
    | i1 :: i0 :: rest => i0 :: i1 :: rest
    | l => l
  | lay =>
    let k := if lay = 2 then g 0 else g 1
    let h := if lay = 2 then g 1 else g 0
    let ue := if tJb (tType r) then 1 else 16
    let per := h * k
    let (row, un) := unitAt h (k / ue) (j % per / ue)
    let kk := ue * un + j % ue
    let rest := digits (p.drop 2) (j / per)
    if tRank r = 1 then [kk] else if lay = 2 then kk :: row :: rest else row :: kk :: rest

/-- R193: the coordinate in a dimension, none when it is out of range. -/
def resolve (circ : Bool) (c : Int) (ext : Nat) : Option Int :=
  if circ then some (c % (ext : Int)) else if c < 0 ∨ (ext : Int) ≤ c then none else some c

/-- R193, R281: the address of a box element, with the record's tag; `none` when it is out of range or padding. -/
def elemVa (r : Nat) (coords : List W64) (ix : List Nat) : Option W64 :=
  let step := fun (a : Option Int) (d : Nat) => match a with
    | none => none
    | some a =>
      let i := (ix[d]?).getD 0
      if tBox r d ≤ i then none
      else match resolve (tCirc r d) (((coords[d]?).getD 0).toInt + i) (tExt r d) with
        | none => none
        | some c => some (a + c * tStride r d)
  match (tDims r).foldl step (some (bitsOf r 456 56 : Nat)) with
  | none => none
  | some a => some (BitVec.ofInt 64 a + BitVec.ofNat 64 (bitsOf r 424 4 * 2 ^ 56))

/-- The float format of a scalar float type. -/
def tFloat (ty : Nat) : Option FTy := if ty = 6 then some .f32 else if ty = 7 then some .f16 else if ty = 8 then some .bf16 else none

/-- R282: the fill value as an element of the tensor's type. -/
def fillVal (r : Nat) : Nat :=
  let ty := tType r
  let x := bitsOf r 392 32
  match tFloat ty with
  | some f => (cvtOf .f32 f .rne x).1
  | none => if tJb ty then (jbEncode (ty - 9) .rne (List.replicate 16 x)).1 else (sx 32 x).toNat % 256 ^ tSize ty

/-- R195: the element that the f32 values of ACC make. -/
def accVal (ty x : Nat) : Nat :=
  match tFloat ty with
  | some f => (cvtOf .f32 f .rne (x % 2 ^ 32)).1
  | none =>
    if tJb ty then (jbEncode (ty - 9) .rne ((List.range 16).map fun k => bitsOf x (32 * k) 32)).1
    else (BitVec.ofInt 8 (toIntOf .f32 .rne .i8 (x % 2 ^ 32)).1).toNat

/-! Where the engine acts -/

/-- R43, R155: the allocation that a tensor form addresses: its first byte and its size. -/
def State.copyBuf (s : State) (form : CForm) (wave : Nat) : Nat × Nat :=
  match form with
  | .ab => s.abRunOf wave
  | .wb => if s.block.task then (0, 0) else (s.block.base 1, s.block.size 1)
  | .scl => if s.block.task then (0, 0) else (s.block.base 3, s.block.size 3)
  | .acc => if s.block.task then (0, 0) else (s.block.base 2, s.block.size 2)

def State.copyWho (s : State) (user : Bool) : Who := s.unitWho user s.copyUnit

/-- The buffer bytes that a form reads or writes. -/
def State.bufPut (s : State) (form : CForm) (byte n val : Nat) : State :=
  let c := s.core
  match form with
  | .ab => { s with core := ({ c with ab := wrN c.ab byte n val } : Core).mend 0 byte n }
  | .wb => { s with core := ({ c with wb := wrN c.wb byte n val } : Core).mend 1 byte n }
  | .scl => { s with core := ({ c with scl := wrN c.scl byte n val } : Core).mend 3 byte n }
  | .acc => { s with core := ({ c with acc := wrN c.acc byte n val } : Core).mend 2 byte n }

/-- How an element goes to global memory or comes from it. -/
inductive CopyRes
  | ok (v : Nat)
  /-- The serial lane holds a sector of it. -/
  | bounce
  | fail (va : W64) (f : Fail)
  deriving DecidableEq, Repr

/-- R174: the pieces of an element: it is accessed in aligned pieces of one size. -/
def pieces (va : W64) (n : Nat) : List W64 := (List.range (n / tAlign n)).map fun k => va + BitVec.ofNat 64 (k * tAlign n)

/-- The checks of every piece, before any moves. -/
def State.copyCheck (s : State) (user write : Bool) (n : Nat) : List W64 → State × Except (W64 × Fail) (List Target)
  | [] => (s, .ok [])
  | va :: rest =>
    match s.check (s.copyWho user) va { n := n, write := write, atomic := false, tags := true, sc := none, tlb := true } with
    | (s, .error f) => (s, .error (failVa va f, f))
    | (s, .ok t) =>
      match s.copyCheck user write n rest with
      | (s, .ok ts) => (s, .ok (t :: ts))
      | r => r

/-- Reads or, with `val`, writes the pieces at the home slices, with the copy's hint (R167, R217). -/
def State.copyMove (s : State) (user : Bool) (h : Hint) (n : Nat) (val : Option Nat) : List Target → State × Nat
  | [] => (s, 0)
  | t :: ts =>
    let (s, x) := match val with
      | none => s.unitRead (s.copyWho user) t h n
      | some v => (s.unitWrite (s.copyWho user) t h n (v % 256 ^ n) .plain, 0)
    let (s, y) := s.copyMove user h n (val.map fun v => v / 256 ^ n) ts
    (s, x + 256 ^ n * y)

/-- An element of `n` bytes. -/
def State.copyGlobal (s : State) (user : Bool) (h : Hint) (va : W64) (n : Nat) (val : Option Nat) : State × CopyRes :=
  match s.copyCheck user val.isSome (tAlign n) (pieces va n) with
  | (s, .error e) => (s, .fail e.1 e.2)
  | (s, .ok ts) =>
    if ts.any fun t => s.lockedFor (s.copyWho user) t val.isSome then (s, .bounce)
    else
      let (s, x) := s.copyMove user h (tAlign n) val ts
      (s, .ok x)

/-! Lane copies (R188 to R190) -/

/-- R188: the checks of a lane at issue, in their order; both alignments are check 2 of R174. -/
def State.cplCheck (s : State) (ga ab : W64) (n : Nat) : Option (W64 × Fail) :=
  if bitsOf ga.toNat 60 4 ≠ 0 then some (ga, ⟨1, .protection, 0, false⟩)
  else match s.abAddr ab n with
    | .error _ => some (ab, ⟨2, .bufferRange, 0, false⟩)
    | .ok _ =>
      if ga.toNat % n ≠ 0 then some (ga, ⟨3, .misaligned, 0, false⟩)
      else if ab.toNat % n ≠ 0 then some (ab, ⟨3, .misaligned, 0, false⟩)
      else none

/-- R420: a copy counts, and whether BNCINJ makes its accesses bounce. -/
def State.injectCopy (s : State) : State × Bool :=
  if s.wave.bncinj = 0 then (s, false) else ({ s with wave := { s.wave with bncinj := s.wave.bncinj - 1 } }, true)

/-! The Locket of a copy context (R15, R191, R249) -/

/-- The entries of the context. -/
def CopyCtx.locks (c : CopyCtx) : List CopyLock := c.elems.filterMap (·.lock) ++ c.ops.filterMap (·.lock)

/-- R191, R249: an access of the context that bounced takes a place in its Locket: on core, or, beyond sixteen, in its spill
region. Answers none while its 80 places are taken; and whether the area took the spill. -/
def State.copyLock (s : State) (inj : Bool) (bits : Nat → Nat) : State × Option CopyLock × Bool :=
  let c := s.block.copy
  let ls := c.locks
  if 80 ≤ ls.length then (s, none, true)
  else
    let slot := if (ls.filter fun l => l.slot.isNone).length < 16 then none
      else (List.range 64).find? fun k => !ls.any fun l => l.slot == some k
    let s := { s with block := { s.block with copy := { c with nextTag := c.nextTag + 1 } } }
    let l : CopyLock := { tag := c.nextTag, slot := slot, since := s.core.cycles.toNat, inj := inj }
    match slot with
    | none => (s, some l, true)
    | some k =>
      let r := s.areaPut 2 (copyOff k) (spilledBits (bits c.nextTag))
      (r.1, some l, r.2)

/-- R221, R420: an entry that BNCINJ has made reissues after the bounce bound; any other as soon as its unit has room. -/
def State.lockDue (s : State) (l : CopyLock) : Bool :=
  let now := s.core.cycles.toNat
  !l.inj || decide (now < l.since) || decide (s.dom.cfg.bounce ≤ (now - l.since) * s.core.nspercyc.toNat)

/-- R226, R249: an entry that reissues while it is spilled is read back and passes its check. -/
def State.lockOk (s : State) (l : Option CopyLock) : State × Bool :=
  match l.bind (·.slot) with
  | none => (s, true)
  | some k => s.slotOk (copyOff k)

/-- R249: the spilled entry that comes back when one on core frees. -/
def CopyCtx.toFill (c : CopyCtx) : Option CopyLock :=
  if 16 ≤ (c.locks.filter fun l => l.slot.isNone).length then none
  else c.locks.foldl (fun (b : Option CopyLock) l => if l.slot.isNone then b else match b with
    | some x => if x.tag ≤ l.tag then b else some l
    | none => some l) none

/-- The first element that satisfies `p` is replaced. -/
def replaceFirst {α : Type} (p : α → Bool) (f : α → α) : List α → List α
  | [] => []
  | x :: l => if p x then f x :: l else x :: replaceFirst p f l

/-- The elements of an instruction join the open batch. -/
def State.addElems (s : State) (els : List Elem) : State :=
  { s with block := { s.block with copy := { s.block.copy with elems := s.block.copy.elems ++ els } } }

/-- The element of a lane. -/
def State.newElem (s : State) (out : Bool) (hint : Hint) (n l : Nat) (ga ab : W64) : Elem :=
  { wave := s.wave.wid, batch := s.wave.batchOpen, lane := l, out := out, bytes := n, ga := ga, ab := ab, hint := hint,
    pc := s.path.pc, user := !s.path.priv, token := s.carry, e := 0, parked := none }

def cplForm (i : Instr) (out : Bool) (hint : Hint) (sz : Size) (x : Idx) (o : Args) (s : State) : Host.Outcome State Fault Refusal :=
  vec i s fun s => s.once o fun s =>
    let m := s.guard o.h
    if s.path.inRegion then s.injectCopy.1.abortPart m .nolog i.opByte
    else s.remotePoint fun s =>
      let n := sizeBytes sz
      let els := (lanesOf (execLanes o.h m)).map fun l => s.newElem out hint n l (s.addr l x o.a o.b) (s.rd false l o.d)
      let fs := els.filterMap fun e => (s.cplCheck e.ga e.ab n).map fun f => (e.lane, f)
      let (s, inj) := s.injectCopy
      let s := s.addElems ((els.filter fun e => (s.cplCheck e.ga e.ab n).isNone).map fun e => { e with inj := inj })
      s.endLanes (sharedFails (s.shareOf o.h) fs) 4 State.advance

def execCpl (hint : Hint) (sz : Size) (x : Idx) (o : Args) (s : State) : Host.Outcome State Fault Refusal :=
  cplForm (.cpl hint sz x o) false hint sz x o s

def execCplOut (hint : Hint) (sz : Size) (x : Idx) (o : Args) (s : State) : Host.Outcome State Fault Refusal :=
  cplForm (.cplOut hint sz x o) true hint sz x o s

/-- R189. -/
def execCpclose (o : Args) (s : State) : Host.Outcome State Fault Refusal :=
  vec (.cpclose o) s fun s => s.once o fun s =>
    if s.path.inRegion then s.nolog (.cpclose o)
    else if 8 ≤ s.wave.batchOpen - 1 - s.wave.batchDone then s.await .batchRoom
    else
      let n := s.wave.batchOpen
      let w := ({ s.wave with batchOpen := n + 1 }).settleBatches s.block.copy.elems none
      (({ s with wave := w }).putS o.d (BitVec.ofNat 64 n)).advance

/-- The causes of the lanes of failed elements, each with what it has in common: the first element of a lane counts. -/
def failGroups (fs : List ElemFail) : List (Cause × List ElemFail) :=
  let firsts := fs.foldl (fun (l : List ElemFail) f => if l.any fun g => g.lane == f.lane then l else l ++ [f]) []
  firsts.foldl (fun (gs : List (Cause × List ElemFail)) f =>
    if gs.any fun (g : Cause × List ElemFail) => g.1 == f.cause then
      updIf (fun (g : Cause × List ElemFail) => g.1 == f.cause) (fun g => (g.1, g.2 ++ [f])) gs
    else gs ++ [(f.cause, [f])]) []

/-- R190: the failed elements are raised for their lanes, or, when none of those is here, for the whole path; the other lanes
stay at the instruction. Without a failure the path goes on as `k`. -/
def State.raiseElems (s : State) (fs : List ElemFail) (k : State → State) : State :=
  let addr := fun l => ((fs.find? fun f => f.lane == l).orElse fun _ => fs.head?).map (·.addr) |>.getD 0
  let info := fun l => ((fs.find? fun f => f.lane == l).orElse fun _ => fs.head?).map (·.pc) |>.getD 0
  let here := fs.filter fun f => hasLane s.path.mask f.lane
  match here, fs with
  | [], [] => k s
  | [], f :: _ => s.trapFull f.cause false 4 (fun _ => f.addr) (fun _ => f.pc)
  | _, _ =>
    let parts : List Part := (failGroups here).map fun g => (maskOf (g.2.map (·.lane)), fun s => s.trapFull g.1 false 4 addr info)
    s.divide ((s.path.mask &&& ~~~maskOf (here.map (·.lane)), State.stay) :: parts)

/-- R190: a wait for batch `n` is over. -/
def State.batchEnd (s : State) (n : Nat) (waited : Bool) : State :=
  let c := s.block.copy
  let mine := fun f : ElemFail => f.wave == s.wave.wid && decide (f.batch ≤ n)
  let fs := c.efails.filter mine
  let s := { s with block := { s.block with copy := { c with efails := c.efails.filter fun f => !mine f } } }
  s.raiseElems fs fun s => (if waited then s.adopt 7 (s.path.adopts.map fun t => (t, s.copyUnit)) else s).advance

def execCpwait (o : Args) (s : State) : Host.Outcome State Fault Refusal :=
  vec (.cpwait o) s fun s => s.once o fun s =>
    if s.path.inRegion then s.waitInRegion (.cpwait o)
    else s.remotePoint fun s =>
      let n := min (s.uni o.a).toNat (s.wave.batchOpen - 1)
      if n ≤ s.wave.batchDone then s.batchEnd n false else s.await (.batch n)

def State.batchFinish (s : State) : State :=
  match s.path.status with
  | .waiting (.batch n) => s.batchEnd n true
  | _ => s

/-! Performing an element -/

/-- R197: an element that would write a region that the matrix engine names. -/
def State.elemHeld (s : State) (e : Elem) : Bool :=
  !e.out && match s.elemAb e with
    | .ok r => s.engineNames r.1 false r.2 e.bytes
    | .error _ => false

/-- The state after the element, or why it did not move. -/
def State.moveElem (s : State) (e : Elem) : State × CopyRes :=
  match s.elemAb e with
  | .error f => (s, .fail e.ga f)
  | .ok (core, byte) =>
    if e.out && (s.coreAt core).flawed 0 byte e.bytes then (s, .fail e.ga ⟨10, .uncorrectable, 0, false⟩)
    else if e.out then s.copyGlobal e.user e.hint e.ga e.bytes (some (s.abRead core byte e.bytes))
    else match s.copyGlobal e.user e.hint e.ga e.bytes none with
      | (s, .ok v) => (s.abWrite core byte e.bytes v, .ok v)
      | r => r

/-- R190, R249: an element parks, and takes the next place in its wave's Locket; beyond sixteen on core the highest is spilled. A spill that
the area does not take is UNCORRECTABLE (R250) for the first path of the block (log 134). -/
def State.placeElem (s : State) (e : Elem) (id : W32) : State :=
  let c := s.block.copy
  let put := fun (l : Option CopyLock) => replaceFirst (fun x : Elem => x == e) (fun x => { x with parked := some id, lock := none, place := l }) c.elems
  match s.blockWaves.find? fun w => w.wid == e.wave with
  | none => { s with block := { s.block with copy := { c with elems := put none } } }
  | some w =>
    let l : CopyLock := { tag := w.nextTag, slot := none, since := s.core.cycles.toNat }
    let s : State := { s with block := { s.block with copy := { c with elems := put (some l) } } }
    let r := s.spillTop { w with nextTag := w.nextTag + 1 }
    let back := fun x : Wave => { x with locket := r.2.1.locket, nextTag := r.2.1.nextTag }
    let b := { r.1.block with waves := updIf (fun x => x.wid == e.wave) back r.1.block.waves }
    { r.1 with block := if r.2.2 then b else b.raise }

/-- One element that does not bounce, with a block in focus. -/
def State.moveOne (s : State) (e : Elem) : State :=
  match s.moveElem e with
  | (_, .bounce) => s
  | (s, .ok _) => s.endElem e none
  | (s, .fail va f) =>
    if f.cause = .pageFault then
      let (s, id) := s.park (.elem s.bref e.wave e.batch e.lane) 4 va e.pc 0 s.copyUnit
      s.placeElem e id
    else s.endElem e (some (f.cause, e.ga))

/-- R190, R249: an element is parked no more: its place in its wave's Locket is free, and what is spilled comes back. -/
def State.unplaceElem (s : State) (wave : Nat) (p : Elem → Bool) : State :=
  let c := s.block.copy
  let s : State := { s with block := { s.block with copy := { c with elems := updIf p (fun e => { e with parked := none, place := none }) c.elems } } }
  match (s.block.waves.find? fun w => w.wid == wave).bind fun w => w.paths.head? with
  | none => s
  | some p => match s.openPath wave p.pid with
    | none => s
    | some t => t.fillBack.closePath

/-- R15: the serial lane holds the sector of an element or of a piece. -/
def State.copyBounces (s : State) (user write : Bool) (va : W64) (n : Nat) : Bool :=
  match (s.copyCheck user write (tAlign n) (pieces va n)).2 with
  | .ok ts => ts.any fun t => s.lockedFor (s.copyWho user) t write
  | .error _ => false

/-- R420: BNCINJ, or the serial lane, makes the next access of an element bounce. -/
def State.elemBounces (s : State) (e : Elem) : Bool := e.inj || s.copyBounces e.user e.out e.ga e.bytes

/-- R190: the element would meet a page fault, and park in its wave's Locket. -/
def State.elemParks (s : State) (e : Elem) : Bool :=
  match (s.copyCheck e.user e.out (tAlign e.bytes) (pieces e.ga e.bytes)).2 with
  | .ok _ => false
  | .error x => x.2.cause == .pageFault

/-- R249: the Locket of the element's wave has a place for it, where it would park. DESIGN CHOICE (log 101): one that does not find a
place waits for it. -/
def State.elemRoom (s : State) (e : Elem) : Bool :=
  ((s.blockWaves.find? fun w => w.wid == e.wave).all fun w => decide (s.locketCount w < 144)) || !s.elemParks e

/-- An element that can perform, or bounce for the first time into a Locket that has room; R11: or that a domain's reset has cut off. -/
def State.elemReady (s : State) (e : Elem) : Bool :=
  e.parked.isNone && (e.cut || (!s.elemHeld e && s.elemRoom e && match e.lock with
    | some l => !s.elemBounces e && s.lockDue l
    | none => !s.elemBounces e || decide (s.block.copy.locks.length < 80)))

/-- The element bounces: it takes its place in the Locket; a spill that the area does not take fails it (R250). -/
def State.lockElem (s : State) (e : Elem) : State :=
  match s.copyLock e.inj (s.elemBits e) with
  | (s, l, ok) =>
    let c := s.block.copy
    let s := { s with block := { s.block with copy := { c with elems := replaceFirst (fun x => x == e) (fun x => { x with inj := false, lock := l }) c.elems } } }
    if ok then s else s.endElem { e with inj := false, lock := l } (some (.uncorrectable, e.ga))

/-- One element, with a block in focus. R11: one that a reset has cut off fails with REMOTE_ERROR. -/
def State.performElem (s : State) (e : Elem) : State :=
  if e.cut then s.endElem e (some (.remoteError, e.ga)) else if s.elemBounces e then s.lockElem e else s.moveOne e

/-- R191: DONE advances over the completed prefix. -/
def advanceDone : Nat → Nat → List Nat → Nat × List Nat
  | 0, d, l => (d, l)
  | k + 1, d, l => if l.contains (d + 1) then advanceDone k (d + 1) (l.filter fun x => x != d + 1) else (d, l)

/-- R191, R196: an operation completes, successfully or with a cause. -/
def CopyCtx.complete (c : CopyCtx) (op : CopyOp) (f : Option (Cause × W64)) : CopyCtx :=
  let l := op.num :: c.ahead
  let (d, l) := advanceDone l.length c.done l
  let fails := match f with
    | some (x, va) => [({ num := op.num, cause := x, addr := va } : CopyFail)]
    | none => []
  { c with ops := c.ops.filter fun x => x.num != op.num, done := d, ahead := l,
           fails := c.fails ++ fails }

def State.setCopy (s : State) (c : CopyCtx) : State := { s with block := { s.block with copy := c } }

/-- R191, R196, R371: an operation of the focused block completes; the paths whose `tlwait` it covers take its token. -/
def State.completeOp (s : State) (op : CopyOp) (f : Option (Cause × W64)) : State :=
  let c := s.block.copy.complete op f
  let up := fun p : Path => p.covered false s.block.copy.done c.done (some (carried op.token op.e))
  let wave := fun w : Wave => { w with paths := w.paths.map up }
  { s with path := up s.path, wave := wave s.wave, block := { s.block with copy := c, waves := s.block.waves.map wave } }

def State.updOp (s : State) (num : Nat) (f : CopyOp → CopyOp) : State :=
  s.setCopy { s.block.copy with ops := updIf (fun x => x.num == num) f s.block.copy.ops }

/-- R226, R249: a spilled entry of the context comes back on core; one that fails its check is not reissued, and its element
or operation fails. -/
def State.copyFill (s : State) : State :=
  match s.block.copy.toFill with
  | none => s
  | some l =>
    let r := s.slotOk (copyOff (l.slot.getD 0))
    let s := r.1
    let c := s.block.copy
    let on := some { l with slot := none }
    if r.2 then s.setCopy { c with elems := replaceFirst (fun x => x.lock == some l) (fun x => { x with lock := on }) c.elems,
                                   ops := replaceFirst (fun x => x.lock == some l) (fun x => { x with lock := on }) c.ops }
    else match c.elems.find? (fun x => x.lock == some l), c.ops.find? (fun x => x.lock == some l) with
      | some e, _ => s.endElem e (some (.uncorrectable, e.ga))
      | none, some op => s.completeOp op (some (.uncorrectable, 0))
      | none, none => s

/-! Tensor copies (R191 to R198) -/

/-- What the read of a tensor record comes to: the record, a stale handle, a failing check, or a sector that a lock holds. -/
inductive TensorRead
  | record (r : Nat)
  | stale
  | fail (va : W64) (f : Fail)
  | held (va : W64)
  deriving DecidableEq, Repr

/-- R281, R283, R286: the record of a handle, read by the copy engine through the translation of the table's address, at its home
slice. DESIGN CHOICE (log 112): a check that fails for it is raised at the form. -/
def State.tensorRecord (s : State) (h : Nat) : State × TensorRead :=
  let slot := bitsOf h 12 20
  if s.dom.ttslots ≤ slot then (s, .stale)
  else
    let who := s.copyWho (!s.path.priv)
    let va := s.dom.tensorVa slot
    match s.check who va tensorWant with
    | (s, .error f) =>
      let second := f.cause == .tagMismatch && match (s.check who va { tensorWant with n := 32 }).2 with
        | .ok _ => true
        | .error _ => false
      (s, .fail (failVa (if second then va + 32 else va) f) f)
    | (s, .ok t) =>
      if s.lockedFor who t false then (s, .held va)
      else
        let r := s.unitRead who t .normal 64
        (r.1, if bitsOf r.2 444 12 = bitsOf h 0 12 then .record r.2 else .stale)

/-- R192: the checks at issue, in their order. -/
def State.copyRefuses (s : State) (form : CForm) (r k off : Nat) : Option Cause :=
  if badTensor form r then some .badTensor
  else if 127 < k + tRank r - 1 then some .illegalOperand
  else if (s.copyBuf form s.wave.wid).2 < off + boxCount r * bufElem form r then some .bufferRange
  else none

/-- R191: an operation enters the queue. -/
def State.queueCopy (s : State) (form : CForm) (hint : Hint) (r k off : Nat) (inj : Bool) : State :=
  let c := s.block.copy
  let op : CopyOp :=
    { num := c.issued + 1, wave := s.wave.wid, user := !s.path.priv, form := form, off := off, rcd := BitVec.ofNat 512 r,
      coords := (tDims r).map fun d => s.sVal (k + d), hint := hint, pc := s.path.pc, next := 0, deferred := false,
      parked := none, token := s.carry, e := 0, inj := inj }
  { s with block := { s.block with copy := { c with issued := c.issued + 1, ops := c.ops ++ [op] } } }

def cptForm (i : Instr) (form : CForm) (hint : Hint) (o : Args) (s : State) : Host.Outcome State Fault Refusal :=
  vec i s fun s => s.once o fun s =>
    if s.path.inRegion then s.injectCopy.1.nolog i
    else s.remotePoint fun s =>
      let k := match o.b with
        | .s n => n.toNat
        | _ => 0
      let off := (s.uni o.d).toNat
      match s.tensorRecord ((s.uni o.a).toNat % 2 ^ 32) with
      | (s, .stale) => s.injectCopy.1.trapOnce o.h .staleHandle 0
      | (s, .fail va f) => s.injectCopy.1.trapLanes (s.guard o.h) f.cause true 5 (fun _ => va) (fun _ => f.info) State.advance
      | (s, .held va) => s.bounceHeld (s.readReq .absent [(lowLane (s.guard o.h), va)]) plainRead
      | (s, .record r) =>
        match s.copyRefuses form r k off with
        | some c => s.injectCopy.1.trapOnce o.h c 0
        | none =>
          if 64 ≤ s.block.copy.ops.length then s.await .copyRoom
          else
            let (s, inj) := s.injectCopy
            (s.queueCopy form hint r k off inj).advance

def execCptAb (hint : Hint) (o : Args) (s : State) : Host.Outcome State Fault Refusal := cptForm (.cptAb hint o) .ab hint o s

def execCptWb (hint : Hint) (o : Args) (s : State) : Host.Outcome State Fault Refusal := cptForm (.cptWb hint o) .wb hint o s

def execCpts (hint : Hint) (o : Args) (s : State) : Host.Outcome State Fault Refusal := cptForm (.cpts hint o) .scl hint o s

def execCpta (hint : Hint) (o : Args) (s : State) : Host.Outcome State Fault Refusal := cptForm (.cpta hint o) .acc hint o s

/-- The element of an operation at a position: moved, or why not. -/
def State.moveBox (s : State) (op : CopyOp) (j : Nat) : State × CopyRes :=
  let r := op.rcd.toNat
  let ty := tType r
  let n := bufElem op.form r
  let byte := (s.copyBuf op.form op.wave).1 + op.off + n * j
  match op.form, elemVa r op.coords (boxIndex r j) with
  | .acc, none => (s, .ok 0)
  | .acc, some va =>
    if s.core.flawed 2 byte n then (s, .fail va ⟨10, .uncorrectable, 0, false⟩)
    else s.copyGlobal op.user op.hint va (tSize ty) (some (accVal ty (rdN s.core.acc byte n)))
  | form, none => (s.bufPut form byte n (fillVal r), .ok 0)
  | form, some va =>
    match s.copyGlobal op.user op.hint va n none with
    | (s, .ok v) => (s.bufPut form byte n v, .ok v)
    | r => r

/-- R197: the write at a position reaches a region that the matrix engine names. -/
def State.boxHeld (s : State) (op : CopyOp) (j : Nat) : Bool :=
  let n := bufElem op.form op.rcd.toNat
  let byte := (s.copyBuf op.form op.wave).1 + op.off + n * j
  match op.form with
  | .ab => s.engineNames s.core.ix false byte n
  | .wb => s.engineNames s.core.ix true byte n
  | _ => false

/-- R196: what a fault does to an operation. -/
def State.copyStops (s : State) (op : CopyOp) (va : W64) (f : Fail) : State :=
  if f.cause = .pageFault then
    let (s, id) := s.park (.copy s.bref op.num) 5 va op.pc 0 s.copyUnit
    s.updOp op.num fun x => { x with next := op.next, parked := some id }
  else s.completeOp op (some (f.cause, va))

/-- Moves the elements from `op.next` on, `k` of them: to the end, to a write that is deferred, to a bounce, or to a
fault. -/
def State.runCopy : Nat → State → CopyOp → State
  | 0, s, op => s.completeOp op none
  | k + 1, s, op =>
    if s.boxHeld op op.next then s.updOp op.num fun x => { x with next := op.next, deferred := true }
    else match s.moveBox op op.next with
      | (t, .ok _) => State.runCopy k t { op with next := op.next + 1 }
      | (_, .bounce) => s.updOp op.num fun x => { x with next := op.next }
      | (t, .fail va f) => t.copyStops op va f

/-- Position and address of the first element, of the `k` from position `j` on, that lies in the tensor. -/
def CopyOp.nextIn (op : CopyOp) : Nat → Nat → Option (Nat × W64)
  | 0, _ => none
  | k + 1, j => ((elemVa op.rcd.toNat op.coords (boxIndex op.rcd.toNat j)).map fun va => (j, va)).orElse fun _ => op.nextIn k (j + 1)

/-- The next element of an operation that accesses global memory, and where. -/
def CopyOp.access (op : CopyOp) : Option (Nat × W64) := op.nextIn (boxCount op.rcd.toNat - op.next) op.next

/-- The next access of an operation bounces: BNCINJ makes it (R420), or its next element meets a sector that a lock holds. -/
def State.opBounces (s : State) (op : CopyOp) : Bool :=
  let r := op.rcd.toNat
  (op.inj && op.access.isSome) || match elemVa r op.coords (boxIndex r op.next) with
    | some va => decide (op.next < boxCount r) && s.copyBounces op.user (op.form == .acc) va (tSize (tType r))
    | none => false

/-- An operation that can move on, or bounce for the first time into a Locket that has room. -/
def State.opReady (s : State) (op : CopyOp) : Bool :=
  op.cut || (op.parked.isNone && !op.deferred && match op.lock with
    | some l => !s.opBounces op && s.lockDue l
    | none => !s.opBounces op || decide (s.block.copy.locks.length < 80))

/-- R221, R249: the tags of the context's entries that can reissue: of elements and of operations. -/
def State.readyTags (s : State) : List Nat :=
  let c := s.block.copy
  let e := (c.elems.filter fun e => e.lock.isSome && s.elemReady e).filterMap (·.lock)
  let o := (c.ops.filter fun o => o.lock.isSome && s.opReady o).filterMap (·.lock)
  (e ++ o).map (·.tag)

/-- R221: of these the one with the lowest tag is next; what has not bounced waits for none of them. -/
def State.lockTurn (s : State) (l : Option CopyLock) : Bool :=
  match l with
  | none => true
  | some l => s.readyTags.all fun t => decide (l.tag ≤ t)

/-- The next element: the oldest that can perform and that no entry with a lower tag keeps waiting. -/
def State.nextElem (s : State) : Option Elem := s.block.copy.elems.find? fun e => s.elemReady e && s.lockTurn e.lock

/-- COPY_ELEMENT_PERFORM. -/
def execCopyElementPerform (b : BRef) (s : State) : Host.Outcome State Fault Refusal :=
  .next (s.atBlock b fun s =>
    if s.block.res == .resident then
      match s.nextElem with
      | some e =>
        match s.lockOk e.lock with
        | (s, true) => (s.performElem e).copyFill
        | (s, false) => (s.endElem e (some (.uncorrectable, e.ga))).copyFill
      | none => s
    else s)

/-- The operation bounces: it takes its place in the Locket. -/
def State.lockOp (s : State) (op : CopyOp) : State :=
  let r := op.rcd.toNat
  let n := bufElem op.form r
  let (j, va) := op.access.getD (op.next, 0)
  let val := if op.form = .acc then some (accVal (tType r) (rdN s.core.acc ((s.copyBuf op.form op.wave).1 + op.off + n * j) n)) else none
  match s.copyLock op.inj (fun tag => lockBits op.token tag va 0 (tSize (tType r)) val) with
  | (s, l, ok) =>
    if ok then s.updOp op.num fun x => { x with inj := false, lock := l }
    else s.completeOp op (some (.uncorrectable, va))

/-- An operation that bounced leaves the Locket as it moves on. R11: one that a reset has cut off completes with REMOTE_ERROR. -/
def State.startOp (s : State) (op : CopyOp) : State :=
  if op.cut then s.completeOp op (some (.remoteError, (op.access.map (·.2)).getD 0))
  else if s.opBounces op then s.lockOp op
  else
    let op := { op with lock := none }
    State.runCopy (boxCount op.rcd.toNat - op.next) (s.updOp op.num fun x => { x with lock := none }) op

/-- TENSOR_COPY_COMPLETE: operation `n` of the block moves what is left of its box. -/
def execTensorCopyComplete (b : BRef) (n : Nat) (s : State) : Host.Outcome State Fault Refusal :=
  .next (s.atBlock b fun s =>
    match s.block.copy.ops.find? fun op => op.num == n with
    | some op =>
      if s.block.res == .resident && s.opReady op && s.lockTurn op.lock then
        match s.lockOk op.lock with
        | (s, true) => (s.startOp op).copyFill
        | (s, false) => (s.completeOp op (some (.uncorrectable, (op.access.map (·.2)).getD 0))).copyFill
      else s
    | none => s)

/-- R197: a deferred write whose region no operation names any more. -/
def State.opFreed (s : State) (op : CopyOp) : Bool := op.deferred && op.parked.isNone && !s.boxHeld op op.next && !s.opBounces op

/-- COPY_DEFERRED_WRITE: the write that was held off proceeds, and the operation may run on. -/
def execCopyDeferredWrite (b : BRef) (s : State) : Host.Outcome State Fault Refusal :=
  .next (s.atBlock b fun s =>
    match s.block.copy.ops.find? s.opFreed with
    | some op =>
      if s.block.res == .resident then
        match s.moveBox op op.next with
        | (t, .ok _) => t.updOp op.num fun x => { x with next := op.next + 1, deferred := false }
        | (_, .bounce) => s
        | (t, .fail va f) => (t.updOp op.num fun x => { x with deferred := false }).copyStops { op with deferred := false } va f
      else s
    | none => s)

/-- R198: the lowest recorded cause in a range is raised for the path; else the wait is over. -/
def State.timelineEnd (s : State) (n : Nat) (waited : Bool) : State :=
  let c := s.block.copy
  let low := c.fails.foldl (fun (m : Option CopyFail) f => if f.num ≤ n then (match m with
    | some x => if x.num ≤ f.num then m else some f
    | none => some f) else m) none
  match low with
  | some f =>
    (s.setCopy { c with fails := c.fails.filter fun x => x.num != f.num }).trapFull f.cause false 5 (fun _ => f.addr)
      (fun _ => BitVec.ofNat 64 f.num)
  | none => (if waited then s.adopt 6 (s.path.adopts.map fun t => (t, s.copyUnit)) else s).advance

def execTlwait (o : Args) (s : State) : Host.Outcome State Fault Refusal :=
  vec (.tlwait o) s fun s => s.once o fun s =>
    if s.path.inRegion then s.waitInRegion (.tlwait o)
    else s.remotePoint fun s =>
      let n := min (s.uni o.a).toNat s.block.copy.issued
      if n ≤ s.block.copy.done then s.timelineEnd n false else s.await (.timeline n)

def State.timelineFinish (s : State) : State :=
  match s.path.status with
  | .waiting (.timeline n) => s.timelineEnd n true
  | _ => s

def execTlreadDone (o : Args) (s : State) : Host.Outcome State Fault Refusal :=
  vec (.tlreadDone o) s fun s => s.once o fun s => (s.putS o.d (BitVec.ofNat 64 s.block.copy.done)).advance

def execTlreadIss (o : Args) (s : State) : Host.Outcome State Fault Refusal :=
  vec (.tlreadIss o) s fun s => s.once o fun s => (s.putS o.d (BitVec.ofNat 64 s.block.copy.issued)).advance

/-! The end of a block (R431) -/

/-- The copy context is idle. -/
def CopyCtx.idle (c : CopyCtx) : Bool := c.ops.isEmpty && c.elems.isEmpty

end Sys2Proof.Machine
end

