-- ==== Sys2Proof/Machine/Exit.lean ====
section
/-! DEFINITION. `exit`, and what the exit of lanes does to barriers, gangs, tasks and the block (R22, R44, R267,
R270, R294, R296, R306, R339, R431). -/

namespace Sys2Proof.Machine

/-- R44, R258: adds to a spawn counter at its home slice, with release at die scope. The slice answers at once, and the acknowledgement
of the answer frees the tag that it has recorded (R224). -/
def State.spawnAdd (s : State) (cnt : W64) (delta : Nat) : State :=
  let s := s.release s.core.ix .die
  match s.check s.who cnt { n := 4, write := true, atomic := true, tags := true, sc := some .die } with
  | (s, .error _) => s
  | (s, .ok t) => (s.doRmw s.who t .normal 4 false (fun x => some ((x + delta) % 2 ^ 32)) (.tok s.carry s.pathUnit)).1

/-- R270: what leaving a Clasp region does to lanes `m`: their region aborts with NOLOG, and they go on to exit. -/
def State.exitRegion (s : State) (m : W64) : State :=
  if s.path.inRegion then
    let ser := s.path.serial
    let w := (lanesOf m).foldl (fun w l => w.abortLane l .nolog 0x01 s.path.txdepth ser) s.wave
    let s := (lanesOf m).foldl (fun s _ => s.count (.claspAbort 4)) (({ s with wave := w }).freeLogs m)
    if ser then s.rollback else s
  else s

/-- R294, R296: what a barrier makes of the lanes `gone` of wave `w` that have exited; `last` when no lane is left. -/
def Barrier.exitWave (b : Barrier) (w : Nat) (all gone : W64) (last : Bool) : Barrier :=
  if !b.reg.getLsbD w then b
  else if last then { b with arr := b.arr ||| (1 : BitVec 33) <<< w, penddrop := b.penddrop ||| (1 : BitVec 33) <<< w }
  else if mget b.lmask w != 0 && covers (mget b.lmask w ||| gone) all then { b with arr := b.arr ||| (1 : BitVec 33) <<< w }
  else b

/-- Every barrier of the block looks again. -/
def State.exitBars (s : State) : State :=
  let w := s.wave
  let up := fun b : Barrier => (b.exitWave w.wid (fullMask w.width) w.exited (w.live == 0)).settle s.carry s.pathUnit
  if s.block.task then s else { s with block := { s.block with bars := s.block.bars.map up } }

/-- R267, R391: lanes `m` leave the wave's join records and the path. -/
def State.leaveWave (s : State) (m : W64) : State :=
  let w := s.wave
  let joins := w.joins.map fun (r : JoinRec) => { r with mask := r.mask &&& ~~~m }
  { s with wave := { w with exited := w.exited ||| m, joins := joins },
           path := { s.path with mask := s.path.mask &&& ~~~m, fb := none } }

/-- R306: what the exit carries, for the block's end. -/
def State.noteExit (s : State) : State := { s with block := { s.block with endTok := s.carry, endUnit := s.pathUnit } }

/-- R44: a task's last lane decrements its spawn counter. -/
def State.exitTask (s : State) : State :=
  match s.wave.task with
  | some t => if s.wave.live = 0 then s.spawnAdd t.cnt (2 ^ 32 - 1) else s
  | none => s

/-- R270: lanes `m` leave the wave. The entries of a path that ends bind no path that takes its PATHID later (R222). -/
def State.exitLanes (s : State) (m : W64) : State :=
  let s := if s.path.mask &&& ~~~m = 0 then s.trace 6 else s
  let s := ((s.exitRegion m).leaveWave m).noteExit.exitBars.gangRecheck.exitTask
  if s.path.mask = 0 then
    let free := fun e : Entry => { e with paths := e.paths.filter fun i => i != s.path.pid }
    ({ s with path := { s.path with ir := none }, wave := { s.wave with locket := s.wave.locket.map free } }).freeJoins
  else s.advance

/-- The focused wave is the block's last. -/
def State.lastWave (s : State) : Bool := s.block.waves.isEmpty

/-- R431: what the last lanes of the focused wave wait for: the block's copy context; a task wave that is not the
last of its block waits for what it has issued itself, before its run is freed (log 18). -/
def State.copyBusy (s : State) : Bool :=
  let c := s.block.copy
  if s.lastWave then !c.idle
  else s.block.task && (c.ops.any (fun o => o.wave == s.wave.wid) || c.elems.any fun e => e.wave == s.wave.wid)

/-- R431: the next cause that no wait has reported. -/
def CopyCtx.unreported (c : CopyCtx) : Option (Cause × W64 × W64 × CopyCtx) :=
  let low := c.fails.foldl (fun (m : Option CopyFail) f => match m with
    | some x => if x.num ≤ f.num then m else some f
    | none => some f) none
  let lowE := c.efails.foldl (fun (m : Option ElemFail) f => match m with
    | some x => if x.batch ≤ f.batch then m else some f
    | none => some f) none
  match low, lowE with
  | some f, _ => some (f.cause, f.addr, BitVec.ofNat 64 f.num, { c with fails := c.fails.filter fun x => x.num != f.num })
  | none, some f => some (f.cause, f.addr, f.pc, { c with efails := c.efails.erase f })
  | none, none => none

/-- R339, R431: the exit of the block's last live lane: a stream fault record and unreported causes are raised at
it, one at each execution, and it waits for the copy context. -/
def State.lastExit (s : State) (m : W64) : State :=
  match s.block.stream.bind fun m => m.rcd with
  | some f => s.deliver f
  | none =>
    if s.copyBusy then s.await .copyIdle
    else match s.block.copy.unreported with
      | some (c, addr, info, rest) => (s.setCopy rest).trapFull c false 5 (fun _ => addr) (fun _ => info)
      | none => s.exitLanes m

/-- R44, R224, R346: the decrement of a task's spawn counter bounces: at a sector that a lock holds, or at a slice whose table of applied
tags is full. -/
def State.spawnHeld (s : State) (cnt : W64) : Bool :=
  match (s.check s.who cnt { n := 4, write := true, atomic := true, tags := true, sc := some .die }).2 with
  | .ok t => s.lockedFor s.who t true || s.appliedFull t
  | .error _ => false

def execExit (o : Args) (s : State) : Host.Outcome State Fault Refusal :=
  vec (.exitI o) s fun s => s.once o fun s =>
    let m := s.guard o.h
    let lastLanes := s.wave.live &&& ~~~m == 0
    if lastLanes && s.wave.locket != [] then s.await .drain
    else if lastLanes && ((s.wave.task.map fun t => s.spawnHeld t.cnt).getD false) then
      s.bounceHeld { s.unitReq 0 .rel .die ((s.wave.task.map (·.cnt)).getD 0) m (BitVec.ofNat 64 (2 ^ 32 - 1)) with kind := .red .add, sz := .n32 }
    else s.remotePoint fun s =>
      if lastLanes && s.lastWave then s.lastExit m
      else if lastLanes && s.copyBusy then s.await .copyIdle
      else s.exitLanes m

end Sys2Proof.Machine
end

