-- ==== Sys2Proof/Machine/Matrix.lean ====
section
/-! DEFINITION. The matrix stream and the matrix engine: OP 0x50 and 0x51, the arithmetic of R100 to R106 and the
events of an operation (R315 to R341). -/

namespace Sys2Proof.Machine

/-! Arithmetic (R97 to R102) -/

/-- The flags that a matrix operation may raise (R106). -/
def mFlags (f : Nat) : Nat := f &&& (flNB + flNV + flOF + flUF)

/-- `trunc(s · 2^k)`, toward zero. -/
def truncShift (s k : Int) : Int :=
  let m := if 0 ≤ k then s.natAbs * 2 ^ k.toNat else s.natAbs / 2 ^ (-k).toNat
  if s < 0 then -(m : Int) else m

/-- R101, steps 2 to 4: terms `s · 2^e`, summed in the window and rounded once. -/
def groupSum (ts : List (Int × Int)) (es : Int) : Nat × Nat :=
  match ts.filter fun t => t.1 != 0 with
  | [] => (0, 0)
  | t :: rest =>
    let top := rest.foldl (fun m (u : Int × Int) => max m u.2) t.2
    let w := (t :: rest).foldl (fun a (u : Int × Int) => a + truncShift u.1 (u.2 - top + 40)) 0
    if w = 0 then (0, 0)
    else
      let r := roundDy .f32 .rne w (top - 40 + es)
      (r.1, mFlags r.2)

/-- R101, step 1: the exact sum of a block pair, and its exponent. -/
def blockSum (jbf a b : Nat) : Int × Int :=
  let m := jbM jbf
  let term := fun k => signed (jbNeg m a k != jbNeg m b k)
    (jbMag m a k * jbMag m b k * 2 ^ (2 - jbMu a k - jbMu b k))
  ((List.range 16).foldl (fun s k => s + term k) 0, (jbX a : Int) + jbX b - 256 - 2 * (m - 1 : Nat))

/-- R101: a group of four block pairs. -/
def jbGroup (jbf : Nat) (ps : List (Nat × Nat)) (es : Int) : Nat × Nat :=
  if ps.any fun p => jbX p.1 == 255 || jbX p.2 == 255 then (fNan .f32, flNB)
  else groupSum (ps.map fun p => blockSum jbf p.1 p.2) es

/-- R102: a bf16 value as sign, significand and exponent of its least significant bit. -/
def bfTerm (a b : Fp) : Int × Int :=
  match a, b with
  | .fin n m e, .fin n' m' e' => (signed (n != n') (m * m'), e + e')
  | _, _ => (0, 0)

/-- R102: sixteen bf16 pairs. -/
def bfGroup (ps : List (Nat × Nat)) (es : Int) : Nat × Nat :=
  let ps := ps.map fun p => (Fp.of .bf16 p.1, Fp.of .bf16 p.2)
  let sig := if ps.any fun p => p.1.isSig || p.2.isSig then flNV else 0
  let nan := ps.any fun p => p.1.isNan || p.2.isNan
  let zinf := ps.any fun p => (p.1.isInf && p.2.isZero) || (p.1.isZero && p.2.isInf)
  let infs := (ps.filter fun p => (p.1.isInf || p.2.isInf) && !p.1.isNan && !p.2.isNan).map fun p => p.1.neg != p.2.neg
  let opp := infs.contains true && infs.contains false
  if nan || zinf || opp then (fNan .f32, sig ||| (if zinf || opp then flNV else 0))
  else match infs with
    | n :: _ => (b2n n * fSign .f32 + fInf .f32, sig)
    | [] => groupSum (ps.map fun p => bfTerm p.1 p.2) es

/-- R102: sixteen i8 pairs. -/
def i8Group (ps : List (Nat × Nat)) (es : Int) : Nat × Nat :=
  groupSum (ps.map fun p => (toInt 8 p.1 * toInt 8 p.2, 0)) es

/-! Tiles and panels (R321 to R324) -/

def mfJbf : MFmt → Option Nat
  | .jb3 => some 0
  | .jb5 => some 1
  | .jb8 => some 2
  | _ => none

/-- R321: groups of a K-step. -/
def mfGroups (f : MFmt) : Nat := if (mfJbf f).isSome then 1 else 4

/-- R321: the place of unit `b` of row `r` in an operand. -/
def unitOff (f : MFmt) (r b : Nat) : Nat := (b / 4 * 256 + r * 4 + b % 4) * mfUnit f

/-- Unit `b` of row `r` of an operand that is held as one number. -/
def unitOf (f : MFmt) (x r b : Nat) : Nat := x / 256 ^ unitOff f r b % 256 ^ mfUnit f

/-- The elements of a scalar unit. -/
def unitElems (f : MFmt) (u : Nat) : List Nat :=
  let w := mfUnit f / 16
  (List.range 16).map fun e => u / 256 ^ (w * e) % 256 ^ w

/-- R101, R102: the result of group `q` of row `m` of A and row `n` of B. -/
def groupOf (f : MFmt) (xa xb m n q : Nat) (es : Int) : Nat × Nat :=
  match mfJbf f with
  | some jbf => jbGroup jbf ((List.range 4).map fun j => (unitOf f xa m (4 * q + j), unitOf f xb n (4 * q + j))) es
  | none =>
    let ps := (unitElems f (unitOf f xa m q)).zip (unitElems f (unitOf f xb n q))
    if f = .bf16 then bfGroup ps es else i8Group ps es

/-- R328: one element: the groups in ascending K, each added with one rounding; the flags beside. `es` gives the scale
exponent of a group, none for a NaN, with which the invalid inputs of the group still raise NV (R102). -/
def accumulate (f : MFmt) (xa xb m n : Nat) (es : Nat → Option Int) (acc : Nat) (groups : Nat) : Nat × Nat :=
  (List.range groups).foldl (fun (a : Nat × Nat) q =>
    let g := match es q with
      | some e => groupOf f xa xb m n q e
      | none => (fNan .f32, flNB ||| ((groupOf f xa xb m n q 0).2 &&& flNV))
    let r := faddOf .f32 .rne a.1 g.1
    (r.1, a.2 ||| g.2 ||| mFlags r.2)) (acc, 0)

/-- A tile as one number, from its elements. -/
def tileOf (g : Nat → Nat → Nat × Nat) : Nat × Nat :=
  (List.range 4096).foldl (fun (a : Nat × Nat) k =>
    let r := g (k / 64) (k % 64)
    (a.1 + r.1 * 2 ^ (32 * k), a.2 ||| r.2)) (0, 0)

/-- The element of a tile that is held as one number. -/
def tileElem (x m n : Nat) : Nat := bitsOf x (32 * (64 * m + n)) 32

/-- R329: a unit of `mcvt`. -/
def cvtUnit (f : MFmt) (rm : Rm) (xs : List Nat) : Nat × Nat :=
  match mfJbf f with
  | some jbf => let r := jbEncode jbf rm xs; (r.1, mFlags r.2)
  | none =>
    let w := mfUnit f / 16
    let one := fun x => if f = .bf16 then cvtOf .f32 .bf16 rm x
      else let r := toIntOf .f32 rm .i8 x; ((BitVec.ofInt 8 r.1).toNat, r.2)
    (xs.zipIdx).foldl (fun (a : Nat × Nat) x => let r := one x.1; (a.1 + r.1 * 256 ^ (w * x.2), a.2 ||| mFlags r.2)) (0, 0)

/-- R329: the panel of a tile. -/
def panelOf (f : MFmt) (rm : Rm) (x : Nat) : Nat × Nat :=
  (List.range 256).foldl (fun (a : Nat × Nat) k =>
    let r := cvtUnit f rm ((List.range 16).map fun e => tileElem x (k / 4) (16 * (k % 4) + e))
    (a.1 + r.1 * 256 ^ (mfUnit f * k), a.2 ||| r.2)) (0, 0)

/-! The engine (R319) -/

/-- A region of a buffer: 0 AB, 1 WB, 2 ACC, 3 SCL; first byte and length, relative to the allocation. -/
abbrev MRegion := Nat × Nat × Nat

/-- What an operation writes. -/
def MOp.writes (o : MOp) : MRegion :=
  match o.kind with
  | .mcvt _ f => (0, o.d, mfPanel f)
  | _ => (2, o.d, 16384)

/-- What an operation reads. -/
def MOp.reads (o : MOp) : List MRegion :=
  match o.kind with
  | .mzero => []
  | .mma z f => [(0, o.a, o.ks * mfPanel f), (1, o.b, o.ks * mfPanel f)] ++ (if z then [] else [(2, o.d, 16384)])
  | .mmas z f =>
    let n := 64 * mfGroups f * o.ks
    [(0, o.a, o.ks * mfPanel f), (1, o.b, o.ks * mfPanel f), (3, o.rs, n), (3, o.cs, n)] ++ (if z then [] else [(2, o.d, 16384)])
  | .mcvt _ _ => [(2, o.a, 16384)]
  | .madd => [(2, o.d, 16384), (2, o.a, 16384)]

def overlaps (a b : MRegion) : Bool := a.1 == b.1 && decide (a.2.1 < b.2.1 + b.2.2 ∧ b.2.1 < a.2.1 + a.2.2)

/-- R319: the operation may start after these, which stand before it in the queue. -/
def MOp.mayStart (o : MOp) (earlier : List MOp) : Bool :=
  earlier.all fun p => p.phase == .consumed && !((o.writes :: o.reads).any fun r => overlaps p.writes r)

/-- The first operation that has not started, when it may start. -/
def nextStart : List MOp → List MOp → Option MOp
  | _, [] => none
  | before, o :: os => if o.phase == .issued then (if o.mayStart before then some o else none) else nextStart (before ++ [o]) os

/-- The bytes of an allocation of the focused block. -/
def State.accTile (s : State) (off : Nat) : Nat := rdN s.core.acc (s.block.base 2 + off) 16384

/-- R323, R327 to R330: what the operation writes, and its flags, from the buffers as they are at its start (log 19). -/
def State.mopResult (s : State) (o : MOp) : Nat × Nat :=
  let scl := fun i => (mget s.core.scl (s.block.base 3 + i)).toNat
  let mul := fun (z : Bool) (f : MFmt) (es : Nat → Nat → Nat → Option Int) =>
    let xa := rdN s.core.ab (s.block.base 0 + o.a) (o.ks * mfPanel f)
    let xb := rdN s.core.wb (s.block.base 1 + o.b) (o.ks * mfPanel f)
    let acc := if z then 0 else s.accTile o.d
    tileOf fun m n => accumulate f xa xb m n (es m n) (tileElem acc m n) (mfGroups f * o.ks)
  match o.kind with
  | .mzero => (0, 0)
  | .mma z f => mul z f fun _ _ _ => some 0
  | .mmas z f => mul z f fun m n q =>
      let ea := scl (o.rs + 64 * q + m)
      let eb := scl (o.cs + 64 * q + n)
      if ea = 255 ∨ eb = 255 then none else some ((ea : Int) + eb - 254)
  | .mcvt rm f => panelOf f rm (s.accTile o.a)
  | .madd =>
    let x := s.accTile o.d
    let y := s.accTile o.a
    tileOf fun m n => let r := faddOf .f32 .rne (tileElem x m n) (tileElem y m n); (r.1, mFlags r.2)

/-- The operation that the engine of a core acts on, with its block in focus. -/
def State.atEngine (s : State) (dom core : Nat) (f : State → State) : State :=
  let s := s.focusDom dom
  match (s.coreAt core).engine with
  | [] => s
  | o :: _ => s.atBlock { dom := dom, blk := o.blk } fun s => if s.core.ix = core then f s else s

def State.updMop (s : State) (num : Nat) (f : MOp → MOp) : State :=
  { s with core := { s.core with engine := updIf (fun o => o.num == num) f s.core.engine } }

/-- R407: the operation reads buffer bytes that hold an uncorrectable error. -/
def State.mopFlawed (s : State) (o : MOp) : Bool := o.reads.any fun r => s.core.flawed r.1 (s.block.base r.1 + r.2.1) r.2.2

/-- MATRIX_OP_START. Of an operation that reads an uncorrectable error (R407) the consumer is its stream. DESIGN CHOICE (log 75): that
takes a stream fault, UNCORRECTABLE, at the instruction at which it stands, and the operation runs on with the bytes as they are. -/
def execMatrixOpStart (dom core : Nat) (s : State) : Host.Outcome State Fault Refusal :=
  .next (s.atEngine dom core fun s =>
    match nextStart [] s.core.engine with
    | none => s
    | some o =>
      let r := s.mopResult o
      let t := s.updMop o.num fun o => { o with phase := .started, out := r.1, flags := BitVec.ofNat 8 r.2 }
      match s.block.stream with
      | some m => if s.mopFlawed o && (m.status == .running || m.status == .ended) then t.streamFault .uncorrectable m.pc 0 else t
      | none => t)

/-- MATRIX_OP_CONSUMED. -/
def execMatrixOpConsumed (dom core : Nat) (s : State) : Host.Outcome State Fault Refusal :=
  .next (s.atEngine dom core fun s =>
    match s.core.engine.find? fun o => o.phase == .started with
    | none => s
    | some o => s.updMop o.num fun o => { o with phase := .consumed })

/-- The writes of an operation land. -/
def State.landMop (s : State) (o : MOp) : State :=
  let c := s.core
  match o.kind with
  | .mcvt _ f =>
    { s with core := ({ c with ab := wrN c.ab (s.block.base 0 + o.d) (mfPanel f) o.out } : Core).mend 0 (s.block.base 0 + o.d) (mfPanel f) }
  | _ => { s with core := ({ c with acc := wrN c.acc (s.block.base 2 + o.d) 16384 o.out } : Core).mend 2 (s.block.base 2 + o.d) 16384 }

/-- MATRIX_OP_COMPLETE: the oldest operation, once consumed; its flags become pending. -/
def execMatrixOpComplete (dom core : Nat) (s : State) : Host.Outcome State Fault Refusal :=
  .next (s.atEngine dom core fun s =>
    match s.core.engine with
    | [] => s
    | o :: rest =>
      if o.phase == .consumed then
        let s := s.landMop o
        let s := { s with core := { s.core with engine := rest } }
        let up := fun (m : Stream) => { m with doneOps := o.num, opFlags := m.opFlags ++ [(o.num, o.flags)] }
        ({ s with block := { s.block with stream := s.block.stream.map up } }).streamSettle
      else s)

/-! The sequencer -/

/-- A form of the matrix stream: in a vector stream it is refused by R88; in the stream its operands are checked
(R316), and it acts. -/
def mat (i : Instr) (s : State) (f : State → Stream → State) : Host.Outcome State Fault Refusal :=
  .next (match s.kind with
    | .idle => s
    | .path => s.issueVec i id
    | .stream =>
      match s.block.stream with
      | none => s
      | some m =>
        if !i.wf then s.streamFault .illegalOperand m.pc 0
        else if !legalPc (nextPc m.pc) && !i.streamTransfers then s.streamFault .illegalPc m.pc 0
        else f s m)

/-- R326: an offset in range of a buffer, and aligned. -/
def offCheck (off n size al : Nat) : Option (Cause × Nat) :=
  if size < off + n then some (.bufferRange, off) else if off % al ≠ 0 then some (.misaligned, off) else none

/-- The first check that fails. -/
def firstFail : List (Option (Cause × Nat)) → Option (Cause × Nat)
  | [] => none
  | some x :: _ => some x
  | none :: l => firstFail l

/-- R326: the checks of a form, in the order D, A, B, C. -/
def State.mopChecks (s : State) (o : MOp) : List (Option (Cause × Nat)) :=
  let ab := fun off n => offCheck off n (s.block.size 0) 64
  let wb := fun off n => offCheck off n (s.block.size 1) 64
  let acc := fun off => offCheck off 16384 (s.block.size 2) 256
  let scl := fun off n => offCheck off n (s.block.size 3) 1
  match o.kind with
  | .mzero => [acc o.d]
  | .mma _ f => [acc o.d, ab o.a (o.ks * mfPanel f), wb o.b (o.ks * mfPanel f)]
  | .mmas _ f =>
    let n := 64 * mfGroups f * o.ks
    [acc o.d, ab o.a (o.ks * mfPanel f), wb o.b (o.ks * mfPanel f), scl o.rs n, scl o.cs n]
  | .mcvt _ f => [ab o.d (mfPanel f), acc o.a]
  | .madd => [acc o.d, acc o.a]

/-- R319: the engine queue has room. -/
def Core.engineRoom (c : Core) : Bool := decide (c.engine.length < 4)

/-- R319, R326: a compute form is checked and issued; while the queue is full the sequencer stands at it. -/
def compForm (i : Instr) (kind : MKind) (ks : Nat) (o : Args) (s : State) : Host.Outcome State Fault Refusal :=
  mat i s fun s m =>
    let c := (m.rd o.c).toNat
    let op : MOp :=
      { blk := s.block.id, num := m.issuedOps + 1, kind := kind, d := (m.rd o.d).toNat, a := (m.rd o.a).toNat, b := (m.rd o.b).toNat,
        rs := bitsOf c 0 16, cs := bitsOf c 16 16, ks := ks, phase := .issued, out := 0, flags := 0 }
    match firstFail (s.mopChecks op) with
    | some (x, off) => s.streamFault x m.pc (BitVec.ofNat 64 off)
    | none =>
      if s.core.engineRoom then
        ({ s with core := { s.core with engine := s.core.engine ++ [op] } }).streamNext { m with issuedOps := m.issuedOps + 1 }
      else s

def execMzero (o : Args) (s : State) : Host.Outcome State Fault Refusal := compForm (.mzero o) .mzero 1 o s

def execMma (z : Bool) (f : MFmt) (ks : BitVec 4) (o : Args) (s : State) : Host.Outcome State Fault Refusal :=
  compForm (.mma z f ks o) (.mma z f) (ks.toNat + 1) o s

def execMmas (z : Bool) (f : MFmt) (ks : BitVec 4) (o : Args) (s : State) : Host.Outcome State Fault Refusal :=
  compForm (.mmas z f ks o) (.mmas z f) (ks.toNat + 1) o s

def execMcvt (rm : Rm) (f : MFmt) (o : Args) (s : State) : Host.Outcome State Fault Refusal :=
  compForm (.mcvt rm f o) (.mcvt rm f) 1 o s

def execMadd (o : Args) (s : State) : Host.Outcome State Fault Refusal := compForm (.madd o) .madd 1 o s

/-- R333: the arrival is held. -/
def execMarv (n : BitVec 4) (o : Args) (s : State) : Host.Outcome State Fault Refusal :=
  mat (.marv n o) s fun s m =>
    s.streamNext { m with held := m.held ++ [{ bar := n.toNat, pc := m.pc, after := m.issuedOps }] }

/-- R333: why the arrival is refused. -/
def Barrier.marvFault (b : Barrier) : Bool := !b.reg.getLsbD 32 || b.penddrop.getLsbD 32 || b.arr.getLsbD 32

/-- MARV_PERFORM: the oldest held arrival, once every operation issued before it has completed. -/
def execMarvPerform (b : BRef) (s : State) : Host.Outcome State Fault Refusal :=
  .next (s.atBlock b fun s =>
    match s.block.stream with
    | none => s
    | some m =>
      match m.held with
      | [] => s
      | h :: rest =>
        if m.doneOps < h.after then s
        else
          let bar := s.bar h.bar
          if bar.marvFault then (s.putStream { m with held := [] }).streamFault .barOver h.pc 0
          else
            let fl := (m.opFlags.filter fun f => decide (f.1 ≤ h.after)).foldl (fun a f => a ||| f.2) 0
            let m := { m with held := rest, opFlags := m.opFlags.filter fun f => decide (h.after < f.1) }
            let bar := { bar with flg := bar.flg ||| fl, arr := bar.arr ||| (1 : BitVec 33) <<< 32 }
            (((s.putStream m).setBar h.bar (bar.settle (carried m.token m.e) s.streamUnit))).streamSettle)

/-- R334. DESIGN CHOICE (log 127): the stream's wait is none of the barrier and gang waits that R313 counts: the model counts those of
paths. DESIGN CHOICE (log 132): REG = 0 stops a stream that comes to its `mwaitb` with the phase not complete; one that waits already
goes on waiting while REG becomes 0. -/
def execMwaitb (n : BitVec 4) (o : Args) (s : State) : Host.Outcome State Fault Refusal :=
  mat (.mwaitb n o) s fun s m =>
    let b := s.bar n.toNat
    let p := (m.rd o.a).setWidth 32
    if phaseDone b.ph p then s.streamNext (m.wr o.d b.answer)
    else if b.reg = 0 then s.streamFault .barCount m.pc 0
    else s.streamAwait m (.barrier n.toNat p o.d)

def execMpop (n : BitVec 4) (o : Args) (s : State) : Host.Outcome State Fault Refusal :=
  mat (.mpop n o) s fun s m => ((s.streamPop m n.toNat o.d false).getD (s.streamAwait m (.pop n.toNat o.d))).settleQueue n.toNat

/-- R333, R335: a push performs after every held arrival; the stream stands at it until then. -/
def execMpush (n : BitVec 4) (o : Args) (s : State) : Host.Outcome State Fault Refusal :=
  mat (.mpush n o) s fun s m =>
    if m.held ≠ [] then s
    else ((s.streamPush m n.toNat (m.rd o.a)).getD (s.streamAwait m (.push n.toNat (m.rd o.a)))).settleQueue n.toNat

/-- R336. -/
def execMloop (off : BitVec 24) (o : Args) (s : State) : Host.Outcome State Fault Refusal :=
  mat (.mloop off o) s fun s m =>
    let m1 := match o.a with
      | .s _ => m.wr o.a (m.rd o.a + m.rd o.b)
      | _ => m
    let c := m1.rd o.d - 1
    let m2 := m1.wr o.d c
    let pc := if c ≠ 0 then branchPc m.pc off else nextPc m.pc
    if legalPc pc then s.streamGoto m2 pc else s.streamFault .illegalPc m.pc 0

def execMjmp (off : BitVec 24) (o : Args) (s : State) : Host.Outcome State Fault Refusal :=
  mat (.mjmp off o) s fun s m => s.streamGoto m (branchPc m.pc off)

/-- R337: the stream stands at `mend` until everything it issued has completed and every held arrival has performed. -/
def execMend (o : Args) (s : State) : Host.Outcome State Fault Refusal :=
  mat (.mend o) s fun s m =>
    if m.doneOps < m.issuedOps ∨ m.held ≠ [] then s
    else
      let s := s.putStream { m with status := .ended, opFlags := [], ir := none }
      { s with block := s.block.dropStream (carried m.token m.e) s.streamUnit }

/-- The waiting stream goes on, when it can. -/
def State.streamFinish (s : State) : State :=
  match s.block.stream with
  | none => s
  | some m =>
    match m.status with
    | .waiting (.barrier n p d) =>
      let b := s.bar n
      if phaseDone b.ph p then
        let (s, m) := s.streamAdopt 1 (m.wr d b.answer) b.lasttok b.lastUnit
        s.streamNext m
      else s
    | .waiting (.pop n _) | .waiting (.push n _) => s.settleQueue n
    | _ => s

/-- R318, R319, R333: the stream can take its next step: it runs, its fetched form does not stand at a full queue, at a
held arrival or at an operation that has not completed. -/
def Stream.takesStep (m : Stream) (room : Bool) : Bool :=
  m.status == .running && match m.ir with
    | some (.mzero _) | some (.mma _ _ _ _) | some (.mmas _ _ _ _) | some (.mcvt _ _ _) | some (.madd _) => room
    | some (.mpush _ _) => m.held.isEmpty
    | some (.mend _) => m.held.isEmpty && m.doneOps == m.issuedOps
    | _ => true

end Sys2Proof.Machine
end

