-- ==== Sys2Proof/Machine/Clasp.lean ====
section
/-! DEFINITION. OP 0x60 and the events of Clasp regions: opening a region, lane logs, the token, commit and abort
(R342 to R363). -/

namespace Sys2Proof.Machine

/-! Opening a region (R343, R354, R360) -/

/-- R342: the log buffer of a core holds 170 lane logs. -/
def maxLogs : Nat := 170

/-- The region record of a path that stands at a `txb`. -/
def State.newRegion (s : State) (off : BitVec 24) (serial : Bool) : Region :=
  { begin := s.path.pc, stop := branchPc s.path.pc off, depth := s.path.stack.length, serial := serial, aborted := false }

/-- R343: every lane of the path takes a log and enters the region. -/
def State.enterSpec (s : State) (off : BitVec 24) : State :=
  let ls := lanesOf s.path.mask
  let new := ls.map fun l => ({ lane := l, rd := [], wr := [], since := s.core.cycles.toNat } : LaneLog)
  let w := s.wave
  let s : State := { s with wave := { w with logs := new ++ w.logs.filter fun g => !hasLane s.path.mask g.lane },
                            core := { s.core with logs := s.core.logs + ls.length } }
  ({ s with path := { s.path with region := some (s.newRegion off false), txdepth := 1 } }).advance

/-- R354: every lane of the path requests the domain's token, ascending, and the path waits. -/
def State.requestToken (s : State) : State :=
  let reqs := (lanesOf s.path.mask).map fun l => (s.pref, l)
  ({ s with dom := { s.dom with clQueue := s.dom.clQueue ++ reqs } }).await (.token s.path.mask)

def Path.waitsLog (p : Path) : Bool :=
  match p.status with
  | .waiting (.laneLog _) => true
  | _ => false

/-- The paths of the core that wait for a lane log. -/
def State.logWaiters (s : State) : List Path :=
  (((s.allBlocks.filter fun b => b.core == s.core.ix && b.res == .resident).flatMap (·.waves)).flatMap (·.paths)).filter Path.waitsLog

/-- R360, R343: the outermost `txb`; while other lanes wait for a log, the lanes of a new `txb` wait behind them. -/
def State.openRegion (s : State) (off : BitVec 24) : State :=
  let ls := lanesOf s.path.mask
  let w := ls.foldl (fun (w : Wave) l => { w with txcause := mset w.txcause l 0 }) s.wave
  let s : State := { s with wave := w }
  let ser := maskOf (ls.filter fun l => mget s.wave.sernext l == 1)
  let spec := ls.filter fun l => !hasLane ser l
  let got := maskOf (spec.take (if s.logWaiters.isEmpty then maxLogs - s.core.logs else 0))
  s.divide [(got, fun s => s.enterSpec off), (s.path.mask &&& ~~~ser &&& ~~~got, fun s => s.await (.laneLog s.path.mask)),
    (ser, State.requestToken)]

def execTxb (off : BitVec 24) (o : Args) (s : State) : Host.Outcome State Fault Refusal :=
  vec (.txb off o) s fun s => s.remotePoint fun s =>
    if 7 ≤ s.path.txdepth then s.nolog (.txb off o)
    else if s.path.txdepth ≠ 0 then ({ s with path := { s.path with txdepth := s.path.txdepth + 1 } }).advance
    else s.openRegion off

/-- The offset of the `txb` at which the path stands. -/
def Path.txbOff (p : Path) : Option (BitVec 24) :=
  match p.ir with
  | some (.txb off _) => some off
  | _ => none

/-- No path of the core has waited longer for a log. -/
def State.logTurn (s : State) : Bool := s.logWaiters.all fun p => decide (s.path.stamp ≤ p.stamp)

/-- LANE_LOG_GRANT: the lowest waiting lane of the path that has waited longest takes a freed log. -/
def execLaneLogGrant (p : PRef) (s : State) : Host.Outcome State Fault Refusal :=
  .next (s.atPath p fun s =>
    match s.path.txbOff with
    | some off =>
      if s.path.waitsLog && decide (s.core.logs < maxLogs) && s.block.res == .resident && s.logTurn then
        s.part ((1 : W64) <<< lowLane s.path.mask) (fun s => ({ s with path := { s.path with status := .running } }).enterSpec off) id
      else s
    | none => s)

/-! The token (R354) -/

def Path.waitsToken (p : Path) : Bool :=
  match p.status with
  | .waiting (.token _) => true
  | _ => false

/-- The path of a wave that holds a lane and waits for the token. -/
def State.tokenPath (s : State) (r : PRef × Nat) : Option PRef :=
  let b := s.allBlocks.find? fun b => b.id == r.1.blk && b.res == .resident
  let w := b.bind fun b => b.waves.find? fun w => w.wid == r.1.wave
  (w.bind fun w => w.paths.find? fun p => p.waitsToken && hasLane p.mask r.2).map fun p => { r.1 with pid := p.pid }

/-- R354: the granted lane enters the region in serial mode. -/
def State.enterSerial (s : State) (off : BitVec 24) (lane : Nat) : State :=
  let w := s.wave
  let s : State := { s with wave := { w with sernext := mset w.sernext lane 0, run := mset w.run lane 0 },
                            path := { s.path with region := some (s.newRegion off true), txdepth := 1, status := .running } }
  let x : Serial := { p := s.pref, lane := lane, since := s.core.cycles.toNat, undo := [] }
  ({ s with dom := { s.dom with serial := some x, locks := [] } }).advance

/-- The first request whose lane still waits, and the requests after it. -/
def State.nextToken (s : State) : List (PRef × Nat) → Option ((PRef × Nat) × List (PRef × Nat))
  | [] => none
  | r :: rs =>
    match s.tokenPath r with
    | some p => some ((p, r.2), rs)
    | none => s.nextToken rs

/-- CLASP_TOKEN_GRANT: the token goes to the next requesting lane of the domain, which splits from its path. -/
def execClaspTokenGrant (dom : Nat) (s : State) : Host.Outcome State Fault Refusal :=
  let s := s.focusDom dom
  .next (if s.dom.serial.isSome then s
    else match s.nextToken s.dom.clQueue with
      | none => s
      | some ((p, lane), rest) =>
        let s := { s with dom := { s.dom with clQueue := rest } }
        s.atPath p fun s =>
          match s.path.txbOff with
          | none => s
          | some off => s.part ((1 : W64) <<< lane) (fun s => s.enterSerial off lane) id)

/-! Commit (R346, R347, R355, R361) -/

/-- The value of a granule at its home slice, after owners are recalled. DESIGN CHOICE (log 123): the core's own dirty copy is written
back first, as R344 says of the transactional load that logged the value. -/
def State.granHome (s : State) (key : Nat) : State × W64 :=
  let sec := key / 64
  let s := (s.flushL1 (fun x => x.is s.core.ix sec && x.dirty) true).recall 96 sec true
  (s, BitVec.ofNat 64 (s.home key 8))

/-- R355: what others see of a granule that the serial lane has written: its value before that lane's writes. DESIGN CHOICE (log 122):
that value is the one with which R352's revalidation compares, which neither waits nor bounces at the lock. -/
def State.settled (s : State) (key : Nat) (v : W64) : W64 := (s.dom.settledAt key).getD v

/-- R346, R352: every granule of the read log has the logged value. -/
def State.validates (s : State) : List Gran → State × Bool
  | [] => (s, true)
  | g :: gs =>
    let (s, v) := s.granHome g.key
    if s.settled g.key v = g.val then s.validates gs else (s, false)

/-- R346: a granule's masked bytes are written at the home slice, and every L1 copy of the sector goes; D of its page is set if this is
the first write (R285). -/
def State.commitGran (s : State) (g : Gran) : State :=
  let s := (((s.setD s.cluster s.tenant g.va).1).flushL1 (fun x => x.key == g.key / 64) false).l2Access (some s.tenant) g.key g.prio none true
  s.homePut (some s.tenant) g.key 8 (mergeBytes (BitVec.ofNat 64 (s.home g.key 8)) g.val g.bytes).toNat (.tok s.carry s.pathUnit)

/-- R347, R163: the cache actions of the commit's release and acquire at die scope, about its writes. -/
def State.commitEvent (s : State) (f : State → State) : State :=
  (f (s.release s.core.ix .die)).acquire s.core.ix .die

/-- R346: a lane commits, or why not: the detail of its CONFLICT. -/
def State.commitLane (s : State) (lane : Nat) : State × Option Nat :=
  let g := s.logOf lane
  let xs := g.wr.map fun x => x.key / 64
  let ss := (g.rd.map fun x => x.key / 64).filter fun x => !xs.contains x
  let meets := s.dom.locks.any fun l => xs.contains l.sector || (l.excl && ss.contains l.sector)
  if meets then (s, some 2)
  else match s.validates g.rd with
    | (s, false) => (s, some 0)
    | (s, true) => (s.commitEvent fun s => g.wr.foldl State.commitGran s, none)

/-- R355, R347: the serial lane releases its locks and the token; its writes become visible together, with the path's token. -/
def State.commitSerial (s : State) : State :=
  let m : TokMark := .tok s.carry s.pathUnit
  let secs := distinct (((s.dom.serial.map (·.undo)).getD []).map fun u => u.1 / 64)
  (secs.foldl (fun (s : State) sec => s.publish sec m) s).unlock

/-- R361: the region is closed: D holds which lanes committed. -/
def State.closeRegion (s : State) (d : Opnd) (ok : W64) : State :=
  let s := s.put false s.path.mask d fun l => if hasLane ok l then 1 else 0
  ({ s with path := { s.path with txdepth := 0, region := none } }).advance

/-- R312: a committed lane's conflict run and SERNEXT. -/
def Wave.committed (w : Wave) (ok : W64) : Wave :=
  (lanesOf ok).foldl (fun w l => { w with run := mset w.run l 0, sernext := mset w.sernext l 0 }) w

/-- R351, R361: the region is closed for the lanes that committed, `ok`, and for those that did not, which leave the entries pushed
inside it. -/
def State.closeLanes (s : State) (d : Opnd) (ok : W64) : State :=
  match s.path.region with
  | none => s.closeRegion d ok
  | some r =>
    if r.aborted || decide (s.path.stack.length ≤ r.depth) then s.closeRegion d ok
    else s.part ok (fun s => s.closeRegion d ok) fun s => (s.cutStack r.depth).closeRegion d ok

/-- R361: a lane commits, or takes a CONFLICT; its log is freed. Answers whether it committed. -/
def State.commitOne (s : State) (l : Nat) : State × Bool :=
  let m := (1 : W64) <<< l
  match s.commitLane l with
  | (s, none) => (({ s with wave := s.wave.committed m } : State).freeLogs m, true)
  | (s, some d) => ((({ s with wave := s.wave.abortLane l .conflict d 1 false } : State).count (.claspAbort 1)).freeLogs m, false)

/-- R402, R407: a granule of a lane's read log that lies behind a second-tier port or device that has failed, or in a poisoned
sector. -/
def State.readFailed (s : State) (lane : Nat) : Option Gran :=
  (s.logOf lane).rd.find? fun g => s.tier2Failed g.key || s.dom.poison.contains (g.key / 64)

/-- R402: such a granule, or one of the write log behind a port or device that has failed. -/
def State.logFailed (s : State) (lane : Nat) : Option Gran :=
  (s.readFailed lane).orElse fun _ => (s.logOf lane).wr.find? fun g => s.tier2Failed g.key

/-- R361: the lanes `todo` are still to commit; the next of them does in the next cycle. -/
def State.commitRest (s : State) (todo ok : W64) (d : Opnd) : State :=
  if todo = 0 then s.closeLanes d ok
  else
    let t := s.await (.commit todo ok d)
    { t with path := { t.path with since := s.core.cycles.toNat } }

/-- R346, R361: the lowest of the lanes that are still to commit does; the next one follows in the next cycle. DESIGN CHOICE (log
111). A lane whose commit would reach a second-tier port that has failed, or read a poisoned sector, takes UNCORRECTABLE, which a region
raises as usual (R349, R402, R407); the others go on. -/
def State.commitNext (s : State) (todo ok : W64) (d : Opnd) : State :=
  let todo := todo &&& s.path.mask
  if todo = 0 then s.closeLanes d ok
  else
    let l := lowLane todo
    let m := (1 : W64) <<< l
    match s.logFailed l with
    | some g => s.trapLanes m .uncorrectable false 0 (fun _ => g.va) (fun _ => 0) fun s => s.commitRest (todo &&& ~~~m) ok d
    | none =>
      let (s, yes) := s.commitOne l
      s.commitRest (todo &&& ~~~m) (if yes then ok ||| m else ok) d

/-- R346: the path goes on with its commits. -/
def State.commitFinish (s : State) : State :=
  match s.path.status with
  | .waiting (.commit todo ok d) => s.commitNext todo ok d
  | _ => s

/-- R355, R361: the outermost `txe`. -/
def State.endRegion (s : State) (r : Region) (d : Opnd) : State :=
  let m := s.path.mask
  if r.aborted then (s.freeLogs m).closeLanes d 0
  else if r.serial then
    let s := s.commitEvent State.commitSerial
    (({ s with wave := s.wave.committed m } : State).freeLogs m).closeLanes d m
  else s.commitNext m 0 d

def execTxe (o : Args) (s : State) : Host.Outcome State Fault Refusal :=
  vec (.txe o) s fun s =>
    match s.path.txdepth, s.path.region with
    | 1, some r => s.remotePoint fun s => s.endRegion r o.d
    | 0, _ => s.trap .reconMismatch 0
    | n, _ => ({ s with path := { s.path with txdepth := n - 1 } }).advance

/-- R362. -/
def execTxabt (o : Args) (s : State) : Host.Outcome State Fault Refusal :=
  vec (.txabt o) s fun s => s.once o fun s =>
    if s.path.inRegion then
      s.part (s.guard o.h) (fun s => ({ s with path := s.path.countDown } : State).abortWith fun l => (.explicit, (s.rd false l o.a).toNat % 256)) State.advance
    else s.advance

/-- R363: the value of `txst` for a lane; the mask forms take that of the lowest. -/
def State.txstVal (s : State) (k : Nat) (m : W64) (l : Nat) : W64 :=
  match k with
  | 0 => (mget s.wave.txcause l).setWidth 64
  | 1 => maskOf ((lanesOf m).filter fun l => (mget s.wave.txcause l).toNat % 16 != 0)
  | 2 => maskOf ((lanesOf m).filter fun l => mget s.wave.sernext l == 1)
  | _ =>
    let n := if s.path.speculative then (s.logOf l).rd.length + 256 * (s.logOf l).wr.length else 0
    BitVec.ofNat 64 (n + 65536 * s.path.txdepth)

def execTxst (k : BitVec 2) (o : Args) (s : State) : Host.Outcome State Fault Refusal :=
  vec (.txst k o) s fun s => s.once o fun s =>
    let m := s.guard o.h
    (s.put false m o.d fun l => s.txstVal k.toNat m l).advance

/-! Revalidation and the serial bound (R352, R356) -/

/-- R352: the lanes of the path that hold a log and whose interval has passed. -/
def State.revalLanes (s : State) : List Nat :=
  if s.path.speculative then
    (lanesOf s.path.mask).filter fun l => s.wave.logs.any fun g =>
      g.lane == l && decide (g.since + s.dom.cfg.revalidation ≤ s.core.cycles.toNat)
  else []

/-- R352: of these lanes, those whose read log differs from memory. -/
def State.staleLanes (s : State) : List Nat → State × W64
  | [] => (s, 0)
  | l :: ls =>
    let (s, ok) := s.validates (s.logOf l).rd
    let (s, m) := s.staleLanes ls
    (s, if ok then m else m ||| (1 : W64) <<< l)

/-- CLASP_REVALIDATION. R402, R407: a lane whose read cannot be made takes UNCORRECTABLE, unless its path stands at PRIV 1 for one already. -/
def execClaspRevalidation (p : PRef) (s : State) : Host.Outcome State Fault Refusal :=
  .next (s.atPath p fun s =>
    let ls := s.revalLanes
    let dead := ls.filter fun l => (s.readFailed l).isSome
    let (s, bad) := s.staleLanes (ls.filter fun l => !dead.contains l)
    let up := fun g : LaneLog => if ls.contains g.lane then { g with since := s.core.cycles.toNat } else g
    let s : State := { s with wave := { s.wave with logs := s.wave.logs.map up } }
    let trap := fun s : State => s.trapFull .uncorrectable false 0 (fun l => ((s.readFailed l).map (·.va)).getD 0) (fun _ => 0)
    let m := if s.path.priv then 0 else maskOf dead
    if bad = 0 ∧ m = 0 then s
    else s.divide [(bad, fun s => s.abort .conflict 1), (m, trap), (s.path.mask &&& ~~~bad &&& ~~~m, id)])

/-- The path of the serial lane, wherever it stands. -/
def State.serialPath (s : State) (x : Serial) : Option PRef :=
  let b := s.allBlocks.find? fun b => b.id == x.p.blk
  let w := b.bind fun b => b.waves.find? fun w => w.wid == x.p.wave
  (w.bind fun w => w.paths.find? fun p => hasLane p.mask x.lane && p.serial).map fun p => { x.p with pid := p.pid }

/-- SERIAL_BOUND_EXPIRY: a serial lane that has passed the bound is rolled back and takes CLASP_WAIT at its begin PC. -/
def execSerialBoundExpiry (dom : Nat) (s : State) : Host.Outcome State Fault Refusal :=
  let s := s.focusDom dom
  .next (match s.dom.serial with
    | none => s
    | some x =>
      match s.serialPath x with
      | none => s
      | some p => s.atPath p fun s =>
        if s.dom.cfg.serial < s.core.span x.since then
          let info := BitVec.ofNat 64 (2 ^ 63 + s.path.pc.toNat % 2 ^ 56)
          s.unserial.trap .claspWait info
        else s)

end Sys2Proof.Machine
end

