-- ==== Sys2Proof/Machine/Filigree.lean ====
section
/-! DEFINITION. OP 0x61: Filigree steps and marks, and range labels (R375 to R378). -/

namespace Sys2Proof.Machine

/-- R376: writes a MARK or STEPEND record of the path; answers TOTAL and the index. What WRAP says is taken when the index
is allocated. -/
def State.ownRecord (s : State) (kind : Nat) (wrap : State → Bool) (drop : Bool) (wait : Nat) : State × Nat × Nat :=
  let p := s.path
  let (s, i) := s.ringIndex
  let total := tokLen (carried p.token p.e)
  let r := edgeRecord kind (wrap s) drop total (p.e.toNat / 2 ^ 24) (tokIdx p.token) p.stepid.toNat wait s.pathUnit s.pathUnit
  let (s, d) := s.ringWrite s.pathUnit i r
  ({ s with path := { s.path with drop := s.path.drop || d } }, total, i)

/-- R364: the ring index counter of the launch part. -/
def State.ringCount (s : State) : Nat := (s.launch.map (·.ringNext)).getD 0

def execStepb (o : Args) (s : State) : Host.Outcome State Fault Refusal :=
  vec (.stepb o) s fun s => s.once o fun s =>
    if s.path.inRegion then s.nolog (.stepb o)
    else
      let x := (s.uni o.a).setWidth 32
      let start := BitVec.ofNat 26 s.ringCount
      ({ s with path := { s.path with stepid := x, token := 0, e := 0, drop := false, stepStart := start } }).advance

def execFgmark (o : Args) (s : State) : Host.Outcome State Fault Refusal :=
  vec (.fgmark o) s fun s => s.once o fun s =>
    if s.path.inRegion then s.nolog (.fgmark o)
    else
      let (s, total, i) := s.ownRecord 8 (fun _ => false) false ((s.uni o.a).toNat % 2 ^ 32)
      ({ s with path := { s.path with token := mkTok total i, e := 0 } }).advance

/-- R369: the counter has advanced by more than the ring holds since the path's `stepb`; it counts modulo 2^26 − 1. -/
def State.wrapped (s : State) : Bool :=
  let n := 2 ^ 26 - 1
  decide (2 ^ ((s.launch.map (·.ringlog)).getD 0) < (s.ringCount + n - s.path.stepStart.toNat) % n)

def execStepe (o : Args) (s : State) : Host.Outcome State Fault Refusal :=
  vec (.stepe o) s fun s => s.once o fun s =>
    if s.path.inRegion then s.nolog (.stepe o)
    else s.remotePoint fun s =>
      let (s, total, i) := s.ownRecord 9 State.wrapped s.path.drop 0
      let s := s.release s.core.ix .die
      (s.putS o.d (mkTok total i)).advance

/-- R377. -/
def execRngpush (o : Args) (s : State) : Host.Outcome State Fault Refusal :=
  vec (.rngpush o) s fun s => s.once o fun s =>
    let x : W32 := (s.uni o.a).setWidth 32
    if x = 0 then s.trapOnce o.h .illegalOperand 0
    else ({ s with path := { s.path with ranges := (x :: s.path.ranges).take 16 } }).advance

def execRngpop (o : Args) (s : State) : Host.Outcome State Fault Refusal :=
  vec (.rngpop o) s fun s => s.once o fun s =>
    let x := s.path.ranges.headD 0
    (({ s with path := { s.path with ranges := s.path.ranges.tail } }).putS o.d (x.setWidth 64)).advance

end Sys2Proof.Machine
end

