-- ==== Sys2Proof/Machine/Issue.lean ====
section
/-! DEFINITION. Which path issues, the clock of a core, and the end of waits (R13, R26 to R30, R45, R241, R242,
R366, R372, R381). -/

namespace Sys2Proof.Machine

/-! Ready paths (R26) -/

/-- The launch of a block has been terminated (R387). -/
def Dom.launchDead (d : Dom) (id : W32) : Bool := ((d.launch id).map (·.dead)).getD true

/-- The path runs, and nothing holds it but the fetch of its next instruction. -/
def Path.runs (p : Path) (c : Core) : Bool :=
  p.status == .running && !p.halted && decide (p.hold ≤ c.cycles.toNat)

/-- A path of a block on a core, to memory. -/
def State.pathWho (s : State) (p : Path) (c : Core) (b : Block) : Who :=
  { core := c.ix, tenant := ((s.dom.launch b.launch).map (·.tenant)).getD 0, user := !p.priv, unit := unitUnknown, serial := false }

/-- R26: the path is ready: its instruction is fetched and its operands are not pending. -/
def State.readyPath (s : State) (p : Path) (c : Core) (b : Block) (w : Wave) : Bool :=
  p.runs c && match p.ir with
    | some i => !w.pendingFor p (s.usesIn (s.pathWho p c b) w p.fmt i)
    | none => false

/-- R394: a halted path into which the debugger feeds instructions. -/
def Dom.feeds (d : Dom) (p : PRef) : Bool := d.dbgPath == some p && d.dbgBuffer != []

/-! The choice of a slot (R26 to R29) -/

/-- A ready path as the scheduler of its slot sees it. -/
structure Cand where
  ref : PRef
  age : Nat
  aged : Nat
  lane : Nat
  placed : Nat
  pid : Nat
  octets : List Nat
  pipe : Pipe
  uni : Bool
  deriving DecidableEq, Repr

/-- R29: `a` stands before `b`. -/
def Cand.before (a b : Cand) : Bool :=
  if a.age = 255 ∧ b.age = 255 then decide (a.aged < b.aged ∨ (a.aged = b.aged ∧ a.lane ≤ b.lane))
  else if a.age = 255 then true
  else if b.age = 255 then false
  else decide (a.placed < b.placed ∨ (a.placed = b.placed ∧ a.pid ≤ b.pid))

def insertCand (a : Cand) : List Cand → List Cand
  | [] => [a]
  | b :: l => if a.before b then a :: b :: l else b :: insertCand a l

/-- R29: the order of a slot. -/
def slotOrder (cs : List Cand) : List Cand := cs.foldr insertCand []

/-- R26: of the paths that follow in the order, those of the class whose octets are free. -/
def takeClass (pipe : Pipe) : List Nat → List Cand → List Cand
  | _, [] => []
  | used, c :: cs =>
    if c.pipe = pipe ∧ (c.octets.all fun o => !used.contains o) = true then c :: takeClass pipe (c.octets ++ used) cs
    else takeClass pipe used cs

/-- R26, R27, R241: the paths that issue in this cycle, of the octet pipes and of the uniform unit, in the order of R29, which R241 and
R299 take too. What R111 says of the uniform unit's s registers is `Path.over`. -/
def slotPick (cs : List Cand) : List Cand :=
  let octs := (slotOrder cs).filter fun c => !c.uni
  let picks := match octs with
    | [] => []
    | c :: rest => c :: takeClass c.pipe c.octets rest
  match (slotOrder cs).find? fun c => c.uni with
  | none => picks
  | some u => insertCand u picks

/-- R26: the octets of a path, by the slot's numbering. -/
def Path.octets (p : Path) (w : Wave) : List Nat :=
  (List.range 8).filter fun o => (List.range 8).any fun k =>
    8 * w.octet ≤ 8 * o + k && hasLane p.mask (8 * o + k - 8 * w.octet)

/-- A path that may issue. A path that the debugger feeds takes its slot through the uniform unit. -/
def State.cand (s : State) (p : Path) (c : Core) (b : Block) (w : Wave) : Option Cand :=
  let ref : PRef := { dom := s.dom.ix, blk := b.id, wave := w.wid, pid := p.pid }
  let mk := fun pipe uni => ({ ref := ref, age := p.age, aged := p.aged, lane := 8 * w.octet + lowLane p.mask, placed := w.placed,
                                  pid := p.pid, octets := p.octets w, pipe := pipe, uni := uni } : Cand)
  if p.halted && s.dom.feeds ref then some (mk .uni true)
  else if s.readyPath p c b w then
    match p.ir with
    | some i => some (mk i.pipeClass i.uniform)
    | none => none
  else none

/-- The resident blocks of a core that have not been terminated. -/
def Dom.resident (d : Dom) (core : Nat) : List Block :=
  d.blocks.filter fun b => b.core == core && b.res == .resident && !d.launchDead b.launch

/-- The candidates of a slot. -/
def State.cands (s : State) (c : Core) (slot : Nat) : List Cand :=
  (s.dom.resident c.ix).flatMap fun b => (b.waves.filter fun w => w.slot == slot).flatMap fun w =>
    w.paths.filterMap fun p => s.cand p c b w

/-! One cycle of a core -/

/-- R45: a wait in which a path counts as blocked for residency. -/
def Wait.blocks : Wait → Bool
  | .barrier _ _ _ | .gang _ _ _ | .push _ _ | .pop _ _ | .sig _ _ _ _ _ _ | .mon _ _ _ _ _ | .timeline _ | .batch _ => true
  | _ => false

/-- R45, R431: the path is blocked, parked or halted. -/
def Path.blocked (p : Path) (b : Block) : Bool :=
  p.halted || match p.status with
    | .waiting .copyIdle => b.copy.ops.all (fun o => o.parked.isSome) && b.copy.elems.all fun e => e.parked.isSome
    | .waiting w => w.blocks
    | .parked _ => true
    | _ => false

/-- R45, R303, R340: the stream does not keep its block from being idle-blocked; one that is parked does. DESIGN CHOICE (log 140): one
that waits in `mwaitb`, `mpop` or `mpush` while operations that it has issued are not complete, or arrivals are held, is not blocked, since
the block's own engines are to be idle before it leaves its core (R48), though R334 and R340 say that a stream that waits is. -/
def Stream.blocked (m : Stream) : Bool :=
  (match m.status with
    | .waiting _ | .ended | .stopped => true
    | _ => false) && m.doneOps == m.issuedOps && m.held.isEmpty

/-- R45: idle-blocked. -/
def Block.idleBlocked (b : Block) : Bool :=
  b.res == .resident && (b.waves.all fun w => w.paths.all fun p => p.blocked b)
    && ((b.stream.map Stream.blocked).getD true)
    && (b.copy.ops.all fun o => o.parked.isSome) && (b.copy.elems.all fun e => e.parked.isSome)

/-- R28: the ageing counter after a cycle. -/
def Path.aging (p : Path) (chosen : Bool) (cand : Bool) (now : Nat) : Path :=
  if chosen then { p with age := 0 }
  else if cand && decide (p.age < 255) then { p with age := p.age + 1, aged := if p.age = 254 then now else p.aged }
  else p

/-- R366, R389: a cycle of `ns` passes for a path. -/
def Path.pass (p : Path) (ns : W64) : Path :=
  { p with e := p.e + ns, privFor := if p.priv then p.privFor + ns.toNat else p.privFor }

/-- R111: what the instructions of a wave read of its s registers when several paths of it issue in the cycle. -/
def Path.sees (p : Path) (chosen several : Bool) (regs : SMap 64) : Path :=
  { p with seen := if chosen && several then some regs else none, under := [] }

/-- What a cycle does to a resident block. -/
def State.cycleBlock (s : State) (b : Block) (c : Core) (chosen : List PRef) : Block :=
  let up := fun (w : Wave) (p : Path) =>
    let ref : PRef := { dom := s.dom.ix, blk := b.id, wave := w.wid, pid := p.pid }
    let several := decide (2 ≤ (chosen.filter fun r => r.dom == s.dom.ix && r.blk == b.id && r.wave == w.wid).length)
    ((p.aging (chosen.contains ref) (s.cand p c b w).isSome c.cycles.toNat).pass c.nspercyc).sees (chosen.contains ref) several w.s
  let copy := { b.copy with ops := b.copy.ops.map (fun o => { o with e := o.e + c.nspercyc }),
                            elems := b.copy.elems.map fun x => { x with e := x.e + c.nspercyc } }
  { b with waves := b.waves.map (fun w => { w with paths := w.paths.map (up w) }), copy := copy,
           stream := b.stream.map (fun (m : Stream) => { m with e := m.e + c.nspercyc }),
           idleSince := if b.idleBlocked then (match b.idleSince with
             | some t => some t
             | none => some c.cycles.toNat) else none }

/-- The stream of a block issues in this cycle; a block that is being pre-empted issues no more (R340, R392). -/
def Block.streamIssues (b : Block) (c : Core) : Bool :=
  b.preempt.isNone && match b.stream with
    | some m => m.ir.isSome && m.takesStep c.engineRoom
    | none => false

/-- R381: what a sampling interval is drawn from; the draw is open (log 9). -/
def drawInterval (n fresh : Nat) : Nat := n / 2 + (Config.freeValue fresh).toNat % (n + 1)

/-- R381: what a lane's access reaches: a typed buffer, or a virtual address. -/
inductive Reach
  | buffer (a : W64)
  | global (a : W64)
  deriving DecidableEq, Repr

/-- R381: the access of lane `l`, where the instruction makes one. -/
def State.accessOf (s : State) (i : Instr) (l : Nat) : Option Reach :=
  let at_ := fun (ab : Bool) (x : Idx) (o : Args) => some (if ab then Reach.buffer (s.addr l x o.a o.b) else .global (s.addr l x o.a o.b))
  match i with
  | .lds _ x o | .sts _ x o | .ldacc _ x o | .stacc _ x o => at_ true x o
  | .ld _ _ sc _ x o | .st _ _ sc _ x o | .atom _ _ _ sc _ x o | .cas _ _ sc _ x o | .red _ _ _ sc _ x o
  | .mwait _ sc _ x o => at_ (sc == .ab) x o
  | .prefetch _ x o | .prefetchL2 _ x o | .ldc _ x o | .cpl _ _ x o | .cplOut _ _ x o | .psigSet _ x o | .psigAdd _ x o
  | .sigwait _ _ _ x o | .signal _ _ _ x o | .cctlWb x o | .cctlWbinv x o | .cctlDemoteEf x o | .cctlDemote x o
  | .cctlSettag x o => at_ false x o
  | .rgres _ o | .rgcmt _ o | .rgpop _ o | .rgfree _ o | .rbsurrHold _ o | .rbsurrSkip _ o | .rbclaim _ o => some (.global (s.uni o.a))
  | .brx _ _ o => some (.global (s.uni o.a + 8 + BitVec.ofNat 64 (8 * ((s.rd false l o.b).toNat % 2 ^ 32))))
  | .spawn _ _ _ o => some (.global (s.rd true l o.b))
  | _ => none

/-- R174: what is checked for the access of an instruction. -/
def accessWant (i : Instr) : Want :=
  let w := fun (n : Nat) (write atomic : Bool) => ({ n := n, write := write, atomic := atomic, tags := true, sc := none } : Want)
  match i with
  | .ld _ _ _ sz _ _ | .ldc sz _ _ | .mwait _ _ sz _ _ | .sigwait _ _ sz _ _ => w (sizeBytes sz) false false
  | .st _ _ _ sz _ _ => w (sizeBytes sz) true false
  | .atom _ _ _ _ sz _ _ | .cas _ _ _ sz _ _ | .red _ _ _ _ sz _ _ | .signal _ _ sz _ _ => w (sizeBytes sz) true true
  | .psigSet _ _ _ | .psigAdd _ _ _ | .rgres _ _ | .rgcmt _ _ | .rgpop _ _ | .rgfree _ _ | .rbsurrHold _ _ | .rbsurrSkip _ _
  | .rbclaim _ _ => w 8 true true
  | .spawn _ _ _ _ => w 4 true true
  | .brx _ _ _ => w 8 false false
  | .cplOut _ sz _ _ => w (sizeBytes sz) true false
  | .cpl _ sz _ _ => w (sizeBytes sz) false false
  | .cctlWb _ _ => cctlWant .wb
  | .cctlWbinv _ _ => cctlWant .wbinv
  | .cctlDemoteEf _ _ => cctlWant .demoteEf
  | .cctlDemote _ _ => cctlWant .demote
  | .cctlSettag _ _ => cctlWant .settag
  | _ => w 0 false false

/-- R153, R163, R165, R184, R200: the access of an instruction performs at the home slice, whatever the L1 holds; a constant read that its
cache does not serve does. -/
def accessHome (i : Instr) (l : Leaf) : Bool :=
  match i with
  | .st _ _ _ _ _ _ => l.reg == 1
  | .atom _ _ _ _ _ _ _ | .cas _ _ _ _ _ _ => !l.atomInL1
  | .red _ _ _ _ _ _ _ | .signal _ _ _ _ _ | .psigSet _ _ _ | .psigAdd _ _ _ | .prefetchL2 _ _ _ | .cpl _ _ _ _ | .cplOut _ _ _ _
  | .rgres _ _ | .rgcmt _ _ | .rgpop _ _ | .rgfree _ _ | .rbsurrHold _ _ | .rbsurrSkip _ _ | .rbclaim _ _ | .spawn _ _ _ _
  | .cctlSettag _ _ | .ldc _ _ _ => true
  | _ => false

/-- R153, R184: the access reaches no level: a constant read that its cache serves, a prefetch that is dropped. -/
def State.noAccess (s : State) (i : Instr) (va : W64) : Bool :=
  match i with
  | .prefetch _ _ _ | .prefetchL2 _ _ _ => (s.pfTarget va).isNone
  | .ldc _ _ _ => s.dom.ccache.any fun x => x.core == s.core.ix && x.tenant == s.tenant && x.va == sectorVa va
  | _ => false

/-- R152, R160, R381: the level at which an access that passes the L1 finds its line; the home slices hold lines of host memory too. -/
def State.homeLevel (s : State) (l : Leaf) (va : W64) : Nat :=
  let x := s.dom.lineOf (l.key va) 0 0 none
  if l.reg ≠ 3 ∧ s.dom.l2.any x.same then 2
  else if l.tier = 3 then 7
  else if l.reg ≠ 3 ∧ s.dom.msc.any { x with keyid := 0 }.same then 3
  else if l.tier = 1 then 5 else 4

/-- R201: the forms that act inside a Clasp region as they do outside it. -/
def outsideRegion : Instr → Bool
  | .prefetch _ _ _ | .prefetchL2 _ _ _ | .ldc _ _ _ | .brx _ _ _ => true
  | _ => false

/-- R344: a speculative lane reads granules of an access at the home slice: some that its read log does not hold, and for which the logs
have room (R345). -/
def State.specReads (s : State) (lane : Nat) (sz : Size) (write : Bool) (l : Leaf) (va : W64) : Bool :=
  let g := s.logOf lane
  let n := g.needs l (granules va (sizeBytes sz))
  n.1 != 0 && decide (g.rd.length + n.1 ≤ 16) && (!write || decide (g.wr.length + n.2 ≤ 8))

/-- R201, R344, R355, R381: the level that a lane's access inside a region reaches: the home slice for what a speculative lane reads
there and for the serial lane, none for what only meets the lane's logs and for what aborts. -/
def State.regionLevel (s : State) (i : Instr) (lane : Nat) (l : Leaf) (va : W64) : Nat :=
  let home := s.homeLevel l va
  let spec := fun (sz : Size) (write : Bool) => if s.path.serial || s.specReads lane sz write l va then home else 0
  if l.tier = 3 ∨ l.reg = 3 then 0
  else match i with
    | .ld _ _ _ sz _ _ => spec sz false
    | .atom _ _ _ _ sz _ _ | .cas _ _ _ sz _ _ => spec sz true
    | .st _ _ _ _ _ _ => if s.path.serial then home else 0
    | _ => 0

/-- R381: the deepest level that lane `lane`'s access of an instruction reaches, as the caches stand; none for one that fails a check,
for a prefetch that is dropped, or where the constant cache serves. -/
def State.levelOf (s : State) (i : Instr) (lane : Nat) : Reach → Nat
  | .buffer _ => 8
  | .global va =>
    let inside := s.path.inRegion && !outsideRegion i
    match (s.check s.who va (accessWant i)).2 with
    | .error _ => 0
    | .ok (.loc _ l) =>
      if s.noAccess i va then 0
      else if inside then s.regionLevel i lane l va
      else if l.reg ≠ 3 ∧ accessHome i l = false ∧ (s.dom.l1Find s.core.ix s.tenant va).isSome then 1
      else s.homeLevel l va
    | .ok _ => if inside || s.noAccess i va then 0 else 6

/-- R381: the second half of a sample, but for BOUNCES. The latencies are open (log 9); an instruction that traps as it executes has
none in the stage after. -/
def State.sampleBits (s : State) (trapped : Bool) : Nat :=
  let ls := lanesOf (s.path.ir.map s.actsOn |>.getD 0)
  let acc : Nat → Option (Instr × Reach) := fun l => s.path.ir.bind fun i => (s.accessOf i l).map fun a => (i, a)
  let level := ls.foldl (fun n l => match acc l with
    | some x => max n (s.levelOf x.1 l x.2)
    | none => n) 0
  let first : Option Reach := (ls.head?.bind acc).map fun x => x.2
  let addr : W64 := match first with
    | some (.buffer a) | some (.global a) => a
    | none => 0
  let f := fun k => (Config.freeValue (s.fresh + k)).toNat % 2 ^ 16
  f 0 * 2 ^ 240 + f 1 * 2 ^ 224 + f 2 * 2 ^ 208 + f 3 * 2 ^ 192 + (if trapped then 0 else f 4 * 2 ^ 176)
    + level * 2 ^ 172 + addr.toNat * 2 ^ 64

/-- R381: of what became of a path that issued, it took a trap. -/
def State.tookTrap (s old : State) : Bool :=
  (s.launch.map (·.dead)).getD true || s.wavePaths.any fun p => p.mask &&& old.path.mask != 0 &&
    ((p.halted && !old.path.halted) || (p.priv && !old.path.priv) || decide (old.path.hdepth < p.hdepth) ||
      match p.status with
      | .parked _ | .waiting .superv => true
      | _ => false)

/-- R381: the instruction at which `old` stood has been performed up to `s`: its sample is written, or stands with the
Locket entry of its access that has still to perform. -/
def State.sampled (s old : State) : State :=
  if (s.dom.trace.map fun c => old.traced c 4).getD false then
    let ps := [old.traceBits 4, old.sampleBits (s.tookTrap old)]
    let s : State := { s with fresh := s.fresh + 5 }
    match s.wave.locket.find? fun e => !old.wave.locket.any fun x => x.tag == e.tag with
    | some x => { s with wave := { s.wave with locket := updIf (fun e => e.tag == x.tag) (fun e => { e with sample := some ps }) s.wave.locket } }
    | none => s.traceLog ps
  else s

/-- SAMPLE_INTERVAL: the slot picks what it issues of a path that matches. -/
def execSampleInterval (p : PRef) (s : State) : Host.Outcome State Fault Refusal :=
  .next { s with issueQ := updIf (fun r => r.p == p && !r.stream) (fun r => { r with sample := true }) s.issueQ }

/-- R381: the interval of a slot runs down by an issue cycle. DESIGN CHOICE (log 141): that is a cycle in which the slot issues
something. When it has passed, a new one is drawn and one of the
chosen paths that match is sampled. `left` 0 means that no interval runs yet. -/
def State.sampleSlot (s : State) (core slot : Nat) (chosen : List Cand) : State :=
  match s.dom.trace with
  | none => s
  | some t =>
    if chosen = [] || !t.events.getLsbD 4 then s
    else
      let left := (mget (s.coreAt core).samples slot).toNat
      let set := fun (s : State) n => s.updCore core fun c => { c with samples := mset c.samples slot (BitVec.ofNat 32 n) }
      if left = 0 then { set s (drawInterval t.interval s.fresh) with fresh := s.fresh + 1 }
      else if left = 1 then
        let picks := (chosen.map Cand.ref).filter fun r => match s.focusPath r with
          | some x => x.traced t 4
          | none => false
        match picks[(Config.freeValue s.fresh).toNat % picks.length]? with
        | none => s
        | some r =>
          let s := { set s 0 with fresh := s.fresh + 1 }
          { s with issueQ := updIf (fun x => x.p == r && !x.stream) (fun x => { x with sample := true }) s.issueQ }
      else set s (left - 1)

/-- ISSUE_CYCLE: the slots of a core choose, then its streams in ascending block context (R241); the counters of R28
move, and a cycle passes; the FED's local time passes with the cycles of core 0 (log 83). -/
def execIssueCycle (dom core : Nat) (s : State) : Host.Outcome State Fault Refusal :=
  let s := s.focusDom dom
  .next (match s.dom.cores.find? fun c => c.ix == core with
    | none => s
    | some c =>
      let picks := (List.range 4).map fun k => (k, slotPick (s.cands c k))
      let chosen := picks.flatMap fun x => x.2
      let refs := chosen.map Cand.ref
      let streams := (s.dom.resident core).filter fun b => b.streamIssues c
      let streams := streams.foldr (fun b l => insertBy Block.bctx b l) []
      let q := refs.map (fun r => ({ p := r, stream := false } : Ref))
        ++ streams.map fun b => { p := { dom := dom, blk := b.id, wave := 0, pid := 0 }, stream := true }
      let d := s.dom
      let mine := fun b : Block => b.core == core && b.res == .resident
      let d := { d with fed := if core = 0 then d.fed + c.nspercyc.toNat else d.fed,
                        blocks := updIf mine (fun b => s.cycleBlock b c refs) d.blocks,
                        cores := updIf (fun x => x.ix == core) (fun x => { x with cycles := x.cycles + 1 }) d.cores }
      let s := { s with dom := d, issueQ := s.issueQ ++ q }
      picks.foldl (fun s x => s.sampleSlot core x.1 x.2) s)

/-! The end of a wait -/

/-- R241, R242: of the waits of a block on queue `n`, pushes or pops, one that began before `stamp` can go on. -/
def State.queueEarlier (s : State) (push : Bool) (n stamp : Nat) : Bool :=
  let q := s.hq n
  let hits := fun (w : Wait) (st prod : Nat) => decide (st < stamp) && match w with
    | .push k _ => push && k == n && q.admits prod
    | .pop k _ => !push && k == n
    | _ => false
  (s.blockWaves.any fun w => w.paths.any fun p => match p.status with
    | .waiting x => hits x p.stamp w.wid
    | _ => false) ||
  match s.block.stream with
    | some m => (match m.status with
      | .waiting x => hits x m.stamp streamProd
      | _ => false)
    | none => false

/-- What lets a wait of the block end, apart from its own path. -/
def State.unitReady (s : State) (w : Wait) (stamp prod : Nat) : Bool :=
  match w with
  | .barrier n p _ => phaseDone (s.bar n).ph p
  | .push n _ => let q := s.hq n; q.closed || (q.admits prod && !s.queueEarlier true n stamp)
  | .pop n _ => let q := s.hq n; (q.closed && q.entries.isEmpty) || (!q.entries.isEmpty && !s.queueEarlier false n stamp)
  | _ => false

/-- No serial lane holds a sector, in any domain. -/
def State.noLocks (s : State) : Bool := (s.dom :: s.doms).all fun d => d.locks.isEmpty

/-- The wait of the focused path can end. -/
def State.waitReady (s : State) : Bool :=
  match s.path.status with
  | .waiting w =>
    match w with
    | .gang ix p _ => ((s.gangAt ix).map fun g => phaseDone g.ph p).getD false
    | .sig va _ _ _ _ _ => s.monHit s.pref && s.mayRead [(0, va)]
    | .mon lanes _ _ _ _ => s.monHit s.pref && s.mayRead lanes
    | .timeline n => decide (n ≤ s.block.copy.done)
    | .batch n => decide (n ≤ s.wave.batchDone)
    | .join e => s.joinReady e
    | .wsync _ _ => s.wsyncGoes s.path.mask
    | .batchRoom => decide (s.wave.batchOpen - 1 - s.wave.batchDone < 8)
    | .copyRoom => decide (s.block.copy.ops.length < 64)
    | .locketRoom => decide (s.locketCount s.wave < 144)
    | .inval n => !s.dom.invals.any fun x => x.num == n
    | .copyIdle => !s.copyBusy
    | .drain => s.wave.locket.isEmpty
    | .older => !s.hasOlder
    | .bounced => s.noLocks
    | .commit _ _ _ => decide (s.path.since < s.core.cycles.toNat)
    | .held tags | .reissue tags | .windows tags | .retry tags => !s.wave.locket.any fun e => tags.contains e.tag
    | w => s.unitReady w s.path.stamp s.wave.wid
  | _ => false

/-- The wait of the focused path ends (R372); a path that waited for room executes its instruction again. -/
def State.endWait (s : State) : State :=
  match s.path.status with
  | .waiting w =>
    match w with
    | .barrier _ _ _ => s.barFinish
    | .gang _ _ _ => s.gangFinish
    | .push n _ | .pop n _ => s.queueFinish.settleQueue n
    | .sig _ _ _ _ _ _ => s.sigFinish
    | .mon _ _ _ _ _ => s.mwaitFinish
    | .timeline _ => s.timelineFinish
    | .batch _ => s.batchFinish
    | .join e => s.merge e
    | .wsync _ _ => s.wsyncDone
    | .inval _ | .held _ => s.advance
    | .reissue _ => ({ s with path := { s.path with again := true } }).stay
    | .windows _ => ({ s with path := { s.path with status := .running } } : State).enterHandler s.path.cause
    | .commit _ _ _ => s.commitFinish
    | .superv | .laneLog _ | .token _ => s
    | .batchRoom | .copyRoom | .locketRoom | .copyIdle | .drain | .older | .bounced | .retry _ => s.stay
  | _ => s

/-- The wait of the focused stream can end. -/
def State.streamWaitReady (s : State) : Bool :=
  match s.block.stream with
  | some m => (match m.status with
    | .waiting w => s.unitReady w m.stamp streamProd
    | _ => false)
  | none => false

/-- WAIT_WAKE: a wait whose condition holds ends, on a resident block. -/
def execWaitWake (p : PRef) (stream : Bool) (s : State) : Host.Outcome State Fault Refusal :=
  if stream then
    .next (s.atBlock { dom := p.dom, blk := p.blk } fun s =>
      if s.block.res == .resident && s.streamWaitReady then s.streamFinish else s)
  else
    .next (s.atPath p fun s => if s.block.res == .resident && s.waitReady then s.endWait else s)

end Sys2Proof.Machine
end

