-- ==== Sys2Proof/Machine/Place.lean ====
section
/-! DEFINITION. Work on cores: launches and their gangs, placing and relaunching blocks, starting tasks, the end of
blocks and of launches (R22 to R25, R34, R35, R39 to R44, R49 to R52, R110, R155, R157, R164, R256, R258, R393, R404,
R431). -/

namespace Sys2Proof.Machine

/-! Room on a core (R24, R25, R40) -/

/-- What a wave takes: its number, lanes, registers a lane, and the bytes of an AB run of its own (R43). -/
structure WaveNeed where
  wid : Nat
  width : Nat
  nregs : Nat
  ab : Nat
  deriving DecidableEq, Repr

/-- What a block takes. `bases` fixes its allocations (R157). -/
structure BlockNeed where
  launch : W32
  task : Bool
  waves : List WaveNeed
  sizes : List Nat
  bases : Option (List Nat)
  matrix : Bool
  tenant : BitVec 8
  deriving DecidableEq, Repr

/-- Where a wave goes. -/
structure Spot where
  slot : Nat
  octet : Nat
  ctx : Nat
  ab : Nat
  deriving DecidableEq, Repr

/-- Where a block goes. -/
structure Plan where
  core : Nat
  bctx : Nat
  bases : List Nat
  spots : List Spot
  deriving DecidableEq, Repr

/-- What a wave holds on its core: slot, first octet, octets, registers a lane, context. -/
structure Taken where
  slot : Nat
  octet : Nat
  octets : Nat
  nregs : Nat
  ctx : Nat
  deriving DecidableEq, Repr

/-- Runs `f` on every path of the focused block that stood there at the start. -/
def State.eachPath (s : State) (f : State → State) : State :=
  let ids := s.block.waves.flatMap fun w => w.paths.map fun p => (w.wid, p.pid)
  ids.foldl (fun s x => match s.openPath x.1 x.2 with
    | some t => (f t).closePath
    | none => s) s

/-- Some path of the focused block satisfies `f`. -/
def State.anyPath (s : State) (f : State → Bool) : Bool :=
  s.block.waves.any fun w => w.paths.any fun p => ((s.openPath w.wid p.pid).map f).getD false

def Block.onCore (b : Block) (core : Nat) : Bool := b.core == core && (b.res == .resident || b.res == .saving)

def Dom.blocksOn (d : Dom) (core : Nat) : List Block := d.blocks.filter fun b => b.onCore core

def Dom.takenOn (d : Dom) (core : Nat) : List Taken :=
  (d.blocksOn core).flatMap fun b => b.waves.map fun w =>
    { slot := w.slot, octet := w.octet, octets := w.width / 8, nregs := w.nregs, ctx := w.ctx }

/-- The sizes of AB, WB, ACC and SCL (R154). -/
def bufSizes : List Nat := [2 ^ 20, 2 ^ 20, 2 ^ 19, 2 ^ 16]

/-- The runs that are taken in buffer `i` of a core. -/
def Dom.runsOn (d : Dom) (core i : Nat) : List (Nat × Nat) :=
  ((d.blocksOn core).flatMap fun b =>
    (b.base i, b.size i) :: (if i = 0 ∧ b.task = true then b.waves.map fun w => (w.abbase, w.absize) else [])).filter
    fun r => r.2 != 0

def runFree (used : List (Nat × Nat)) (total o n : Nat) : Bool :=
  decide (o + n ≤ total) && used.all fun r => decide (o + n ≤ r.1 ∨ r.1 + r.2 ≤ o)

/-- The lowest free run of `n` bytes: it starts at 0 or where a run ends. -/
def firstRun (used : List (Nat × Nat)) (total n : Nat) : Option Nat :=
  if n = 0 then some 0
  else (used.foldr (fun r l => insertBy id (r.1 + r.2) l) [0]).find? fun o => runFree used total o n

/-- R25: the registers taken on an octet. -/
def octetRegs (ts : List Taken) (slot o : Nat) : Nat :=
  (ts.filter fun t => t.slot == slot && decide (t.octet ≤ o ∧ o < t.octet + t.octets)).foldl (fun n t => n + t.nregs) 0

def octetFits (ts : List Taken) (slot o octets nregs : Nat) : Bool :=
  (List.range octets).all fun k => decide (octetRegs ts slot (o + k) + nregs ≤ 256)

/-- R24, R25, R40: the first slot and octets that take a wave: slots 0 to 3, aligned octets from 0 upward. DESIGN CHOICE (log 142): R25 alone
bounds a slot, at 32 waves, the paths of which may divide (R263); the 64 paths with which R30 reckons its bound are no limit here. -/
def findSpot (ts : List Taken) (octets nregs : Nat) : Option (Nat × Nat) :=
  ((List.range 4).flatMap fun s => (List.range (8 / octets)).map fun k => (s, k * octets)).find? fun x =>
    decide ((ts.filter fun t => t.slot == x.1).length < 32) && octetFits ts x.1 x.2 octets nregs

/-- The lowest number that is not taken. -/
def lowestFree (used : List Nat) (n : Nat) : Option Nat := (List.range n).find? fun i => !used.contains i

/-- R40: the waves of a block, one after another. -/
def planWaves : List Taken → List (Nat × Nat) → List WaveNeed → Option (List Spot)
  | _, _, [] => some []
  | ts, ab, w :: ws =>
    match findSpot ts (w.width / 8) w.nregs, firstRun ab (2 ^ 20) w.ab with
    | some (slot, o), some run =>
      match lowestFree ((ts.filter fun t => t.slot == slot).map fun t => t.ctx % 32) 32 with
      | some j =>
        let t : Taken := { slot := slot, octet := o, octets := w.width / 8, nregs := w.nregs, ctx := 32 * slot + j }
        (planWaves (t :: ts) (if w.ab = 0 then ab else (run, w.ab) :: ab) ws).map fun l =>
          { slot := slot, octet := o, ctx := 32 * slot + j, ab := run } :: l
      | none => none
    | _, _ => none

/-- R40, R157: the runs of the four buffers. -/
def Dom.planBases (d : Dom) (core : Nat) (n : BlockNeed) : Option (List Nat) :=
  let size := fun i => (n.sizes[i]?).getD 0
  match n.bases with
  | some bs =>
    if (List.range 4).all fun i => size i == 0 || runFree (d.runsOn core i) ((bufSizes[i]?).getD 0) ((bs[i]?).getD 0) (size i)
    then some bs else none
  | none =>
    match firstRun (d.runsOn core 0) (2 ^ 20) (size 0), firstRun (d.runsOn core 1) (2 ^ 20) (size 1),
        firstRun (d.runsOn core 2) (2 ^ 19) (size 2), firstRun (d.runsOn core 3) (2 ^ 16) (size 3) with
    | some a, some b, some c, some e => some [a, b, c, e]
    | _, _, _, _ => none

/-- R40, R337: the block holds the core's matrix engine, until it ends. -/
def Block.serves (b : Block) : Bool := b.stream.isSome

/-- R22: the block's stream, if any, issues no more. -/
def Block.streamDone (b : Block) : Bool :=
  match b.stream with
  | some m => m.status == .ended || m.status == .stopped
  | none => true

/-- R40, R43, R404: how a core takes a block, when it can. -/
def Dom.plan (d : Dom) (n : BlockNeed) (core : Nat) : Option Plan :=
  let bs := d.blocksOn core
  if (n.matrix && bs.any Block.serves)
      || (n.task && bs.any fun b => b.task && b.launch == n.launch)
      || (d.isolation && bs.any fun b => (d.launch b.launch).map (·.tenant) != some n.tenant) then none
  else
    match lowestFree (bs.map Block.bctx) 16, d.planBases core n with
    | some k, some bases =>
      let ab := d.runsOn core 0 ++ (match n.sizes with | a :: _ => if a = 0 then [] else [((bases[0]?).getD 0, a)] | [] => [])
      (planWaves (d.takenOn core) ab n.waves).map fun l => { core := core, bctx := k, bases := bases, spots := l }
    | _, _ => none

/-! Launches and gangs -/

/-- The sizes of a block's allocations (R32, R154). -/
def Launch.sizes (l : Launch) : List Nat := [l.abu * 4096, l.wbu * 4096, l.accu * 4096, l.sclu * 256]

/-- What a block of the launch takes. -/
def Launch.need (l : Launch) : BlockNeed :=
  { launch := l.id, task := false, sizes := l.sizes, bases := none, matrix := l.matrix, tenant := l.tenant,
    waves := (List.range l.waves).map fun w => { wid := w, width := l.width, nregs := l.regs, ab := 0 } }

/-- One step of the closure of R35. -/
def groupStep (gs : List Gang) (bs : List Nat) : List Nat :=
  gs.foldl (fun bs g => if g.clpl && g.members.any (fun b => bs.contains b) then g.members.foldl (fun l b => insertBy id b l) bs else bs) bs

def groupIter (gs : List Gang) : Nat → List Nat → List Nat
  | 0, bs => bs
  | k + 1, bs => groupIter gs k (groupStep gs bs)

/-- R35: the cluster group of a block number. -/
def clusterGroup (gs : List Gang) (b : Nat) : List Nat := groupIter gs gs.length [b]

/-- R108: GANGS of a block. -/
def gangsReg (gs : List Gang) (b : Nat) : W64 :=
  let ix := (gs.zipIdx.filter fun x => x.1.members.contains b).map (·.2)
  BitVec.ofNat 64 ((ix.take 4).zipIdx.foldl (fun n x => n + (0x8000 + x.1) * 2 ^ (16 * x.2)) 0)

/-! Placing -/

/-- R155: the allocations are written with zeros. -/
def Core.wipe (c : Core) (bases sizes : List Nat) : Core :=
  let lo := fun i => (bases[i]?).getD 0
  let hi := fun i => (bases[i]?).getD 0 + (sizes[i]?).getD 0
  let c := { c with ab := mclear c.ab (lo 0) (hi 0), wb := mclear c.wb (lo 1) (hi 1), acc := mclear c.acc (lo 2) (hi 2),
                    scl := mclear c.scl (lo 3) (hi 3) }
  (List.range 4).foldl (fun (c : Core) i => c.mend i (lo i) (hi i - lo i)) c

/-- R404: before a core takes blocks of a different tenant it writes back and invalidates its caches. -/
def State.tenantTurn (s : State) (core : Nat) (t : BitVec 8) : State :=
  if (s.coreAt core).tenant = some t then s
  else
    let s := if s.dom.isolation then
        let s := s.flushL1 (fun x => x.core == core) false
        { s with dom := { s.dom with ccache := s.dom.ccache.filter fun x => x.core != core } }
      else s
    s.updCore core fun c => { c with tenant := some t }

/-- R23: a wave of a launch at its start. -/
def newWave (wid width nregs placed : Nat) (p : Spot) (entry arg token : W64) : Wave :=
  let w := Wave.start wid width p.slot p.octet p.ctx nregs placed
  { w with s := mset [] 0 arg, paths := [{ Path.start entry (fullMask width) with token := token }] }

/-- R23, R40, R155, R317: a new block of a launch on its core. -/
def State.startBlock (s : State) (l : Launch) (n : Nat) (p : Plan) : State :=
  let s := s.tenantTurn p.core l.tenant
  let num := l.firstBlock + n
  let b := Block.start s.dom.nextBlock l.id (BitVec.ofNat 32 num) false l.waves l.sizes
  let ws := (p.spots.zipIdx).map fun x => newWave x.2 l.width l.regs (s.now + x.2) x.1 l.entry l.args 0
  let b := { b with started := true, core := p.core, bctx := p.bctx, res := .resident, bases := p.bases,
                    gangs := gangsReg l.gangs num, waves := ws,
                    stream := if l.matrix then some (Stream.start l.mentry) else none }
  let s := s.updCore p.core fun c => c.wipe p.bases l.sizes
  { s with now := s.now + ws.length, dom := { s.dom with nextBlock := s.dom.nextBlock + 1, blocks := insertBy Block.id b s.dom.blocks } }

/-- The launch has placed the blocks that stand in `early`, as far as they follow each other. -/
def settleStarted : Nat → Nat → List Nat → Nat × List Nat
  | 0, n, early => (n, early)
  | k + 1, n, early => if early.contains n then settleStarted k (n + 1) (early.filter (· != n)) else (n, early)

def Launch.placed (l : Launch) (n : Nat) : Launch :=
  let r := settleStarted (l.early.length + 1) l.started (n :: l.early)
  { l with started := r.1, early := r.2 }

/-- Places block `n` of a launch on the first of these cores that takes it. -/
def State.tryFresh (s : State) (l : Launch) (n : Nat) (cores : List Nat) : Option State :=
  (cores.findSome? (s.dom.plan l.need)).map fun p =>
    let s := s.startBlock l n p
    { s with dom := { s.dom with launches := updIf (fun x => x.id == l.id) (fun x => x.placed n) s.dom.launches } }

/-- What an evicted block takes. -/
def Block.need (b : Block) (l : Launch) (fixed : Bool) : BlockNeed :=
  { launch := b.launch, task := b.task, sizes := b.sizes, bases := if fixed then some b.bases else none,
    matrix := b.serves, tenant := l.tenant,
    waves := b.waves.map fun w => { wid := w.wid, width := w.width, nregs := w.nregs, ab := w.absize } }

/-- R393: a rewound path resumes: a CALL entry behind the `fbk`, and the PC at the recipe. A stack without room for the
entry is CALL_DEPTH (R265). -/
def State.resume (s : State) : State :=
  if s.path.status = .rewound then
    let s : State := { s with path := { s.path with status := .running, ir := none } }
    match s.path.fb with
    | none => s
    | some f =>
      if s.pushRoom then
        let e : RecEntry := { call := true, mask := s.path.mask, pc := nextPc f.pc, etag := 0, fmts := s.path.fmt.setWidth 4 }
        let t := s.pushEntry e
        { t with path := { t.path with pc := f.recipe } }
      else s.trap .callDepth 0
  else s

/-- R28, R50: what a move makes of a path: its counters run on the new core's cycles. `rank` orders those that wait for
supervisor entry before any that begins to wait on the new core (R389). -/
def Path.relaunched (p : Path) (cycles rank : Nat) : Path :=
  { p with age := 0, since := cycles, hold := if p.hold = 0 then 0 else p.hold + cycles, ir := if p.status == .running then none else p.ir,
           stamp := if p.status == .waiting .superv then rank else p.stamp }

/-- R389: how many paths of the wave have waited longer for supervisor entry. -/
def Wave.supervRank (w : Wave) (p : Path) : Nat :=
  (w.paths.filter fun q => q.status == .waiting .superv && decide (q.stamp < p.stamp)).length

/-- R224, R227: the applied tags of an AB atomic are found at the core on which its allocation now stands. -/
def State.moveTags (s : State) (q : Req) (core : Nat) : State :=
  q.lanes.foldl (fun s r =>
    let tag := s.ostag r.lane r.seq
    match (List.range 96).findSome? fun k => ((s.coreAt k).abTags.find? fun a => a.1 == tag).map fun a => (k, a) with
    | none => s
    | some (k, a) =>
      (s.updCore k fun c => { c with abTags := c.abTags.filter fun x => x.1 != tag }).updCore core fun c => { c with abTags := a :: c.abTags }) s

/-- R51, R227: the Locket entries of the focused wave that name AB bytes stand at the sectors where these now are. -/
def State.rehome (s : State) : State :=
  s.wave.locket.foldl (fun s e =>
    match if e.req.ab then e.req.lanes.head? else none with
    | none => s
    | some r => match s.abCheck r.va (sizeBytes e.req.sz) with
      | .error _ => s
      | .ok (core, byte, _) =>
        let s := if e.req.kind.atomic then s.moveTags e.req core else s
        { s with wave := { s.wave with locket := updIf (fun x => x.tag == e.tag) (fun x => { x with sector := abSector core byte }) s.wave.locket } }) s

/-- R49: a path whose `mwait` was watched resumes as from a wake. -/
def State.wakeMon (s : State) : State :=
  match s.path.status with
  | .waiting (.mon _ _ _ _ _) =>
    let hit := fun d : Dom => { d with monitors := updIf (fun m : Monitor => m.p == s.pref) (fun m => { m with hit := true }) d.monitors }
    { s with dom := hit s.dom, doms := s.doms.map hit }
  | _ => s

/-- R51, R227: the same for every wave of the focused block. -/
def State.rehomeWaves (s : State) : State :=
  let heads := s.block.waves.filterMap fun w => w.paths.head?.map fun p => (w.wid, p.pid)
  heads.foldl (fun s x => match s.openPath x.1 x.2 with
    | some t => t.rehome.closePath
    | none => s) s

/-- R49, R227, R393: what becomes of the paths and the Lockets of a block that has been placed again. -/
def State.settleMoved (s : State) : State := s.rehomeWaves.eachPath fun s => s.wakeMon.resume

/-- R51, R164: the move acts as a release on the old core and an acquire on the new one. -/
def State.moveCaches (s : State) (old new : Nat) : State :=
  if old = new then s
  else
    let s := (s.releaseL1 old).acquireL1 new
    s.flushL1 (fun x => x.core == new && x.leaf.reg == 0 && !x.dirty) false

/-- The saved images go back into the buffers: those of the block, or those of its task waves. -/
def Core.restore (c : Core) (b : Block) (bases : List Nat) (spots : List Spot) : Core :=
  if b.task then
    { c with ab := ((spots.zip b.waves).zip b.images).foldl (fun m x => mplace m x.2 x.1.1.ab (x.1.1.ab + x.1.2.absize)) c.ab }
  else
    let lo := fun i => (bases[i]?).getD 0
    let img := fun i => (b.images[i]?).getD []
    { c with ab := mplace c.ab (img 0) (lo 0) (lo 0 + b.size 0), wb := mplace c.wb (img 1) (lo 1) (lo 1 + b.size 1),
             acc := mplace c.acc (img 2) (lo 2) (lo 2 + b.size 2), scl := mplace c.scl (img 3) (lo 3) (lo 3 + b.size 3) }

/-- R49 to R52: a relaunched block on its core. -/
def State.relaunch (s : State) (b : Block) (l : Launch) (p : Plan) : State :=
  let s := (s.tenantTurn p.core l.tenant).moveCaches b.core p.core
  let c := s.coreAt p.core
  let wave := fun (x : (Wave × Spot) × Nat) =>
    let w := x.1.1
    { w with slot := x.1.2.slot, octet := x.1.2.octet, ctx := x.1.2.ctx, abbase := if b.task then x.1.2.ab else w.abbase,
             placed := s.now + x.2, paths := w.paths.map fun q => q.relaunched c.cycles.toNat (w.supervRank q) }
  let ws := (b.waves.zip p.spots).zipIdx.map wave
  let stream := b.stream.map fun (m : Stream) => { m with since := c.cycles.toNat }
  let new := { b with core := p.core, bctx := p.bctx, bases := p.bases, res := .resident, waves := ws, stream := stream,
                      wake := false, idleSince := none, preempt := none, images := [], flaws := [] }
  let s := s.updCore p.core fun c => ((c.restore b p.bases p.spots).withFlaws new b.flaws).count s.dom.isolation l.tenant .relaunch
  let t : State := { s with now := s.now + ws.length,
                            dom := { s.dom with place := s.dom.place.filter (· != b.id), blocks := updIf (fun x => x.id == b.id) (fun _ => new) s.dom.blocks } }
  (t.atBlock { dom := t.dom.ix, blk := b.id } State.settleMoved).unfocus

/-- Relaunches an evicted block on the first of these cores that takes it. -/
def State.tryRelaunch (s : State) (id : Nat) (cores : List Nat) (fixed : Bool) : Option State :=
  match s.dom.blocks.find? fun b => b.id == id with
  | none => none
  | some b =>
    match s.dom.launch b.launch with
    | none => none
    | some l => (cores.findSome? (s.dom.plan (b.need l fixed))).map fun p => s.relaunch b l p

/-- Runs a list of attempts, all or none. -/
def State.allOf (s : State) : List (State → Option State) → Option State
  | [] => some s
  | f :: fs =>
    match f s with
    | none => none
    | some t => t.allOf fs

def clusterCores (k : Nat) : List Nat := (List.range 8).map fun i => 8 * k + i

/-- What the placement list holds: blocks to be relaunched together, and the next block of a launch with its group. -/
inductive Job
  | again (ids : List Nat)
  | fresh (launch : W32) (blocks : List Nat)
  deriving DecidableEq, Repr

/-- R35, R52: the block belongs to a cluster group with others, whether or not these still stand. -/
def Dom.grouped (d : Dom) (b : Block) : Bool :=
  match d.launch b.launch with
  | none => false
  | some l => !b.task && decide (1 < (clusterGroup l.gangs b.blockid.toNat).length)

/-- R40, R52, R157: a job, when cores have room for it. A member of a cluster group keeps its core index and its bases; once all of
them stand again, what their Lockets name in one another's AB is looked up anew (R156, R227). -/
def State.tryJob (s : State) : Job → Option State
  | .again ids =>
    let bs := ids.filterMap fun i => s.dom.blocks.find? fun b => b.id == i
    let last := (bs.head?.bind Block.lastCluster).getD 0
    if bs.length = 1 ∧ bs.any s.dom.grouped = false then
      bs.head?.bind fun b => s.tryRelaunch b.id (clusterCores last ++ List.range 96) false
    else ((last :: List.range 12).findSome? fun k =>
        s.allOf (bs.map fun b => fun s => s.tryRelaunch b.id [8 * k + b.core % 8] true)).map fun t =>
          bs.foldl (fun t b => (t.atBlock { dom := t.dom.ix, blk := b.id } State.rehomeWaves).unfocus) t
  | .fresh lid ns =>
    match s.dom.launch lid with
    | none => none
    | some l =>
      match ns with
      | [n] => s.tryFresh l n (List.range 96)
      | ns => ((List.range 12).findSome? fun k =>
          s.allOf (ns.map fun n => fun s => (s.dom.launch lid).bind fun l => s.tryFresh l n (clusterCores k)))

/-- The blocks of a block's cluster group. -/
def Dom.groupOf (d : Dom) (b : Block) : List Block :=
  match d.launch b.launch with
  | none => [b]
  | some l =>
    if b.task then [b]
    else
      let ns := clusterGroup l.gangs b.blockid.toNat
      d.blocks.filter fun x => x.launch == b.launch && !x.task && ns.contains x.blockid.toNat

/-- R49: the relaunch of the group of a queued block, once all of it is off its cores. -/
def Dom.againJob (d : Dom) (b : Block) : Option Job :=
  let g := d.groupOf b
  if g.all fun x => x.res == .evicted || x.res == .unplaced then some (.again (g.map Block.id)) else none

/-- R39: the next block of a launch, with its cluster group. -/
def Launch.nextJob (l : Launch) : Option Job :=
  if l.dead || !l.ready || decide (l.nblocks ≤ l.started) then none
  else
    let g := clusterGroup l.gangs (l.firstBlock + l.started)
    some (.fresh l.id (g.map (· - l.firstBlock)))

/-- R39, R49: the placement list: by priority; of one priority, first the blocks queued for relaunch. -/
def Dom.jobs (d : Dom) : List Job :=
  ((List.range 8).reverse).flatMap fun k =>
    ((d.place.filterMap fun i => d.blocks.find? fun b => b.id == i).filter fun b => (d.launch b.launch).map (·.prio) == some k).filterMap d.againJob
      ++ (d.launches.filter fun l => l.prio == k).filterMap Launch.nextJob

/-- BLOCK_PLACE: the first job of the list for which there is room. -/
def execBlockPlace (dom : Nat) (s : State) : Host.Outcome State Fault Refusal :=
  let s := s.focusDom dom
  .next (if s.dom.up then (s.dom.jobs.findSome? s.tryJob).getD s else s)

/-! Tasks (R41 to R44) -/

/-- Where a task comes from. -/
inductive TaskFrom
  | own | steal (core : Nat) | memory
  deriving DecidableEq, Repr

/-- R42: the other cores in the order in which a core looks: those of its cluster, then those of the other clusters. DESIGN
CHOICE (log 89): the scan of another cluster begins at its core 0. -/
def stealOwn (core : Nat) : List Nat := (List.range 7).map fun i => 8 * (core / 8) + (core + 1 + i) % 8

def stealOrder (core : Nat) : List Nat := (List.range 11).flatMap fun j => clusterCores ((core / 8 + 1 + j) % 12)

/-- What the first deque of these cores that is not empty offers. -/
def State.stealFrom (s : State) (cores : List Nat) : List (TaskFrom × Task) :=
  match cores.find? fun c => !(s.coreAt c).deque.isEmpty with
  | none => []
  | some c => ((s.coreAt c).deque.getLast?.map fun t => (TaskFrom.steal c, t)).toList

/-- R42: the four sources of a core with what each offers, in order. -/
def State.taskSources (s : State) (core : Nat) : List (TaskFrom × Task) :=
  let own := match (s.coreAt core).deque with
    | [] => []
    | t :: _ => if (s.dom.blocksOn core).any fun b => b.launch == t.launch then [(TaskFrom.own, t)] else []
  let mem := match s.dom.memDeque with
    | [] => []
    | r :: _ => [(TaskFrom.memory, Task.ofBits r)]
  own ++ s.stealFrom (stealOwn core) ++ s.stealFrom (stealOrder core) ++ mem

def State.takeTask (s : State) (core : Nat) : TaskFrom → State
  | .own => s.updCore core fun c => { c with deque := c.deque.tail }
  | .steal k => s.updCore k fun c => { c with deque := c.deque.dropLast }
  | .memory => { s with dom := { s.dom with memDeque := s.dom.memDeque.tail } }

/-- The task block of a launch on a core. -/
def Dom.taskBlock (d : Dom) (core : Nat) (launch : W32) : Option Block :=
  (d.blocksOn core).find? fun b => b.task && b.launch == launch && b.res == .resident

/-- What the wave of a task takes. -/
def Task.need (t : Task) (l : Launch) (wid : Nat) : WaveNeed :=
  { wid := wid, width := l.width, nregs := 8 * (t.regblk.toNat + 1), ab := abClassBytes t.abclass }

/-- R43: the index of a task wave within its task block. -/
def Block.nextWid (b : Block) : Nat :=
  ((List.range 128).map fun i => (b.nextTaskWave + i) % 128).find? (fun i => !b.waves.any fun w => w.wid == i) |>.getD 128

/-- R42, R43: where a task's wave goes on a core: into its launch's task block there, or into a new one. -/
def Dom.planTask (d : Dom) (core : Nat) (t : Task) (l : Launch) : Option (Block × Spot) :=
  match d.taskBlock core l.id with
  | some b =>
    if b.preempt.isSome then none
    else match planWaves (d.takenOn core) (d.runsOn core 0) [t.need l b.nextWid] with
      | some [p] => some (b, p)
      | _ => none
  | none =>
    let b := Block.start d.nextBlock l.id 0xFFFFFFFF true 0 [0, 0, 0, 0]
    match d.plan { b.need l false with waves := [t.need l 0] } core with
    | some { spots := [p], bctx := k, .. } => some ({ b with started := true, core := core, bctx := k, res := .resident }, p)
    | _ => none

/-- R23, R43, R258: the task's wave starts, with an acquire at die scope. With `bad` its record failed its check: the wave
takes UNCORRECTABLE before its first instruction (R256). -/
def State.startTask (s : State) (t : Task) (l : Launch) (b : Block) (p : Spot) (bad : Bool) : State :=
  let s := (s.tenantTurn b.core l.tenant).acquireL1 b.core
  let n := t.need l b.nextWid
  let w := newWave n.wid n.width n.nregs s.now p t.entry t.arg t.token
  let w := { w with paths := w.paths.map fun q => { q with uncorr := bad }, spawndepth := t.depth, task := some t, abbase := if n.ab = 0 then 0 else p.ab, absize := n.ab }
  let b := { b with waves := insertBy Wave.wid w b.waves, nextTaskWave := n.wid + 1, idleSince := none }
  let s := s.updCore b.core fun c => ({ c with ab := mclear c.ab p.ab (p.ab + n.ab) } : Core).mend 0 p.ab n.ab
  { s with now := s.now + 1,
           dom := { s.dom with blocks := insertBy Block.id b s.dom.blocks,
                               nextBlock := if s.dom.nextBlock = b.id then s.dom.nextBlock + 1 else s.dom.nextBlock } }

/-- A source whose task the core can start, or whose record has no live launch. -/
def State.taskFits (s : State) (core : Nat) (x : TaskFrom × Task) : Bool :=
  match s.dom.launch x.2.launch with
  | none => true
  | some l => l.dead || (s.dom.planTask core x.2 l).isSome

/-- TASK_START: the core takes a task and starts its wave. A record without a live launch is dropped; of one that fails its
check too, the loss is reported (R256, log 26). DESIGN CHOICE (log 89): where the record of a source does not fit, the core
goes on to the next source. -/
def execTaskStart (dom core : Nat) (s : State) : Host.Outcome State Fault Refusal :=
  let s := s.focusDom dom
  .next (match (s.taskSources core).find? (s.taskFits core) with
    | none => s
    | some (src, t) =>
      let bad := src == .memory && !((s.dom.memDeque.head?.map Task.recordOk).getD true)
      let s := s.takeTask core src
      let lost : State := if bad then { s with dom := { s.dom with reports := s.dom.reports ++ [.badTask] } } else s
      match s.dom.launch t.launch with
      | none => lost
      | some l =>
        if l.dead then lost
        else match s.dom.planTask core t l with
          | none => s
          | some (b, p) => s.startTask t l b p bad)

/-! The end of blocks and launches (R22, R164, R431) -/

/-- The records of the launch that wait in the deques. -/
def State.tasksOf (s : State) (launch : W32) : List Task :=
  (s.dom.cores.flatMap (·.deque) ++ s.dom.memDeque.map Task.ofBits).filter fun t => t.launch == launch

def State.hasTasks (s : State) (launch : W32) : Bool := !(s.tasksOf launch).isEmpty

/-- R258: nothing of the launch is left. -/
def State.launchDone (s : State) (l : Launch) : Bool :=
  (l.dead || decide (l.nblocks ≤ l.ended)) && !(s.dom.blocks.any fun b => b.launch == l.id) && !s.hasTasks l.id

/-- The records of a launch that is terminated are dropped. -/
def State.dropTasks (s : State) (launch : W32) : State :=
  { s with dom := { s.dom with
      cores := s.dom.cores.map fun c => { c with deque := c.deque.filter fun t => t.launch != launch },
      memDeque := s.dom.memDeque.filter fun r => (Task.ofBits r).launch != launch } }

/-- The launch ends, once nothing of it is left: its completion record is written (R398). -/
def State.endLaunch (s : State) (id : W32) : State :=
  match s.dom.launch id with
  | none => s
  | some l =>
    let s := if l.dead then s.dropTasks id else s
    if s.launchDone l then
      let s := s.complete l.queue l.seq (if l.dead then .faulted else .ok) []
      { s with dom := { s.dom with launches := s.dom.launches.filter fun x => x.id != id,
                                   cores := s.dom.cores.map fun c => { c with runs := c.runs.filter fun r => r.launch != id } } }
    else s

def Parked.ofBlock (p : Parked) (b : BRef) : Bool :=
  match p with
  | .path p => p.dom == b.dom && p.blk == b.blk
  | .entry x _ _ | .elem x _ _ _ | .copy x _ | .stream x => x == b

/-- What a block leaves behind in its domain goes: parks, monitors, requests for the token, a serial lane, operations in
the engine. -/
def State.forgetBlock (s : State) (b : BRef) : State :=
  let s := match s.dom.serial with
    | some x => if x.p.blk = b.blk then s.rollback else s
    | none => s
  let gone := fun m : Monitor => m.p.dom == b.dom && m.p.blk == b.blk
  let d := s.dom
  let d := { d with parks := d.parks.filter fun k => !k.what.ofBlock b,
                    monitors := d.monitors.filter fun m => !gone m,
                    clQueue := d.clQueue.filter fun r => r.1.blk != b.blk,
                    place := d.place.filter (· != b.blk),
                    cores := d.cores.map fun c => { c with engine := c.engine.filter fun o => o.blk != b.blk } }
  { s with dom := d, doms := s.doms.map fun d => { d with monitors := d.monitors.filter fun m => !gone m } }

/-- R22, R431: the block's waves have exited, its stream has ended and its copy context is idle. -/
def Block.isOver (b : Block) : Bool :=
  b.started && b.waves.isEmpty && b.streamDone && b.copy.idle && b.res == .resident

/-- R48: the last row: nothing watches the wait. -/
def State.unwatched (s : State) : Bool :=
  !s.path.halted && match s.path.status with
    | .waiting (.gang ix _ _) => ((s.gangAt ix).map fun g => g.scope == .blk).getD true
    | .waiting (.barrier _ _ _) | .waiting (.push _ _) | .waiting (.pop _ _) | .waiting (.timeline _) | .waiting (.batch _) => true
    | _ => false

/-- R48: a block of the domain that cannot be woken. -/
def State.stuck (s : State) (b : Block) : Bool :=
  b.res == .evicted && !b.wake && (b.waves.all fun w => w.locket.all fun e => e.parked.isNone)
    && (b.copy.ops.all fun o => o.parked.isNone) && (b.copy.elems.all fun e => e.parked.isNone)
    && (b.stream.map fun m => match m.status with | .parked _ => false | _ => true).getD true
    && (match s.focusBlock { dom := s.dom.ix, blk := b.id } with
      | some s => !s.anyPath fun s => !s.unwatched
      | none => false)

/-- R25, R258: no record of the launch fits on a core, even one that holds nothing else; one that only waits for room (R43) does. -/
def State.tasksStuck (s : State) (l : Launch) : Bool :=
  (s.tasksOf l.id).all fun t => (({ s.dom with blocks := [] } : Dom).planTask 0 t l).isNone

/-- R48, R258: every remaining block of the launch is stuck, and every record that waits fits nowhere. -/
def State.hung (s : State) (l : Launch) : Bool :=
  let bs := s.dom.blocks.filter fun b => b.launch == l.id
  !l.dead && decide (l.nblocks ≤ l.started) && !(bs.isEmpty && !s.hasTasks l.id) && bs.all s.stuck && s.tasksStuck l

/-- R48, R258: LAUNCH_HUNG: the FED reports such a launch, once. -/
def State.checkHung (s : State) (id : W32) : State :=
  match s.dom.launch id with
  | none => s
  | some l =>
    if s.hung l && !s.dom.reports.contains (.hung id) then
      { s with dom := { s.dom with reports := s.dom.reports ++ [.hung id] } }
    else s

/-- R306: the gangs of a block learn its end. -/
def State.endGangs (s : State) : State :=
  (gangsOf s.block.gangs).foldl (fun s ix => s.gangMember ix true s.block.endTok s.block.endUnit) s

/-- The block leaves the domain; a terminated block's logs go with it. -/
def State.removeBlock (s : State) : State :=
  let b := s.bref
  let logs := s.block.waves.foldl (fun n w => n + w.logs.length) 0
  let s := s.updCore s.block.core fun c => if s.coreHere then { c with logs := c.logs - logs } else c
  let s := s.closeBlock.forgetBlock b
  { s with dom := { s.dom with blocks := s.dom.blocks.filter fun x => x.id != b.blk } }

/-- BLOCK_END: a block that is over ends with a release at die scope (R164); a block of a terminated launch ends as it
stands. The launch ends with its last block (R258). -/
def execBlockEnd (b : BRef) (s : State) : Host.Outcome State Fault Refusal :=
  .next (s.atBlock b fun s =>
    let id := s.block.launch
    if (s.launch.map (·.dead)).getD true then ((s.removeBlock).endLaunch id).checkHung id
    else if s.block.isOver then
      let s := (s.release s.core.ix .die).endGangs
      let s := if s.block.task then s else s.updLaunch fun l => { l with ended := l.ended + 1 }
      ((s.removeBlock).endLaunch id).checkHung id
    else s)

end Sys2Proof.Machine
end

