-- ==== Sys2Proof/Machine/Evict.lean ====
section
/-! DEFINITION. Taking blocks off their cores: residency eviction, pre-emption, and the watch over evicted blocks
(R45 to R49, R250, R340, R353, R391 to R393). -/

namespace Sys2Proof.Machine

/-! The Locket area (R250) -/

/-- The bytes of the focused block's area. -/
def State.areaBytes (s : State) : Nat :=
  match s.launch with
  | none => 0
  | some l => if s.block.task then l.tstride else l.stride

/-- R250: the whole area is mapped and writable, its last page too. -/
def State.areaWritable (s : State) : Bool :=
  ((List.range (s.areaBytes / 65536)).all fun k => s.areaOk (65536 * k)) && s.areaOk (s.areaBytes - 8)

/-- Writes a word of the block header. What the device writes there is open (log 9). -/
def State.headerWord (s : State) (off : Nat) : State :=
  let who := { s.unitWho false s.pathUnit with core := 96 }
  match s.check who (s.areaVa off) { n := 8, write := true, atomic := false, tags := false, sc := none } with
  | (s, .error _) => s
  | (s, .ok t) => { s.unitPut who t 8 (Config.freeValue s.fresh).toNat with fresh := s.fresh + 1 }

/-! Before a save -/

/-- R353: an open region ends before the save; of one that commits the lanes that have not committed yet. A path that waits for a
log or for the token stands at its `txb` again. -/
def State.leaveRegion (s : State) : State :=
  if s.path.speculative then
    match s.path.status with
    | .waiting (.commit todo ok d) => s.part todo (fun s => s.abort .wait 0) fun s => s.closeLanes d ok
    | _ => s.abort .wait 0
  else if s.path.inRegion && s.path.serial then s.unserial
  else if s.path.waitsLog then s.stay
  else if s.path.waitsToken then
    let mine := fun r : PRef × Nat => r.1.blk == s.block.id && r.1.wave == s.wave.wid && hasLane s.path.mask r.2
    ({ s with dom := { s.dom with clQueue := s.dom.clQueue.filter fun r => !mine r } }).stay
  else s

/-- R46: the join timer and what runs on the core's cycles are kept as counts. -/
def Path.stow (p : Path) (cycles : Nat) : Path :=
  { p with joinTimer := (match p.status with
             | .waiting _ => p.joinTimer + (cycles - p.since)
             | _ => p.joinTimer),
           since := cycles, hold := p.hold - cycles }

def Stream.stow (m : Stream) (cycles : Nat) : Stream :=
  let waited := match m.status with
    | .waiting _ => m.waited + (cycles - m.since)
    | _ => m.waited
  { m with waited := waited, since := cycles, ir := none }

/-- R250: the area does not take the save: the block keeps its core, its rewound paths go on, and UNCORRECTABLE is raised for
its first path. -/
def State.keepCore (s : State) : State :=
  let s := ({ s with block := { s.block with res := .resident, preempt := none, idleSince := none } }).eachPath State.resume
  match s.block.waves with
  | [] => s
  | w :: _ => match w.paths with
    | [] => s
    | p :: _ => match s.openPath w.wid p.pid with
      | some t => (t.trap .uncorrectable 0).closePath
      | none => s

/-- The save starts, or the block keeps its core (R250). -/
def State.startSave (s : State) : State :=
  if s.areaWritable then
    let s := s.eachPath State.leaveRegion
    let c := s.core.cycles.toNat
    let stow := fun w : Wave => { w with paths := w.paths.map fun p => p.stow c }
    let stream := s.block.stream.map fun (m : Stream) => m.stow c
    { s with block := { s.block with res := .saving, pollAt := s.dom.fed, waves := s.block.waves.map stow, stream := stream, idleSince := none } }
  else s.keepCore

/-! Residency eviction (R45 to R47) -/

/-- R45, R47: the block has been idle-blocked for the residency bound, and nothing has come that wakes it. -/
def State.evictable (s : State) (b : BRef) : Bool :=
  match s.focusBlock b with
  | none => false
  | some s => s.block.idleBlocked && !(s.launch.map (·.dead)).getD true
      && (match s.block.idleSince with
        | some t => decide (s.dom.cfg.residency < s.core.span t)
        | none => false)
      && !s.anyPath State.waitReady && !s.streamWaitReady

/-- RESIDENCY_EVICTION: the block, with the blocks of its cluster group, when all of them are past the bound. -/
def execResidencyEviction (b : BRef) (s : State) : Host.Outcome State Fault Refusal :=
  let s := s.focusDom b.dom
  .next (match s.dom.blocks.find? fun x => x.id == b.blk with
    | none => s
    | some x =>
      let g := (s.dom.groupOf x).map fun y => ({ dom := b.dom, blk := y.id } : BRef)
      if g.all s.evictable then g.foldl (fun s r => (s.atBlock r State.startSave).unfocus) s else s)

/-! The end of a save -/

/-- R392: the registers of a rewound path that are not saved read 0. -/
def Wave.trim (w : Wave) : Wave :=
  let all := w.paths.all fun p => p.status == .rewound
  let bound := w.paths.foldl (fun n p => max n ((p.fb.bind fun f => f.sM).elim 0 fun m => m.toNat + 1)) 0
  let dead := fun k : Nat => w.paths.any fun p => p.status == .rewound && hasLane p.mask (k / 256)
    && decide ((p.fb.bind fun f => f.vN).elim 0 (fun n => n.toNat + 1) ≤ k % 256)
  { w with v := w.v.filter fun e => !dead e.1, s := if all then w.s.filter fun e => decide (e.1 < bound) else w.s }

/-- The buffers of the focused block as they stand. -/
def State.saveImages (s : State) : List (SMap 8) :=
  let c := s.core
  let b := s.block
  if b.task then b.waves.map fun w => mslice c.ab w.abbase (w.abbase + w.absize)
  else [mslice c.ab (b.base 0) (b.base 0 + b.size 0), mslice c.wb (b.base 1) (b.base 1 + b.size 1),
        mslice c.acc (b.base 2) (b.base 2 + b.size 2), mslice c.scl (b.base 3) (b.base 3 + b.size 3)]

/-- R250: the images in the area: each with its offset and its bytes. -/
def State.areaImages (s : State) : List (SMap 8 × Nat × Nat) :=
  let l := s.launch
  let after := 0x3000 + (if s.block.task then 128 * waveCtx ((l.map (·.width)).getD 0) 128
    else ((l.map (·.waves)).getD 0) * waveCtx ((l.map (·.width)).getD 0) ((l.map Launch.regs).getD 0))
  if s.block.task then s.block.waves.map fun w => (mslice s.core.ab w.abbase (w.abbase + w.absize), after + w.abbase, w.absize)
  else (s.saveImages.zipIdx).map fun x => (x.1, after + ((List.range x.2).map s.block.size).foldl (· + ·) 0, s.block.size x.2)

/-- The block has work to do as soon as it is placed: it was pre-empted while it ran. -/
def Block.canRun (b : Block) : Bool :=
  (b.waves.any fun w => w.paths.any fun p => !p.blocked b)
    || (b.stream.map fun m => m.status == .running).getD false
    || (b.copy.ops.any fun o => o.parked.isNone) || b.copy.elems.any fun e => e.parked.isNone

/-- The block joins the placement list (R49). -/
def Dom.queueBlock (d : Dom) (id : Nat) : Dom :=
  { d with place := if d.place.contains id then d.place else d.place ++ [id],
           blocks := updIf (fun b => b.id == id) (fun b => { b with res := .unplaced }) d.blocks }

/-- A sector of a byte image, and of a wave's register image, which holds register n of lane l at word n × WAVEW + l
(log 32). -/
def imageSector (m : SMap 8) (k : Nat) : Nat :=
  (List.range 64).foldl (fun x i => x + (mget m (64 * k + i)).toNat * 256 ^ i) 0

def Wave.regSector (w : Wave) (k : Nat) : Nat :=
  (List.range 16).foldl (fun x i => x + (w.vGet ((16 * k + i) % w.width) ((16 * k + i) / w.width)).toNat * 2 ^ (32 * i)) 0

/-- One part of the area that a save writes: its offset, its sectors, and their contents. -/
abbrev AreaPart := Nat × Nat × (Nat → Nat)

/-- R46, R250: the parts that a save writes: the block header with barriers, queues, copy context and stream; of each wave
24 sectors of state a path, the Locket entries among it, and the registers; the images of the buffers. What the layout is,
outside the images, is the device's own: those contents are open (log 32). -/
def State.areaParts (s : State) : List AreaPart :=
  let own := fun k : Nat => (Config.freeValue (s.fresh + k)).toNat
  let wave := fun w : Wave =>
    [(s.waveOff w, 24 * w.paths.length, own), (s.waveOff w + 0x1E000, w.width * w.nregs / 16, w.regSector)]
  let after := s.areaImages
  let image := fun (x : SMap 8 × Nat × Nat) => (x.2.1, x.2.2 / 64, imageSector x.1)
  (0, 64, own) :: s.block.waves.flatMap wave ++ after.map image

/-- R46: the save is written; false when the area did not take all of it. -/
def State.writeArea (s : State) : State × Bool :=
  let parts := s.areaParts
  let r := parts.foldl (fun (r : State × Bool) p => if r.2 then State.areaFill p.2.1 r.1 p.1 p.2.2 else r) (s, true)
  ({ r.1 with fresh := r.1.fresh + 1536 }, r.2)

/-- The save completes: the core's contexts, registers and buffers are free (R46); a block that a wake has reached, or that
can run, is queued (R47). -/
def State.finishSave (s : State) : State :=
  let images := s.saveImages
  let flaws := s.core.flawsOf s.block
  let id := s.block.id
  let saved := fun (b : Block) =>
    { b with res := .evicted, images := images, flaws := flaws, lastCluster := some (b.core / 8), preempt := none, waves := b.waves.map Wave.trim }
  let s := (s.count .eviction).closeBlock
  { s with dom := { s.dom with blocks := updIf (fun b => b.id == id) saved s.dom.blocks } }

/-- EVICTION_SAVE_COMPLETE. -/
def execEvictionSaveComplete (b : BRef) (s : State) : Host.Outcome State Fault Refusal :=
  .next (s.atBlock b fun s =>
    if s.block.res == .saving then
      let launch := s.block.launch
      let go := s.block.wake || s.block.canRun
      match s.writeArea with
      | (s, false) => s.keepCore
      | (s, true) =>
        let s := s.finishSave
        if go then { s with dom := s.dom.queueBlock b.blk } else s.checkHung launch
    else s)

/-! The watch over evicted blocks (R48) -/

/-- The value at an address as a watcher outside the cores reads it; `none` when a check fails. -/
def State.peek (s : State) (va : W64) (n : Nat) : Option Nat :=
  let who : Who := { core := 96, tenant := s.tenant, user := !s.path.priv, unit := s.pathUnit, serial := false }
  match s.check who va { n := n, write := false, atomic := false, tags := true, sc := some .sys } with
  | (_, .error _) => none
  | (s, .ok t) => some (s.unitRead who t .normal n).2

/-- R48: a write has met the condition of the `sigwait` in which a path waits. -/
def State.sigMet (s : State) (p : PRef) : Bool := (s.dom :: s.doms).any fun d => d.monitors.any fun m => m.p == p && m.met

/-- R48: the FED's partition watches a word, which no home slice does: on a private page, or where the reads of the wait would fail. -/
def State.fedWatches (s : State) (va : W64) (n : Nat) : Bool :=
  let who : Who := { core := 96, tenant := s.tenant, user := !s.path.priv, unit := s.pathUnit, serial := false }
  match (s.check who va { n := n, write := false, atomic := false, tags := true, sc := some .sys }).2 with
  | .ok (.loc _ l) => l.reg == 0
  | .ok _ => false
  | .error _ => true

/-- R48, R309: it reads such a word again: the poll interval has passed since it last did, and no lock holds the read off. -/
def State.fedPolls (s : State) : Bool :=
  match s.path.status with
  | .waiting (.sig va sz _ _ _ _) => decide (s.dom.cfg.poll < s.dom.fed - s.block.pollAt) && !s.vaHeld va && s.fedWatches va (sizeBytes sz)
  | _ => false

/-- R48: the wake of the focused path, whose block is off its core. -/
def State.woken (s : State) : Bool :=
  match s.path.status with
  | .waiting (.sig va sz c x _ _) =>
    (s.sigMet s.pref && !s.vaHeld va) ||
      (s.fedPolls && (s.peek va (sizeBytes sz)).elim true fun v => sigHolds c v (x.toNat % 2 ^ (8 * sizeBytes sz)))
  | .waiting (.mon _ _ _ _ _) => s.monHit s.pref
  | .waiting (.gang ix p _) => ((s.gangAt ix).map fun g => g.scope != .blk && phaseDone g.ph p).getD false
  | .running => !s.path.halted
  | _ => false

/-- A wake has reached the focused block, which is being saved or is off its core. -/
def State.blockWoken (s : State) : Bool :=
  s.block.wake || s.anyPath State.woken || (s.block.stream.map fun m => m.status == .running).getD false

/-- EVICTED_WAKE: the wake is recorded in the wake word, and the block is queued for relaunch once its save is complete; polls that have
found nothing are made again after the interval. -/
def execEvictedWake (b : BRef) (s : State) : Host.Outcome State Fault Refusal :=
  .next (s.atBlock b fun s =>
    match s.block.res with
    | .saving => if s.blockWoken then { s with block := { s.block with wake := true } } else s
    | .evicted =>
      if s.blockWoken then
        let s := ({ s with block := { s.block with wake := true } }).headerWord 0
        let s := s.unfocus
        { s with dom := s.dom.queueBlock b.blk }
      else if s.anyPath State.fedPolls then { s with block := { s.block with pollAt := s.dom.fed } }
      else s
    | _ => s)

/-! Pre-emption (R392) -/

/-- What the request does to the focused path: an open region ends; a path with a valid point is rewound. -/
def State.preemptPath (s : State) : State :=
  let s := s.leaveRegion
  if s.path.fb.isSome && !s.path.halted then (s.disarm s.pref).rewind else s

/-- The path need not run on before the save. -/
def Path.stopped (p : Path) (b : Block) : Bool :=
  p.blocked b || p.status == .rewound || p.status == .waiting .superv

/-- R340: what the stream has issued has completed. -/
def Block.streamQuiet (b : Block) : Bool := (b.stream.map fun m => m.doneOps == m.issuedOps).getD true

/-- Every path of the block has stopped, and its stream is quiet. -/
def Block.stopped (b : Block) : Bool := (b.waves.all fun w => w.paths.all fun p => p.stopped b) && b.streamQuiet

/-- The request reaches the focused block: the first time it marks it; the save starts as soon as everything stands. -/
def State.preemptBlock (s : State) : State :=
  if s.block.res != .resident then s
  else
    let s := if s.block.preempt.isSome then s
      else ({ s with block := { s.block with preempt := some s.core.cycles.toNat } }).eachPath State.preemptPath
    if s.block.stopped then s.startSave else s

/-- PREEMPT_REQUEST: the FED orders it; the blocks of a cluster group go together (log 20). -/
def execPreemptRequest (b : BRef) (s : State) : Host.Outcome State Fault Refusal :=
  let s := s.focusDom b.dom
  .next (match s.dom.blocks.find? fun x => x.id == b.blk with
    | none => s
    | some x => (s.dom.groupOf x).foldl (fun s y => (s.atBlock { dom := b.dom, blk := y.id } State.preemptBlock).unfocus) s)

/-- PREEMPT_FULL_SAVE: a path still runs after 20 µs: it is saved in full, and its block with it. -/
def execPreemptFullSave (p : PRef) (s : State) : Host.Outcome State Fault Refusal :=
  .next (s.atBlock { dom := p.dom, blk := p.blk } fun s =>
    match s.block.preempt with
    | some t =>
      if s.block.res == .resident && decide (Config.preemptBound < s.core.span t) && s.block.streamQuiet then s.startSave else s
    | none => s)

end Sys2Proof.Machine
end

