-- ==== Sys2Proof/Machine/Host.lean ====
section
/-! DEFINITION. The host's commands and notifications: queues and slots, LAUNCH, and the commands that manage a domain
(R32 to R39, R169, R279 to R281, R284, R288, R290, R291, R313, R317, R342, R379, R383, R386, R394, R398 to R409). -/

namespace Sys2Proof.Machine

/-! Queues and slots (R36 to R38) -/

/-- A memory queue; one that firmware has not described has priority 0, tenant 0 and no rights. -/
def Dom.queue (d : Dom) (n : Nat) : MQueue :=
  (d.queues.find? fun q => q.num == n).getD
    { num := n, prio := 0, preemptible := false, tenant := 0, superv := false, validate := false, cmds := 0, starved := false }

def Dom.updQueue (d : Dom) (n : Nat) (f : MQueue → MQueue) : Dom := { d with queues := insertBy MQueue.num (f (d.queue n)) d.queues }

/-- R36: a queue takes a hardware slot; its starvation episode ends (R38). -/
def Dom.mapQueue (d : Dom) (n : Nat) : Dom :=
  let q := d.queue n
  let d := d.updQueue n fun q => { q with starved := false, pendSince := none }
  { d with slots := d.slots ++ [n], pend := d.pend.filter (· != n), lastMapped := mset d.lastMapped q.prio (BitVec.ofNat 12 (n + 1)) }

/-- A queue gives its slot up; its own pending bit is set when commands remain in it. -/
def Dom.unmapQueue (d : Dom) (n : Nat) : Dom :=
  { d with slots := d.slots.filter (· != n), pend := if (d.queue n).cmds != 0 then insertBy id n d.pend else d.pend }

/-- R15: a command of the queue stands in its Locket. -/
def Dom.holdsCmd (d : Dom) (n : Nat) : Bool := d.hostLocket.any fun h => h.cmd.queue == n

/-- R36: no commands and no launch in progress. -/
def Dom.idleQueue (d : Dom) (n : Nat) : Bool := (d.queue n).cmds == 0 && !d.holdsCmd n && !d.launches.any fun l => l.queue == n

/-- R36: the mapped pre-emptible queue of the lowest priority. DESIGN CHOICE (log 90): of several, the first in the order of
the slot list. -/
def Dom.lowestSlot (d : Dom) : Option Nat :=
  (d.slots.filter fun n => (d.queue n).preemptible).foldl (fun (m : Option Nat) n => match m with
    | some x => if (d.queue x).prio ≤ (d.queue n).prio then m else some n
    | none => some n) none

/-- R36: the first action that applies to a notified queue that is not mapped. DESIGN CHOICE (log 90): of several idle
pre-emptible queues, the first in the order of the slot list gives its slot up. -/
def Dom.tryMap (d : Dom) (n : Nat) : Dom :=
  if d.slots.length < 64 then d.mapQueue n
  else match d.slots.find? fun x => (d.queue x).preemptible && d.idleQueue x with
    | some x => (d.unmapQueue x).mapQueue n
    | none =>
      match d.lowestSlot with
      | some x => if (d.queue x).prio < (d.queue n).prio then (d.unmapQueue x).mapQueue n else d
      | none => d

/-- R38: no slot can be freed for a pending notification. -/
def Dom.noSlot (d : Dom) : Bool := d.slots.length == 64 && d.slots.all fun n => !(d.queue n).preemptible

/-- R38: since when each pending queue has stood in that condition, in the FED's local time (log 83). -/
def Dom.watchSlots (d : Dom) : Dom :=
  let up := fun q : MQueue => { q with pendSince := if d.noSlot && d.pend.contains q.num then some (q.pendSince.getD d.fed) else none }
  { d with queues := d.queues.map up }

/-- R38: 1 ms, in units of 2^-24 ns. -/
def starveBound : Nat := 1000000 * 2 ^ 24

/-- R38: the queue's notification has starved, and the interrupt of this episode is due. -/
def Dom.starving (d : Dom) (n : Nat) : Bool :=
  let q := d.queue n
  d.noSlot && d.pend.contains n && !q.starved && (q.pendSince.map fun t => decide (starveBound ≤ d.fed - t)).getD false

/-- HOST_NOTIFY: a command waits in the queue. No notification is dropped, one to a domain in reset either (R37). -/
def execHostNotify (dom queue : Nat) (s : State) : Host.Outcome State Fault Refusal :=
  let s := s.focusDom dom
  .next (
    if 4096 ≤ queue then s
    else
      let d := s.dom.updQueue queue fun q => { q with cmds := q.cmds + 1 }
      { s with dom := (if d.slots.contains queue then d else { d with pend := insertBy id queue d.pend }.tryMap queue).watchSlots })

/-- R37: of the pending queues of the highest priority, the lowest number above the one last mapped at it. -/
def Dom.nextPending (d : Dom) : Option Nat :=
  let top := d.pend.foldl (fun m n => max m (d.queue n).prio) 0
  let c := d.pend.filter fun n => (d.queue n).prio == top
  let start := (mget d.lastMapped top).toNat
  (c.find? fun n => decide (start ≤ n)).orElse fun _ => c.head?

/-- SLOT_FREE_MAP: a slot frees, and the next pending queue takes it. DESIGN CHOICE (log 91): a slot frees by this event when
its queue, pre-emptible or not, has no commands and no launch in progress. -/
def execSlotFreeMap (dom slot : Nat) (s : State) : Host.Outcome State Fault Refusal :=
  let s := s.focusDom dom
  let d := match s.dom.slots[slot]? with
    | some n => if s.dom.idleQueue n then s.dom.unmapQueue n else s.dom
    | none => s.dom
  .next { s with dom := (if d.slots.length < 64 then (match d.nextPending with
    | some n => d.mapQueue n
    | none => d) else d).watchSlots }

/-- QSLOT_STARVED: the bit has stayed set for 1 ms while no slot could serve it: the interrupt, once an episode. -/
def execQslotStarved (dom queue : Nat) (s : State) : Host.Outcome State Fault Refusal :=
  let s := s.focusDom dom
  let d := s.dom
  .next { s with dom := if d.starving queue then (d.updQueue queue fun q => { q with starved := true }).interrupt (.qslotStarved queue) else d }

/-! Commands (R398) -/

/-- An earlier command of the queue has not completed. -/
def Dom.outstanding (d : Dom) (queue : Nat) : Bool :=
  d.launches.any (fun l => l.queue == queue) || d.invals.any fun x => (x.cmd.map (·.1)) == some queue

/-- R398: the answer to a command. -/
def State.reply (s : State) (c : CmdHdr) (st : Status) (data : List Nat) : State := s.complete c.queue c.seq st data

/-- R15, R398, R409: a command can be served: its domain is up, its queue is mapped, no command before it stands in the queue's
Locket, and with ORD nothing earlier is open. -/
def Dom.serves (d : Dom) (c : CmdHdr) : Bool :=
  d.up && d.slots.contains c.queue && !d.holdsCmd c.queue && !(c.ord && d.outstanding c.queue)

/-- R398: the 16-byte completion record. The spec says what it holds; where the two fields stand in it, and the codes, are open (log
11). -/
def Status.code : Status → Nat
  | .ok => 0 | .badDesc => 1 | .noFit => 2 | .gangTable => 3 | .priv => 4 | .busy => 5 | .reset => 6 | .faulted => 7 | .hung => 8
  | .badArg => 9

def Completion.record (c : Completion) : BitVec 128 := BitVec.ofNat 128 (c.status.code * 2 ^ 32 + c.seq.toNat)

/-- A command of a mapped queue is served: the tenant must be the queue's; a command of the supervisor queue only is
refused to the others. Of the slots of its priority its queue is the one that was served last (R39). -/
def command (c : CmdHdr) (sup : Bool) (f : State → State) (s : State) : Host.Outcome State Fault Refusal :=
  let s := s.focusDom c.dom
  .next (
    if s.dom.serves c = false then s
    else
      let q := s.dom.queue c.queue
      let s := { s with dom := { s.dom.updQueue c.queue fun q => { q with cmds := q.cmds - 1 } with served := mset s.dom.served q.prio (BitVec.ofNat 13 (c.queue + 1)) } }
      if q.tenant ≠ c.tenant then s.reply c .badDesc []
      else if sup && !q.superv then s.reply c .priv []
      else f s)

/-- A command that is accepted when its arguments are in range, and then completes at once. -/
def State.accept (s : State) (c : CmdHdr) (good : Bool) (f : State → State) : State :=
  if good then (f s).reply c .ok [] else s.reply c .badArg []

def State.updDom (s : State) (f : Dom → Dom) : State := { s with dom := f s.dom }

/-! LAUNCH (R32 to R35, R279, R280, R317) -/

/-- The launch engine, to memory. -/
def fedWho (dom : Nat) (tenant : BitVec 8) : Who :=
  { core := 96, tenant := tenant, user := false, unit := unitId dom 15 0 0 0, serial := false }

/-- Why the launch engine did not read: a check failed, or a lock holds a sector. -/
inductive FedStop
  | bad | held
  deriving DecidableEq, Repr

/-- The launch engine reads `n` bytes. -/
def State.fedRead (s : State) (tenant : BitVec 8) (va : W64) : Nat → State × Except FedStop Nat
  | 0 => (s, .ok 0)
  | n + 1 =>
    let who := fedWho s.dom.ix tenant
    match s.check who va { n := 1, write := false, atomic := false, tags := true, sc := none } with
    | (s, .error _) => (s, .error .bad)
    | (s, .ok t) =>
      if s.lockedFor who t false then (s, .error .held)
      else
        let (s, x) := s.unitRead who t .normal 1
        match s.fedRead tenant (va + 1) n with
        | (s, .ok y) => (s, .ok (x + 256 * y))
        | r => r

/-- R280: the list of an entry, as it stands: `n` block numbers. -/
def State.readMembers (s : State) (tenant : BitVec 8) (va : W64) : Nat → State × Except FedStop (List Nat)
  | 0 => (s, .ok [])
  | n + 1 =>
    match s.fedRead tenant va 4 with
    | (s, .error e) => (s, .error e)
    | (s, .ok b) =>
      match s.readMembers tenant (va + 4) n with
      | (s, .ok l) => (s, .ok (b :: l))
      | r => r

/-- R279, R280: a gang before its scope is fixed. -/
def Gang.new (members : List Nat) (clpl : Bool) : Gang :=
  { members := members, scope := .die, clpl := clpl, reg := members, arr := [], lmask := [], ph := 0, lasttok := 0, lastUnit := unitUnknown }

/-- R279: the members of a gang: a number listed twice counts once. -/
def membersOf (l : List Nat) : List Nat := distinct l

/-- R279: the gang of an entry and its list. -/
def Gang.ofEntry (x : Nat × List Nat) : Gang := Gang.new (membersOf x.2) (bitOf x.1 0)

/-- R279, R280: the entries of the gang table, each with its list. -/
def State.readGangs (s : State) (tenant : BitVec 8) (va : W64) : Nat → State × Except FedStop (List (Nat × List Nat))
  | 0 => (s, .ok [])
  | n + 1 =>
    match s.fedRead tenant va 16 with
    | (s, .error e) => (s, .error e)
    | (s, .ok e) =>
      let list := BitVec.ofNat 64 (bitsOf e 64 64)
      if bitsOf e 1 31 ≠ 0 ∨ bitsOf e 32 32 = 0 ∨ list.toNat % 4 ≠ 0 then (s, .error .bad)
      else match s.readMembers tenant list (bitsOf e 32 32) with
        | (s, .error e) => (s, .error e)
        | (s, .ok ms) =>
          match s.readGangs tenant (va + 16) n with
          | (s, .ok l) => (s, .ok ((e, ms) :: l))
          | r => r

/-- R32: the fields of a descriptor. -/
def Launch.ofBits (x : Nat) (c : CmdHdr) (id : W32) : Launch :=
  { id := id, queue := c.queue, seq := c.seq, nblocks := bitsOf x 0 32, waves := bitsOf x 32 6, width := 8 * 2 ^ bitsOf x 38 2,
    regblk := bitsOf x 40 5, matrix := bitOf x 45, prio := bitsOf x 46 3, validate := bitOf x 49, linked := bitOf x 50,
    tenant := BitVec.ofNat 8 (bitsOf x 56 8), linkid := BitVec.ofNat 16 (bitsOf x 64 16), abu := bitsOf x 80 9, wbu := bitsOf x 89 9,
    accu := bitsOf x 98 8, sclu := bitsOf x 106 9, args := BitVec.ofNat 64 (bitsOf x 128 56), entry := BitVec.ofNat 64 (bitsOf x 192 56),
    trapentry := BitVec.ofNat 64 (bitsOf x 256 56), ringbase := BitVec.ofNat 64 (bitsOf x 384 56), ringlog := bitsOf x 440 8,
    locketbase := BitVec.ofNat 64 (bitsOf x 448 56), mentry := 0, ready := !bitOf x 50, firstBlock := 0, gangs := [], table := [],
    ringNext := 0, started := 0, early := [], ended := 0, dead := false }

def descGangs (x : Nat) : Nat := bitsOf x 119 9
def descGangTab (x : Nat) : W64 := BitVec.ofNat 64 (bitsOf x 320 56)

/-- R32, R33: a descriptor whose fields are in range. -/
def descOk (x : Nat) (q : MQueue) : Bool :=
  let l := Launch.ofBits x { dom := 0, queue := 0, hdr := 0 } 0
  let zero := fun lo n => bitsOf x lo n == 0
  zero 504 8 && zero 376 8 && zero 312 8 && zero 248 8 && zero 184 8 && zero 115 4 && zero 51 5
    && decide (1 ≤ l.nblocks ∧ 1 ≤ l.waves ∧ l.waves ≤ 32 ∧ l.abu ≤ 256 ∧ l.wbu ≤ 256 ∧ l.accu ≤ 128 ∧ l.sclu ≤ 256 ∧ descGangs x ≤ 256)
    && decide (10 ≤ l.ringlog ∧ l.ringlog ≤ 24 ∧ l.ringbase.toNat % 32 = 0 ∧ l.locketbase.toNat % 4096 = 0)
    && (if descGangs x = 0 then descGangTab x == 0 else decide ((descGangTab x).toNat % 16 = 0))
    && legalPc l.entry && (l.trapentry == 0 || legalPc l.trapentry) && l.tenant == q.tenant && (!l.validate || q.validate)

/-- R33: GANG_TABLE: a block in more than four entries, a number beyond the launch, a cluster group above eight blocks. -/
def gangsBad (gs : List Gang) (limit : Option Nat) : Bool :=
  let all := gs.flatMap (·.members)
  all.any (fun b => decide (4 < (gs.filter fun g => g.members.contains b).length) || decide (8 < (clusterGroup gs b).length))
    || (match limit with
      | some n => all.any fun b => decide (n ≤ b)
      | none => false)

/-- R34: the scope of a gang of a launch; `whole`: its blocks lie in one part. -/
def Gang.fix (g : Gang) (whole : Bool) : Gang :=
  { g with scope := if g.members.length = 1 then .blk else if g.clpl then .cl else if whole then .die else .pkg }

/-- The status of a LAUNCH whose reads stop; none for one that a lock holds up. -/
def FedStop.status : FedStop → Option Status
  | .bad => some .badDesc
  | .held => none

/-- R33: the launch of a descriptor, or the status that rejects it; no status when a read meets a locked sector (R15). -/
def State.readLaunch (s : State) (c : CmdHdr) (addr : W64) : State × Except (Option Status) Launch :=
  match s.fedRead c.tenant addr 64 with
  | (s, .error e) => (s, .error e.status)
  | (s, .ok x) =>
    if !descOk x (s.dom.queue c.queue) then (s, .error (some .badDesc))
    else
      let l := Launch.ofBits x c s.dom.nextLaunch
      let m : State × Except FedStop Nat :=
        if l.matrix then (if l.args.toNat % 8 ≠ 0 then (s, .error .bad) else s.fedRead c.tenant (l.args - 8) 8) else (s, .ok 0)
      match m with
      | (s, .error e) => (s, .error e.status)
      | (s, .ok e) =>
        if !legalPc (BitVec.ofNat 64 e) then (s, .error (some .badDesc))
        else match s.readGangs c.tenant (descGangTab x) (descGangs x) with
          | (s, .error e) => (s, .error e.status)
          | (s, .ok tab) =>
            let gs := tab.map Gang.ofEntry
            if ((Dom.reset s.dom.ix).plan l.need 0).isNone then (s, .error (some .noFit))
            else if gangsBad gs (if l.linked then none else some l.nblocks) then (s, .error (some .gangTable))
            else
              let gs' := if l.linked then gs else gs.map fun g => g.fix true
              (s, .ok { l with mentry := BitVec.ofNat 64 e, gangs := gs', table := tab })

/-- R34: the launches of a linked set that wait for their other parts. -/
def Launch.waitsWith (l : Launch) (tenant : BitVec 8) (linkid : BitVec 16) : Bool :=
  l.linked && !l.ready && l.tenant == tenant && l.linkid == linkid

/-- R34: a domain's part of a set: the parts lie in distinct domains, so a later launch waits for another set. -/
def Dom.part (d : Dom) (tenant : BitVec 8) (linkid : BitVec 16) : Option Launch := d.launches.find? fun l => l.waitsWith tenant linkid

/-- The waiting parts of a set, in ascending domain order. -/
def State.parts (s : State) (tenant : BitVec 8) (linkid : BitVec 16) : List (Nat × Launch) :=
  (insertBy Dom.ix s.dom s.doms).filterMap fun d => (d.part tenant linkid).map fun l => (d.ix, l)

def State.updDoms (s : State) (f : Dom → Dom) : State := { s with dom := f s.dom, doms := s.doms.map f }

/-- R280: the other parts are cancelled with one whose table differs. DESIGN CHOICE (log 107): they complete with GANG_TABLE too. -/
def State.cancelParts (s : State) (tenant : BitVec 8) (linkid : BitVec 16) : State :=
  s.updDoms fun d => match d.part tenant linkid with
    | none => d
    | some p => { d with launches := d.launches.filter fun l => l.id != p.id,
                         completions := d.completions ++ [{ queue := p.queue, seq := p.seq, status := .gangTable, data := [] }] }

/-- The first block number of each part, in ascending domain order, and the number of blocks. -/
def partBases : Nat → List (Nat × Launch) → List (Nat × Nat × Nat)
  | _, [] => []
  | n, (d, l) :: ps => (d, n, l.nblocks) :: partBases (n + l.nblocks) ps

/-- A block number lies in a part. -/
def inPart (x : Nat × Nat × Nat) (b : Nat) : Bool := decide (x.2.1 ≤ b ∧ b < x.2.1 + x.2.2)

/-- R34, R280: once the parts hold every block that the tables name, block numbers and scopes are fixed and the parts may
start, with their constant and instruction caches invalidated (R85, R153). Tables that differ reject them, and so do a
cluster-placed entry over more than one part and, with nine parts, a block number that no part holds (R33). -/
def State.linkParts (s : State) (tenant : BitVec 8) (linkid : BitVec 16) : State :=
  let ps := s.parts tenant linkid
  let bases := partBases 0 ps
  let table := (ps.head?.map (·.2.table)).getD []
  let gs := table.map Gang.ofEntry
  let held := (gs.flatMap (·.members)).all fun b => bases.any fun x => inPart x b
  if ps.length < 2 then s
  else if ps.any fun p => p.2.table != table then s.cancelParts tenant linkid
  else if !held then (if ps.length < 9 then s else s.cancelParts tenant linkid)
  else
    let whole := fun g : Gang => bases.any fun x => g.members.all (inPart x)
    if gs.any fun g => g.clpl && !whole g then s.cancelParts tenant linkid
    else
      let first := fun d : Dom => ((bases.find? fun x => x.1 == d.ix).map (·.2.1)).getD 0
      let start := fun (d : Dom) (l : Launch) => { l with ready := true, firstBlock := first d, gangs := l.gangs.map fun g => g.fix (whole g) }
      s.updDoms fun d => match d.part tenant linkid with
        | none => d
        | some p => { d with launches := updIf (fun l => l.id == p.id) (start d) d.launches, ccache := [], icache := [] }

/-- The launch is accepted: it takes its LAUNCHID, and the domain's constant and instruction caches are invalidated
(R85, R108, R153). -/
def State.acceptLaunch (s : State) (l : Launch) : State :=
  let d := s.dom
  let s := { s with dom := { d with launches := d.launches ++ [l], nextLaunch := d.nextLaunch + 1, ccache := [], icache := [] } }
  if l.linked then s.linkParts l.tenant l.linkid else s

/-- A LAUNCH is performed; one of which a read meets a locked sector stands in its queue's Locket, and is performed later (R15). -/
def State.launchNow (s : State) (c : CmdHdr) (addr : W64) : State :=
  match s.readLaunch c addr with
  | (s, .error none) => s.updDom fun d => { d with hostLocket := d.hostLocket ++ [{ cmd := c, addr := addr }] }
  | (s, .error (some st)) => s.reply c st []
  | (s, .ok l) =>
    if l.linked && (s.dom.part l.tenant l.linkid).isNone && (s.parts l.tenant l.linkid).any fun p => p.2.table != l.table then
      (s.cancelParts l.tenant l.linkid).reply c .gangTable []
    else s.acceptLaunch l

/-- LAUNCH. -/
def execLaunch (c : CmdHdr) (addr : W64) (s : State) : Host.Outcome State Fault Refusal :=
  command c false (fun s => s.launchNow c addr) s

/-- R15, R221: the oldest LAUNCH of the host queues' Lockets is performed. -/
def State.launchHeld (s : State) : State :=
  match s.dom.hostLocket with
  | [] => s
  | h :: rest => (s.updDom fun d => { d with hostLocket := rest }).launchNow h.cmd h.addr

/-! Memory, keys and translation -/

/-- SLOT_TABLE (R290): both controllers adopt it at their next table cycle. -/
def execSlotTable (c : CmdHdr) (entries : List (BitVec 9)) (s : State) : Host.Outcome State Fault Refusal :=
  command c false (fun s => s.accept c (entries.length == 64) fun s => s.updDom fun d =>
    { d with ctl0 := { d.ctl0 with new := some entries }, ctl1 := { d.ctl1 with new := some entries } }) s

/-- R291, R346: a bit of the domain's dirty-page buffers is still to be written, at a sector that a lock holds. -/
def Dom.bitsLate (d : Dom) : Bool := d.late.any fun l => match l with
  | .bit _ _ => true
  | _ => false

/-- DIRTY_SWAP (R291): the buffers change places when every earlier bit has been written. -/
def execDirtySwap (c : CmdHdr) (s : State) : Host.Outcome State Fault Refusal :=
  if (s.focusDom c.dom).dom.bitsLate then .next (s.focusDom c.dom)
  else command c false (fun s => s.accept c true fun s => s.updDom fun d => { d with dirtySel := !d.dirtySel }) s

/-- DIRTY_BITMAP_BASE (R291). -/
def execDirtyBitmapBase (c : CmdHdr) (base0 base1 : W64) (s : State) : Host.Outcome State Fault Refusal :=
  command c false (fun s => s.accept c true fun s => s.updDom fun d => { d with dirtyBase0 := base0, dirtyBase1 := base1 }) s

/-- A frame number of the key table: tier · 2^34 + frame (R169). -/
def frameKey (frame : Nat) : Nat := pkey (frame / 2 ^ 34) (frame % 2 ^ 34 * 65536)

/-- The leaf covers the frame. -/
def Leaf.coversFrame (l : Leaf) (frame : Nat) : Bool :=
  let f := l.tier.toNat * 2 ^ 34 + l.frame.toNat
  decide (f ≤ frame ∧ frame < f + 2 ^ (pageBits l.level - 16))

/-- R168, R169: what the device does before a frame's new key id stands: cached lines and translations of the frame go,
and it is written with zeros under the new key, every tag 0. -/
def State.assignKey (s : State) (frame : Nat) (key : BitVec 7) : State :=
  let base := frameKey frame
  let inside := fun sec : Nat => decide (base / 64 ≤ sec ∧ sec < base / 64 + 1024)
  let s := s.flushL1 (fun x => inside x.key) false
  let inLine := fun y : CLine => decide (base / 512 ≤ y.line ∧ y.line < base / 512 + 128)
  let s := (s.dom.l2.filter inLine).foldl (fun s y => s.countPf (some y) .pfUnused) s
  let s := s.setDom (s.dom.setDirty base)
  let d := s.dom
  let d := { d with l2 := d.l2.filter (fun y => !inLine y), msc := d.msc.filter fun y => !inLine y }
  let d := { d with
      mem := mclear d.mem base (base + 65536), tags := mclear d.tags (base / 32) (base / 32 + 2048), keys := mset d.keys frame key,
      poison := d.poison.filter fun x => !inside x, tokCache := d.tokCache.filter fun x => !inside x.sector,
      monitors := updIf (fun m => inside m.sector) (fun m => { m.see fun _ _ => 0 with hit := true }) d.monitors,
      ccache := d.ccache.filter fun x => !x.leaf.coversFrame frame, icache := d.icache.filter fun x => !x.leaf.coversFrame frame,
      tlb := d.tlb.filter fun x => !x.leaf.coversFrame frame }
  { s with dom := d }

/-- R169: the frames that have a key id: of the domain's HBM, and of its second tier. -/
def keyFrame (frame : Nat) : Bool := decide (frame < 1572864 ∨ (2 ^ 34 ≤ frame ∧ frame < 2 ^ 35))

/-- R346: a lock holds a sector of the frame. -/
def Dom.frameHeld (d : Dom) (frame : Nat) : Bool := d.locks.any fun x => x.sector / 1024 == frameKey frame / 65536

/-- R402: part of the frame lies behind a second-tier port or device that has failed. -/
def State.frameFailed (s : State) (frame : Nat) : Bool := (List.range 16).any fun k => s.tier2Failed (frameKey frame + 4096 * k)

/-- KEY_ASSIGN (R169), for a frame of the domain's HBM or of its second tier. R346: it waits while a lock holds a sector of the frame.
R402: behind a port or device that has failed it does not perform; DESIGN CHOICE (log 144): its status is FAULTED. -/
def execKeyAssign (c : CmdHdr) (frame : Nat) (key : BitVec 7) (s : State) : Host.Outcome State Fault Refusal :=
  if (s.focusDom c.dom).dom.frameHeld frame then .next (s.focusDom c.dom)
  else command c true (fun s =>
    if keyFrame frame && s.frameFailed frame then s.reply c .faulted [] else s.accept c (keyFrame frame) fun s => s.assignKey frame key) s

/-- PT_ROOT (R284): the root table of a tenant. -/
def execPtRoot (c : CmdHdr) (tenant : BitVec 8) (root : Nat) (s : State) : Host.Outcome State Fault Refusal :=
  command c true (fun s => s.accept c (decide (root % 8192 = 0 ∧ root < 2 ^ 50)) fun s => s.updDom fun d =>
    { d with ptroot := (tenant, root) :: d.ptroot.filter fun x => x.1 != tenant }) s

/-- TT_CFG (R281). -/
def execTtCfg (c : CmdHdr) (base : W64) (slots : Nat) (s : State) : Host.Outcome State Fault Refusal :=
  command c true (fun s => s.accept c (decide (slots ≤ 2 ^ 20)) fun s => s.updDom fun d => { d with ttbase := base, ttslots := slots }) s

/-- INVAL (R288): it completes with its invalidation. -/
def execInval (c : CmdHdr) (r : InvalRange) (s : State) : Host.Outcome State Fault Refusal :=
  command c false (fun s => s.updDom fun d =>
    { d with invals := d.invals ++ [{ num := d.nextInval, r := r, cmd := some (c.queue, c.seq) }], nextInval := d.nextInval + 1 }) s

/-- SERIAL_LOG_BASE (R342). -/
def execSerialLogBase (c : CmdHdr) (base : W64) (s : State) : Host.Outcome State Fault Refusal :=
  command c false (fun s => s.accept c true fun s => s.updDom fun d => { d with serialBase := base }) s

/-! Counters and tracing (R313, R379) -/

/-- The counter exists: 16 of a core, 8 of a slice. -/
def perfOk (u : PerfUnit) (idx : Nat) : Bool :=
  match u with
  | .core ix => decide (ix < 96 ∧ idx < 16)
  | .slice ix => decide (ix < 48 ∧ idx < 8)

/-- PERF_CFG: event and filter are selected, and the counter is zeroed; it is the guest's whose queue has configured it, or, of the
supervisor queue, the system's. -/
def execPerfCfg (c : CmdHdr) (u : PerfUnit) (idx : Nat) (ev : PerfEvent) (tenant : Option (BitVec 8)) (s : State) :
    Host.Outcome State Fault Refusal :=
  command c false (fun s => s.accept c (perfOk u idx) fun s =>
    let x : Counter :=
      { ev := ev, tenant := tenant, val := 0, ovf := false, owner := if (s.dom.queue c.queue).superv then none else some c.tenant }
    match u with
    | .core ix => s.updCore ix fun k => { k with perf := k.perf.set idx x }
    | .slice ix => s.updDom fun d => { d with slicePerf := insertBy (·.1) (8 * ix + idx, x) d.slicePerf }) s

/-- The counter of a unit. -/
def State.perfAt (s : State) (u : PerfUnit) (idx : Nat) : Counter :=
  match u with
  | .core ix => ((s.coreAt ix).perf[idx]?).getD Counter.zero
  | .slice ix => ((s.dom.slicePerf.find? fun x => x.1 == 8 * ix + idx).map (·.2)).getD Counter.zero

/-- PERF_READ: the count and the sticky overflow bit. -/
def execPerfRead (c : CmdHdr) (u : PerfUnit) (idx : Nat) (s : State) : Host.Outcome State Fault Refusal :=
  command c false (fun s =>
    if perfOk u idx then let x := s.perfAt u idx; s.reply c .ok [x.val.toNat, b2n x.ovf] else s.reply c .badArg []) s

/-- R379: sizes and intervals in range; the tenant filter in isolation mode. -/
def traceOk (iso : Bool) (t : TraceCfg) : Bool :=
  decide (4096 ≤ t.size ∧ 2 ^ Nat.log2 t.size = t.size ∧ 2 ^ 8 ≤ t.interval ∧ t.interval ≤ 2 ^ 24) && (!iso || t.tenant.isSome)

/-- TRACE_CFG: tracing starts at the base of its buffer. -/
def execTraceCfg (c : CmdHdr) (cfg : TraceCfg) (s : State) : Host.Outcome State Fault Refusal :=
  command c false (fun s => s.accept c (traceOk s.dom.isolation cfg) fun s => s.updDom fun d =>
    { d with trace := some cfg, traceCount := 0, tracePos := 0, cores := d.cores.map fun k => { k with samples := [] } }) s

/-- TRACE_READ: the count of records written. -/
def execTraceRead (c : CmdHdr) (s : State) : Host.Outcome State Fault Refusal :=
  command c false (fun s => s.reply c .ok [s.dom.traceCount.toNat]) s

/-! Traps and parks (R383, R386) -/

/-- TRAP_CFG. -/
def execTrapCfg (c : CmdHdr) (entry save : W64) (s : State) : Host.Outcome State Fault Refusal :=
  command c false (fun s => s.accept c (legalPc entry && decide (save.toNat % 32 = 0)) fun s => s.updDom fun d =>
    { d with supentry := entry, supsave := save }) s

/-- FAULTQ_CFG: the queue is empty; the records of live parks are written again. -/
def execFaultqCfg (c : CmdHdr) (base : W64) (size : Nat) (s : State) : Host.Outcome State Fault Refusal :=
  command c false (fun s => s.accept c true fun s => s.updDom fun d =>
    { d with faultqBase := base, fqsize := size, fqnext := 0, parks := d.parks.map fun k => { k with slot := none } }) s

/-- The block of a parked unit. -/
def Parked.block : Parked → BRef
  | .path p => { dom := p.dom, blk := p.blk }
  | .entry b _ _ | .elem b _ _ _ | .copy b _ | .stream b => b

/-- The parked path, in focus, when it still stands there. -/
def State.atParked (s : State) (p : PRef) (id : W32) (f : State → State) : State :=
  s.atPath p fun s => if s.path.status = .parked id then f s else s

def State.unparkEntry (s : State) (wave : Nat) (id : W32) : State :=
  let up := fun w : Wave => { w with locket := updIf (fun e => e.parked == some id) (fun e => { e with parked := none }) w.locket }
  { s with block := { s.block with waves := updIf (fun w => w.wid == wave) up s.block.waves } }

/-- R386: what was parked goes on: a path executes its instruction again for the lanes that it holds. Its windows have completed
with the trap (R387). -/
def State.replayPark (s : State) (k : Park) : State :=
  match k.what with
  | .path p => s.atParked p k.id fun s => ({ s with path := { s.path with windows := [] } } : State).stay
  | .entry b w _ => s.atBlock b fun s => s.unparkEntry w k.id
  | .elem b w _ _ => s.atBlock b fun s => s.unplaceElem w fun e => e.parked == some k.id
  | .copy b n => s.atBlock b fun s => s.updOp n fun x => { x with parked := none }
  | .stream b => s.atBlock b fun s => match s.block.stream with
      | some m => if m.status = .parked k.id then s.putStream { m with status := .running, ir := none } else s
      | none => s

/-- R386: the fault is raised, or recorded against the parked unit, as one that is not replayable. -/
def State.failPark (s : State) (k : Park) : State :=
  match k.what with
  | .path p => s.atParked p k.id fun s =>
      s.trapFull .pageFault false k.kind.toNat (fun l => ((k.addrs.find? fun (x : Nat × W64) => x.1 == l).map (·.2)).getD k.va) (fun _ => 1)
  | .entry b w tag => s.atBlock b fun s =>
      match s.block.waves.find? fun x => x.wid == w with
      | none => s
      | some x =>
        match x.locket.find? (fun e => e.tag == tag), x.paths.head? with
        | some e, some p =>
          let q := (x.paths.find? fun y => e.paths.contains y.pid).getD p
          match s.openPath w q.pid with
          | none => s
          | some s => (s.dropEntry tag).entryFails e (e.req.lanes.map fun r => (r, ⟨3, .pageFault, 1, false⟩)) (replay := false)
        | _, _ => s
  | .elem b w _ _ => s.atBlock b fun s =>
      match s.block.copy.elems.find? fun e => e.parked == some k.id with
      | some e => (s.endElem e (some (.pageFault, k.va))).unplaceElem w fun _ => false
      | none => s
  | .copy b n => s.atBlock b fun s =>
      match s.block.copy.ops.find? fun x => x.num == n with
      | some op => s.completeOp op (some (.pageFault, k.va))
      | none => s
  | .stream b => s.atBlock b fun s => match s.block.stream with
      | some m => if m.status = .parked k.id then s.streamFault .pageFault m.pc 0 else s
      | none => s

def State.dropPark (s : State) (id : W32) : State := s.updDom fun d => { d with parks := d.parks.filter fun k => k.id != id }

/-- R48: what is resumed is a wake of its block when that is off its core. -/
def State.resumed (s : State) : State :=
  if s.block.res = .resident then s else { s with block := { s.block with wake := true } }

/-- R48: the release of a replay is a wake of a block that is off its core. -/
def State.wakeBlock (s : State) (b : BRef) : State :=
  s.atBlock b fun s => s.resumed

def State.onCore (s : State) (b : BRef) : Bool := s.dom.blocks.any fun x => x.id == b.blk && x.res == .resident

/-- A live park that has not been answered. -/
def Dom.parkOf (d : Dom) (id : W32) : Option Park := d.parks.find? fun k => k.id == id && !k.failed

/-- FAULT_REPLAY. -/
def execFaultReplay (c : CmdHdr) (id : W32) (s : State) : Host.Outcome State Fault Refusal :=
  command c false (fun s =>
    match s.dom.parkOf id with
    | none => s.reply c .badArg []
    | some k => ((((s.dropPark id).replayPark k).wakeBlock k.what.block).focusDom c.dom).reply c .ok []) s

/-- FAULT_FAIL: for a block that is off its core it takes effect when the block is back on one. -/
def execFaultFail (c : CmdHdr) (id : W32) (s : State) : Host.Outcome State Fault Refusal :=
  command c false (fun s =>
    match s.dom.parkOf id with
    | none => s.reply c .badArg []
    | some k =>
      if s.onCore k.what.block then (((s.dropPark id).failPark k).focusDom c.dom).reply c .ok []
      else
        let s := s.updDom fun d => { d with parks := updIf (fun x => x.id == id) (fun x => { x with failed := true }) d.parks }
        ((s.wakeBlock k.what.block).focusDom c.dom).reply c .ok []) s

/-! Debugging (R394) -/

def execDbgAttach (c : CmdHdr) (s : State) : Host.Outcome State Fault Refusal :=
  command c false (fun s => s.accept c true fun s => s.updDom fun d => { d with dbg := true }) s

/-- DBG_DETACH. DESIGN CHOICE (log 109): halted paths stay halted, and the words that have not acted are dropped. -/
def execDbgDetach (c : CmdHdr) (s : State) : Host.Outcome State Fault Refusal :=
  command c false (fun s => s.accept c true fun s => s.updDom fun d => { d with dbg := false, dbgBuffer := [], dbgPath := none }) s

/-- A debugger is attached and the path exists in the domain. -/
def State.dbgOk (s : State) (p : PRef) : Bool := s.dom.dbg && p.dom == s.dom.ix && (s.focusPath p).isSome

def State.pathHalted (s : State) (p : PRef) : Bool := ((s.focusPath p).map fun s => s.path.halted).getD false

/-- A debugger's act on a path. -/
def dbgForm (c : CmdHdr) (p : PRef) (need : State → Bool) (f : State → State) (s : State) : Host.Outcome State Fault Refusal :=
  command c false (fun s => s.accept c (s.dbgOk p && need s) fun s => (s.atPath p f).focusDom c.dom) s

/-- DBG_HALT: an open region ends first (R353); open windows keep their counts (R83), and what they still wait for is performed before
a word of the program buffer acts. -/
def execDbgHalt (c : CmdHdr) (p : PRef) (s : State) : Host.Outcome State Fault Refusal :=
  dbgForm c p (fun _ => true) (fun s =>
    let s := if s.block.res == .resident then s.leaveRegion else s
    { s with path := { s.path with halted := true } }) s

/-- DBG_EXEC: the program buffer takes at most 16 words; they issue in the path's slot. DESIGN CHOICE (log 109): a command that finds
words in the buffer is BUSY, and one that is taken completes before its words have acted. -/
def execDbgExec (c : CmdHdr) (p : PRef) (words : List IWord) (s : State) : Host.Outcome State Fault Refusal :=
  command c false (fun s =>
    if s.dom.dbgBuffer ≠ [] then s.reply c .busy []
    else s.accept c (s.dbgOk p && s.pathHalted p && decide (words.length ≤ 16)) fun s => s.updDom fun d =>
      { d with dbgBuffer := words, dbgPath := some p, dbgIx := 0 }) s

/-- DBG_STEP: the path, halted or not, issues one instruction and then takes STEP. -/
def execDbgStep (c : CmdHdr) (p : PRef) (s : State) : Host.Outcome State Fault Refusal :=
  dbgForm c p (fun _ => true) (fun s => ({ s with path := { s.path with halted := false, stepBit := true } }).resumed) s

/-- DESIGN CHOICE (log 109): a path that is to go on at TRAPPC leaves the wait in which it was halted: its instruction writes nothing
more, and its lanes have not arrived at the join that it leaves. -/
def State.leaveWait (s : State) : State :=
  match s.path.status with
  | .waiting _ =>
    let s := (s.disarm s.pref).leaveJoin.dropAgain
    { s with path := { s.path with status := .running, lost := [] } }
  | _ => { s with path := { s.path with again := false, kept := none } }

/-- DBG_RESUME: the path goes on at its PC, or at TRAPPC. -/
def execDbgResume (c : CmdHdr) (p : PRef) (fromTrapPc : Bool) (s : State) : Host.Outcome State Fault Refusal :=
  dbgForm c p (fun s => s.pathHalted p) (fun s =>
    let s := if fromTrapPc then s.leaveWait else s
    let q := s.path
    ({ s with path := { q with halted := false, pc := if fromTrapPc then q.trappc else q.pc, ir := if fromTrapPc then none else q.ir } }).resumed) s

/-! Tenants and peers (R399, R400, R403) -/

/-- R403: the shares of a tenant. -/
def shareOf (l : List TenantShare) (t : BitVec 8) : Option TenantShare := l.find? fun x => x.tenant == t

/-- R404: the ways and banks that a tenant has; in shared mode no partition applies. -/
def partitionOf (isolation : Bool) (shares : List TenantShare) (t : BitVec 8) : Option (BitVec 16 × BitVec 32) :=
  if isolation then (shareOf shares t).map fun x => (x.ways, x.banks) else none

/-- R290, R403: a controller is to adopt the table in which the slots of the shares serve their tenants. DESIGN CHOICE
(log 97): the other entries stand as they were. -/
def SlotCtl.give (x : SlotCtl) (shares : List TenantShare) : SlotCtl :=
  let own := fun e : BitVec 9 × Nat => match shares.find? fun y => y.slots.getLsbD e.2 with
    | some y => y.tenant.zeroExtend 9
    | none => e.1
  { x with new := some ((x.new.getD x.table).zipIdx.map own) }

/-- R403: the mode and the shares stand; in isolation mode the tenants' slots are on their way to both controllers. -/
def Dom.share (d : Dom) (isolation : Bool) (shares : List TenantShare) : Dom :=
  let d := { d with isolation := isolation, shares := shares }
  if isolation then { d with ctl0 := d.ctl0.give shares, ctl1 := d.ctl1.give shares } else d

/-- TENANT_CFG: BUSY while a tenant whose ways or banks would change has live launches (R404). -/
def execTenantCfg (c : CmdHdr) (isolation : Bool) (shares : List TenantShare) (s : State) : Host.Outcome State Fault Refusal :=
  command c true (fun s =>
    if isolation = true ∧ (shares.any fun x => x.ways == 0) = true then s.reply c .badArg []
    else if s.dom.launches.any fun l => partitionOf s.dom.isolation s.dom.shares l.tenant != partitionOf isolation shares l.tenant then s.reply c .busy []
    else s.accept c true fun s => s.updDom fun d => d.share isolation shares) s

/-- The export slots up to `n`. -/
def Dom.padExports (d : Dom) (n : Nat) : List Export := d.exports ++ (List.range (n + 1 - d.exports.length)).map fun k => d.exportAt (d.exports.length + k)

/-- EXPORT: the slot holds the range, and the handle goes back (R399). -/
def execExportRange (c : CmdHdr) (slot : Nat) (ex : ExportReq) (s : State) : Host.Outcome State Fault Refusal :=
  command c true (fun s =>
    if 4096 ≤ slot ∨ ex.base.toNat % 65536 ≠ 0 ∨ 2 ^ 56 ≤ ex.base.toNat ∨ ex.pages = 0 ∨ 2 ^ 26 < ex.pages ∨ (s.dom.exportAt slot).live = true then
      s.reply c .badArg []
    else
      let g := (s.dom.exportAt slot).gen
      let x : Export := { base := ex.base, pages := ex.pages, read := ex.read, write := ex.write, atomic := ex.atomic,
                          tenant := ex.tenant, live := true, gen := g }
      let s := s.updDom fun d => { d with exports := (d.padExports slot).set slot x }
      s.reply c .ok [s.dom.ix * 2 ^ 28 + slot * 2 ^ 12 + g.toNat]) s

/-- IMPORT: the handle stands in an entry, whose index goes back; a port must be the domain's (R399, R401). -/
def execImportHandle (c : CmdHdr) (entry : Nat) (handle : W32) (port : Option Nat) (s : State) : Host.Outcome State Fault Refusal :=
  command c true (fun s =>
    let bad := match port with
      | some p => (s.ports[p]?).map (·.dom) != some s.dom.ix
      | none => false
    if 256 ≤ entry ∨ bad = true then s.reply c .badArg []
    else (s.updDom fun d => { d with imports := insertBy Import.ix { ix := entry, handle := handle, port := port } d.imports }).reply c .ok [entry]) s

/-- R400: the next generation: 0 is skipped. -/
def nextGen (g : BitVec 12) : BitVec 12 := if g = 0xFFF then 1 else g + 1

/-- REVOKE: every access that was admitted has performed, since each is one step. -/
def execRevoke (c : CmdHdr) (slot : Nat) (s : State) : Host.Outcome State Fault Refusal :=
  command c true (fun s => s.accept c (decide (slot < s.dom.exports.length)) fun s => s.updDom fun d =>
    let x := d.exportAt slot
    { d with exports := d.exports.set slot { x with live := false, gen := nextGen x.gen } }) s

/-! Reset and attestation (R11, R406, R409) -/

/-- R409, R11: a domain in reset: launches, parks, imports and tenants are gone, every export generation has advanced;
memory, its tags and its keys stand, and so do what its firmware has set and the FED's time. Invalidations that waited have completed. -/
def Dom.inReset (d : Dom) : Dom :=
  let lost := (d.launches.map fun l => (l.queue, l.seq)) ++ d.hostLocket.map fun h => (h.cmd.queue, h.cmd.seq)
  let lost := lost.map fun x => ({ queue := x.1, seq := x.2, status := .reset, data := [] } : Completion)
  let invs := d.invals.filterMap fun x => x.cmd.map fun y => ({ queue := y.1, seq := y.2, status := .ok, data := [] } : Completion)
  let new := { Dom.reset d.ix with
    up := false, mem := d.mem, tags := d.tags, keys := d.keys, poison := d.poison, queues := d.queues, slots := d.slots, pend := d.pend,
    lastMapped := d.lastMapped, completions := d.completions ++ invs ++ lost, interrupts := d.interrupts, reports := d.reports }
  { new with exports := d.exports.map (fun x => { x with live := false, gen := nextGen x.gen }), genBase := nextGen d.genBase, nextBlock := d.nextBlock,
             nextPark := d.nextPark, measure := d.measure, version := d.version, fuse := d.fuse, cfg := d.cfg, fed := d.fed,
             corrected := d.corrected, msix := d.msix, served := d.served }

/-- R399: the domain's own leaf for an address is a peer-window page through a handle of domain `n`. -/
def Dom.reaches (d : Dom) (cluster : Nat) (tenant : BitVec 8) (n : Nat) (va : W64) : Bool :=
  match (d.translate none cluster tenant va false).2 with
  | .ok l => l.tier == 2 && (d.imports.find? fun x => x.ix == l.frame.toNat % 256).any fun im => im.port.isNone && bitsOf im.handle.toNat 28 4 == n
  | .error _ => false

/-- R11: domain `n` begins a reset: what a block of another domain has in flight towards it, bounced requests and copies, is cut off.
DEDUCED (log 135): a copy is in flight towards the domain where its next element, or an access of it that waits, goes there. -/
def Dom.cutBlock (d : Dom) (n : Nat) (b : Block) : Block :=
  let tenant := ((d.launch b.launch).map (·.tenant)).getD 0
  let at_ := fun va : W64 => d.reaches (b.core / 8) tenant n va
  let entry := fun e : Entry => if e.sector / 2 ^ 56 = n + 16 then { e with req := { e.req with lanes := e.req.lanes.map fun r => { r with cut := true } } } else e
  let elem := fun e : Elem => { e with cut := e.cut || at_ e.ga }
  let op := fun o : CopyOp => { o with cut := o.cut || ((o.nextIn (boxCount o.rcd.toNat) 0).any fun x => at_ x.2) || o.access.any fun x => at_ x.2 }
  { b with waves := b.waves.map (fun w => { w with locket := w.locket.map entry }),
           copy := { b.copy with elems := b.copy.elems.map elem, ops := b.copy.ops.map op } }

/-- DOMAIN_RESET: what other domains hold for its paths goes too, and what they have in flight towards it is cut off (R11). -/
def State.resetDom (s : State) (n : Nat) : State :=
  let s := s.unfocus
  let mine := fun d : Dom => d.ix == n
  let s := s.updDoms fun d => if mine d then d.inReset else { d with monitors := d.monitors.filter (fun m => m.p.dom != n), blocks := d.blocks.map (d.cutBlock n) }
  { s with issueQ := s.issueQ.filter fun r => r.p.dom != n, sigs := s.sigs.filter fun x => x.1 != n }

/-- RESET_DOMAIN. -/
def execResetDomain (c : CmdHdr) (n : Nat) (s : State) : Host.Outcome State Fault Refusal :=
  command c true (fun s => s.accept c (decide (n < 9)) fun s => (s.resetDom n).focusDom c.dom) s

/-- R406: the report of a domain: measurement, security version, tenant mode. -/
def Dom.report (d : Dom) : List Nat := [(Config.freeMeasurement d.measure).toNat, d.version, b2n d.isolation]

def Loaded.report (x : Loaded) : List Nat := [(Config.freeMeasurement x.measure).toNat, x.version]

/-- ATTEST: measurements and versions of the images of the IOD, of the FED and of the domains, the tenant modes, the nonce, and the
signature over them. -/
def execAttest (c : CmdHdr) (nonce : List Byte) (s : State) : Host.Outcome State Fault Refusal :=
  command c false (fun s =>
    if nonce.length ≠ 32 then s.reply c .badArg []
    else
      let data := s.iod.report ++ s.fedDie.report ++ (insertBy Dom.ix s.dom s.doms).flatMap Dom.report ++ nonce.map BitVec.toNat
      s.reply c .ok (data ++ [(Config.freeSignature (data.flatMap (leBytes 32))).toNat])) s

end Sys2Proof.Machine
end

