-- ==== Sys2Proof/Machine/Env.lean ====
section
/-! DEFINITION. What the package's own units and its surroundings do: walks and write-backs, memory controllers, links,
clocks, reset and start-up, and the host's accesses to memory (R12, R13, R20, R21, R186, R285, R290, R367, R397, R401,
R402, R405, R408 to R410). -/

namespace Sys2Proof.Machine

/-! Caches and translation -/

/-- TLB_WALK (R285): a miss of a cluster walks the tables, sets A, and D for a write to a page that may be written; the
translation enters its TLB. -/
def execTlbWalk (dom cluster : Nat) (tenant : BitVec 8) (va : W64) (write : Bool) (s : State) : Host.Outcome State Fault Refusal :=
  let s := s.focusDom dom
  .next (match s.dom.translate none cluster tenant va write with
    | (d, .error _) => s.setDom d
    | (d, .ok l) => s.setDom (if write && l.w then (d.setD cluster tenant va).1 else d))

/-- R407, R409: what a crossing's code says of the data of sectors of the domain in focus: a corrected error is counted; data with an
uncorrectable one poisons them, and firmware may reset the domain. -/
def State.eccAt (s : State) (e : Ecc) (sectors : List Nat) : State :=
  match e with
  | .clean => s
  | .corrected => s.updDom fun d => { d with corrected := d.corrected + 1 }
  | .bad reset =>
    let n := s.dom.ix
    let s := s.updDom fun d => { d with poison := sectors.filter (fun k => !d.poison.contains k) ++ d.poison }
    if reset then (s.resetDom n).focusDom n else s

/-- R407, log 75: a soft error strikes data of the domain in focus: a sector, which every later read finds poisoned; the registers of a
path, which takes UNCORRECTABLE at its next instruction; 64 bytes of a buffer. -/
def State.strike (s : State) (x : EccSite × Ecc) : State :=
  match x.1 with
  | .sector key => s.eccAt x.2 [key]
  | .regs p =>
    let n := s.dom.ix
    let bad := x.2 != .clean && x.2 != .corrected
    let s := if bad && p.dom == n then (s.atPath p fun s => { s with path := { s.path with uncorr := true } }).focusDom n else s
    s.eccAt x.2 []
  | .buffer core buf sector =>
    let bad := x.2 != .clean && x.2 != .corrected
    let add := fun c : Core => { c with flaws := { buf := buf, sector := sector } :: c.flaws.filter fun f => !(f.buf == buf && f.sector == sector) }
    (if bad && decide (buf < 4) then s.updCore core add else s).eccAt x.2 []

/-- L1_WRITE_BACK (R367): a dirty sector of a core reaches its home slice with the token it holds; soft errors may have struck (R407). -/
def execL1WriteBack (dom core : Nat) (x : WriteBack) (s : State) : Host.Outcome State Fault Refusal :=
  let s := s.focusDom dom
  let p := fun y : L1Sector => y.is core x.key && y.dirty
  let s := if s.dom.l1.any p then (s.flushL1 p true).eccAt x.ecc [x.key] else s
  .next (x.strikes.foldl State.strike s)

/-! Memory controllers and links -/

def SlotCtl.adopt (c : SlotCtl) : SlotCtl := { table := c.new.getD c.table, new := none }

/-- MEMORY_TABLE_CYCLE (R290): a controller adopts the new table at the start of its cycle. -/
def execMemoryTableCycle (dom : Nat) (ctrl : Bool) (s : State) : Host.Outcome State Fault Refusal :=
  let s := s.focusDom dom
  .next (s.updDom fun d => if ctrl then { d with ctl1 := d.ctl1.adopt } else { d with ctl0 := d.ctl0.adopt })

/-- R7, log 84: the pairs of the eleven dies, CD0 to CD8, the FED and the IOD, in order. -/
def diePairs : List (Nat × Nat) := (List.range 11).flatMap fun a => ((List.range 11).filter fun b => decide (a < b)).map fun b => (a, b)

/-- R12: the domains whose firmware learns that a link is down: those of the compute dies at its two ends; all nine for the
link of the FED with the IOD; that of a base die's compute die; that to which a fabric port is assigned. -/
def State.linkDoms (s : State) (link : Nat) : List Nat :=
  match diePairs[link]? with
  | some (a, b) => if 9 ≤ a then List.range 9 else if 9 ≤ b then [a] else [a, b]
  | none => if link < 73 then [(link - 55) / 2] else ((s.ports[link - 73]?).map (·.dom)).toList

/-- LINK_DOWN, FABRIC_PORT_DOWN (R12, R401). -/
def State.linkDown (s : State) (link : Nat) : State :=
  let ds := s.linkDoms link
  let s := s.updDoms fun d => if ds.contains d.ix then { d with reports := d.reports ++ [.uncorrectable link] } else d
  if link < 73 then s
  else { s with ports := s.ports.zipIdx.map fun x => if x.2 = link - 73 then { x.1 with up := false } else x.1 }

/-- FLIT_RECEIVE (R12): a flit that passes its check ends the replays; the eighth failed replay in a row takes the link
down. -/
def execFlitReceive (link : Nat) (crcOk : Bool) (s : State) : Host.Outcome State Fault Refusal :=
  .next (match s.links[link]? with
    | none => s
    | some l =>
      if l.down then s
      else if crcOk then { s with links := s.links.set link { replays := 0, down := false } }
      else
        let n := l.replays + 1
        let t := { s with links := s.links.set link { replays := n, down := decide (8 < n) } }
        if 8 < n then t.linkDown link else t)

/-- SECOND_TIER_PORT_FAILURE (R402): a port fails, or a memory device behind one. -/
def execSecondTierPortFailure (x : Tier2Fail) (s : State) : Host.Outcome State Fault Refusal :=
  .next (if 8 ≤ x.port ∨ s.tier2down.contains x = true then s else { s with tier2down := s.tier2down ++ [x] })

/-! Clocks (R13, R20, R408) -/

def Core.clock (c : Core) (ns : W32) : Core := { c with nspercyc := ns.setWidth 64 }

/-- CLOCK_CHANGE: firmware rewrites NSPERCYC of a core. -/
def execClockChange (dom core : Nat) (ns : W32) (s : State) : Host.Outcome State Fault Refusal :=
  let s := s.focusDom dom
  .next (s.updCore core fun c => c.clock ns)

/-- AGEING_REPLAN: a new clock for the die; nothing else changes. -/
def execAgeingReplan (dom : Nat) (ns : W32) (s : State) : Host.Outcome State Fault Refusal :=
  let s := s.focusDom dom
  .next (s.updDom fun d => { d with cores := d.cores.map fun c => c.clock ns })

/-! Reset and start-up (R21, R405, R409, R410) -/

/-- THERMAL: firmware resets the domain and reports it. -/
def execThermal (dom : Nat) (s : State) : Host.Outcome State Fault Refusal :=
  let s := s.resetDom dom
  .next (s.updDoms fun d => if d.ix = dom then { d with reports := d.reports ++ [.thermal] } else d)

/-- R405: the security versions in the fuses of the compute dies. -/
def State.allFuses (s : State) : List (Nat × Nat) := (s.dom :: s.doms).map fun d => (d.ix, d.fuse)

/-- PACKAGE_RESET: everything inside the package starts anew, and every domain is down until BOOT. The versions in the fuses stand
(R405). -/
def execPackageReset (s : State) : Host.Outcome State Fault Refusal :=
  let fuses := s.allFuses
  let t := { State.reset with
    hostMem := s.hostMem, fabricMem := s.fabricMem, fabricTok := s.fabricTok,
    iod := { State.reset.iod with fuse := s.iod.fuse }, fedDie := { State.reset.fedDie with fuse := s.fedDie.fuse } }
  .next (t.updDoms fun d => { d with up := false, fuse := ((fuses.find? fun x => x.1 == d.ix).map (·.2)).getD 0 })

def clamp (lo hi n : Nat) : Nat := max lo (min hi n)

/-- Microseconds in units of 2^-24 ns. -/
def usec (n : Nat) : Nat := n * 1000 * 2 ^ 24

/-- R45, R186, R239, R309, R352, R356, R389: the settings of a domain stand within their bounds. -/
def DomCfg.bounded (c : DomCfg) : DomCfg :=
  { residency := clamp (usec 2) (usec 1000) c.residency, mwait := clamp (usec 1) (usec 10000) c.mwait,
    poll := clamp (usec 1 / 2) (usec 100) c.poll, serial := clamp (usec 10) (usec 10000) c.serial,
    supervisor := clamp (usec 10) (usec 100000) c.supervisor, revalidation := clamp (2 ^ 12) (2 ^ 24) c.revalidation,
    dequeLog := clamp 16 26 c.dequeLog, bounce := c.bounce }

/-- R405: the image runs: its signature verifies, and its security version is not below the one in the fuses. -/
def BootImage.runs (x : BootImage) (fuse : Nat) : Bool := x.signed && decide (fuse ≤ x.version)

def Dom.verified (d : Dom) (x : BootImage) : Bool := BootImage.runs x d.fuse

/-- R405, R406: the die starts with an image. -/
def Dom.starts (d : Dom) (x : BootImage) : Dom := { d with up := true, measure := x.image, version := x.version }

/-- R36, R398: what firmware says of a memory queue of the domain. -/
def Dom.describe (d : Dom) (q : QueueCfg) : Dom :=
  if 4096 ≤ q.num then d
  else d.updQueue q.num fun x =>
    { x with prio := q.prio, preemptible := q.preemptible, tenant := q.tenant, superv := q.superv, validate := q.validate }

/-- R405, R406: the die starts with an image that verifies and the settings of its firmware, which describes its queues; else its
domain is down. -/
def Dom.boots (d : Dom) (images : BootCfg) : Dom :=
  match images.images[d.ix]? with
  | none => { d with up := false }
  | some x =>
    if d.verified x then
      let d := { d.starts x with cfg := ((images.doms[d.ix]?).map DomCfg.bounded).getD d.cfg }
      ((images.queues[d.ix]?).getD []).foldl Dom.describe d
    else { d with up := false }

def Loaded.load (l : Loaded) (x : BootImage) : Loaded :=
  if BootImage.runs x l.fuse then { l with measure := x.image, version := x.version } else l

/-- DOMAIN_REJOIN: a domain in reset accepts work again once its firmware has been verified again (R405, R409). -/
def execDomainRejoin (dom : Nat) (image : BootImage) (s : State) : Host.Outcome State Fault Refusal :=
  .next (s.updDoms fun d => if d.ix = dom ∧ d.verified image = true then d.starts image else d)

/-- R401: the fabric ports after firmware has assigned them to domains. -/
def State.assignPorts (s : State) (ports : List Nat) : State :=
  { s with ports := s.ports.zipIdx.map fun x => match ports[x.2]? with
      | some d => if d < 9 then { x.1 with dom := d } else x.1
      | none => x.1 }

/-- BOOT (R405): the IOD verifies its own firmware, then that of the FED, then that of each compute die in ascending order; the
domains whose images verify start, and the others stay down. Then firmware builds the interleave table of the second tier (R402),
assigns the fabric ports (R401) and turns CXL IDE on or not (R397). DEDUCED (log 113): while the image of the IOD or of the FED does
not run, no domain starts. -/
def execBoot (images : BootCfg) (s : State) : Host.Outcome State Fault Refusal :=
  .next (
    if BootImage.runs images.iod s.iod.fuse = false then s.updDoms fun d => { d with up := false }
    else
      let s := { s with iod := s.iod.load images.iod }
      if BootImage.runs images.fed s.fedDie.fuse = false then s.updDoms fun d => { d with up := false }
      else
        let s := { s with fedDie := s.fedDie.load images.fed }.updDoms fun d => d.boots images
        ({ s with tier2 := images.tier2, ide := images.ide } : State).assignPorts images.ports)

/-! The host's accesses (R186, R397) -/

/-- The bytes of a write, at the home slices. -/
def State.hostBytes (s : State) (key : Nat) : List Byte → State
  | [] => s
  | b :: bs => (((s.recall 96 (key / 64) false).homePut none key 1 b.toNat .plain)).hostBytes (key + 1) bs

/-- A sector of these bytes holds a write off (R355). -/
def Dom.lockedBytes (d : Dom) (addr n : Nat) : Bool := (List.range n).any fun k => d.lockedAt ((addr + k) / 64) true

/-- The sectors of `n` bytes. -/
def sectorsOf (addr n : Nat) : List Nat := distinct ((List.range n).map fun k => (addr + k) / 64)

/-- The record of the domain's memory deque that an address of system software names. DESIGN CHOICE (log 125): the spec gives the
deque no address; its records stand at the keys of tier 2, at which the package has no memory of its own. -/
def dequeRecord (addr : Nat) : Option Nat := if tierOf addr = 2 then some (addr % 2 ^ 50 / 64) else none

/-- R239: no launch of the domain is left, and no block. -/
def Dom.quiet (d : Dom) : Bool := d.launches.isEmpty && d.blocks.isEmpty

/-- R239: system software writes bytes of record `i` of the memory deque. DESIGN CHOICE (log 125): the record behind the last one
joins the deque with its other bytes 0; no other new record does. -/
def Dom.putRecord (d : Dom) (i off : Nat) (bs : List Byte) : Dom :=
  let old := ((d.memDeque[i]?).getD 0).toNat
  let new := BitVec.ofNat 512 (leNat (((leBytes 64 old).take off ++ bs ++ (leBytes 64 old).drop (off + bs.length)).take 64))
  if i < d.memDeque.length then { d with memDeque := d.memDeque.set i new }
  else if i = d.memDeque.length ∧ i < 2 ^ d.cfg.dequeLog then { d with memDeque := d.memDeque ++ [new] }
  else d

/-- HOST_MEMORY_ACCESS: a CXL.mem access to the domain's HBM performs at its home slice, without a tag check; at a locked
sector it bounces (log 13). A read answers the 64 bytes of its sector, or poison; a write of a whole sector clears its poison
(R407). A record of the memory deque is read so too, and written while the domain is idle (R239). -/
def execHostMemoryAccess (dom addr : Nat) (x : HostAccess) (s : State) : Host.Outcome State Fault Refusal :=
  let s := s.focusDom dom
  .next (match dequeRecord addr, x.data with
    | some i, none => { s with hostData := (s.dom.memDeque[i]?).map fun r => leBytes 64 r.toNat }
    | some i, some bs => if s.dom.up && s.dom.quiet then s.updDom fun d => d.putRecord i (addr % 64) bs else s
    | none, none =>
      if s.dom.up && decide (addr < 2 ^ 36 + 2 ^ 35) && !s.dom.lockedAt (addr / 64) false then
        let t := s.recall 96 (addr / 64) true
        let t := (t.l2Access none addr 1 none true)
        let bad := t.dom.poison.contains (addr / 64) || match x.ecc with
          | .bad _ => true
          | _ => false
        { t with hostData := if bad then none else some (leBytes 64 (t.home (addr / 64 * 64) 64)) }.eccAt x.ecc [addr / 64]
      else s
    | none, some bs =>
      if s.dom.up && decide (addr + bs.length ≤ 2 ^ 36 + 2 ^ 35) && !s.dom.lockedBytes addr bs.length then
        let t := s.hostBytes addr bs
        let t := if bs.length = 64 ∧ addr % 64 = 0 then t.updDom fun d => { d with poison := d.poison.filter (· != addr / 64) } else t
        t.eccAt x.ecc (sectorsOf addr bs.length)
      else s)

/-- Writes bytes of host memory. -/
def wrBytes (m : SMap 8) (addr : Nat) : List Byte → SMap 8
  | [] => m
  | b :: bs => wrBytes (mset m addr b) (addr + 1) bs

/-- HOST_SNOOP_INVALIDATE (R186, R397): the host takes a line of its memory and writes it: every domain's copies of it go, and monitors
on it are hit. -/
def execHostSnoopInvalidate (dom : Nat) (x : HostLine) (s : State) : Host.Outcome State Fault Refusal :=
  let s := s.focusDom dom
  let sec := pkey 3 x.addr / 64
  let t := (s.recall 96 sec false).updDoms fun d => ((d.hitMonitors sec).markToken sec .plain).snoopL2 sec
  let mem := wrBytes t.hostMem x.addr (x.data.take (64 - x.addr % 64))
  .next { t.updDoms fun d => d.seeWrite sec fun off n => rdN mem (x.addr / 64 * 64 + off) n with hostMem := mem }

end Sys2Proof.Machine
end

