-- ==== Sys2Proof/Machine/Lane.lean ====
section
/-! DEFINITION. The lane crossbar, OP 0x14 (R124 to R131). -/

namespace Sys2Proof.Machine

/-- R126: the segment width. -/
def segWidth (seg : Seg) (width : Nat) : Nat :=
  if seg.code = 0 ∨ width < 2 ^ seg.code then width else 2 ^ seg.code

/-- R126: the source position of a lane, by its mode; `b` is the lane's control. -/
def shflSource (mode : ShMode) (sw l : Nat) (b : W64) : Nat :=
  let j := l % sw
  let n := b.toNat % 2 ^ 32
  let j2 := match mode with
    | .idx => n % sw
    | .rot => (((j : Int) + toInt 32 n) % (sw : Int)).toNat
    | .xor => j ^^^ (n % sw)
    | .rev => (sw - 1 - j) ^^^ (n % sw)
  l - j + j2

/-- R73, R125: a lane form gives every participant its value. -/
def laneForm (i : Instr) (t : ITy) (o : Args) (f : State → W64 → Nat → Int) (s : State) : Host.Outcome State Fault Refusal :=
  vec i s fun s => let m := s.guard o.h; (s.putTy t m o.d fun l => f s m l).advance

def execShfl (mode : ShMode) (seg : Seg) (t : ITy) (o : Args) (s : State) : Host.Outcome State Fault Refusal :=
  laneForm (.shfl mode seg t o) t o (fun s m l =>
    let k := shflSource mode (segWidth seg s.wave.width) l (s.rd false l o.b)
    s.src t (if hasLane m k then k else l) o.a) s

/-- R127: the result of a vote over the participants. -/
def voteOf (mode : VMode) (ps : List Bool) : Bool :=
  match mode with
  | .all => ps.all id
  | .any => ps.any id
  | .eq => ps.all id || !ps.any id
  | .maj => decide (ps.length < 2 * ps.countP id)

def execVote (mode : VMode) (o : Args) (s : State) : Host.Outcome State Fault Refusal :=
  vec (.vote mode o) s fun s =>
    let m := s.guard o.h
    let r := voteOf mode ((lanesOf m).map fun l => s.pred l o.a)
    (s.put false m o.d fun _ => BitVec.ofNat 64 (b2n r)).advance

def execBallot (o : Args) (s : State) : Host.Outcome State Fault Refusal :=
  vec (.ballot o) s fun s =>
    let m := s.guard o.h
    let r := maskOf ((lanesOf m).filter fun l => s.pred l o.a)
    (s.put true m o.d fun _ => r).advance

/-- R128: the operations, and the identity that an exclusive scan starts with. -/
def redOp (op : RedOp) (t : ITy) (a b : Int) : Int :=
  let n := tyBits t
  let u := fun x : Int => (BitVec.ofInt n x).toNat
  match op with
  | .add => tyVal t (BitVec.ofInt 64 (a + b))
  | .min => min a b
  | .max => max a b
  | .and => tyVal t (BitVec.ofNat 64 (u a &&& u b))
  | .or => tyVal t (BitVec.ofNat 64 (u a ||| u b))
  | .xor => tyVal t (BitVec.ofNat 64 (u a ^^^ u b))

def redId (op : RedOp) (t : ITy) : Int :=
  match op with
  | .add | .or | .xor => 0
  | .and => tyVal t (BitVec.allOnes 64)
  | .min => tyMax t
  | .max => tyMin t

/-- R128: the combination of the values of these lanes, in ascending order. -/
def redAll (op : RedOp) (t : ITy) (xs : List Int) : Int := xs.foldl (redOp op t) (redId op t)

def execRedux (op : RedOp) (t : ITy) (o : Args) (s : State) : Host.Outcome State Fault Refusal :=
  vec (.redux op t o) s fun s =>
    let m := s.guard o.h
    let r := redAll op t ((lanesOf m).map fun l => s.src t l o.a)
    (s.putTy t m o.d fun _ => r).advance

def execScan (op : RedOp) (excl : Bool) (t : ITy) (o : Args) (s : State) : Host.Outcome State Fault Refusal :=
  laneForm (.scan op excl t o) t o (fun s m l =>
    let below := (lanesOf m).filter fun k => if excl then decide (k < l) else decide (k ≤ l)
    redAll op t (below.map fun k => s.src t k o.a)) s

/-- R129: the lowest participant with the same low bits. -/
def execMatch (t : ITy) (o : Args) (s : State) : Host.Outcome State Fault Refusal :=
  vec (.matchL t o) s fun s =>
    let m := s.guard o.h
    let lead := fun l => ((lanesOf m).find? fun k => s.bits t k o.a == s.bits t l o.a).getD l
    (s.put false m o.d fun l => BitVec.ofNat 64 (lead l)).advance

/-- R130: any lane of the wave may be read, a participant or not. -/
def execRdlane (t : ITy) (o : Args) (s : State) : Host.Outcome State Fault Refusal :=
  laneForm (.rdlane t o) t o (fun s _ l => s.src t ((s.rd false l o.b).toNat % 2 ^ 32 % s.wave.width) o.a) s

/-- R131: one participant's register takes A of the lowest participant. -/
def execWrlane (t : ITy) (o : Args) (s : State) : Host.Outcome State Fault Refusal :=
  vec (.wrlane t o) s fun s =>
    let m := s.guard o.h
    let j := (s.uni o.b).toNat % 2 ^ 32 % s.wave.width
    let x := s.src t (lowLane m) o.a
    (s.putTy t (if hasLane m j then (1 : W64) <<< j else 0) o.d fun _ => x).advance

end Sys2Proof.Machine
end

