-- ==== Sys2Proof/Machine/Trans.lean ====
section
/-! DEFINITION. The transcendental operations of OP 0x21 (R141, R142): special inputs, exact results, and an
interval evaluation in scaled integers that is rounded once, at a precision at which both ends round alike (log 10). -/

namespace Sys2Proof.Machine

/-- The error of every evaluation below at its argument, in units of the last place of its scale, is under this bound. -/
def slack : Nat := 4096

/-- The partial sum of the exponential series at `t / 2^p`, `n` terms from the `k`-th. -/
def expSum (p t : Nat) : Nat → Nat → Nat → Nat → Nat
  | 0, _, _, acc => acc
  | n + 1, k, term, acc => expSum p t n (k + 1) (term * t / 2 ^ p / k) (acc + term)

/-- e^(t / 2^p) for an argument below 1, at scale 2^p. -/
def expFix (p t : Nat) : Nat := expSum p t (p / 4 + 60) 1 (2 ^ p) 0

/-- The partial sum of Σ z^(2k+1) / (2k+1), with `zz` = z² and `term` = z^(2k+1) at scale 2^p. -/
def atanhSum (p zz : Nat) : Nat → Nat → Nat → Nat → Nat
  | 0, _, _, acc => acc
  | n + 1, k, term, acc => atanhSum p zz n (k + 2) (term * zz / 2 ^ p) (acc + term / k)

/-- ln ((1 + z) / (1 − z)) for z = num / den at most 1/3. -/
def lnRatio (p num den : Nat) : Nat :=
  2 * atanhSum p (num * num * 2 ^ p / (den * den)) (p / 3 + 2) 1 (num * 2 ^ p / den) 0

/-- ln 2 at scale 2^p. -/
def lnTwo (p : Nat) : Nat := lnRatio (p + 16) 1 3 / 2 ^ 16

/-- The partial sum of arctan (1/n); `pow` is 2^p / n^(2k+1). -/
def atanSum (n : Nat) : Nat → Nat → Nat → Int → Int
  | 0, _, _, acc => acc
  | c + 1, k, pow, acc => atanSum n c (k + 2) (pow / (n * n)) (if k % 4 = 1 then acc + (pow / k : Nat) else acc - (pow / k : Nat))

/-- π at scale 2^p. -/
def piFix (p : Nat) : Nat :=
  let q := p + 16
  let at1 := fun n => atanSum n (q / 4 + 2) 1 (2 ^ q / n) 0
  (16 * at1 5 - 4 * at1 239).toNat / 2 ^ 16

/-- The partial sums of sine and cosine: `term` is the term whose factorial is `k`. -/
def trigSum (q : Nat) (rr : Int) : Nat → Int → Int → Int → Int
  | 0, _, _, acc => acc
  | n + 1, k, term, acc => trigSum q rr n (k + 2) (-(term * rr / 2 ^ q) / ((k + 1) * (k + 2))) (acc + term)

def sinFix (q : Nat) (r : Int) : Int := trigSum q (r * r / 2 ^ q) (q / 8 + 32) 1 r 0
def cosFix (q : Nat) (r : Int) : Int := trigSum q (r * r / 2 ^ q) (q / 8 + 32) 0 (2 ^ q) 0

/-- A result with its flags, at the two ends of an interval. -/
abbrev Span := (Nat × Nat) × (Nat × Nat)

/-- The one rounding of the two ends of an interval of values. -/
def roundSpan (f : FTy) (neg : Bool) (lo hi : Nat) (e : Int) : Span :=
  (roundRat f .rne neg (4 * lo - 1) 1 (e - 2), roundRat f .rne neg (4 * hi + 1) 1 (e - 2))

/-- The same for a signed value that is known within `err`. -/
def roundNear (f : FTy) (v : Int) (err : Nat) (e : Int) : Span := roundSpan f (v < 0) (v.natAbs - err) (v.natAbs + err) e

/-- 2^x for x = i + g / 2^k, g not zero, at precision `p`. -/
def exp2At (f : FTy) (i : Int) (g k p : Nat) : Span :=
  let t := g * lnTwo p / 2 ^ k
  roundNear f (expFix p t) slack (i - p)

/-- log2 of m · 2^e, at precision `p`. -/
def log2At (f : FTy) (m : Nat) (e : Int) (p : Nat) : Span :=
  let k := m.log2
  let ln := lnRatio p (m - 2 ^ k) (m + 2 ^ k)
  roundNear f ((k + e) * 2 ^ p + (ln * 2 ^ p / lnTwo p : Nat)) slack (-p)

/-- The number of quarter turns in m · 2^e, and what is left after them, at scale 2^(p + 160): π is known to two units there,
so what is left is known within one unit for each quarter turn, and three more. -/
def reduceArg (m : Nat) (e : Int) (p : Nat) : Nat × Int :=
  let q := p + 160
  let x := if 0 ≤ e + q then m * 2 ^ (e + q).toNat else 0
  let half := piFix q / 2
  let n := (2 * x + half) / (2 * half)
  (n, (x : Int) - n * (piFix q : Nat) / 2)

/-- The sine (`c` = 0) or the cosine (`c` = 1) of m · 2^e. -/
def trigAt (f : FTy) (c : Nat) (neg : Bool) (m : Nat) (e : Int) (p : Nat) : Span :=
  let (n, r) := reduceArg m e p
  let q := p + 160
  let k := (n + c) % 4
  let v := if k % 2 = 0 then sinFix q r else cosFix q r
  let v := if 2 ≤ k then -v else v
  roundNear f (if neg && c == 0 then -v else v) (slack + n) (-q)

/-- tanh of m · 2^e, below 64. -/
def tanhAt (f : FTy) (neg : Bool) (m : Nat) (e : Int) (p : Nat) : Span :=
  let q := p + 160
  let y := if 0 ≤ e + 1 + q then m * 2 ^ (e + 1 + q).toNat else 0
  let l := lnTwo (q + 16)
  let i := y * 2 ^ 16 / l
  let ex := expFix q ((y * 2 ^ 16 - i * l) / 2 ^ 16)
  let th := fun (x : Nat) => (2 ^ i * x - 2 ^ q) * 2 ^ q / (2 ^ i * x + 2 ^ q)
  roundSpan f neg (th (ex - slack) - slack) (th (ex + slack) + slack) (-q)

/-- The first precision at which both ends of the interval round alike: that is the rounding of the exact value. The last
one stands for all that are finer (log 10). -/
def decideAt (g : Nat → Span) : Nat × Nat :=
  match [64, 128, 256, 512].find? fun p => (g p).1 == (g p).2 with
  | some p => (g p).1
  | none => (g 1024).1

def fexp2Of (f : FTy) (x : Nat) : Nat × Nat :=
  match Fp.of f x with
  | .nan sg => (fNan f, if sg then flNV else 0)
  | .inf n => (if n then 0 else fInf f, 0)
  | .fin n m e =>
    if 0 ≤ e + m.log2 - 11 ∧ m ≠ 0 then roundRat f .rne false 1 1 (if n then -4096 else 4096)
    else
      let k := (-e).toNat
      let v : Int := signed n (if 0 ≤ e then m * 2 ^ e.toNat else m)
      let i := v / 2 ^ k
      let g := (v % 2 ^ k).toNat
      if g = 0 then roundRat f .rne false 1 1 i else decideAt (exp2At f i g k)

def flog2Of (f : FTy) (x : Nat) : Nat × Nat :=
  match Fp.of f x with
  | .nan sg => (fNan f, if sg then flNV else 0)
  | .inf n => if n then (fNan f, flNV) else (x, 0)
  | .fin n m e =>
    if m = 0 then (fSign f + fInf f, flDZ)
    else if n then (fNan f, flNV)
    else if m = 2 ^ m.log2 then ofIntOf f .rne (m.log2 + e)
    else decideAt (log2At f m e)

/-- R142: sine and cosine of infinities are invalid; those of zero are exact. -/
def ftrigOf (c : Nat) (f : FTy) (x : Nat) : Nat × Nat :=
  match Fp.of f x with
  | .nan sg => (fNan f, if sg then flNV else 0)
  | .inf _ => (fNan f, flNV)
  | .fin n m e =>
    if m = 0 then (if c = 0 then (x, 0) else ofIntOf f .rne 1)
    else decideAt (trigAt f c n m e)

def ftanhOf (f : FTy) (x : Nat) : Nat × Nat :=
  match Fp.of f x with
  | .nan sg => (fNan f, if sg then flNV else 0)
  | .inf n => roundRat f .rne n 1 1 0
  | .fin n m e =>
    if m = 0 then (x, 0)
    else if 6 ≤ e + m.log2 then roundRat f .rne n (2 ^ 64 - 1) 1 (-64)
    else decideAt (tanhAt f n m e)

end Sys2Proof.Machine
end

