-- ==== Sys2Proof/Machine/Float.lean ====
section
/-! DEFINITION. The floating-point and block-format instructions, OP 0x20 to 0x24 (R132 to R148). -/

namespace Sys2Proof.Machine

/-- R136: a float source for a lane: the bits of the type. -/
def State.fsrc (s : State) (f : FTy) (l : Nat) (o : Opnd) : Nat :=
  match o with
  | .k c => (ofIntOf f .rne c.toInt).1
  | .immC x => if f = .f32 then x.toNat * 256 else x.toNat % 65536
  | o => (s.rd false l o).toNat % 2 ^ fWidth f

/-- R136, R143: a packed source: both halves; a constant or an immediate stands in both. -/
def State.psrc (s : State) (f : FTy) (l : Nat) (o : Opnd) : Nat :=
  match o with
  | .k _ | .immC _ | .immI _ _ => s.fsrc f l o * 65537
  | o => (s.rd false l o).toNat % 2 ^ 32

/-- R73, R90: writes results that were computed per lane. -/
def State.putList (s : State) (d : Opnd) (rs : List (Nat × Nat × Nat)) : State :=
  match d, rs with
  | .s n, r :: _ => s.sPut n.toNat (BitVec.ofNat 64 r.2.1)
  | .s _, [] => s
  | d, rs => { s with wave := rs.foldl (fun w r => w.putLane false r.1 d (BitVec.ofNat 64 r.2.1)) s.wave }

/-- R105, R137: a float form: a result and flags for every lane whose guard holds; with U = 1 once. -/
def fltForm (i : Instr) (o : Args) (f : State → Nat → Nat × Nat) (s : State) : Host.Outcome State Fault Refusal :=
  vec i s fun s =>
    let rs := (lanesOf (execLanes o.h (s.guard o.h))).map fun l => (l, f s l)
    let fl := rs.foldl (fun a r => a ||| r.2.2) 0
    ((s.putList o.d rs).orFlags (BitVec.ofNat 32 fl)).advance

def flt1 (i : Instr) (f : FTy) (o : Args) (g : Nat → Nat × Nat) (s : State) : Host.Outcome State Fault Refusal :=
  fltForm i o (fun s l => g (s.fsrc f l o.a)) s

def flt2 (i : Instr) (f : FTy) (o : Args) (g : Nat → Nat → Nat × Nat) (s : State) : Host.Outcome State Fault Refusal :=
  fltForm i o (fun s l => g (s.fsrc f l o.a) (s.fsrc f l o.b)) s

def flt3 (i : Instr) (f : FTy) (o : Args) (g : Nat → Nat → Nat → Nat × Nat) (s : State) : Host.Outcome State Fault Refusal :=
  fltForm i o (fun s l => g (s.fsrc f l o.a) (s.fsrc f l o.b) (s.fsrc f l o.c)) s

/-! Scalar arithmetic, OP 0x20 (R138 to R140) -/

def execFadd (rm : Rm) (f : FTy) (o : Args) (s : State) : Host.Outcome State Fault Refusal :=
  flt2 (.fadd rm f o) f o (faddOf f rm) s

def execFsub (rm : Rm) (f : FTy) (o : Args) (s : State) : Host.Outcome State Fault Refusal :=
  flt2 (.fsub rm f o) f o (fsubOf f rm) s

def execFmul (rm : Rm) (f : FTy) (o : Args) (s : State) : Host.Outcome State Fault Refusal :=
  flt2 (.fmul rm f o) f o (fmulOf f rm) s

def execFfma (rm : Rm) (f : FTy) (o : Args) (s : State) : Host.Outcome State Fault Refusal :=
  flt3 (.ffma rm f o) f o (ffmaOf f rm) s

def execFmin (prop : Bool) (f : FTy) (o : Args) (s : State) : Host.Outcome State Fault Refusal :=
  flt2 (.fmin prop f o) f o (fminmax f false prop) s

def execFmax (prop : Bool) (f : FTy) (o : Args) (s : State) : Host.Outcome State Fault Refusal :=
  flt2 (.fmax prop f o) f o (fminmax f true prop) s

def execFcmp (cc : FCc) (sig : Bool) (f : FTy) (o : Args) (s : State) : Host.Outcome State Fault Refusal :=
  flt2 (.fcmp cc sig f o) f o (fun a b => let r := fcmpOf f cc sig a b; (b2n r.1, r.2)) s

def execFclass (f : FTy) (o : Args) (s : State) : Host.Outcome State Fault Refusal :=
  flt1 (.fclass f o) f o (fun a => (fclassOf f a, 0)) s

/-- R138: B is read as i32. -/
def execFscale (rm : Rm) (f : FTy) (o : Args) (s : State) : Host.Outcome State Fault Refusal :=
  fltForm (.fscale rm f o) o (fun s l => fscaleOf f rm (s.fsrc f l o.a) (s.src .i32 l o.b)) s

def execFrnd (rm : Rm) (f : FTy) (o : Args) (s : State) : Host.Outcome State Fault Refusal :=
  flt1 (.frnd rm f o) f o (frndOf f rm) s

/-! Division, roots and transcendentals, OP 0x21 (R141, R142) -/

def execFrcp (rm : Rm) (f : FTy) (o : Args) (s : State) : Host.Outcome State Fault Refusal :=
  flt1 (.frcp rm f o) f o (frcpOf f rm) s

def execFrsq (rm : Rm) (f : FTy) (o : Args) (s : State) : Host.Outcome State Fault Refusal :=
  flt1 (.frsq rm f o) f o (frsqOf f rm) s

def execFsqrt (rm : Rm) (f : FTy) (o : Args) (s : State) : Host.Outcome State Fault Refusal :=
  flt1 (.fsqrt rm f o) f o (fsqrtOf f rm) s

def execFdiv (rm : Rm) (f : FTy) (o : Args) (s : State) : Host.Outcome State Fault Refusal :=
  flt2 (.fdiv rm f o) f o (fdivOf f rm) s

def execFexp2 (f : FTy) (o : Args) (s : State) : Host.Outcome State Fault Refusal :=
  flt1 (.fexp2 f o) f o (fexp2Of f) s

def execFlog2 (f : FTy) (o : Args) (s : State) : Host.Outcome State Fault Refusal :=
  flt1 (.flog2 f o) f o (flog2Of f) s

def execFsin (f : FTy) (o : Args) (s : State) : Host.Outcome State Fault Refusal :=
  flt1 (.fsin f o) f o (ftrigOf 0 f) s

def execFcos (f : FTy) (o : Args) (s : State) : Host.Outcome State Fault Refusal :=
  flt1 (.fcos f o) f o (ftrigOf 1 f) s

def execFtanh (f : FTy) (o : Args) (s : State) : Host.Outcome State Fault Refusal :=
  flt1 (.ftanh f o) f o (ftanhOf f) s

/-! Packed arithmetic, OP 0x22 (R143) -/

/-- Two elements, each as the scalar form; the flags are ORed. -/
def packed (lo hi : Nat × Nat) : Nat × Nat := (lo.1 + hi.1 * 65536, lo.2 ||| hi.2)

def pk2 (i : Instr) (f : FTy) (o : Args) (g : Nat → Nat → Nat × Nat) (s : State) : Host.Outcome State Fault Refusal :=
  fltForm i o (fun s l =>
    let a := s.psrc f l o.a
    let b := s.psrc f l o.b
    packed (g (a % 65536) (b % 65536)) (g (a / 65536) (b / 65536))) s

def execHadd2 (rm : Rm) (f : FTy) (o : Args) (s : State) : Host.Outcome State Fault Refusal :=
  pk2 (.hadd2 rm f o) f o (faddOf f rm) s

def execHmul2 (rm : Rm) (f : FTy) (o : Args) (s : State) : Host.Outcome State Fault Refusal :=
  pk2 (.hmul2 rm f o) f o (fmulOf f rm) s

def execHfma2 (rm : Rm) (f : FTy) (o : Args) (s : State) : Host.Outcome State Fault Refusal :=
  fltForm (.hfma2 rm f o) o (fun s l =>
    let a := s.psrc f l o.a
    let b := s.psrc f l o.b
    let c := s.psrc f l o.c
    packed (ffmaOf f rm (a % 65536) (b % 65536) (c % 65536)) (ffmaOf f rm (a / 65536) (b / 65536) (c / 65536))) s

def execHmin2 (prop : Bool) (f : FTy) (o : Args) (s : State) : Host.Outcome State Fault Refusal :=
  pk2 (.hmin2 prop f o) f o (fminmax f false prop) s

def execHmax2 (prop : Bool) (f : FTy) (o : Args) (s : State) : Host.Outcome State Fault Refusal :=
  pk2 (.hmax2 prop f o) f o (fminmax f true prop) s

/-! Conversions and dot products, OP 0x23 (R144, R145) -/

def execCvt (rm : Rm) (sf f : FTy) (o : Args) (s : State) : Host.Outcome State Fault Refusal :=
  flt1 (.cvt rm sf f o) sf o (cvtOf sf f rm) s

/-- Float to integer: the result has the integer type. -/
def execCvtfi (rm : Rm) (ty : ITy) (f : FTy) (o : Args) (s : State) : Host.Outcome State Fault Refusal :=
  vec (.cvtfi rm ty f o) s fun s =>
    let m := execLanes o.h (s.guard o.h)
    let fl := (lanesOf m).foldl (fun a l => a ||| (toIntOf f rm ty (s.fsrc f l o.a)).2) 0
    ((s.putTy ty m o.d fun l => (toIntOf f rm ty (s.fsrc f l o.a)).1).orFlags (BitVec.ofNat 32 fl)).advance

def execCvtif (rm : Rm) (ty : ITy) (f : FTy) (o : Args) (s : State) : Host.Outcome State Fault Refusal :=
  fltForm (.cvtif rm ty f o) o (fun s l => ofIntOf f rm (s.src ty l o.a)) s

/-- R145: the exact sum of four byte products and C. -/
def dot4Of (au bu : Bool) (a b : Nat) (c : Int) : Int :=
  let el := fun (u : Bool) x k => tyVal (if u then .n8 else .i8) (BitVec.ofNat 64 (bitsOf x (8 * k) 8))
  (List.range 4).foldl (fun t k => t + el au a k * el bu b k) c

/-- R145: with `.sat` the result is an i32, so an s register holds it sign-extended (R90); without it the 32 bits stand
zero-extended there (log 14). -/
def execDot4 (au bu sat : Bool) (o : Args) (s : State) : Host.Outcome State Fault Refusal :=
  vec (.dot4 au bu sat o) s fun s => s.compute o (if sat then .i32 else .n32) fun l =>
    finish sat .i32 (dot4Of au bu (s.bits .n32 l o.a) (s.bits .n32 l o.b) (s.src .i32 l o.c))

/-- R145: `dot2`. The products and C are summed exactly and rounded once. -/
def dot2Of (f : FTy) (rm : Rm) (a b c : Nat) : Nat × Nat :=
  let a0 := Fp.of f (a % 65536)
  let a1 := Fp.of f (a / 65536)
  let b0 := Fp.of f (b % 65536)
  let b1 := Fp.of f (b / 65536)
  let z := Fp.of .f32 c
  let fl := sigFlag [a0, a1, b0, b1, z]
  match mulFp a0 b0, mulFp a1 b1 with
  | some p, some q =>
    if p.isNan || q.isNan || z.isNan then
      let mixed := ([p, q, z].any fun t => t.isInf && t.neg) && ([p, q, z].any fun t => t.isInf && !t.neg)
      (fNan .f32, fl ||| (if mixed then flNV else 0))
    else let r := sumTerms .f32 rm [p, q, z]; (r.1, r.2 ||| fl)
  | _, _ => (fNan .f32, flNV)

/-- R145. DESIGN CHOICE (log 124): a constant code or 0x3FF as A or B supplies both elements, as R136 and R143 say of the packed forms
of OP 0x22. -/
def execDot2 (rm : Rm) (f : FTy) (o : Args) (s : State) : Host.Outcome State Fault Refusal :=
  fltForm (.dot2 rm f o) o (fun s l => dot2Of f rm (s.psrc f l o.a) (s.psrc f l o.b) (s.fsrc .f32 l o.c)) s

/-! Format, flags and block forms, OP 0x24 (R132 to R134, R146 to R148) -/

def execSetfmt (o : Args) (s : State) : Host.Outcome State Fault Refusal :=
  vec (.setfmt o) s fun s => s.once o fun s =>
    let x := (s.uni o.a).setWidth 32
    if fmtBad x then s.trapOnce o.h .illegalOperand 0
    else ({ s with path := { s.path with fmt := x } }).advance

def execGetfmt (o : Args) (s : State) : Host.Outcome State Fault Refusal :=
  vec (.getfmt o) s fun s => (s.put false (s.guard o.h) o.d fun _ => s.path.fmt.setWidth 64).advance

def execRdflags (o : Args) (s : State) : Host.Outcome State Fault Refusal :=
  vec (.rdflags o) s fun s => (s.put false (s.guard o.h) o.d fun _ => s.path.flags.setWidth 64).advance

def execClrflags (o : Args) (s : State) : Host.Outcome State Fault Refusal :=
  vec (.clrflags o) s fun s => s.once o fun s =>
    let clear : W32 := match o.a with
      | .absent => BitVec.allOnes 32
      | a => (s.uni a).setWidth 32 &&& 0x7F
    ({ s with path := { s.path with flags := s.path.flags &&& ~~~clear } }).advance

/-- The first register of a range. -/
def Opnd.vIndex : Opnd → Nat
  | .v n => n.toNat
  | _ => 0

/-- R148: the sixteen elements of a lane. -/
def State.jbSource (s : State) (l : Nat) (a : Opnd) : List Nat :=
  (List.range 16).map fun e => (s.wave.vGet l (Opnd.vIndex a + e)).toNat

def execJbexp (o : Args) (s : State) : Host.Outcome State Fault Refusal :=
  fltForm (.jbexp o) o (fun s l =>
    let vs := (s.jbSource l o.a).map (Fp.of .f32)
    (if vs.any Fp.isNan then 255 else jbExpOf vs, 0)) s

/-- Writes a range of registers of a lane. -/
def Wave.vRange (w : Wave) (l base : Nat) (xs : List Nat) : Wave :=
  (xs.zip (List.range xs.length)).foldl (fun w x => w.vSet l (base + x.2) (BitVec.ofNat 32 x.1)) w

/-- A block form that writes a range: `f` gives a lane's registers and flags. -/
def jbForm (i : Instr) (o : Args) (f : State → Nat → List Nat × Nat) (s : State) : Host.Outcome State Fault Refusal :=
  vec i s fun s =>
    let rs := (lanesOf (s.guard o.h)).map fun l => (l, f s l)
    let w := rs.foldl (fun w r => w.vRange r.1 (Opnd.vIndex o.d) r.2.1) s.wave
    let fl := rs.foldl (fun a r => a ||| r.2.2) 0
    (({ s with wave := w }).orFlags (BitVec.ofNat 32 fl)).advance

/-- R148: rounds by FMT.RM. -/
def fmtRm (fmt : W32) : Rm := (Rm.ofCode (bitsOf fmt.toNat 2 2)).getD .rne

def execJbpack (o : Args) (s : State) : Host.Outcome State Fault Refusal :=
  jbForm (.jbpack o) o (fun s l =>
    let r := jbEncode (s.path.fmt.toNat % 4) (fmtRm s.path.fmt) (s.jbSource l o.a)
    ((List.range (jbSpan s.path.fmt)).map fun k => bitsOf r.1 (32 * k) 32, r.2)) s

def execJbunpack (o : Args) (s : State) : Host.Outcome State Fault Refusal :=
  jbForm (.jbunpack o) o (fun s l =>
    let m := jbM (s.path.fmt.toNat % 4)
    let b := (List.range (jbSpan s.path.fmt)).foldl (fun x k => x + (s.wave.vGet l (Opnd.vIndex o.a + k)).toNat * 2 ^ (32 * k)) 0
    ((List.range 16).map fun e => jbElem m b e, if jbX b = 255 then flNB else 0)) s

end Sys2Proof.Machine
end

