-- ==== Sys2Proof/Machine/Dispatch.lean ====
section
/-! DEFINITION. One arm for each row of the opcode table: the meaning of the instruction or event. -/

namespace Sys2Proof.Machine

def exec (i : Instr) (s : State) : Host.Outcome State Fault Refusal :=
  match i with
  | .nop o => Sys2Proof.Machine.execNop o s
  | .yieldI o => Sys2Proof.Machine.execYield o s
  | .exitI o => Sys2Proof.Machine.execExit o s
  | .trapI o => Sys2Proof.Machine.execTrap o s
  | .bkpt o => Sys2Proof.Machine.execBkpt o s
  | .fbk off o => Sys2Proof.Machine.execFbk off o s
  | .bra off o => Sys2Proof.Machine.execBra off o s
  | .brx rj off o => Sys2Proof.Machine.execBrx rj off o s
  | .jmp o => Sys2Proof.Machine.execJmp o s
  | .callI off o => Sys2Proof.Machine.execCall off o s
  | .callx o => Sys2Proof.Machine.execCallx o s
  | .ret o => Sys2Proof.Machine.execRet o s
  | .recon off o => Sys2Proof.Machine.execRecon off o s
  | .joinI o => Sys2Proof.Machine.execJoin o s
  | .wsync o => Sys2Proof.Machine.execWsync o s
  | .pathq k o => Sys2Proof.Machine.execPathq k o s
  | .pand o => Sys2Proof.Machine.execPand o s
  | .por o => Sys2Proof.Machine.execPor o s
  | .pxor o => Sys2Proof.Machine.execPxor o s
  | .pnot o => Sys2Proof.Machine.execPnot o s
  | .psetM o => Sys2Proof.Machine.execPsetM o s
  | .psetP o => Sys2Proof.Machine.execPsetP o s
  | .pget o => Sys2Proof.Machine.execPget o s
  | .iadd sat t o => Sys2Proof.Machine.execIadd sat t o s
  | .isub sat t o => Sys2Proof.Machine.execIsub sat t o s
  | .iaddc t o => Sys2Proof.Machine.execIaddc t o s
  | .isubb t o => Sys2Proof.Machine.execIsubb t o s
  | .imul sat t o => Sys2Proof.Machine.execImul sat t o s
  | .imulh t o => Sys2Proof.Machine.execImulh t o s
  | .imad sat t o => Sys2Proof.Machine.execImad sat t o s
  | .idiv t o => Sys2Proof.Machine.execIdiv t o s
  | .irem t o => Sys2Proof.Machine.execIrem t o s
  | .imin t o => Sys2Proof.Machine.execImin t o s
  | .imax t o => Sys2Proof.Machine.execImax t o s
  | .iabs sat t o => Sys2Proof.Machine.execIabs sat t o s
  | .ineg sat t o => Sys2Proof.Machine.execIneg sat t o s
  | .isat t o => Sys2Proof.Machine.execIsat t o s
  | .andI t o => Sys2Proof.Machine.execAnd t o s
  | .orI t o => Sys2Proof.Machine.execOr t o s
  | .xorI t o => Sys2Proof.Machine.execXor t o s
  | .notI t o => Sys2Proof.Machine.execNot t o s
  | .andn t o => Sys2Proof.Machine.execAndn t o s
  | .shl t o => Sys2Proof.Machine.execShl t o s
  | .shr t o => Sys2Proof.Machine.execShr t o s
  | .sar t o => Sys2Proof.Machine.execSar t o s
  | .rotl t o => Sys2Proof.Machine.execRotl t o s
  | .bfe t o => Sys2Proof.Machine.execBfe t o s
  | .bfi t o => Sys2Proof.Machine.execBfi t o s
  | .popc t o => Sys2Proof.Machine.execPopc t o s
  | .clz t o => Sys2Proof.Machine.execClz t o s
  | .ctz t o => Sys2Proof.Machine.execCtz t o s
  | .brev t o => Sys2Proof.Machine.execBrev t o s
  | .bsel t o => Sys2Proof.Machine.execBsel t o s
  | .icmp cc t o => Sys2Proof.Machine.execIcmp cc t o s
  | .isel t o => Sys2Proof.Machine.execIsel t o s
  | .lea scale t disp o => Sys2Proof.Machine.execLea scale t disp o s
  | .mov t o => Sys2Proof.Machine.execMov t o s
  | .movi t o => Sys2Proof.Machine.execMovi t o s
  | .cvti sat sty t o => Sys2Proof.Machine.execCvti sat sty t o s
  | .shfl mode seg t o => Sys2Proof.Machine.execShfl mode seg t o s
  | .vote mode o => Sys2Proof.Machine.execVote mode o s
  | .ballot o => Sys2Proof.Machine.execBallot o s
  | .redux op t o => Sys2Proof.Machine.execRedux op t o s
  | .scan op excl t o => Sys2Proof.Machine.execScan op excl t o s
  | .matchL t o => Sys2Proof.Machine.execMatch t o s
  | .rdlane t o => Sys2Proof.Machine.execRdlane t o s
  | .wrlane t o => Sys2Proof.Machine.execWrlane t o s
  | .fadd rm f o => Sys2Proof.Machine.execFadd rm f o s
  | .fsub rm f o => Sys2Proof.Machine.execFsub rm f o s
  | .fmul rm f o => Sys2Proof.Machine.execFmul rm f o s
  | .ffma rm f o => Sys2Proof.Machine.execFfma rm f o s
  | .fmin prop f o => Sys2Proof.Machine.execFmin prop f o s
  | .fmax prop f o => Sys2Proof.Machine.execFmax prop f o s
  | .fcmp cc sig f o => Sys2Proof.Machine.execFcmp cc sig f o s
  | .fclass f o => Sys2Proof.Machine.execFclass f o s
  | .fscale rm f o => Sys2Proof.Machine.execFscale rm f o s
  | .frnd rm f o => Sys2Proof.Machine.execFrnd rm f o s
  | .frcp rm f o => Sys2Proof.Machine.execFrcp rm f o s
  | .frsq rm f o => Sys2Proof.Machine.execFrsq rm f o s
  | .fsqrt rm f o => Sys2Proof.Machine.execFsqrt rm f o s
  | .fdiv rm f o => Sys2Proof.Machine.execFdiv rm f o s
  | .fexp2 f o => Sys2Proof.Machine.execFexp2 f o s
  | .flog2 f o => Sys2Proof.Machine.execFlog2 f o s
  | .fsin f o => Sys2Proof.Machine.execFsin f o s
  | .fcos f o => Sys2Proof.Machine.execFcos f o s
  | .ftanh f o => Sys2Proof.Machine.execFtanh f o s
  | .hadd2 rm f o => Sys2Proof.Machine.execHadd2 rm f o s
  | .hmul2 rm f o => Sys2Proof.Machine.execHmul2 rm f o s
  | .hfma2 rm f o => Sys2Proof.Machine.execHfma2 rm f o s
  | .hmin2 prop f o => Sys2Proof.Machine.execHmin2 prop f o s
  | .hmax2 prop f o => Sys2Proof.Machine.execHmax2 prop f o s
  | .cvt rm sf f o => Sys2Proof.Machine.execCvt rm sf f o s
  | .cvtfi rm ty f o => Sys2Proof.Machine.execCvtfi rm ty f o s
  | .cvtif rm ty f o => Sys2Proof.Machine.execCvtif rm ty f o s
  | .dot4 au bu sat o => Sys2Proof.Machine.execDot4 au bu sat o s
  | .dot2 rm f o => Sys2Proof.Machine.execDot2 rm f o s
  | .setfmt o => Sys2Proof.Machine.execSetfmt o s
  | .getfmt o => Sys2Proof.Machine.execGetfmt o s
  | .jbexp o => Sys2Proof.Machine.execJbexp o s
  | .jbpack o => Sys2Proof.Machine.execJbpack o s
  | .jbunpack o => Sys2Proof.Machine.execJbunpack o s
  | .rdflags o => Sys2Proof.Machine.execRdflags o s
  | .clrflags o => Sys2Proof.Machine.execClrflags o s
  | .ld hint ord sc sz x o => Sys2Proof.Machine.execLd hint ord sc sz x o s
  | .st hint ord sc sz x o => Sys2Proof.Machine.execSt hint ord sc sz x o s
  | .prefetch hint x o => Sys2Proof.Machine.execPrefetch hint x o s
  | .prefetchL2 hint x o => Sys2Proof.Machine.execPrefetchL2 hint x o s
  | .cctlWb x o => Sys2Proof.Machine.execCctlWb x o s
  | .cctlWbinv x o => Sys2Proof.Machine.execCctlWbinv x o s
  | .cctlDemoteEf x o => Sys2Proof.Machine.execCctlDemoteEf x o s
  | .cctlDemote x o => Sys2Proof.Machine.execCctlDemote x o s
  | .cctlSettag x o => Sys2Proof.Machine.execCctlSettag x o s
  | .mwait ord sc sz x o => Sys2Proof.Machine.execMwait ord sc sz x o s
  | .fence ord sc o => Sys2Proof.Machine.execFence ord sc o s
  | .lds sz x o => Sys2Proof.Machine.execLds sz x o s
  | .sts sz x o => Sys2Proof.Machine.execSts sz x o s
  | .ldacc sz x o => Sys2Proof.Machine.execLdacc sz x o s
  | .stacc sz x o => Sys2Proof.Machine.execStacc sz x o s
  | .ldc sz x o => Sys2Proof.Machine.execLdc sz x o s
  | .atom op hint ord sc sz x o => Sys2Proof.Machine.execAtom op hint ord sc sz x o s
  | .cas hint ord sc sz x o => Sys2Proof.Machine.execCas hint ord sc sz x o s
  | .red op hint ord sc sz x o => Sys2Proof.Machine.execRed op hint ord sc sz x o s
  | .cpl hint sz x o => Sys2Proof.Machine.execCpl hint sz x o s
  | .cplOut hint sz x o => Sys2Proof.Machine.execCplOut hint sz x o s
  | .cpclose o => Sys2Proof.Machine.execCpclose o s
  | .cpwait o => Sys2Proof.Machine.execCpwait o s
  | .cptAb hint o => Sys2Proof.Machine.execCptAb hint o s
  | .cptWb hint o => Sys2Proof.Machine.execCptWb hint o s
  | .cpts hint o => Sys2Proof.Machine.execCpts hint o s
  | .cpta hint o => Sys2Proof.Machine.execCpta hint o s
  | .tlwait o => Sys2Proof.Machine.execTlwait o s
  | .tlreadDone o => Sys2Proof.Machine.execTlreadDone o s
  | .tlreadIss o => Sys2Proof.Machine.execTlreadIss o s
  | .psigSet sc x o => Sys2Proof.Machine.execPsigSet sc x o s
  | .psigAdd sc x o => Sys2Proof.Machine.execPsigAdd sc x o s
  | .binit n o => Sys2Proof.Machine.execBinit n o s
  | .barv n o => Sys2Proof.Machine.execBarv n o s
  | .bwait n o => Sys2Proof.Machine.execBwait n o s
  | .bsync n o => Sys2Proof.Machine.execBsync n o s
  | .bdrop n o => Sys2Proof.Machine.execBdrop n o s
  | .gbar o => Sys2Proof.Machine.execGbar o s
  | .bstat n k o => Sys2Proof.Machine.execBstat n k o s
  | .qinit n o => Sys2Proof.Machine.execQinit n o s
  | .qpush n o => Sys2Proof.Machine.execQpush n o s
  | .qpop n o => Sys2Proof.Machine.execQpop n o s
  | .qtry n o => Sys2Proof.Machine.execQtry n o s
  | .qclose n o => Sys2Proof.Machine.execQclose n o s
  | .sigwait cond sc sz x o => Sys2Proof.Machine.execSigwait cond sc sz x o s
  | .signal op sc sz x o => Sys2Proof.Machine.execSignal op sc sz x o s
  | .rgres sc o => Sys2Proof.Machine.execRgres sc o s
  | .rgcmt sc o => Sys2Proof.Machine.execRgcmt sc o s
  | .rgpop sc o => Sys2Proof.Machine.execRgpop sc o s
  | .rgfree sc o => Sys2Proof.Machine.execRgfree sc o s
  | .spawn regblk abclass off o => Sys2Proof.Machine.execSpawn regblk abclass off o s
  | .rbsurrHold sc o => Sys2Proof.Machine.execRbsurrHold sc o s
  | .rbsurrSkip sc o => Sys2Proof.Machine.execRbsurrSkip sc o s
  | .rbclaim sc o => Sys2Proof.Machine.execRbclaim sc o s
  | .mzero o => Sys2Proof.Machine.execMzero o s
  | .mma z f ks o => Sys2Proof.Machine.execMma z f ks o s
  | .mmas z f ks o => Sys2Proof.Machine.execMmas z f ks o s
  | .mcvt rm f o => Sys2Proof.Machine.execMcvt rm f o s
  | .madd o => Sys2Proof.Machine.execMadd o s
  | .marv n o => Sys2Proof.Machine.execMarv n o s
  | .mwaitb n o => Sys2Proof.Machine.execMwaitb n o s
  | .mpop n o => Sys2Proof.Machine.execMpop n o s
  | .mpush n o => Sys2Proof.Machine.execMpush n o s
  | .mloop off o => Sys2Proof.Machine.execMloop off o s
  | .mjmp off o => Sys2Proof.Machine.execMjmp off o s
  | .mend o => Sys2Proof.Machine.execMend o s
  | .txb off o => Sys2Proof.Machine.execTxb off o s
  | .txe o => Sys2Proof.Machine.execTxe o s
  | .txabt o => Sys2Proof.Machine.execTxabt o s
  | .txst k o => Sys2Proof.Machine.execTxst k o s
  | .stepb o => Sys2Proof.Machine.execStepb o s
  | .stepe o => Sys2Proof.Machine.execStepe o s
  | .fgmark o => Sys2Proof.Machine.execFgmark o s
  | .rngpush o => Sys2Proof.Machine.execRngpush o s
  | .rngpop o => Sys2Proof.Machine.execRngpop o s
  | .srd o => Sys2Proof.Machine.execSrd o s
  | .swr o => Sys2Proof.Machine.execSwr o s
  | .rte o => Sys2Proof.Machine.execRte o s
  | .tlbiPage sz o => Sys2Proof.Machine.execTlbiPage sz o s
  | .tlbiTenant o => Sys2Proof.Machine.execTlbiTenant o s
  | .tlbiAll o => Sys2Proof.Machine.execTlbiAll o s
  | .yieldExpiry p => Sys2Proof.Machine.execYieldExpiry p s
  | .instructionFetch p stream => Sys2Proof.Machine.execInstructionFetch p stream s
  | .issueCycle dom core => Sys2Proof.Machine.execIssueCycle dom core s
  | .joinTimeout p => Sys2Proof.Machine.execJoinTimeout p s
  | .wsyncTimeout p => Sys2Proof.Machine.execWsyncTimeout p s
  | .supervisorEntry p => Sys2Proof.Machine.execSupervisorEntry p s
  | .supervisorBoundExpiry p => Sys2Proof.Machine.execSupervisorBoundExpiry p s
  | .faultQueueWrite dom => Sys2Proof.Machine.execFaultQueueWrite dom s
  | .bounce p => Sys2Proof.Machine.execBounce p s
  | .locketReissue b wave => Sys2Proof.Machine.execLocketReissue b wave s
  | .atomicApply dom unit tag r => Sys2Proof.Machine.execAtomicApply dom unit tag r s
  | .atomicAck dom unit tag => Sys2Proof.Machine.execAtomicAck dom unit tag s
  | .postedAck p => Sys2Proof.Machine.execPostedAck p s
  | .remoteAccess dom r => Sys2Proof.Machine.execRemoteAccess dom r s
  | .tlbWalk dom cluster tenant va write => Sys2Proof.Machine.execTlbWalk dom cluster tenant va write s
  | .invalidationComplete dom => Sys2Proof.Machine.execInvalidationComplete dom s
  | .l1WriteBack dom core x => Sys2Proof.Machine.execL1WriteBack dom core x s
  | .copyElementPerform b => Sys2Proof.Machine.execCopyElementPerform b s
  | .tensorCopyComplete b n => Sys2Proof.Machine.execTensorCopyComplete b n s
  | .copyDeferredWrite b => Sys2Proof.Machine.execCopyDeferredWrite b s
  | .matrixOpStart dom core => Sys2Proof.Machine.execMatrixOpStart dom core s
  | .matrixOpConsumed dom core => Sys2Proof.Machine.execMatrixOpConsumed dom core s
  | .matrixOpComplete dom core => Sys2Proof.Machine.execMatrixOpComplete dom core s
  | .marvPerform b => Sys2Proof.Machine.execMarvPerform b s
  | .waitWake p stream => Sys2Proof.Machine.execWaitWake p stream s
  | .mwaitTimeout p => Sys2Proof.Machine.execMwaitTimeout p s
  | .sigwaitPoll p => Sys2Proof.Machine.execSigwaitPoll p s
  | .blockEnd b => Sys2Proof.Machine.execBlockEnd b s
  | .taskStart dom core => Sys2Proof.Machine.execTaskStart dom core s
  | .blockPlace dom => Sys2Proof.Machine.execBlockPlace dom s
  | .residencyEviction b => Sys2Proof.Machine.execResidencyEviction b s
  | .evictionSaveComplete b => Sys2Proof.Machine.execEvictionSaveComplete b s
  | .evictedWake b => Sys2Proof.Machine.execEvictedWake b s
  | .preemptRequest b => Sys2Proof.Machine.execPreemptRequest b s
  | .preemptFullSave p => Sys2Proof.Machine.execPreemptFullSave p s
  | .laneLogGrant p => Sys2Proof.Machine.execLaneLogGrant p s
  | .claspRevalidation p => Sys2Proof.Machine.execClaspRevalidation p s
  | .claspTokenGrant dom => Sys2Proof.Machine.execClaspTokenGrant dom s
  | .serialBoundExpiry dom => Sys2Proof.Machine.execSerialBoundExpiry dom s
  | .sampleInterval p => Sys2Proof.Machine.execSampleInterval p s
  | .memoryTableCycle dom ctrl => Sys2Proof.Machine.execMemoryTableCycle dom ctrl s
  | .flitReceive link crcOk => Sys2Proof.Machine.execFlitReceive link crcOk s
  | .clockChange dom core ns => Sys2Proof.Machine.execClockChange dom core ns s
  | .ageingReplan dom ns => Sys2Proof.Machine.execAgeingReplan dom ns s
  | .thermal dom => Sys2Proof.Machine.execThermal dom s
  | .domainRejoin dom image => Sys2Proof.Machine.execDomainRejoin dom image s
  | .packageReset => Sys2Proof.Machine.execPackageReset s
  | .boot images => Sys2Proof.Machine.execBoot images s
  | .hostNotify dom queue => Sys2Proof.Machine.execHostNotify dom queue s
  | .slotFreeMap dom slot => Sys2Proof.Machine.execSlotFreeMap dom slot s
  | .qslotStarved dom queue => Sys2Proof.Machine.execQslotStarved dom queue s
  | .hostMemoryAccess dom addr x => Sys2Proof.Machine.execHostMemoryAccess dom addr x s
  | .hostSnoopInvalidate dom x => Sys2Proof.Machine.execHostSnoopInvalidate dom x s
  | .launch c addr => Sys2Proof.Machine.execLaunch c addr s
  | .slotTable c entries => Sys2Proof.Machine.execSlotTable c entries s
  | .dirtySwap c => Sys2Proof.Machine.execDirtySwap c s
  | .keyAssign c frame key => Sys2Proof.Machine.execKeyAssign c frame key s
  | .ptRoot c tenant root => Sys2Proof.Machine.execPtRoot c tenant root s
  | .ttCfg c base slots => Sys2Proof.Machine.execTtCfg c base slots s
  | .inval c r => Sys2Proof.Machine.execInval c r s
  | .perfCfg c u idx ev tenant => Sys2Proof.Machine.execPerfCfg c u idx ev tenant s
  | .perfRead c u idx => Sys2Proof.Machine.execPerfRead c u idx s
  | .traceCfg c cfg => Sys2Proof.Machine.execTraceCfg c cfg s
  | .traceRead c => Sys2Proof.Machine.execTraceRead c s
  | .trapCfg c entry save => Sys2Proof.Machine.execTrapCfg c entry save s
  | .faultqCfg c base size => Sys2Proof.Machine.execFaultqCfg c base size s
  | .faultReplay c id => Sys2Proof.Machine.execFaultReplay c id s
  | .faultFail c id => Sys2Proof.Machine.execFaultFail c id s
  | .dbgAttach c => Sys2Proof.Machine.execDbgAttach c s
  | .dbgDetach c => Sys2Proof.Machine.execDbgDetach c s
  | .dbgHalt c p => Sys2Proof.Machine.execDbgHalt c p s
  | .dbgExec c p words => Sys2Proof.Machine.execDbgExec c p words s
  | .dbgStep c p => Sys2Proof.Machine.execDbgStep c p s
  | .dbgResume c p fromTrapPc => Sys2Proof.Machine.execDbgResume c p fromTrapPc s
  | .tenantCfg c isolation shares => Sys2Proof.Machine.execTenantCfg c isolation shares s
  | .exportRange c slot ex => Sys2Proof.Machine.execExportRange c slot ex s
  | .importHandle c entry handle port => Sys2Proof.Machine.execImportHandle c entry handle port s
  | .revoke c slot => Sys2Proof.Machine.execRevoke c slot s
  | .resetDomain c n => Sys2Proof.Machine.execResetDomain c n s
  | .attest c nonce => Sys2Proof.Machine.execAttest c nonce s
  | .gangArrivalSignal dom g => Sys2Proof.Machine.execGangArrivalSignal dom g s
  | .secondTierPortFailure x => Sys2Proof.Machine.execSecondTierPortFailure x s
  | .serialLogBase c base => Sys2Proof.Machine.execSerialLogBase c base s
  | .dirtyBitmapBase c base0 base1 => Sys2Proof.Machine.execDirtyBitmapBase c base0 base1 s

end Sys2Proof.Machine
end

