-- ==== Sys2Proof/Machine/Schedule.lean ====
section
/-! DEFINITION. What happens next: the events that are due, the debugger's feed, and the round of the cores (log 1). -/

namespace Sys2Proof.Machine

/-- The outcomes of the machine. -/
abbrev Out := Host.Outcome State Fault Refusal

/-- An event that always answers a state, as a function. -/
def outState (s : State) : Out → State
  | .next t => t
  | _ => s

/-! What stands in the package -/

/-- The domains, the focused one first. -/
def State.allDoms (s : State) : List Dom := s.dom :: s.doms

/-- The resident blocks of live launches, with their domains. -/
def State.liveBlocks (s : State) : List (Dom × Block) :=
  s.allDoms.flatMap fun d => (d.blocks.filter fun b => b.res == .resident && !d.launchDead b.launch).map fun b => (d, b)

/-- The paths of those blocks. -/
def State.livePaths (s : State) : List (PRef × Path) :=
  s.liveBlocks.flatMap fun x => x.2.waves.flatMap fun w => w.paths.map fun p =>
    ({ dom := x.1.ix, blk := x.2.id, wave := w.wid, pid := p.pid }, p)

/-- A reference to the stream of a block. -/
def streamRef (d : Dom) (b : Block) : Ref := { p := { dom := d.ix, blk := b.id, wave := 0, pid := 0 }, stream := true }

/-! Waits that can end -/

/-- Those that wait, with their stamps. -/
def State.waiters (s : State) : List (Nat × Ref) :=
  s.livePaths.filterMap (fun x => match x.2.status with
    | .waiting _ => some (x.2.stamp, ({ p := x.1, stream := false } : Ref))
    | _ => none) ++
  s.liveBlocks.filterMap fun x => match x.2.stream with
    | some m => (match m.status with
      | .waiting _ => some (m.stamp, streamRef x.1 x.2)
      | _ => none)
    | none => none

/-- The wait that a reference names can end. -/
def State.refReady (s : State) (r : Ref) : Bool :=
  if r.stream then ((s.focusBlock { dom := r.p.dom, blk := r.p.blk }).map State.streamWaitReady).getD false
  else ((s.focusPath r.p).map State.waitReady).getD false

/-- Of the waits that can end, the one that began first. -/
def State.nextWait (s : State) : Option Ref :=
  ((s.waiters.filter fun x => s.refReady x.2).foldl (fun (m : Option (Nat × Ref)) x => match m with
    | some y => if y.1 ≤ x.1 then m else some x
    | none => some x) none).map (·.2)

/-! What issues -/

/-- R394: what the debugger's word leaves of a path: its PC, level, windows and state are as before. -/
def Path.unfed (p old : Path) : Path :=
  { p with pc := old.pc, priv := old.priv, windows := old.windows, ir := old.ir, status := old.status, lost := old.lost, halted := true }

/-- R394: the fault of a fed word: the buffer stops, and cause and index are reported. -/
def State.feedFault (s : State) (c : Cause) : State :=
  let r : Report := .dbgFault s.pref c s.dom.dbgIx
  { s with dom := { s.dom with dbgBuffer := [], dbgPath := none, reports := s.dom.reports ++ [r] } }

/-- The cause of the fault that was reported last. -/
def lastFault (rs : List Report) : Cause :=
  match rs.getLast? with
  | some (.faulted _ c _) => c
  | _ => .illegalOpcode

/-- DBG_EXEC (R394): the next word of the buffer acts as the halted path at PRIV 1, once the path's open windows have completed and
the registers that it names are no longer pending. One that faults has no effect; one that would wait is tried again (log 21). -/
def State.feed (s : State) : Out :=
  match s.dom.dbgBuffer with
  | [] => .next s
  | w :: rest =>
    let old := s.path
    let pids := s.wave.paths.map Path.pid
    match decode w with
    | .instr i =>
      if s.windowTags ≠ [] || s.wave.pendingFor old (s.usesOf i) then .next s
      else match exec i { s with path := { old with priv := true, windows := [], ir := none, status := .running } } with
      | .next t =>
        if s.dom.reports.length < t.dom.reports.length then .next (s.feedFault (lastFault t.dom.reports))
        else match t.path.status with
          | .waiting _ => .next s
          | _ =>
            let back := fun p : Path => if pids.contains p.pid then p else p.unfed old
            .next { t with path := t.path.unfed old, wave := { t.wave with paths := t.wave.paths.map back },
                           dom := { t.dom with dbgBuffer := rest, dbgIx := s.dom.dbgIx + 1 } }
      | o => o
    | d => .next (s.feedFault (badWord false true d))

/-- The path that was chosen still may issue. -/
def State.mayIssue (s : State) : Bool :=
  s.block.res == .resident && !s.dom.launchDead s.block.launch && s.path.runs s.core
    && (match s.path.ir with
      | some i => !s.wave.pendingFor s.path (s.usesOf i)
      | none => true)

/-- The word at the path's PC, fetched if it is not there yet, and then executed. -/
def State.runPath (s : State) : Out :=
  let t := if s.path.ir.isNone then s.fetchPath else s
  match t.path.status, t.path.ir with
  | .running, some i => exec i t
  | _, _ => .next t

/-- The same for the stream of the focused block. -/
def State.runStream (s : State) : Out :=
  let t := match s.block.stream with
    | some m => if m.ir.isNone then s.fetchStream else s
    | none => s
  match t.block.stream with
  | some m => (match m.ir with
    | some i => if m.takesStep t.core.engineRoom then exec i t else .next t
    | none => .next t)
  | none => .next t

/-- R381: the path issues, and what it issues is sampled with `smp`. -/
def State.issuePath (s : State) (smp : Bool) : Out :=
  match smp, s.runPath with
  | true, .next t => .next (t.sampled s)
  | _, o => o

/-- What was chosen in its cycle issues. -/
def State.issueRef (s : State) (r : Ref) : Out :=
  if r.stream then
    match s.focusBlock { dom := r.p.dom, blk := r.p.blk } with
    | none => .next s
    | some t =>
      if t.block.res == .resident && !t.dom.launchDead t.block.launch && t.block.preempt.isNone
          && (t.block.stream.map fun m => m.status == .running).getD false then t.runStream
      else .next t
  else
    match s.focusPath r.p with
    | none => .next s
    | some t =>
      if t.path.halted && t.dom.feeds r.p && t.block.res == .resident then t.feed
      else if t.mayIssue then t.issuePath r.sample
      else .next t

/-- R85: a running path or stream whose next word has not been fetched; not a stream whose request stands in the sequencer's
Locket at a sector that is still locked (R315). -/
def State.nextFetch (s : State) : Option Ref :=
  match s.livePaths.find? fun x => x.2.status == .running && !x.2.halted && x.2.ir.isNone with
  | some x => some { p := x.1, stream := false }
  | none => (s.liveBlocks.find? fun x => x.2.preempt.isNone && match x.2.stream with
    | some m => m.status == .running && m.ir.isNone && !m.locket.any fun sec => x.1.lockedAt sec false
    | none => false).map fun x => streamRef x.1 x.2

/-! Events that are due -/

/-- R309: a poll of the focused path's word would end its wait, or bounce. -/
def State.pollEnds (s : State) : Bool :=
  match s.path.status with
  | .waiting (.sig va sz c x sc _) =>
    let n := sizeBytes sz
    match s.check s.who va { n := n, write := false, atomic := false, tags := true, sc := some sc } with
    | (_, .error _) => true
    | (s, .ok t) => s.lockedFor s.who t false || sigHolds c ((s.acquire s.core.ix sc).doRead s.who t .normal n).2 (x.toNat % 2 ^ (8 * n))
  | _ => false

/-- What is due for the focused path: bounds, timeouts and turns. A speculative lane is validated again wherever its path
stands, at a join or a `wsync` too (R352). -/
def State.pathDue (s : State) : Option (PRef → State → Out) :=
  let p := s.path
  if p.priv && decide (s.dom.cfg.supervisor < p.privFor) then some execSupervisorBoundExpiry
  else if !s.revalLanes.isEmpty then some execClaspRevalidation
  else match p.status with
    | .waiting .superv => if s.supervTurn then some execSupervisorEntry else none
    | .waiting (.laneLog _) => if decide (s.core.logs < maxLogs) && s.logTurn then some execLaneLogGrant else none
    | .waiting (.join _) => if Config.joinBound < s.joinWaited then some execJoinTimeout else none
    | .waiting (.wsync _ _) => if Config.joinBound < s.joinWaited then some execWsyncTimeout else none
    | .waiting (.mon lanes _ _ _ _) =>
      if decide (s.dom.cfg.mwait < s.joinWaited * s.core.nspercyc.toNat) && s.mayRead lanes then some execMwaitTimeout else none
    | .waiting (.sig va _ _ _ _ _) =>
      if decide (s.dom.cfg.poll < s.joinWaited * s.core.nspercyc.toNat) && s.mayRead [(0, va)] && s.pollEnds then some execSigwaitPoll else none
    | _ => none

/-- The first path with something due. -/
def State.pathEvent (s : State) : Option Out :=
  s.livePaths.findSome? fun x => match s.focusPath x.1 with
    | some t => t.pathDue.map fun f => f x.1 s
    | none => none

/-- What is due for the copies and the held arrivals of the focused, resident block. -/
def State.unitDue (s : State) : Option (BRef → State → Out) :=
  let c := s.block.copy
  if s.nextElem.isSome then some execCopyElementPerform
  else if c.ops.any s.opFreed then some execCopyDeferredWrite
  else match c.ops.find? fun op => s.opReady op && s.lockTurn op.lock with
    | some op => some fun b s => execTensorCopyComplete b op.num s
    | none =>
      match s.block.stream with
      | some m => (match m.held with
        | h :: _ => if h.after ≤ m.doneOps then some execMarvPerform else none
        | [] => none)
      | none => none

/-- What is due for the focused block: its end, its way off the core and back. -/
def State.blockDue (s : State) : Option (BRef → State → Out) :=
  let b := s.block
  if s.dom.launchDead b.launch || b.isOver then some execBlockEnd
  else match b.res with
    | .saving => if !b.wake && s.blockWoken then some execEvictedWake else some execEvictionSaveComplete
    | .evicted => if s.blockWoken || s.anyPath State.fedPolls then some execEvictedWake else none
    | .unplaced => none
    | .resident =>
      match b.preempt with
      | some t =>
        if b.stopped then some execPreemptRequest
        else if decide (Config.preemptBound < s.core.span t) && b.streamQuiet then
          some fun r s => execPreemptFullSave { dom := r.dom, blk := r.blk, wave := 0, pid := 0 } s
        else s.unitDue
      | none => s.unitDue

/-- The first block with something due. -/
def State.blockEvent (s : State) : Option Out :=
  (s.allDoms.flatMap fun d => d.blocks.map fun b => ({ dom := d.ix, blk := b.id } : BRef)).findSome? fun r =>
    match s.focusBlock r with
    | some t => t.blockDue.map fun f => f r s
    | none => none

/-- R45: a block that is past its bound, with its group. -/
def State.evictEvent (s : State) : Option Out :=
  (s.liveBlocks.filter fun x => x.2.idleSince.isSome).findSome? fun x =>
    let r : BRef := { dom := x.1.ix, blk := x.2.id }
    let g := (x.1.groupOf x.2).map fun y => ({ dom := x.1.ix, blk := y.id } : BRef)
    if g.all s.evictable then some (execResidencyEviction r s) else none

/-- The matrix engines (R319). -/
def State.engineEvent (s : State) : Option Out :=
  (s.allDoms.flatMap fun d => (d.cores.filter fun c => c.engine != []).map fun c => (d.ix, c)).findSome? fun x =>
    match x.2.engine with
    | [] => none
    | o :: _ =>
      if o.phase == .consumed then some (execMatrixOpComplete x.1 x.2.ix s)
      else if (nextStart [] x.2.engine).isSome then some (execMatrixOpStart x.1 x.2.ix s)
      else if x.2.engine.any fun o => o.phase == .started then some (execMatrixOpConsumed x.1 x.2.ix s)
      else none

/-- The record of a park can be written to the fault queue (R386). -/
def Dom.faultRoom (d : Dom) : Bool :=
  d.parks.any (fun k => k.slot == none) && d.fqsize != 0 && !(d.parks.any fun x => x.slot == some (d.fqnext % d.fqsize)) && !d.lockedAt (d.faultKey / 64) true

/-- R386: a park that FAULT_FAIL has answered and whose block is back on a core. -/
def State.failedPark (s : State) : Option Park := s.dom.parks.find? fun k => k.failed && s.onCore k.what.block

/-- What is due in the focused domain. -/
def State.domDue (s : State) : Option Out :=
  let d := s.dom
  match s.failedPark with
  | some k => some (.next ((s.dropPark k.id).failPark k))
  | none =>
    if d.up && !d.hostLocket.isEmpty && s.noLocks then some (.next s.launchHeld)
    else if d.faultRoom then some (execFaultQueueWrite d.ix s)
    else if s.invalDue then some (execInvalidationComplete d.ix s)
    else if (match d.serial with
      | some x => ((s.serialPath x).bind s.focusPath).map (fun s => decide (s.dom.cfg.serial < s.core.span x.since))
      | none => none) == some true then some (execSerialBoundExpiry d.ix s)
    else if d.serial.isNone && (s.nextToken d.clQueue).isSome then some (execClaspTokenGrant d.ix s)
    else if d.ctl0.new.isSome then some (execMemoryTableCycle d.ix false s)
    else if d.ctl1.new.isSome then some (execMemoryTableCycle d.ix true s)
    else if d.slots.length < 64 ∧ d.pend ≠ [] then some (execSlotFreeMap d.ix 64 s)
    else if (d.pend.find? d.starving).isSome then (d.pend.find? d.starving).map fun n => execQslotStarved d.ix n s
    else if (d.launches.find? fun l => s.hung l && !d.reports.contains (.hung l.id)).isSome then
      (d.launches.find? fun l => s.hung l && !d.reports.contains (.hung l.id)).map fun l => .next (s.checkHung l.id)
    else if d.up && (d.jobs.findSome? s.tryJob).isSome then some (execBlockPlace d.ix s)
    else if d.memDeque.isEmpty && d.cores.all (fun c => c.deque.isEmpty) then none
    else (List.range 96).findSome? fun c =>
      if (s.taskSources c).any (s.taskFits c) then some (execTaskStart d.ix c s) else none

def State.domEvent (s : State) : Option Out :=
  (s.allDoms.map Dom.ix).findSome? fun n => (s.focusDom n).domDue

/-- The event that is due first. -/
def State.nextEvent (s : State) : Option Out :=
  (s.domEvent.orElse fun _ => s.engineEvent).orElse fun _ => (s.blockEvent.orElse fun _ => s.pathEvent).orElse fun _ => s.evictEvent

/-! The agenda -/

/-- The header of a host command. -/
def cmdOf : Instr → Option CmdHdr
  | .launch c _ | .slotTable c _ | .dirtySwap c | .keyAssign c _ _ | .ptRoot c _ _ | .ttCfg c _ _ | .inval c _ | .perfCfg c _ _ _ _
  | .perfRead c _ _ | .traceCfg c _ | .traceRead c | .trapCfg c _ _ | .faultqCfg c _ _ | .faultReplay c _ | .faultFail c _
  | .dbgAttach c | .dbgDetach c | .dbgHalt c _ | .dbgExec c _ _ | .dbgStep c _ | .dbgResume c _ _ | .tenantCfg c _ _
  | .exportRange c _ _ | .importHandle c _ _ _ | .revoke c _ | .resetDomain c _ | .attest c _ | .serialLogBase c _
  | .dirtyBitmapBase c _ _ => some c
  | _ => none

/-- R39: how a command of the domain stands among those that wait: the priority of its queue, and how far the queue lies, by its
number, behind the one of that priority that was served last (log 90). -/
def Dom.cmdRank (d : Dom) (c : CmdHdr) : Nat × Nat :=
  let q := d.queue c.queue
  (q.prio, (c.queue + 4096 - (mget d.served q.prio).toNat) % 4096)

/-- R39: `a` is served before `b`. -/
def State.cmdBefore (s : State) (a b : CmdHdr) : Bool :=
  match s.allDoms.find? fun d => d.ix == a.dom with
  | none => false
  | some d =>
    let x := d.cmdRank a
    let y := d.cmdRank b
    a.dom == b.dom && decide (y.1 < x.1 ∨ (x.1 = y.1 ∧ x.2 < y.2))

/-- A command that can be served now. -/
def State.canServe (s : State) (c : CmdHdr) : Bool := s.allDoms.any fun d => d.ix == c.dom && d.serves c

/-- R346: a command that meets a lock waits: KEY_ASSIGN of a frame of which a sector is locked, DIRTY_SWAP while a bit is to be written. -/
def State.cmdHeld (s : State) (i : Instr) : Bool :=
  let at_ := fun (c : CmdHdr) (p : Dom → Bool) => s.allDoms.any fun d => d.ix == c.dom && p d
  match i with
  | .dirtySwap c => at_ c Dom.bitsLate
  | .keyAssign c frame _ => at_ c fun d => d.frameHeld frame
  | _ => false

/-- R39: of the commands that wait, the place of the one that is served next; the commands of a queue go in their order. -/
def State.nextCmd (s : State) (is : List Instr) : Option Nat :=
  let cs := is.filterMap fun i => (cmdOf i).map fun c => (c, s.cmdHeld i)
  (cs.zipIdx.foldl (fun (b : Option (CmdHdr × Nat)) x =>
    let c := x.1.1
    let held := x.1.2 || (cs.take x.2).any fun y => y.1.dom == c.dom && y.1.queue == c.queue
    if held || !s.canServe c then b
    else match b with
      | none => some (c, x.2)
      | some y => if s.cmdBefore c y.1 then some (c, x.2) else b) none).map (·.2)

/-- What of the agenda happens next, and what is left. The commands that stand together at its head wait together: R39 says
which of them is served; while none can be, what follows them happens (log 92). -/
def State.pickAgenda (s : State) : Option (Instr × List Instr) :=
  let run := s.agenda.takeWhile fun i => (cmdOf i).isSome
  match (s.nextCmd run).bind fun n => run[n]?.map fun i => (i, n) with
  | some (i, n) => some (i, s.agenda.eraseIdx n)
  | none => match s.agenda.drop run.length with
    | [] => none
    | i :: rest => some (i, run ++ rest)

/-! The round of the cores -/

/-- The core whose turn it is: the next one of a domain that is up. -/
def State.turnCore (s : State) : Option (Nat × Nat) :=
  let k := s.turn / 2 % 864
  let up := fun n => s.allDoms.any fun d => d.ix == n && d.up
  if up (k / 96) then some (k / 96, k % 96)
  else ((List.range 8).map fun j => (k / 96 + j + 1) % 9).find? up |>.map fun n => (n, 0)

/-- R221: the waves of a core with an entry to reissue. -/
def State.reissues (s : State) (dom core : Nat) : List (BRef × Nat) :=
  (s.liveBlocks.filter fun x => x.1.ix == dom && x.2.core == core).flatMap fun x =>
    let b : BRef := { dom := dom, blk := x.2.id }
    let due := fun w : Wave => w.locket != [] && (((s.focusBlock b).bind fun t => t.openWave w.wid).bind State.nextEntry).isSome
    (x.2.waves.filter due).map fun w => (b, w.wid)

/-- A core's turn: first its Lockets reissue, then a cycle passes. -/
def State.nextCycle (s : State) : Out :=
  match s.turnCore with
  | none => .fault .domainDown
  | some (dom, core) =>
    let k := 96 * dom + core
    let rs := s.reissues dom core
    if s.turn % 2 = 0 ∧ rs ≠ [] then
      .next { rs.foldl (fun s r => outState s (execLocketReissue r.1 r.2 s)) s with turn := 2 * k + 1 }
    else execIssueCycle dom core { s with turn := 2 * ((k + 1) % 864) }

end Sys2Proof.Machine
end

