-- ==== Sys2Proof/Machine/Setup.lean ====
section
/-! DEFINITION. A word placed where the next step fetches it: the work that a host does to run a program, in one
operation (log 2). -/

namespace Sys2Proof.Machine

/-- Where the word stands. -/
def setupPc : W64 := 0x200000

/-- R84: a bundle that begins with a word; its other words are 0. -/
def bundleOf (w : Nat) : Nat := w % 2 ^ 96 + crc32c 60 (w % 2 ^ 96) * 2 ^ 480

/-- R284: two tables that map the first 64 GiB to themselves: coherent, writable, executable, for user and supervisor,
with A and D set. -/
def setupTables (m : SMap 8) : SMap 8 := wrN (wrN m 0x100000 8 0x102001) 0x102000 8 507

/-- R32: a launch of one wave, with a matrix stream when the word is one of the stream's. -/
def setupLaunch (id : W32) (matrix : Bool) : Launch :=
  { id := id, queue := 0, seq := 0, nblocks := 1, waves := 1, width := 8, regblk := 31, matrix := matrix, prio := 0,
    validate := false, linked := false, tenant := 0, linkid := 0, abu := 4, wbu := 4, accu := 4, sclu := 4, args := 0,
    entry := setupPc, trapentry := 0x201000, ringbase := 0x300000, ringlog := 10, locketbase := 0x400000,
    mentry := setupPc, ready := true, firstBlock := 0, gangs := [], table := [], ringNext := 0, started := 1, early := [],
    ended := 0, dead := false }

/-- The domain with the tables and the bundle in its memory, and nothing that hides them. -/
def Dom.setup (d : Dom) (w : Nat) : Dom :=
  { d with up := true, mem := wrN (setupTables d.mem) setupPc.toNat 64 (bundleOf w), keys := mclear d.keys 0 (2 ^ 20),
           poison := d.poison.filter (· != setupPc.toNat / 64), locks := d.locks.filter fun x => x.sector != setupPc.toNat / 64, l1 := d.l1.filter fun x => x.key != setupPc.toNat / 64,
           icache := d.icache.filter fun x => x.va != setupPc / 64, tlb := d.tlb.filter fun t => t.tenant != 0,
           ptroot := (0, 0x100000) :: d.ptroot.filter fun r => r.1 != 0 }

/-- The block of that launch, resident on core 0. -/
def setupBlock (id : Nat) (l : Launch) (placed : Nat) : Block :=
  let b := Block.start id l.id 0 false 1 l.sizes
  let w := newWave 0 l.width l.regs placed { slot := 0, octet := 0, ctx := 0, ab := 0 } l.entry l.args 0
  { b with started := true, res := .resident, waves := [w], stream := if l.matrix then some (Stream.start l.mentry) else none }

/-- Everything that the next step needs to fetch and run the word. -/
def State.placeWord (s : State) (w : Nat) : State :=
  let s := s.focusDom 0
  let matrix := match decode (BitVec.ofNat 96 w) with
    | .instr i => i.matrixOnly
    | _ => false
  let l := setupLaunch s.dom.nextLaunch matrix
  let b := setupBlock s.dom.nextBlock l s.now
  let d := s.dom.setup w
  let others := d.blocks.filter fun x => x.core != 0 || !(x.res == .resident || x.res == .saving)
  let r : Ref := { p := { dom := d.ix, blk := b.id, wave := 0, pid := 0 }, stream := matrix }
  { s with agenda := [], sigs := [], issueQ := [r], now := s.now + 1,
           dom := { d with launches := l :: d.launches.filter (fun x => x.id != l.id), nextLaunch := d.nextLaunch + 1,
                           blocks := insertBy Block.id b others, nextBlock := d.nextBlock + 1,
                           cores := insertBy Core.ix { s.coreAt 0 with tenant := some 0 } d.cores } }

end Sys2Proof.Machine
end

