-- ==== Sys2Proof/Machine/Step.lean ====
section
/-! DEFINITION. One step of the package: what is on the agenda, else what issues in this cycle, else a wait that can end,
else a fetch, else what is due, else a cycle of a core (log 1). And the state whose next step runs a given word. -/

namespace Sys2Proof.Machine

/-- One step. -/
def step (s : State) : Host.Outcome State Fault Refusal :=
  match s.pickAgenda with
  | some (i, rest) => exec i { s with agenda := rest }
  | none =>
    match s.sigs with
    | x :: rest => execGangArrivalSignal x.1 x.2 { s with sigs := rest }
    | [] =>
      match s.issueQ with
      | r :: rest => ({ s with issueQ := rest } : State).unfocus.issueRef r
      | [] =>
        let s := s.unfocus
        match s.nextWait with
        | some r => execWaitWake r.p r.stream s
        | none =>
          match s.nextFetch with
          | some r => execInstructionFetch r.p r.stream s
          | none => s.nextEvent.getD s.nextCycle

/-- The word stands at PC in memory, and a path (or the stream) of a launch's block is the next to issue there. -/
def State.withFetchWord (s : State) (nbits w : Nat) : State := s.placeWord (w % 2 ^ nbits)

end Sys2Proof.Machine
end

