-- ==== Sys2Proof/Safety.lean ====
section
/-! DEFINITION. The terms of the statements: what a safe run is, when an instruction executes as its entry says, and what
an instruction changes and leaves alone. -/

namespace Sys2Proof.Machine

/-- Every memory is in canonical form. -/
def State.canonical (s : State) : Prop :=
  mwf s.hostMem = true ∧ mwf s.fabricMem = true ∧ ∀ d ∈ s.dom :: s.doms, mwf d.mem = true

/-- A step that answers a state. -/
def State.goesOn (s : State) : Bool :=
  match step s with
  | .next _ => true
  | _ => false

/-- R88, R222: nothing stops the instruction before it executes as its entry says: a path is in focus; the word is legal
there; no window, no region's end and no Locket entry holds it; and the next instruction in sequence has a legal PC (R84). -/
def State.runs (s : State) (i : Instr) : Bool :=
  s.kind == .path && (s.refuses i).isNone && !s.path.strayed i && (s.blockedBy i).isNone && legalPc (nextPc s.path.pc)

/-- Which half of a destination a v register takes: `wide` for a form with 64-bit lane results (R90). -/
def halfOf (d : Opnd) (wide : Bool) (n : Nat) : Option Nat :=
  match d with
  | .v k => if n = k.toNat then some 0 else if wide = true ∧ n = k.toNat + 1 then some 32 else none
  | .pair k => if n = 2 * k.toNat then some 0 else if n = 2 * k.toNat + 1 then some 32 else none
  | _ => none

/-- The registers of the wave after D has taken `val` in the lanes `m` (R73, R74, R90): an s register takes the value of
the lowest lane, unless an instruction that comes after this one has written it already (R111); a predicate is true when it is
nonzero, q7 keeps its value, and every other register of every lane is as before. -/
def State.Wrote (s u : State) (m : W64) (wide : Bool) (d : Opnd) (val : Nat → W64) : Prop :=
  (∀ l n, l < 64 → n < 256 → u.wave.vGet l n = match halfOf d wide n with
    | some k => if hasLane m l then (val l).extractLsb' k 32 else s.wave.vGet l n
    | none => s.wave.vGet l n) ∧
  (∀ n, u.wave.sGet n = if m ≠ 0 ∧ (∃ k, d = .s k ∧ n = k.toNat) ∧ n ∉ s.path.lost then val (lowLane m) else s.wave.sGet n) ∧
  (∀ l n, l < 64 → n < 8 → u.wave.qGet l n =
    if hasLane m l = true ∧ n ≠ 7 ∧ (∃ k, d = .q k ∧ n = k.toNat) then val l != 0 else s.wave.qGet l n)

/-- A path without what a write of an s register by another path of its wave may change: its flashback point (R391), and which of its
own writes come too late (R111). -/
def Path.bare (p : Path) : Path := { p with fb := none, lost := [], under := [] }

/-- R111: the state as an instruction issues in it: what the uniform unit has written in the same cycle stands over its own writes. -/
def State.issuing (s : State) : State := { s with path := { s.path with lost := s.path.under, under := [] } }

/-- Nothing has changed but the registers of the wave, `flags`, the PC, the counters of events, the windows of the path, what the
write of an s register changes in the wave's other paths, and the word, the age and the flashback point of the path; a path that the debugger steps
has had its step (R394). -/
def State.OnlyRegs (s u : State) (flags : W32) : Prop :=
  u = { s with path := u.path, wave := u.wave, core := { s.core with perf := u.core.perf } } ∧
  u.path = { s.path with pc := u.path.pc, ir := none, age := 0, windows := u.path.windows, fb := u.path.fb, status := .running,
                         flags := flags, again := false, kept := none, stepped := s.path.stepBit, lost := s.path.under, under := [] } ∧
  u.wave = { s.wave with v := u.wave.v, s := u.wave.s, q := u.wave.q, paths := u.wave.paths } ∧
  u.wave.paths.map Path.bare = s.wave.paths.map Path.bare

/-- The instruction answers a next state: D has taken `val` in the lanes `m`, FLAGS is `flags`, the path goes on in
sequence, and nothing else has changed. -/
def State.Gives (s : State) (i : Instr) (m : W64) (wide : Bool) (d : Opnd) (val : Nat → W64) (flags : W32) : Prop :=
  ∃ u, exec i s = .next u ∧ u.path.pc = nextPc s.path.pc ∧ s.issuing.Wrote u m wide d val ∧ s.OnlyRegs u flags

/-- What a destination takes of an exact result (R90, R116): the low bits of the type, extended by its signedness; a
predicate takes whether they are nonzero. -/
def typedResult (t : ITy) (d : Opnd) (x : Int) : W64 :=
  match d with
  | .q _ => BitVec.ofNat 64 (BitVec.ofInt (tyBits t) x).toNat
  | _ => tyExt t x

/-- An integer form that runs gives D the value `f` of each lane whose guard holds. -/
def State.Computes (s : State) (i : Instr) (t : ITy) (o : Args) (f : Nat → Int) : Prop :=
  s.runs i = true → s.Gives i (s.guard o.h) t.wide o.d (fun l => typedResult t o.d (f l)) s.path.flags

/-- R105, R137: a float form that runs gives D the bits `(f l).1` of each lane that acts and ORs the flags `(f l).2` of
those lanes into FLAGS. -/
def State.Floats (s : State) (i : Instr) (o : Args) (f : Nat → Nat × Nat) : Prop :=
  s.runs i = true →
    s.Gives i (execLanes o.h (s.guard o.h)) false o.d (fun l => BitVec.ofNat 64 (f l).1)
      (s.path.flags ||| BitVec.ofNat 32 (((lanesOf (execLanes o.h (s.guard o.h))).map fun l => (f l).2).foldl (· ||| ·) 0))

/-- Nothing has changed but the path, which is now `p`, the counters of events, and what every issue changes: what `Path.bare`
leaves out of the wave's paths and of the path, the windows, the word and the age of the path, and the step of a debugger (R394). -/
def State.OnlyPath (s u : State) (p : Path) : Prop :=
  u = { s with path := u.path, wave := { s.wave with paths := u.wave.paths }, core := { s.core with perf := u.core.perf } } ∧
  u.path = { p with ir := none, age := 0, windows := u.path.windows, fb := u.path.fb, status := .running, again := false,
                    kept := none, stepped := s.path.stepBit, lost := u.path.lost, under := [] } ∧
  u.wave.paths.map Path.bare = s.wave.paths.map Path.bare

/-- The instruction answers a next state in which only the path has changed, to `p`. -/
def State.Moves (s : State) (i : Instr) (p : Path) : Prop := ∃ u, exec i s = .next u ∧ s.OnlyPath u p

/-- The instruction answers a next state that is `t` with the path gone on in sequence, but for what every issue changes. -/
def State.Leads (s : State) (i : Instr) (t : State) : Prop :=
  ∃ u, exec i s = .next u ∧ t.OnlyPath u { t.path with pc := nextPc s.path.pc }

/-- No region, no Locket entry, no posted operation and no imposed bounce stands between the path and memory. -/
def State.clear (s : State) : Bool :=
  !s.path.inRegion && s.wave.locket.isEmpty && s.path.posted.isEmpty && s.path.forced == 0 && s.wave.bncinj == 0

/-- R15, R36, R398: the domain serves the command: it is up, the command's queue is mapped and of the command's tenant, no command
of the queue stands in its Locket, none is ordered before it, and its rights suffice. -/
def State.serves (s : State) (c : CmdHdr) (sup : Bool) : Bool :=
  s.kind == .idle && s.dom.ix == c.dom && s.dom.serves c
    && (s.dom.queue c.queue).tenant == c.tenant && (!sup || (s.dom.queue c.queue).superv)

/-- The command has left its queue, which is the one of its priority that was served last (R39). -/
def State.taken (s : State) (c : CmdHdr) : State :=
  { s with dom := { s.dom.updQueue c.queue fun q => { q with cmds := q.cmds - 1 } with
    served := mset s.dom.served (s.dom.queue c.queue).prio (BitVec.ofNat 13 (c.queue + 1)) } }

/-- R398: the command is served, changes its domain by `f`, and completes with OK and this data. -/
def State.Answers (s : State) (i : Instr) (c : CmdHdr) (f : Dom → Dom) (data : List Nat) : Prop :=
  let r : Completion := { queue := c.queue, seq := c.seq, status := .ok, data := data }
  exec i s = .next { s with dom := { f (s.taken c).dom with completions := s.dom.completions ++ [r] } }

end Sys2Proof.Machine
end

