-- ==== Sys2Proof/Certificates/Slice0/Obligations.lean ====
section
/-! DEFINITION. The statements for the provers. -/

open Sys2Proof Sys2Proof.Machine

/-- R116, R117: integer arithmetic of OP 0x10, for every type, every operand form and, where the form allows it, with and
without SAT: D takes the exact result reduced modulo 2^n or saturated; nothing else changes. -/
def Obligations.IntegerArithmetic : Prop :=
  ∀ (s : State) (t : ITy) (sat : Bool) (o : Args),
    let a := fun l => s.src t l o.a
    let b := fun l => s.src t l o.b
    let c := fun l => s.src t l o.c
    let fin := fun x : Int => if sat then max (tyMin t) (min x (tyMax t)) else x
    s.Computes (.iadd sat t o) t o (fun l => fin (a l + b l)) ∧
    s.Computes (.isub sat t o) t o (fun l => fin (a l - b l)) ∧
    s.Computes (.imul sat t o) t o (fun l => fin (a l * b l)) ∧
    s.Computes (.imulh t o) t o (fun l => (a l * b l).fdiv (2 ^ tyBits t)) ∧
    s.Computes (.imad sat t o) t o (fun l => fin (a l * b l + c l)) ∧
    s.Computes (.imin t o) t o (fun l => if a l ≤ b l then a l else b l) ∧
    s.Computes (.imax t o) t o (fun l => if a l ≤ b l then b l else a l) ∧
    s.Computes (.iabs sat t o) t o (fun l => fin (if a l < 0 then -a l else a l)) ∧
    s.Computes (.ineg sat t o) t o (fun l => fin (-a l)) ∧
    s.Computes (.isat t o) t o (fun l => min (max (a l) (b l)) (c l))

/-- R117: `idiv` and `irem`: a divisor of 0 gives all ones and the dividend; the quotient is truncated toward zero and the
remainder takes the sign of the dividend; the most negative value divided by −1 gives itself and remainder 0. -/
def Obligations.DivisionEdges : Prop :=
  ∀ (s : State) (t : ITy) (o : Args),
    let a := fun l => s.src t l o.a
    let b := fun l => s.src t l o.b
    let lowest := fun l => tySigned t = true ∧ a l = -(2 ^ (tyBits t - 1)) ∧ b l = -1
    let q := fun l => if b l = 0 then 2 ^ tyBits t - 1 else if lowest l then -(2 ^ (tyBits t - 1)) else (a l).tdiv (b l)
    let r := fun l => if b l = 0 then a l else if lowest l then 0 else a l - b l * (a l).tdiv (b l)
    s.Computes (.idiv t o) t o q ∧ s.Computes (.irem t o) t o r

/-- R117: `iaddc` and `isubb`: an unsigned sum or difference with the carry that C names, and C takes the carry out when it
is a register; the rest of the state is as before. -/
def Obligations.CarryChain : Prop :=
  ∀ (s : State) (t : ITy) (o : Args) (i : Instr) (sum : Nat → Nat → Nat → Int × Bool),
    (i = .iaddc t o ∧ sum = (fun a b c : Nat => (((a + b + c : Nat) : Int), decide (2 ^ tyBits t ≤ a + b + c))) ∨
      i = .isubb t o ∧ sum = (fun a b c : Nat => (((a : Int) - (b : Int) - (c : Int)), decide (a < b + c)))) →
    s.runs i = true →
    let cin := fun l => match o.c with
      | .q n => if s.wave.qGet l n.toNat then 1 else 0
      | .s n => (s.sVal n.toNat).toNat % 2
      | _ => 0
    let r := fun l => sum (s.bits t l o.a) (s.bits t l o.b) (cin l)
    let m := s.guard o.h
    ∃ u v, exec i s = .next v ∧ v.path.pc = nextPc s.path.pc ∧
      s.issuing.Wrote u m t.wide o.d (fun l => typedResult t o.d (r l).1) ∧ u.path.lost = s.path.under ∧
      u.Wrote v m false o.c (fun l => if (r l).2 then 1 else 0) ∧ s.OnlyRegs v s.path.flags

/-- R118: logic, shifts, rotation, the count of ones and the reversal of OP 0x11 on bits [n−1:0]. -/
def Obligations.LogicAndShifts : Prop :=
  ∀ (s : State) (t : ITy) (o : Args),
    let n := tyBits t
    let a := fun l => BitVec.ofNat n (s.bits t l o.a)
    let b := fun l => BitVec.ofNat n (s.bits t l o.b)
    let k := fun l => s.bits .n32 l o.b
    let asInt := fun x : BitVec n => (x.toNat : Int)
    s.Computes (.andI t o) t o (fun l => asInt (a l &&& b l)) ∧
    s.Computes (.orI t o) t o (fun l => asInt (a l ||| b l)) ∧
    s.Computes (.xorI t o) t o (fun l => asInt (a l ^^^ b l)) ∧
    s.Computes (.notI t o) t o (fun l => asInt (~~~a l)) ∧
    s.Computes (.andn t o) t o (fun l => asInt (a l &&& ~~~b l)) ∧
    s.Computes (.shl t o) t o (fun l => asInt (a l <<< k l)) ∧
    s.Computes (.shr t o) t o (fun l => asInt (a l >>> k l)) ∧
    s.Computes (.sar t o) t o (fun l => asInt ((a l).sshiftRight (k l))) ∧
    s.Computes (.rotl t o) t o (fun l => asInt ((a l).rotateLeft (k l))) ∧
    s.Computes (.popc t o) t o (fun l => ((List.range n).filter fun i => (a l).getLsbD i).length) ∧
    s.Computes (.brev t o) t o (fun l => asInt (a l).reverse)

/-- R119, R120: bit fields, leading and trailing zeros, and byte selection of OP 0x11. -/
def Obligations.FieldsAndBytes : Prop :=
  ∀ (s : State) (t : ITy) (o : Args),
    let n := tyBits t
    let a := fun l => BitVec.ofNat n (s.bits t l o.a)
    let b := fun l => BitVec.ofNat n (s.bits t l o.b)
    let pos := fun ctl : Nat => min (ctl % 256) n
    let len := fun ctl : Nat => min (ctl / 256 % 256) n
    let field := fun (x : BitVec n) (ctl : Nat) => (List.range (len ctl)).map fun i =>
      if pos ctl + i < n then x.getLsbD (pos ctl + i) else tySigned t && x.msb
    let number := fun bs : List Bool => (((List.range bs.length).map fun i => if bs.getD i false then 2 ^ i else 0).sum : Int)
    let asField := fun bs : List Bool => if tySigned t = true ∧ bs.getLast? = some true then number bs - 2 ^ bs.length else number bs
    let pool := fun l j => if j < 4 then s.bits t l o.a / 256 ^ j % 256 else s.bits t l o.b / 256 ^ (j - 4) % 256
    let byte := fun l k =>
      let ctl := s.bits .n32 l o.c / 256 ^ k % 256
      let p := pool l (ctl % 8)
      match ctl / 8 % 4 with
      | 0 => p
      | 1 => 0
      | 2 => if p < 128 then 0 else 255
      | _ => (BitVec.ofNat 8 p).reverse.toNat
    s.Computes (.bfe t o) t o (fun l => asField (field (a l) (s.bits .n32 l o.b))) ∧
    s.Computes (.bfi t o) t o (fun l => number ((List.range n).map fun i =>
      let ctl := s.bits .n32 l o.c
      if pos ctl ≤ i ∧ i < pos ctl + len ctl then (a l).getLsbD (i - pos ctl) else (b l).getLsbD i)) ∧
    s.Computes (.clz t o) t o (fun l => n - ((List.range n).filter fun i => decide (2 ^ i ≤ (a l).toNat)).length) ∧
    s.Computes (.ctz t o) t o (fun l => ((List.range n).filter fun i => (a l).toNat % 2 ^ (i + 1) == 0).length) ∧
    s.Computes (.bsel t o) t o (fun l => byte l 0 + 256 * byte l 1 + 65536 * byte l 2 + 16777216 * byte l 3)

/-- R121 to R123: comparison, selection, moves, conversion and address arithmetic of OP 0x12. -/
def Obligations.MovesAndComparisons : Prop :=
  ∀ (s : State) (cc : Cc) (scale : Fin 5) (disp : BitVec 24) (sat : Bool) (t sty : ITy) (o : Args),
    let a := fun l => s.src t l o.a
    let b := fun l => s.src t l o.b
    let holds := fun x y : Int => match cc with
      | .eq => decide (x = y) | .ne => decide (x ≠ y) | .lt => decide (x < y)
      | .le => decide (x ≤ y) | .gt => decide (y < x) | .ge => decide (y ≤ x)
    let index : Nat → W64 := fun l => match o.b with
      | .v n => (s.wave.vGet l n.toNat).signExtend 64
      | .s n => s.sVal n.toNat
      | _ => 0
    let fin := fun x : Int => if sat then max (tyMin t) (min x (tyMax t)) else x
    s.Computes (.icmp cc t o) t o (fun l => if holds (a l) (b l) then 1 else 0) ∧
    s.Computes (.isel t o) t o (fun l => if s.bits t l o.c ≠ 0 then a l else b l) ∧
    s.Computes (.lea scale t disp o) t o
      (fun l => (s.rd false l o.a + (index l <<< scale.val) + disp.signExtend 64 : W64).toNat) ∧
    s.Computes (.mov t o) t o a ∧
    s.Computes (.movi t o) t o (fun l => (((s.rd false l o.a).setWidth 32 ++ (s.rd true l o.d).setWidth 32 : W64)).toNat) ∧
    s.Computes (.cvti sat sty t o) t o (fun l => fin (s.src sty l o.a))

/-- R277, R278: the predicate forms: D (or, for `pset.p`, q0 to q6 of each lane) takes its new value in the lanes whose guard
holds, and nothing else changes. -/
def Obligations.PredicateForms : Prop :=
  ∀ (s : State) (o : Args),
    let a := fun l => s.rd false l o.a != 0
    let b := fun l => s.rd false l o.b != 0
    let sets := fun i (f : Nat → Bool) => s.runs i = true →
      s.Gives i (s.guard o.h) false o.d (fun l => if f l then 1 else 0) s.path.flags
    sets (.pand o) (fun l => a l && b l) ∧ sets (.por o) (fun l => a l || b l) ∧ sets (.pxor o) (fun l => a l ^^ b l) ∧
    sets (.pnot o) (fun l => !a l) ∧ sets (.psetM o) (fun l => (s.rd false l o.a).getLsbD l) ∧
    (s.runs (.pget o) = true → s.Gives (.pget o) (s.guard o.h) false o.d
      (fun l => BitVec.ofNat 64 (128 + ((List.range 7).map fun k => if s.wave.qGet l k then 2 ^ k else 0).sum)) s.path.flags) ∧
    (s.runs (.psetP o) = true → ∃ u, exec (.psetP o) s = .next u ∧ u.path.pc = nextPc s.path.pc ∧
      s.OnlyRegs u s.path.flags ∧ u.wave.v = s.wave.v ∧ u.wave.s = s.wave.s ∧
      ∀ l n, l < 64 → n < 8 → u.wave.qGet l n =
        if hasLane (s.guard o.h) l = true ∧ n ≠ 7 then (s.rd false l o.a).getLsbD n else s.wave.qGet l n)

/-- R125 to R131: the lane crossbar: what each form gives its participants, the lanes of the path whose guard holds. -/
def Obligations.LaneCrossbar : Prop :=
  ∀ (s : State) (mode : ShMode) (seg : Seg) (vm : VMode) (op : RedOp) (excl : Bool) (t : ITy) (o : Args),
    let m := s.guard o.h
    let ps := lanesOf m
    let a := fun l => s.src t l o.a
    let pa := fun l => s.rd false l o.a != 0
    let ctl := fun l => (s.rd false l o.b).toNat % 2 ^ 32
    let w := if seg.code = 0 ∨ s.wave.width < 2 ^ seg.code then s.wave.width else 2 ^ seg.code
    let j := fun l => l % w
    let j2 := fun l => match mode with
      | .idx => ctl l % w
      | .rot => (((j l : Int) + (BitVec.ofNat 32 (ctl l)).toInt) % (w : Int)).toNat
      | .xor => j l ^^^ (ctl l % w)
      | .rev => (w - 1 - j l) ^^^ (ctl l % w)
    let source := fun l => if hasLane m (l - j l + j2 l) then l - j l + j2 l else l
    let vote := match vm with
      | .all => ∀ l ∈ ps, pa l = true
      | .any => ∃ l ∈ ps, pa l = true
      | .eq => ∀ l ∈ ps, ∀ k ∈ ps, pa l = pa k
      | .maj => ps.length < 2 * (ps.filter fun l => pa l).length
    let combine := fun ls : List Nat => (ls.map a).foldl (redOp op t) (redId op t)
    s.Computes (.shfl mode seg t o) t o (fun l => a (source l)) ∧
    (s.runs (.vote vm o) = true → ∃ r : Bool, (r = true ↔ vote) ∧
      s.Gives (.vote vm o) m false o.d (fun _ => if r then 1 else 0) s.path.flags) ∧
    (s.runs (.ballot o) = true → ∃ x : W64, (∀ l, l < 64 → x.getLsbD l = (hasLane m l && pa l)) ∧
      s.Gives (.ballot o) m true o.d (fun _ => x) s.path.flags) ∧
    s.Computes (.redux op t o) t o (fun _ => combine ps) ∧
    s.Computes (.scan op excl t o) t o (fun l => combine (ps.filter fun k => if excl then decide (k < l) else decide (k ≤ l))) ∧
    (s.runs (.matchL t o) = true → ∃ lead : Nat → Nat,
      (∀ l ∈ ps, lead l ∈ ps ∧ s.bits t (lead l) o.a = s.bits t l o.a ∧
        ∀ k ∈ ps, s.bits t k o.a = s.bits t l o.a → lead l ≤ k) ∧
      s.Gives (.matchL t o) m false o.d (fun l => BitVec.ofNat 64 (lead l)) s.path.flags) ∧
    s.Computes (.rdlane t o) t o (fun l => s.src t (ctl l % s.wave.width) o.a) ∧
    (s.runs (.wrlane t o) = true →
      let k := (s.uni o.b).toNat % 2 ^ 32 % s.wave.width
      s.Gives (.wrlane t o) (if hasLane m k then (1 : W64) <<< k else 0) t.wide o.d
        (fun _ => typedResult t o.d (a (lowLane m))) s.path.flags)

/-- R137 to R142: the scalar float forms of OP 0x20 and 0x21: the result and the flags of each lane are those of the
operation on the operands of the lane, in every format and rounding mode. -/
def Obligations.FloatArithmetic : Prop :=
  ∀ (s : State) (rm : Rm) (f : FTy) (prop sig : Bool) (cc : FCc) (o : Args),
    let a := fun l => s.fsrc f l o.a
    let b := fun l => s.fsrc f l o.b
    let c := fun l => s.fsrc f l o.c
    s.Floats (.fadd rm f o) o (fun l => faddOf f rm (a l) (b l)) ∧
    s.Floats (.fsub rm f o) o (fun l => faddOf f rm (a l) (b l ^^^ fSign f)) ∧
    s.Floats (.fmul rm f o) o (fun l => fmulOf f rm (a l) (b l)) ∧
    s.Floats (.ffma rm f o) o (fun l => ffmaOf f rm (a l) (b l) (c l)) ∧
    s.Floats (.fmin prop f o) o (fun l => fminmax f false prop (a l) (b l)) ∧
    s.Floats (.fmax prop f o) o (fun l => fminmax f true prop (a l) (b l)) ∧
    s.Floats (.fcmp cc sig f o) o (fun l => (if (fcmpOf f cc sig (a l) (b l)).1 then 1 else 0, (fcmpOf f cc sig (a l) (b l)).2)) ∧
    s.Floats (.fclass f o) o (fun l => (fclassOf f (a l), 0)) ∧
    s.Floats (.fscale rm f o) o (fun l => fscaleOf f rm (a l) (s.src .i32 l o.b)) ∧
    s.Floats (.frnd rm f o) o (fun l => frndOf f rm (a l)) ∧
    s.Floats (.frcp rm f o) o (fun l => frcpOf f rm (a l)) ∧
    s.Floats (.frsq rm f o) o (fun l => frsqOf f rm (a l)) ∧
    s.Floats (.fsqrt rm f o) o (fun l => fsqrtOf f rm (a l)) ∧
    s.Floats (.fdiv rm f o) o (fun l => fdivOf f rm (a l) (b l)) ∧
    s.Floats (.fexp2 f o) o (fun l => fexp2Of f (a l)) ∧
    s.Floats (.flog2 f o) o (fun l => flog2Of f (a l)) ∧
    s.Floats (.fsin f o) o (fun l => ftrigOf 0 f (a l)) ∧
    s.Floats (.fcos f o) o (fun l => ftrigOf 1 f (a l)) ∧
    s.Floats (.ftanh f o) o (fun l => ftanhOf f (a l))

/-- R143 to R145, log 14, log 124: the packed forms act on both halves as the scalar forms act, with the flags ORed; conversions and dot
products. Two clauses rest on the model's choices: that `dot4` without `.sat` leaves the low 32 bits of its sum in an s register
zero-extended (log 14), and that a constant code or an immediate at A or B of `dot2` supplies both elements of the pair (log 124; R136
says so of the packed forms, and R145 does not say it of `dot2`). -/
def Obligations.PackedAndConversions : Prop :=
  ∀ (s : State) (rm : Rm) (f sf : FTy) (ty : ITy) (prop au bu sat : Bool) (o : Args),
    let lo := fun l (x : Opnd) => s.psrc f l x % 65536
    let hi := fun l (x : Opnd) => s.psrc f l x / 65536
    let both := fun (g : Nat → Nat → Nat × Nat) l =>
      let p := g (lo l o.a) (lo l o.b)
      let q := g (hi l o.a) (hi l o.b)
      (p.1 + q.1 * 65536, p.2 ||| q.2)
    let el := fun (u : Bool) (x k : Nat) => if u then ((x / 256 ^ k % 256 : Nat) : Int) else (BitVec.ofNat 8 (x / 256 ^ k)).toInt
    let dot := fun l => s.src .i32 l o.c + ((List.range 4).map fun k => el au (s.bits .n32 l o.a) k * el bu (s.bits .n32 l o.b) k).sum
    s.Floats (.hadd2 rm f o) o (both (faddOf f rm)) ∧ s.Floats (.hmul2 rm f o) o (both (fmulOf f rm)) ∧
    s.Floats (.hmin2 prop f o) o (both (fminmax f false prop)) ∧ s.Floats (.hmax2 prop f o) o (both (fminmax f true prop)) ∧
    s.Floats (.hfma2 rm f o) o (fun l =>
      let p := ffmaOf f rm (lo l o.a) (lo l o.b) (lo l o.c)
      let q := ffmaOf f rm (hi l o.a) (hi l o.b) (hi l o.c)
      (p.1 + q.1 * 65536, p.2 ||| q.2)) ∧
    s.Floats (.cvt rm sf f o) o (fun l => cvtOf sf f rm (s.fsrc sf l o.a)) ∧
    s.Floats (.cvtif rm ty f o) o (fun l => ofIntOf f rm (s.src ty l o.a)) ∧
    s.Floats (.dot2 rm f o) o (fun l => dot2Of f rm (s.psrc f l o.a) (s.psrc f l o.b) (s.fsrc .f32 l o.c)) ∧
    s.Computes (.dot4 au bu sat o) (if sat then .i32 else .n32) o (fun l => if sat then max (-(2 ^ 31)) (min (dot l) (2 ^ 31 - 1)) else dot l) ∧
    (s.runs (.cvtfi rm ty f o) = true →
      let m := execLanes o.h (s.guard o.h)
      let r := fun l => toIntOf f rm ty (s.fsrc f l o.a)
      s.Gives (.cvtfi rm ty f o) m ty.wide o.d (fun l => typedResult ty o.d (r l).1)
        (s.path.flags ||| BitVec.ofNat 32 (((lanesOf m).map fun l => (r l).2).foldl (· ||| ·) 0)))

/-- R94, R139: an arithmetic form with a NaN operand gives the canonical NaN, and raises NV when one of them is signalling;
opposite infinities that are added give the canonical NaN and NV; zero times infinity does too. -/
def Obligations.NanResults : Prop :=
  ∀ (f : FTy) (rm : Rm) (x y : Nat),
    let nan := fun v => (Fp.of f v).isNan
    let sig := fun vs : List Nat => vs.any fun v => (Fp.of f v).isSig
    ((nan x || nan y) = true → faddOf f rm x y = (fNan f, if sig [x, y] then 16 else 0) ∧
      fmulOf f rm x y = (fNan f, if sig [x, y] then 16 else 0) ∧ fdivOf f rm x y = (fNan f, if sig [x, y] then 16 else 0)) ∧
    (nan x = true → fsqrtOf f rm x = (fNan f, if sig [x] then 16 else 0) ∧ frcpOf f rm x = (fNan f, if sig [x] then 16 else 0)) ∧
    ((Fp.of f x = .inf false ∧ Fp.of f y = .inf true) → faddOf f rm x y = (fNan f, 16)) ∧
    (((Fp.of f x).isZero = true ∧ (Fp.of f y).isInf = true) → fmulOf f rm x y = (fNan f, 16))

/-- R132, R133, R105: FMT and FLAGS are read and written: `setfmt` with a value FMT takes, `getfmt`, `rdflags`, and `clrflags`
with a mask or without. -/
def Obligations.FormatAndFlags : Prop :=
  ∀ (s : State) (o : Args),
    let acts := s.guard o.h ≠ 0
    let x := (s.uni o.a).setWidth 32
    let clear : W32 := if o.a = .absent then BitVec.allOnes 32 else x &&& 0x7F
    (s.runs (.setfmt o) = true → fmtBad x = false →
      s.Moves (.setfmt o) { s.path with fmt := if acts then x else s.path.fmt, pc := nextPc s.path.pc }) ∧
    (s.runs (.getfmt o) = true → s.Gives (.getfmt o) (s.guard o.h) false o.d (fun _ => s.path.fmt.setWidth 64) s.path.flags) ∧
    (s.runs (.rdflags o) = true → s.Gives (.rdflags o) (s.guard o.h) false o.d (fun _ => s.path.flags.setWidth 64) s.path.flags) ∧
    (s.runs (.clrflags o) = true →
      s.Moves (.clrflags o) { s.path with flags := if acts then s.path.flags &&& ~~~clear else s.path.flags, pc := nextPc s.path.pc })

/-- R147, R148: the block forms: `jbexp` gives each lane the exponent of its sixteen elements; `jbpack` and `jbunpack` write
their ranges of v registers in the lanes that act, and leave every other register alone. -/
def Obligations.BlockForms : Prop :=
  ∀ (s : State) (o : Args),
    let elems := fun l => (List.range 16).map fun e => (s.wave.vGet l (Opnd.vIndex o.a + e)).toNat
    let vs := fun l => (elems l).map (Fp.of .f32)
    let jbf := s.path.fmt.toNat % 4
    let block := fun l => ((List.range (jbSpan s.path.fmt)).map fun k => (s.wave.vGet l (Opnd.vIndex o.a + k)).toNat * 2 ^ (32 * k)).sum
    let pack := fun l => jbEncode jbf (fmtRm s.path.fmt) (elems l)
    let ranges := fun (i : Instr) (n : Nat) (val : Nat → Nat → Nat) (fl : Nat → Nat) => s.runs i = true →
      ∃ u, exec i s = .next u ∧ u.path.pc = nextPc s.path.pc ∧ u.wave.s = s.wave.s ∧ u.wave.q = s.wave.q ∧
        (∀ l k, l < 64 → k < 256 → u.wave.vGet l k =
          if hasLane (s.guard o.h) l = true ∧ Opnd.vIndex o.d ≤ k ∧ k < Opnd.vIndex o.d + n then
            BitVec.ofNat 32 (val l (k - Opnd.vIndex o.d)) else s.wave.vGet l k) ∧
        s.OnlyRegs u (s.path.flags ||| BitVec.ofNat 32 (((lanesOf (s.guard o.h)).map fl).foldl (· ||| ·) 0))
    s.Floats (.jbexp o) o (fun l => (if (vs l).any Fp.isNan then 255 else jbExpOf (vs l), 0)) ∧
    (jbf ≠ 3 → ranges (.jbpack o) (jbSpan s.path.fmt) (fun l k => bitsOf (pack l).1 (32 * k) 32) (fun l => (pack l).2)) ∧
    (jbf ≠ 3 → ranges (.jbunpack o) 16 (fun l k => jbElem (jbM jbf) (block l) k) (fun l => if jbX (block l) = 255 then 64 else 0))

/-- R269, R276, R390: the forms that only move on or answer from the path: `nop`, `yield`, `pathq` and `fbk`. CYCLES has
counted the cycle in which `yield` issues already; the sixteen that follow pass before its path is ready. -/
def Obligations.SequentialForms : Prop :=
  ∀ (s : State) (o : Args) (k : BitVec 2) (off : BitVec 24),
    let acts := s.guard o.h ≠ 0
    let next := nextPc s.path.pc
    let answer : W64 := match k.toNat with
      | 0 => fullMask s.wave.width &&& ~~~s.wave.exited
      | 1 => BitVec.ofNat 64 s.path.stack.length
      | 2 => BitVec.ofNat 64 s.wavePaths.length
      | _ => match s.path.stack with | e :: _ => e.pc | [] => 0
    (s.runs (.nop o) = true → s.Moves (.nop o) { s.path with pc := next }) ∧
    (s.runs (.yieldI o) = true →
      s.Moves (.yieldI o) { s.path with pc := next, hold := if acts then s.core.cycles.toNat + 16 else s.path.hold }) ∧
    (s.runs (.pathq k o) = true → s.Gives (.pathq k o) (s.guard o.h) false o.d (fun _ => answer) s.path.flags) ∧
    (s.runs (.fbk off o) = true → acts → s.path.inRegion = false → s.block.preempt = none →
      ∃ u, exec (.fbk off o) s = .next u ∧ s.OnlyPath u { s.path with pc := next } ∧
        u.path.fb = some { pc := s.path.pc, recipe := branchPc s.path.pc off,
                           vN := (match o.d with | .v n => some n | _ => none),
                           sM := (match o.a with | .s n => some n | _ => none),
                           fmt := s.path.fmt, depth := s.path.stack.length })

/-- R264, R271, R272: `bra`, `jmp`, `call`, `callx` and `ret` when all lanes of the path go the same way: the path moves to
the legal target, a call pushes a CALL entry with the next PC, a return pops one; when no lane's guard holds, the path goes on
in sequence. Registers and memory are as before. The entries that a call and a return move stand on core (R265); a call that finds
no room on core or in the spill region takes CALL_DEPTH. -/
def Obligations.UniformTransfers : Prop :=
  ∀ (s : State) (o : Args) (off : BitVec 24) (target : W64),
    let all := s.guard o.h = s.path.mask ∧ s.path.mask ≠ 0
    let none' := s.guard o.h = 0 ∧ s.path.mask ≠ 0
    let next := nextPc s.path.pc
    let entry : RecEntry := { call := true, mask := s.path.mask, pc := next, etag := 0, fmts := s.path.fmt.setWidth 4 }
    let reads := ∀ l, hasLane s.path.mask l = true → s.rd true l o.a = target
    (s.runs (.bra off o) = true → all → legalPc (branchPc s.path.pc off) = true →
      s.Moves (.bra off o) { s.path with pc := branchPc s.path.pc off }) ∧
    (s.runs (.jmp o) = true → all → reads → legalPc target = true → s.Moves (.jmp o) { s.path with pc := target }) ∧
    (s.runs (.callI off o) = true → all → onCore s.path.stack < 16 → legalPc (branchPc s.path.pc off) = true →
      s.Moves (.callI off o) { s.path with pc := branchPc s.path.pc off, stack := entry :: s.path.stack }) ∧
    (s.runs (.callx o) = true → all → onCore s.path.stack < 16 → reads → legalPc target = true →
      s.Moves (.callx o) { s.path with pc := target, stack := entry :: s.path.stack }) ∧
    (s.runs (.callI off o) = true → all → s.pushRoom = false → legalPc (branchPc s.path.pc off) = true →
      exec (.callI off o) s = .next ((s.begin (.callI off o)).trap .callDepth 0)) ∧
    (∀ (e : RecEntry) (rest : List RecEntry), s.runs (.ret o) = true → all → s.path.stack = e :: rest → e.call = true →
      rest.head?.bind (·.slot) = none → legalPc e.pc = true →
      s.Moves (.ret o) { s.path with pc := e.pc, stack := rest, hdepth := if rest.length < s.path.hdepth then 0 else s.path.hdepth }) ∧
    (∀ i, (i = .bra off o ∨ i = .jmp o ∨ i = .callI off o ∨ i = .callx o ∨ i = .ret o) → s.runs i = true → none' →
      s.Moves i { s.path with pc := next })

/-- R263, R271: a branch that only some lanes of a wave's one path take divides the path: each lane is afterwards in a path
that stands at the lane's own next PC, and the lowest lane's part keeps the PATHID. -/
def Obligations.BranchDivides : Prop :=
  ∀ (s : State) (o : Args) (off : BitVec 24), s.runs (.bra off o) = true → s.wave.paths = [] → s.path.mask ≠ 0 →
    legalPc (branchPc s.path.pc off) = true →
    let goes := fun l => if hasLane (s.guard o.h) l then branchPc s.path.pc off else nextPc s.path.pc
    ∃ u, exec (.bra off o) s = .next u ∧
      ∀ l, hasLane s.path.mask l = true → ∃ p ∈ u.wavePaths, hasLane p.mask l = true ∧ p.pc = goes l ∧
        (goes l = goes (lowLane s.path.mask) → p.pid = s.path.pid)

/-- R264, R274: `recon` pushes a RECON entry for the whole path under an ETAG that no join record of the wave uses, with a
join record of its lanes, where the stack has room on core. -/
def Obligations.ReconPushes : Prop :=
  ∀ (s : State) (o : Args) (off : BitVec 24), s.runs (.recon off o) = true → s.guard o.h ≠ 0 → onCore s.path.stack < 16 →
    s.wave.joins.length < 65536 →
    ∃ u tag, exec (.recon off o) s = .next u ∧ (∀ r ∈ s.wave.joins, r.etag ≠ tag) ∧ u.path.pc = nextPc s.path.pc ∧
      u.path.stack = { call := false, mask := s.path.mask, pc := branchPc s.path.pc off, etag := tag, fmts := s.path.fmt.setWidth 4 }
        :: s.path.stack ∧
      u.wave.joins = { etag := tag, mask := s.path.mask, arrived := 0, expired := false } :: s.wave.joins ∧
      u.wave.v = s.wave.v ∧ u.wave.s = s.wave.s ∧ u.wave.q = s.wave.q ∧ u.dom = s.dom ∧ u.block = s.block

/-- R266, R275: at `join` a path whose arrival completes the join goes on alone, or merged with the path that waits there, neither halted
by a debugger: the lanes of both, the entry popped, FMT as the entry saved it. `wsync` by the wave's one path, whose lanes are all that it names: D becomes true in
them and the path goes on. -/
def Obligations.JoinMerges : Prop :=
  (∀ (s : State) (o : Args) (e : RecEntry) (rest : List RecEntry) (r : JoinRec), s.runs (.joinI o) = true →
     s.path.stack = e :: rest → rest.head?.bind (·.slot) = none → e.call = false → e.pc = s.path.pc → s.path.status = .running →
     s.path.halted = false → s.wave.joins = [r] → r.etag = e.etag → r.expired = false → covers (r.arrived ||| s.path.mask ||| s.wave.exited) r.mask = true →
     s.path.mask ≠ 0 →
     (s.wave.paths = [] → ∃ u, exec (.joinI o) s = .next u ∧ u.path.pc = nextPc s.path.pc ∧ u.path.mask = s.path.mask ∧
       u.path.stack = rest ∧ u.path.fmt = e.fmts.setWidth 32 ∧ u.path.flags = s.path.flags ∧ u.path.status = .running ∧
       u.wave.v = s.wave.v ∧ u.wave.s = s.wave.s ∧ u.wave.q = s.wave.q ∧ u.dom = s.dom) ∧
     (∀ q, s.wave.paths = [q] → s.path.pid < q.pid → q.status = .waiting (.join e.etag) → q.halted = false →
       ∃ u, exec (.joinI o) s = .next u ∧ u.path.pc = nextPc s.path.pc ∧ u.path.mask = s.path.mask ||| q.mask ∧
         u.path.pid = s.path.pid ∧ u.path.stack = rest ∧ u.path.fmt = e.fmts.setWidth 32 ∧
         u.path.flags = s.path.flags ||| q.flags ∧ u.path.status = .running ∧ u.wave.paths = [] ∧
         u.wave.v = s.wave.v ∧ u.wave.s = s.wave.s ∧ u.wave.q = s.wave.q)) ∧
  ∀ (s : State) (o : Args), s.runs (.wsync o) = true → s.wave.paths = [] → s.path.mask ≠ 0 → s.path.status = .running →
    (let named := match o.a with | .s n => s.sVal n.toNat &&& fullMask s.wave.width | _ => fullMask s.wave.width
     covers (s.path.mask ||| s.wave.exited) named = true ∧ covers named s.path.mask = true) →
    ∃ u, exec (.wsync o) s = .next u ∧ u.path.pc = nextPc s.path.pc ∧ u.path.status = .running ∧
      s.issuing.Wrote u s.path.mask false o.d (fun _ => 1) ∧ u.dom = s.dom ∧ u.block = s.block

/-- R273: `brx` of a path that no entry of the Locket binds: the targets are read from the table in memory, one for each lane; when all lanes are in range and read one legal
target, the path goes there; `.rj` has pushed a RECON entry first. -/
def Obligations.BrxTakesTable : Prop :=
  ∀ (s : State) (o : Args) (rj : Bool) (off : BitVec 24) (n target : W64) (s1 s2 : State) (ts : List (Nat × W64)),
    s.runs (.brx rj off o) = true → s.hasOlder = false → s.wave.paths = [] → s.path.mask ≠ 0 → s.guard o.h = s.path.mask →
    let b := s.begin (.brx rj off o)
    let table := s.uni o.a
    let index := fun l => (s.rd false l o.b).toNat % 2 ^ 32
    let lanes := lanesOf s.path.mask
    b.vaHeld table = false → (∀ l ∈ lanes, b.vaHeld (table + 8 + BitVec.ofNat 64 (8 * index l)) = false) →
    b.tableRead table = (s1, .ok n) → n ≠ 0 → n.toNat ≤ 4096 → (∀ l ∈ lanes, index l < n.toNat) →
    (rj = true → s1.pushRoom = true) →
    (if rj then s1.pushRecon (branchPc s.path.pc off) else s1).brxReads table (lanes.map fun l => (l, index l)) = (s2, ts, []) →
    (∀ t ∈ ts, t.2 = target) → legalPc target = true →
    ∃ u, exec (.brx rj off o) s = .next u ∧ u.path.pc = target ∧ u.path.mask = s.path.mask ∧ u.path.status = .running ∧
      u.path.stack = s2.path.stack ∧ u.wave = s2.wave ∧ u.dom = s2.dom

/-- R83, R384, R387, R388: a trap with a recoverable cause, at user level, outside a region, with a trap entry and no handler
running: TRAPCAUSE, TRAPPC, TRAPMASK, TRAPADDR and TRAPINFO hold what happened, the windows and the flashback point are gone, and the
path enters the user handler, where a CALL entry holds the way back and the path stands at TRAPENTRY at the same level; while bounced
instructions of its windows have not completed it waits for them, and enters the handler at the end of that wait. -/
def Obligations.UserTrapEntry : Prop :=
  ∀ (s : State) (c : Cause) (info : W64) (l : Launch), c.recoverable = true → s.path.inRegion = false → s.path.priv = false →
    s.launch = some l → l.trapentry ≠ 0 → s.path.hdepth = 0 → onCore s.path.stack < 16 → s.dom.trace = none →
    let back := if c = .trapInsn then nextPc s.path.pc else s.path.pc
    let entry : RecEntry := { call := true, mask := s.path.mask, pc := back, etag := 0, fmts := s.path.fmt.setWidth 4 }
    let u := s.trap c info
    u.path.trapcause = BitVec.ofNat 32 c.code ∧ u.path.trappc = back ∧ u.path.trapmask = s.path.mask ∧
    (∀ k, hasLane s.path.mask k = true → k < 64 → mget u.wave.trapaddr k = 0 ∧ mget u.wave.trapinfo k = info) ∧
    u.path.windows = [] ∧ u.path.fb = none ∧ u.path.priv = false ∧
    u.wave.v = s.wave.v ∧ u.wave.s = s.wave.s ∧ u.wave.q = s.wave.q ∧ u.dom = s.dom ∧
    (s.windowTags = [] → u.path.stack = entry :: s.path.stack ∧ u.path.hdepth = s.path.stack.length + 1 ∧ u.path.pc = l.trapentry ∧
      u.path.status = .running) ∧
    (s.windowTags ≠ [] → u.path.stack = s.path.stack ∧ u.path.hdepth = 0 ∧ u.path.pc = s.path.pc ∧
      u.path.status = .waiting (.windows s.windowTags)) ∧
    ∀ (t : State) tags, t.path.status = .waiting (.windows tags) → t.launch = some l → t.path.trapcause = BitVec.ofNat 32 c.code →
      t.path.hdepth = 0 → onCore t.path.stack < 16 →
      let w := t.endWait
      w.path.stack = { call := true, mask := t.path.trapmask, pc := t.path.trappc, etag := 0, fmts := t.path.fmt.setWidth 4 } :: t.path.stack ∧
        w.path.hdepth = t.path.stack.length + 1 ∧ w.path.pc = l.trapentry ∧ w.path.priv = t.path.priv ∧ w.path.windows = [] ∧
        w.path.status = .running ∧ w.wave = t.wave ∧ w.dom = t.dom

/-- R389, R346: supervisor entry of a path while no other path of its wave stands at PRIV 1 or waits to enter: the wave's s124 to s127 are
stored in its save area, s127 holds the address of that area, PRIV is 1 and the path stands at SUPENTRY. While a lock of the serial lane
holds the sector of that area the path waits to enter, and nothing is stored. -/
def Obligations.SupervisorEntry : Prop :=
  ∀ (s s1 : State) (t : Target), (∀ p ∈ s.wave.paths, p.priv = false ∧ p.status ≠ .waiting .superv) →
    let area := s.dom.supsave + BitVec.ofNat 64 (32 * (128 * s.core.ix + s.wave.ctx))
    let who : Who := { core := s.core.ix, tenant := s.tenant, user := false, unit := s.pathUnit, serial := false }
    let bits := (s.wave.sGet 124).toNat + (s.wave.sGet 125).toNat * 2 ^ 64 + (s.wave.sGet 126).toNat * 2 ^ 128
      + (s.wave.sGet 127).toNat * 2 ^ 192
    s.check who area { n := 32, write := true, atomic := false, tags := true, sc := none } = (s1, .ok t) →
    let u := s.enterSupervisor
    let w := s1.doWrite who t .normal 32 bits .plain
    (s.lockedFor who t true = false →
      u.path.priv = true ∧ u.path.pc = w.dom.supentry ∧ u.path.windows = [] ∧ u.path.status = .running ∧ u.dom = w.dom ∧
      u.wave.sGet 127 = area ∧ ∀ n, n ≠ 127 → u.wave.sGet n = w.wave.sGet n) ∧
    (s.lockedFor who t true = true →
      u.path.status = .waiting .superv ∧ u.path.priv = s.path.priv ∧ u.path.pc = s.path.pc ∧ u.dom = s.dom ∧ u.wave = s.wave)

/-- R384 to R389, R394, R396: `trap` and `bkpt` of all lanes outside a region: `trap` takes the user handler with cause 0x38, the next
PC and the operand in TRAPINFO; `bkpt` halts the path where the domain's debug bit is set, and else enters the supervisor with
cause 0x39 and its own PC. While bounced instructions of the path's windows have not completed, the path with its trap registers
written waits for them first (R387). -/
def Obligations.TrapInstructions : Prop :=
  ∀ (s : State) (o : Args) (l : Launch), s.guard o.h = s.path.mask → s.path.mask ≠ 0 → s.path.inRegion = false →
    s.path.priv = false → s.dom.trace = none →
    (s.runs (.trapI o) = true → s.launch = some l → l.trapentry ≠ 0 → s.path.hdepth = 0 → onCore s.path.stack < 16 →
      ∃ u, exec (.trapI o) s = .next u ∧ u.path.trapcause = 0x38 ∧ u.path.trappc = nextPc s.path.pc ∧
        (∀ k, hasLane s.path.mask k = true → k < 64 → mget u.wave.trapinfo k = s.uni o.a) ∧
        (s.windowTags = [] → u.path.pc = l.trapentry ∧ u.path.status = .running) ∧
        (s.windowTags ≠ [] → u.path.pc = s.path.pc ∧ u.path.status = .waiting (.windows s.windowTags))) ∧
    (s.runs (.bkpt o) = true → s.dom.dbg = true →
      ∃ u, exec (.bkpt o) s = .next u ∧ u.path.halted = true ∧ u.path.pc = s.path.pc ∧ u.path.trapcause = 0x39) ∧
    (s.runs (.bkpt o) = true → s.dom.dbg = false → ∃ v : State, v.path.trapcause = 0x39 ∧ v.path.trappc = s.path.pc ∧ v.dom = s.dom ∧
      v.path.priv = false ∧ v.path.windows = [] ∧ (s.windowTags = [] → exec (.bkpt o) s = .next v.enterSupervisor) ∧
      (s.windowTags ≠ [] → exec (.bkpt o) s = .next v ∧ v.path.pc = s.path.pc ∧ v.path.status = .waiting (.windows s.windowTags)))

/-- R267, R270: `exit` by lanes that are not the last of their wave: they leave the path and the wave for good; what is left of
the path goes on, and a path of which nothing is left no longer exists. -/
def Obligations.ExitLeaves : Prop :=
  ∀ (s : State) (o : Args), s.runs (.exitI o) = true →
    let m := s.guard o.h
    m ≠ 0 → s.path.inRegion = false → s.path.posted = [] → s.postedTags = [] → s.dom.trace = none → s.wave.live &&& ~~~m ≠ 0 → s.block.task = false →
    s.block.gangs = 0 →
    ∃ u, exec (.exitI o) s = .next u ∧ u.wave.exited = s.wave.exited ||| m ∧ u.path.mask = s.path.mask &&& ~~~m ∧
      (s.path.mask &&& ~~~m ≠ 0 → u.path.pc = nextPc s.path.pc) ∧ u.path.fb = none ∧
      u.wave.v = s.wave.v ∧ u.wave.s = s.wave.s ∧ u.wave.q = s.wave.q ∧ u.dom = s.dom

/-- R108, R396: `srd` gives D the special register, and `swr` where it may write gives the register the value, reduced to its
width; every other special register, every v, s and q register and memory are as before. -/
def Obligations.SpecialRegisters : Prop :=
  ∀ (s : State) (o : Args),
    (s.runs (.srd o) = true → s.Gives (.srd o) (s.guard o.h) false o.d (fun l => s.rd false l o.a) s.path.flags) ∧
    (∀ r, s.runs (.swr o) = true → o.d = .sr r → s.guard o.h ≠ 0 →
      s.swrFault r (s.rd false (lowLane (s.guard o.h)) o.a) = none →
      let whole := fun x : W64 => match r with
        | .fmt | .flags | .trapcause | .bncinj => (x.setWidth 32).setWidth 64
        | _ => x
      ∃ u, exec (.swr o) s = .next u ∧ u.path.pc = nextPc s.path.pc ∧
        (∀ l, hasLane (s.guard o.h) l = true → l < 64 →
          u.special l r = whole (s.rd false (if r = .trapaddr ∨ r = .trapinfo then l else lowLane (s.guard o.h)) o.a)) ∧
        (∀ l r', r' ≠ r → u.special l r' = s.special l r') ∧
        u.wave.v = s.wave.v ∧ u.wave.s = s.wave.s ∧ u.wave.q = s.wave.q ∧ u.dom = s.dom ∧ u.block = s.block)

/-- R88, R349, R389, R396: at PRIV 0 the privileged forms, `rte` and the `tlbi` forms, take the trap PRIV in place of their effect, and
abort with FAULT in a speculative region; a `swr` to a register that only a supervisor may write takes the trap. -/
def Obligations.PrivilegeFaults : Prop :=
  ∀ (s : State) (o : Args) (sz : PgSz), s.kind = .path → s.path.priv = false →
    (∀ i, (i = .rte o ∨ i = .tlbiPage sz o ∨ i = .tlbiTenant o ∨ i = .tlbiAll o) → 
      exec i s = .next (if s.path.speculative then s.abort .fault 3 else s.trap .priv 0)) ∧
    (∀ r, (r = .token ∨ r = .trapcause ∨ r = .trappc ∨ r = .trapmask ∨ r = .trapaddr ∨ r = .trapinfo) → o.d = .sr r →
      o.h.u = true → s.runs (.swr o) = true → s.guard o.h = s.path.mask → s.path.mask ≠ 0 →
      exec (.swr o) s = .next ((s.begin (.swr o)).trap .priv 0))

/-- R396, R111, R346: `rte` at PRIV 1 with a legal TRAPPC and a readable save area, whose sector no lock holds: s124 to s127 take the words of
the area, PRIV is 0 and the path goes on at TRAPPC; a register that the wave's uniform issue of the same cycle has written keeps that value. -/
def Obligations.ReturnFromTrap : Prop :=
  ∀ (s s1 s2 : State) (o : Args) (t : Target) (x : Nat), s.runs (.rte o) = true → s.guard o.h ≠ 0 → legalPc s.path.trappc = true →
    let b := s.begin (.rte o)
    let who : Who := { core := s.core.ix, tenant := s.tenant, user := false, unit := s.pathUnit, serial := false }
    b.check who (s.sVal 127) { n := 32, write := false, atomic := false, tags := true, sc := none } = (s1, .ok t) →
    b.lockedFor who t false = false → s1.doRead who t .normal 32 = (s2, x) →
    ∃ u, exec (.rte o) s = .next u ∧ u.path.priv = false ∧ u.path.pc = s2.path.trappc ∧ u.path.status = .running ∧
      (∀ n, n < 4 → u.wave.sGet (124 + n) =
        if 124 + n ∈ s.path.under then s2.wave.sGet (124 + n) else BitVec.ofNat 64 (x / 2 ^ (64 * n))) ∧
      (∀ n, n < 124 → u.wave.sGet n = s2.wave.sGet n) ∧ u.wave.v = s2.wave.v ∧ u.dom = s2.dom

/-- R288, R396, log 60: a `tlbi` at PRIV 1, outside a region, by a path without posted operations, issues the invalidation of its range
and waits for it. That the tenant it names is the domain's when the domain has a root table of it is the model's choice (log 60). -/
def Obligations.InvalidationIssue : Prop :=
  ∀ (s : State) (o : Args) (sz : PgSz) (i : Instr) (r : InvalRange), s.runs i = true → s.guard o.h ≠ 0 → s.path.inRegion = false →
    s.path.posted = [] → s.postedTags = [] → s.path.status = .running →
    let tenant := (s.uni o.b).setWidth 8
    (i = .tlbiPage sz o ∧ r = .page tenant (s.uni o.a) sz ∨ i = .tlbiTenant o ∧ r = .tenant tenant ∨ i = .tlbiAll o ∧ r = .all) →
    let rel := (s.begin i).releaseL1 s.core.ix
    (i = .tlbiAll o ∨ ∃ x ∈ rel.dom.ptroot, x.1 = tenant) →
    ∃ u, exec i s = .next u ∧ u.path.status = .waiting (.inval rel.dom.nextInval) ∧ u.path.pc = rel.path.pc ∧
      u.dom.invals = rel.dom.invals ++ [{ num := rel.dom.nextInval, r := r, cmd := none }] ∧ u.dom.mem = rel.dom.mem

/-- R174 to R183, R200, R223, R416: the forms of OP 0x30 to 0x33 on global memory and AB, `psig` and `signal`, when nothing stands
between the path and memory and every lane's request performs: the lanes act one after another in ascending order, D takes their
values where the form returns one, and the path goes on; the lanes of an atomic take their sequence numbers. An ordered form acts on the caches at its scope; on AB at
cluster scope when a lane goes through the window, and else within the block. -/
def Obligations.RequestsPerform : Prop :=
  ∀ (s s1 : State) (i : Instr) (o : Args) (k : RKind) (hint : Hint) (ord : Sys2Proof.Ord) (sc : Scope) (sz : Size) (x : Idx)
    (xs : List (LaneReq × LaneRes)),
    ((k = .load ∧ i = .ld hint ord sc sz x o) ∨ (k = .store ∧ i = .st hint ord sc sz x o) ∨
      (∃ op, k = .atom op ∧ i = .atom op hint ord sc sz x o) ∨ (k = .cas ∧ i = .cas hint ord sc sz x o) ∨
      (∃ op, k = .red op ∧ i = .red op hint ord sc sz x o) ∨
      (k = .psig false ∧ i = .psigSet sc x o ∧ hint = .normal ∧ ord = .rel ∧ sz = .n64) ∨
      (k = .psig true ∧ i = .psigAdd sc x o ∧ hint = .normal ∧ ord = .rel ∧ sz = .n64) ∨
      (∃ op, k = .signal op ∧ i = .signal op sc sz x o ∧ hint = .normal ∧ ord = .rel) ∨
      (k = .load ∧ i = .lds sz x o ∧ hint = .normal ∧ ord = .plain ∧ sc = .ab) ∨
      (k = .store ∧ i = .sts sz x o ∧ hint = .normal ∧ ord = .plain ∧ sc = .ab)) →
    s.runs i = true → s.clear = true → s.guard o.h ≠ 0 →
    let b := s.begin i
    let q := b.mkReq k sz ord sc hint x o (execLanes o.h (s.guard o.h))
    b.locketFor q.sectors = true →
    let a : State × Req := if k.atomic then
        ({ b with wave := { b.wave with seq := (lanesOf (execLanes o.h (s.guard o.h))).foldl (fun m l => mset m l (mget m l + 1)) b.wave.seq } },
         { q with lanes := q.lanes.map fun r => { r with seq := mget s.wave.seq r.lane } })
      else (b, q)
    let reach := if sc = .ab then (if q.lanes.any fun r => decide (2 ^ 23 ≤ r.va.toNat) then Scope.cl else .blk) else sc
    let r1 := if ord.isRel then a.1.release b.core.ix reach else a.1
    let r2 := if ord.isAcq then r1.acquire b.core.ix reach else r1
    r2.reqLanes a.2 false true a.2.lanes = (s1, xs) → (∀ y ∈ xs, ∃ v, y.2 = .done v) →
    s.Leads i (if k.returns then s1.putLoads sz o.d (doneOf xs) else s1)

/-- R73, R111, R177: the registers that loaded values go to: a v register or an s register takes an element of 8 or 16 bits extended
by its signedness and one of 32 bits; a pair or an s register one of 64 bits; four v or two s registers one of 128 bits. An s register
that an instruction issued later has written already keeps that value. -/
def Obligations.LoadedRegisters : Prop :=
  ∀ (s : State) (sz : Size) (d : Opnd) (m : W64) (x : Nat → Nat),
    let u := s.putLoads sz d ((lanesOf m).map fun l => (l, x l))
    let val : Nat → W64 := fun l => match sz with
      | .i8 => (BitVec.ofNat 8 (x l)).signExtend 64
      | .i16 => (BitVec.ofNat 16 (x l)).signExtend 64
      | _ => BitVec.ofNat 64 (x l)
    (sz ≠ .b128 → ((∃ n, d = .v n ∧ (sz = .n64 → n.toNat % 2 = 0)) ∨ ∃ n : BitVec 7, d = .s n) →
      s.Wrote u m (sz == .n64) d val) ∧
    (sz = .b128 → ∀ n, d = .v n → n.toNat ≤ 252 → ∀ l k, l < 64 → k < 256 → u.wave.vGet l k =
      if hasLane m l = true ∧ n.toNat ≤ k ∧ k < n.toNat + 4 then BitVec.ofNat 32 (x l / 2 ^ (32 * (k - n.toNat))) else s.wave.vGet l k) ∧
    (sz = .b128 → ∀ n, d = .s n → ∀ k, u.wave.sGet k =
      if m ≠ 0 ∧ (k = n.toNat ∨ k = n.toNat + 1) ∧ k ∉ s.path.lost then BitVec.ofNat 64 (x (lowLane m) / 2 ^ (64 * (k - n.toNat)))
      else s.wave.sGet k) ∧
    (∀ k ∈ s.path.lost, u.wave.sGet k = s.wave.sGet k) ∧
    u = { s with wave := { s.wave with v := u.wave.v, s := u.wave.s, q := u.wave.q, paths := u.wave.paths } } ∧
    u.wave.paths.map Path.bare = s.wave.paths.map Path.bare

/-- R152, R163, R180 to R182, R203, R291, log 4, log 63, log 96: a lane's request to a page of the domain's uncached region that passes its checks: the value
that stands there is answered, the new value of the operation stands there afterwards, and every other byte of memory is as before
but for the byte of the dirty-page bitmap (stated while no L1 holds that byte's sector dirty, R163, and no lock holds it, R346), in which
every operation but a load sets the frame's bit, a `cas` that fails too; a write under a translation whose D is clear sets D first (R285). The model's choices: the bitmap's base is a physical address (log 63), a base of 0
is one that has not been set (log 4), and the second tier's frames follow those of the HBM (log 96). -/
def Obligations.UncachedAccess : Prop :=
  ∀ (s s1 : State) (q : Req) (r : LaneReq) (va : W64) (l : Leaf),
    s.check (s.reqWho q) r.va q.want = (s1, .ok (.loc va l)) → q.ab = false → l.reg = 3 → l.tier.toNat ≤ 1 →
    l.frame.toNat * 65536 % 2 ^ pageBits l.level = 0 →
    q.kind.isAgain = false → r.cut = false → s1.behind (Target.loc va l).sector true = false → s1.lockedFor (s1.reqWho q) (.loc va l) q.kind.writes = false →
    (q.kind.atomic = true → s1.appliedFind (.loc va l) (s1.ostag r.lane r.seq) = none ∧ s1.appliedFull (.loc va l) = false) →
    let s2 := if q.kind.writes then (s1.firstWrite (s1.reqWho q) (.loc va l)).1 else s1
    let key := l.key va
    let n := sizeBytes q.sz
    let w := 8 * n
    let old : BitVec w := BitVec.ofNat w (rdN s2.dom.mem key n)
    let x : BitVec w := r.val.setWidth w
    let new : BitVec w := match q.kind with
      | .load | .again _ _ => old
      | .store => x
      | .cas => if old = r.cmp.setWidth w then x else old
      | .psig add => if add then old + x else x
      | .signal .set => x
      | .signal .add => old + x
      | .signal .sub => old - x
      | .atom op | .red op => match op with
        | .add => old + x
        | .umin => if old ≤ x then old else x
        | .umax => if old ≤ x then x else old
        | .smin => if old.toInt ≤ x.toInt then old else x
        | .smax => if old.toInt ≤ x.toInt then x else old
        | .and => old &&& x
        | .or => old ||| x
        | .xor => old ^^^ x
        | .exch => x
        | .inc => if x ≤ old then 0 else old + 1
        | .dec => if old = 0 ∨ x < old then x else old - 1
        | .fadd => BitVec.ofNat w (faddOf .f32 .rne old.toNat x.toNat).1
    let base := (if s2.dom.dirtySel then s2.dom.dirtyBase1 else s2.dom.dirtyBase0).toNat
    let frame := l.frame.toNat + va.toNat % 2 ^ pageBits l.level / 65536 + (if l.tier = 1 then 1572864 else 0)
    (q.kind = .cas → old ≠ r.cmp.setWidth w → base ≠ 0 → base + frame / 8 < key ∨ key + n ≤ base + frame / 8) →
    (base ≠ 0 → s2.dom.lockedAt ((base + frame / 8) / 64) true = false ∧
      ∀ c ∈ s2.dom.l1, c.key = (base + frame / 8) / 64 → c.leaf.reg = 2 → c.dirty = false) →
    ∃ u, s.reqLane q r false true = (u, .done (if q.kind = .store then 0 else old.toNat)) ∧
      rdN u.dom.mem key n = new.toNat ∧
      (∀ a, (a < key ∨ key + n ≤ a) → mget u.dom.mem a =
        if q.kind ≠ .load ∧ base ≠ 0 ∧ a = base + frame / 8 then mget s2.dom.mem a ||| (1 : Byte) <<< (frame % 8) else mget s2.dom.mem a) ∧
      u.doms = s2.doms ∧ u.hostMem = s2.hostMem ∧ u.fabricMem = s2.fabricMem ∧ u.path = s2.path ∧ u.wave = s2.wave ∧ u.block = s2.block

/-- R160 to R163: whatever the region of a page, the hints and the tenant, a core that has written reads what it
wrote (stated while no dirty-page buffer is set, R291, which could stand in those bytes). -/
def Obligations.CoreReadsItsWrites : Prop :=
  ∀ (s : State) (who : Who) (va : W64) (l : Leaf) (h h' : Hint) (n val : Nat) (m : TokMark),
    (n = 1 ∨ n = 2 ∨ n = 4 ∨ n = 8 ∨ n = 16 ∨ n = 32) → va.toNat % n = 0 →
    s.dom.dirtyBase0 = 0 → s.dom.dirtyBase1 = 0 →
    ((s.doWrite who (.loc va l) h n val m).doRead who (.loc va l) h' n).2 = val % 256 ^ n

/-- R153, R155, R156, R158, R160, R407: `ldacc`, `stacc` and `ldc` whose lanes all pass their checks: a load gives D the bytes that stand in
the ACC run or in the constant; a store puts its bytes into the ACC run, lane after lane, and leaves every other byte of ACC. An access of a
lane to its block's own AB run performs when it is in range and aligned, and leaves every other byte of the core's AB; else the range is
checked before the alignment. A load of bytes that hold an uncorrectable error is UNCORRECTABLE. -/
def Obligations.BufferForms : Prop :=
  (∀ (s s1 : State) (sz : Size) (x : Idx) (o : Args) (xs : List (LaneReq × LaneRes)),
     let n := sizeBytes sz
     let lanes := lanesOf (execLanes o.h (s.guard o.h))
     let at' := fun l => (s.addr l x o.a o.b).toNat
     let run := s.block.base 2
     let inRun := ∀ l ∈ lanes, at' l + n ≤ s.block.size 2 ∧ at' l % n = 0
     let sound := ∀ l ∈ lanes, s.core.flawed 2 (run + at' l) n = false
     s.guard o.h ≠ 0 →
     (s.runs (.ldacc sz x o) = true → s.block.task = false → inRun → sound →
       s.Leads (.ldacc sz x o) (s.issuing.putLoads sz o.d (lanes.map fun l => (l, rdN s.core.acc (run + at' l) n)))) ∧
     (s.runs (.stacc sz x o) = true → s.block.task = false → inRun →
       let acc := lanes.foldl (fun m l => wrN m (run + at' l) n (s.data sz l o.c).toNat) s.core.acc
       let mended := lanes.foldl (fun (c : Core) l => c.mend 2 (run + at' l) n) s.core
       s.Leads (.stacc sz x o) { s with core := { mended with acc := acc } } ∧ (s.core.flaws = [] → mended = s.core) ∧
       ∀ a, (∀ l ∈ lanes, a < run + at' l ∨ run + at' l + n ≤ a) → mget acc a = mget s.core.acc a) ∧
     (let b := s.begin (.ldc sz x o)
      let q := b.mkReq .load sz .plain .wv .normal x o (execLanes o.h (s.guard o.h))
      s.runs (.ldc sz x o) = true → s.hasOlder = false → s.wave.bncinj = 0 → s.path.forced = 0 → (∀ r ∈ q.lanes, b.vaHeld r.va = false) →
       b.meetsPosted (q.lanes.map (·.va)) = false →
       laneSeq (fun s r => match s.constRead s.who r.va n with
         | (s, .error f) => (s, .fail f)
         | (s, .ok v) => (s, .done v)) b q.lanes = (s1, xs) → (∀ y ∈ xs, ∃ v, y.2 = .done v) →
       s.Leads (.ldc sz x o) (s1.putLoads sz o.d (doneOf xs)))) ∧
  ∀ (s : State) (q : Req) (r : LaneReq), q.ab = true → (q.kind = .load ∨ q.kind = .store) → s.wave.locket = [] →
    s.coreHere = true → r.va.toNat < 2 ^ 23 →
    let n := sizeBytes q.sz
    let a := s.abBase + r.va.toNat
    (s.abSize < r.va.toNat + n → s.reqLane q r false true = (s, .fail ⟨1, .bufferRange, 0, false⟩)) ∧
    (r.va.toNat + n ≤ s.abSize → r.va.toNat % n ≠ 0 → s.reqLane q r false true = (s, .fail ⟨2, .misaligned, 0, false⟩)) ∧
    (r.va.toNat + n ≤ s.abSize → r.va.toNat % n = 0 → q.kind = .load → s.reqLane q r false true =
      (s, if s.core.flawed 0 a n then .fail ⟨10, .uncorrectable, 0, false⟩ else .done (rdN s.core.ab a n))) ∧
    (r.va.toNat + n ≤ s.abSize → r.va.toNat % n = 0 → q.kind = .store →
      ∃ u v, s.reqLane q r false true = (u, .done v) ∧ rdN u.core.ab a n = r.val.toNat % 256 ^ n ∧
        (∀ k, k < a ∨ a + n ≤ k → mget u.core.ab k = mget s.core.ab k) ∧
        u = { s with core := { s.core with ab := u.core.ab, flaws := u.core.flaws } })

/-- R174: the order of the checks of a global access: bits 60 to 63 of the address; alignment; presence in the tables; then, for a
page that is no peer window, the leaf's permissions before the tags of all granules that the access touches (R168), and these before an
atomic's tier. An access that passes changes nothing more. -/
def Obligations.AccessChecks : Prop :=
  ∀ (s s1 : State) (who : Who) (va : W64) (w : Want) (l : Leaf) (f : Fail),
    let high := bitsOf va.toNat 60 4 ≠ 0
    let skew := w.n ≠ 0 ∧ va.toNat % w.n ≠ 0
    let denied := (who.user = true ∧ l.user = false) ∨ (w.write = true ∧ l.w = false)
    let core := if w.tlb then 96 else who.core
    let wrongTag := l.tagen = true ∧ w.tags = true ∧ ∃ g, l.key va / 32 ≤ g ∧ g * 32 < l.key va + max w.n 1 ∧
      s1.dom.tagSeen core (g * 32) ≠ BitVec.ofNat 4 (bitsOf va.toNat 56 4)
    let found := ¬ high ∧ ¬ skew ∧ s.leafFor who va w = (s1, .ok l)
    (high → s.check who va w = (s, .error ⟨1, .protection, 0, false⟩)) ∧
    (¬ high → skew → s.check who va w = (s, .error ⟨2, .misaligned, 0, false⟩)) ∧
    (¬ high → ¬ skew → s.leafFor who va w = (s1, .error f) → s.check who va w = (s1, .error f)) ∧
    (found → l.tier ≠ 2 → denied → s.check who va w = (s1, .error ⟨5, .protection, 0, false⟩)) ∧
    (found → ¬ denied → l.tier.toNat ≤ 1 → wrongTag → s.check who va w = (s1, .error ⟨7, .tagMismatch, 0, false⟩)) ∧
    (found → ¬ denied → l.tier = 3 → l.tagen = false → w.atomic = true →
      s.check who va w = (s1, .error ⟨8, .atomicUnsupported, 0, false⟩)) ∧
    (found → ¬ denied → l.tier = 0 → ¬ wrongTag → s1.dom.poison.contains (l.key va / 64) = false →
      s.check who va w = (s1, .ok (.loc va l)))

/-- R184, R185, R346: a prefetch never faults and changes no register; the cache-control forms whose lanes pass the checks and meet no lock
act on the line in the core's L1 and at the home slice: `wb` leaves no dirty copy of it in the core, `wbinv` no copy, and `settag` gives the
granule its tag and changes no other. -/
def Obligations.CacheForms : Prop :=
  ∀ (s s1 : State) (hint : Hint) (x : Idx) (o : Args) (op : CctlOp) (i : Instr) (xs : List (LaneReq × LaneRes)),
    (∀ p, (p = .prefetch hint x o ∨ p = .prefetchL2 hint x o) → s.runs p = true →
      ∃ u, exec p s = .next u ∧ u.path.pc = nextPc s.path.pc ∧ u.path.status = .running ∧ u.path.mask = s.path.mask ∧ u.wave.v = s.wave.v ∧
        u.wave.s = s.wave.s ∧ u.wave.q = s.wave.q ∧ u.block = s.block ∧
        (p = .prefetchL2 hint x o → u.doms = s.doms ∧ u.hostMem = s.hostMem ∧ u.dom.mem = s.dom.mem ∧ u.dom.l1 = s.dom.l1)) ∧
    ((op = .wb ∧ i = .cctlWb x o ∨ op = .wbinv ∧ i = .cctlWbinv x o ∨ op = .demoteEf ∧ i = .cctlDemoteEf x o ∨
        op = .demote ∧ i = .cctlDemote x o ∨ op = .settag ∧ i = .cctlSettag x o) →
      s.runs i = true → s.clear = true → s.guard o.h ≠ 0 →
      let b := s.begin i
      let q := b.mkReq .store .n8 .plain .wv .normal x o (execLanes o.h (s.guard o.h))
      (∀ r ∈ q.lanes, b.cctlHeld op r = false) → laneSeq (fun s r => s.cctlLane op r) b q.lanes = (s1, xs) →
      (∀ y ∈ xs, y.2 = .done 0) → s.Leads i s1) ∧
    (∀ (r : LaneReq) (va : W64) (l : Leaf),
      s.check s.who r.va { n := if op = .settag then 32 else 0, write := op == .settag, atomic := false, tags := false, sc := none } = (s1, .ok (.loc va l)) →
      let u := (s.cctlLane op r).1
      let mine := fun y : L1Sector => y.core = s1.core.ix ∧ y.key / 8 = l.key va / 512
      (op = .wb → ∀ y ∈ u.dom.l1, mine y → y.dirty = false) ∧
      (op = .wbinv → ∀ y ∈ u.dom.l1, ¬ mine y) ∧
      (op = .settag → l.tagen = true → ∀ g, mget u.dom.tags g = if g = l.key va / 32 then r.val.setWidth 4 else mget s1.dom.tags g))

/-- R163, R186, R187, R308, R309, R346: a fence at cluster scope or wider writes back the core's dirty private sectors when it
releases and drops its read-shared sectors when it acquires, and changes no register; an `mwait` whose word differs from C gives D the word at once.
A `sigwait` whose word can be read goes on with the word in D when the condition holds, and else waits, with its monitor on the word's
sector. -/
def Obligations.FencesAndWaits : Prop :=
  (∀ (s : State) (ord : Sys2Proof.Ord) (sc : Scope) (sz : Size) (x : Idx) (o : Args),
     (s.runs (.fence ord sc o) = true → s.clear = true → s.guard o.h ≠ 0 →
       ∃ u, exec (.fence ord sc o) s = .next u ∧ u.path.pc = nextPc s.path.pc ∧ u.path.status = .running ∧ u.wave.v = s.wave.v ∧
         u.wave.s = s.wave.s ∧ u.wave.q = s.wave.q ∧ u.block = s.block ∧
         (wideScope sc = true → ord ≠ .acq → ∀ y ∈ u.dom.l1, y.core = s.core.ix → y.leaf.reg = 0 → y.dirty = false) ∧
         (wideScope sc = true → ord ≠ .rel → ∀ y ∈ u.dom.l1, y.core = s.core.ix → y.leaf.reg ≠ 1)) ∧
     (∀ (s1 s2 : State) (ts : List (Nat × W64 × Target)) (vs : List (Nat × Nat)),
       let i := Instr.mwait ord sc sz x o
       s.runs i = true → s.clear = true → s.guard o.h ≠ 0 →
       let b := s.begin i
       b.checkAll (mwaitWant sz ord sc) ((lanesOf (execLanes o.h (s.guard o.h))).map fun l => (l, s.addr l x o.a o.b)) = (s1, ts, []) →
       let armed := ts.foldl (fun s t => s.arm s1.pref t.2.2) s1
       let a := if ord.isAcq then armed.acquire armed.core.ix sc else armed
       (∀ t ∈ ts, a.lockedFor a.who t.2.2 false = false) → a.readAll (sizeBytes sz) ts = (s2, vs) →
       (vs.any (fun v => v.2 != (s2.data sz v.1 o.c).toNat % 2 ^ (8 * sizeBytes sz)) = true →
         s.Leads i ((s2.disarm s1.pref).putLoads sz o.d vs)) ∧
       (vs.all (fun v => v.2 == (s2.data sz v.1 o.c).toNat % 2 ^ (8 * sizeBytes sz)) = true → s.path.status = .running →
         ∃ u, exec i s = .next u ∧ u.path.pc = s.path.pc ∧ u.path.status = .waiting (.mon (ts.map fun t => (t.1, t.2.1)) sz ord sc o.d) ∧
           u.wave.v = s2.wave.v ∧ u.dom = s2.dom))) ∧
  ∀ (s s1 s2 : State) (c : SigCond) (sc : Scope) (sz : Size) (x : Idx) (o : Args) (t : Target) (v : Nat),
    let i := Instr.sigwait c sc sz x o
    s.runs i = true → s.clear = true → s.guard o.h ≠ 0 →
    let b := s.begin i
    let va := s.addr (lowLane s.path.mask) x o.a o.b
    let n := sizeBytes sz
    let y := (s.uni o.c).toNat % 2 ^ (8 * n)
    b.check b.who va { n := n, write := false, atomic := false, tags := true, sc := some sc } = (s1, .ok t) →
    s1.lockedFor s1.who t false = false →
    let a := ((s1.disarm s1.pref).arm s1.pref t (some (n, c, y))).acquire s1.core.ix sc
    a.doRead a.who t .normal n = (s2, v) →
    let holds := match c with
      | .eq => v = y | .ne => v ≠ y | .lt => v < y | .le => v ≤ y | .gt => y < v | .ge => y ≤ v
    (holds → s.Leads i ((s2.disarm s1.pref).putS o.d (BitVec.ofNat 64 v))) ∧
    (¬ holds → s.path.status = .running → ∃ u, exec i s = .next u ∧ u.path.pc = s.path.pc ∧
      u.path.status = .waiting (.sig va sz c (s.uni o.c) sc o.d) ∧ u.dom = s2.dom ∧ u.wave.v = s.wave.v ∧ u.wave.s = s.wave.s)

/-- R294 to R298, R302, R304, R306: the block barriers of a block that is not a task. `binit` with waves that exist; an arrival
that is in time (`barv`, `bsync`, `bdrop`), which completes the phase when ARR covers REG; a wait for a phase that is complete;
`bsync` that waits for the phase it arrived in; `bstat`. -/
def Obligations.BlockBarriers : Prop :=
  ∀ (s : State) (n : BitVec 4) (k : BitVec 2) (o : Args) (b : Barrier),
    s.guard o.h ≠ 0 → s.clear = true → s.block.task = false → s.block.bars[n.toNat]? = some b →
    let set := fun b' : Barrier => ({ s with block := { s.block with bars := s.block.bars.set n.toNat b' } } : State)
    let bit : BitVec 33 := (1 : BitVec 33) <<< s.wave.wid
    let members := (s.uni o.a).setWidth 33
    let inTime := b.reg.getLsbD s.wave.wid = true ∧ b.penddrop.getLsbD s.wave.wid = false ∧ mget b.lmask s.wave.wid &&& s.path.mask = 0
    let lanes := mget b.lmask s.wave.wid ||| s.path.mask
    let arrived := fun drop : Bool =>
      let arr := if covers (lanes ||| s.wave.exited) (fullMask s.wave.width) then b.arr ||| bit else b.arr
      let pend := if drop then b.penddrop ||| bit else b.penddrop
      if b.reg &&& ~~~arr = 0 then
        { reg := b.reg &&& ~~~pend, arr := 0, lmask := [], ph := b.ph + 1, flg := 0, lastflg := b.flg, lasttok := s.carry,
          lastUnit := s.pathUnit, penddrop := 0 }
      else ({ b with lmask := mset b.lmask s.wave.wid lanes, arr := arr, penddrop := pend } : Barrier)
    (s.runs (.binit n o) = true → b.arr = 0 → b.lmask = [] →
      (∀ w, w < 32 → members.getLsbD w = true → w < (s.launch.map (·.waves)).getD 0 ∧ ∃ x ∈ s.blockWaves, x.wid = w) →
      (members.getLsbD 32 = true → s.block.stream ≠ none) →
      s.Leads (.binit n o) (set { b with reg := members, penddrop := 0 })) ∧
    (s.runs (.barv n o) = true → inTime → s.Leads (.barv n o) ((set (arrived false)).issuing.putS o.d (b.ph.setWidth 64))) ∧
    (s.runs (.bdrop n o) = true → inTime → s.Leads (.bdrop n o) (set (arrived true))) ∧
    (s.runs (.bsync n o) = true → s.path.redo = none → inTime → (arrived false).ph = b.ph + 1 → s.streamRecord n.toNat = none →
      s.Leads (.bsync n o) ((set (arrived false)).issuing.putS o.d ((b.ph + 1) ++ b.flg.setWidth 32))) ∧
    (s.runs (.bsync n o) = true → s.path.redo = none → s.path.status = .running → inTime → (arrived false).ph = b.ph →
      ∃ u, exec (.bsync n o) s = .next u ∧ u.path.pc = s.path.pc ∧ u.path.status = .waiting (.barrier n.toNat b.ph o.d) ∧
        u.block = (set (arrived false)).block ∧ u.wave.v = s.wave.v ∧ u.wave.s = s.wave.s ∧ u.wave.q = s.wave.q ∧ u.dom = s.dom) ∧
    (s.runs (.bwait n o) = true → 0 < (b.ph - (s.uni o.a).setWidth 32 : W32).toInt → s.streamRecord n.toNat = none →
      s.Leads (.bwait n o) (s.issuing.putS o.d (b.ph ++ b.lastflg.setWidth 32))) ∧
    (s.runs (.bstat n k o) = true → s.Leads (.bstat n k o) (s.issuing.putS o.d (match k.toNat with
      | 0 => b.ph.setWidth 64
      | 1 => b.reg.setWidth 64
      | 2 => b.arr.setWidth 64
      | _ => BitVec.ofNat 64 (b.lastflg.toNat * 256 + b.flg.toNat))))

/-- R305 to R307: `gbar` in a gang of the block: the arrival is released at the gang's scope; when it completes the phase, the path
acquires, takes the phase in D and goes on; else it waits. The last wave of a gang's only member completes the phase. -/
def Obligations.GangBarrier : Prop :=
  ∀ (s : State) (o : Args) (g g' : Gang), s.runs (.gbar o) = true → s.guard o.h ≠ 0 → s.clear = true → s.block.task = false →
    let ix := (s.uni o.a).toNat % 2 ^ 32
    ix ∈ gangsOf s.block.gangs → s.gangAt ix = some g →
    let b := s.begin (.gbar o)
    let a := (b.release b.core.ix g.scope).gangArrive ix
    a.gangAt ix = some g' →
    (0 < (g'.ph - g.ph : W32).toInt →
      s.Leads (.gbar o) ((a.acquire a.core.ix g.scope).putS o.d (g'.ph ++ (0 : W32)))) ∧
    (¬ 0 < (g'.ph - g.ph : W32).toInt → s.path.status = .running →
      ∃ u, exec (.gbar o) s = .next u ∧ u.path.pc = s.path.pc ∧ u.path.status = .waiting (.gang ix g.ph o.d) ∧ u.dom = a.dom ∧
        u.wave.v = s.wave.v) ∧
    (g.reg = [s.block.blockid.toNat] → g.scope ≠ .pkg → s.block.waves = [] → s.wave.exited ≠ fullMask s.wave.width →
      covers (s.path.mask ||| s.wave.exited) (fullMask s.wave.width) = true → g'.ph = g.ph + 1 ∧ g'.arr = [])

/-- R239 to R248: the hardware queues of a block: `qinit` with a legal depth and allowance; a push that is admitted; a pop and a
`qtry` of a queue that holds an entry, and of one that holds none; `qclose`. When the operation lets waits on the queue go on, they do
so at once, in the order in which they began; else nothing more happens. -/
def Obligations.HardwareQueues : Prop :=
  ∀ (s : State) (n : BitVec 4) (o : Args) (q : HQueue), s.guard o.h ≠ 0 → s.clear = true → s.block.hq[n.toNat]? = some q →
    let set := fun q' : HQueue => ({ s with block := { s.block with hq := s.block.hq.set n.toNat q' } } : State)
    let depth := (s.uni o.a).toNat % 2 ^ 32
    let allow := (s.uni o.b).toNat % 2 ^ 32
    let entry : QEntry := { val := s.uni o.a, token := s.carry, prod := s.wave.wid, unit := s.pathUnit }
    let does := fun (i : Instr) (t : State) =>
      ∃ u : State, exec i s = .next (u.settleQueue n.toNat) ∧ t.OnlyPath u { t.path with pc := nextPc s.path.pc }
    let waits := fun (i : Instr) (w : Wait) => ∃ u : State, exec i s = .next (u.settleQueue n.toNat) ∧ u.path.pc = s.path.pc ∧
      u.path.status = .waiting w ∧ u.block = s.block
    (s.runs (.qinit n o) = true → 1 ≤ depth → depth ≤ 64 → 1 ≤ allow → allow ≤ depth →
      does (.qinit n o) (set { depth := depth, allow := allow, closed := false, entries := [], out := [] })) ∧
    (s.runs (.qpush n o) = true → q.closed = false → q.entries.length < q.depth → (mget q.out s.wave.wid).toNat < q.allow →
      does (.qpush n o) (set { q with entries := q.entries ++ [entry], out := mset q.out s.wave.wid (mget q.out s.wave.wid + 1) })) ∧
    (s.runs (.qpush n o) = true → s.path.status = .running → q.closed = false → q.entries.length = q.depth →
      waits (.qpush n o) (.push n.toNat (s.uni o.a))) ∧
    (∀ e es, q.entries = e :: es →
      let popped := set { q with entries := es, out := mset q.out e.prod (mget q.out e.prod - 1) }
      (s.runs (.qpop n o) = true → does (.qpop n o) (popped.issuing.putS o.d e.val)) ∧
      (s.runs (.qtry n o) = true → ∀ r, o.d = .s r → ∃ u : State, exec (.qtry n o) s = .next (u.settleQueue n.toNat) ∧ u.path.pc = nextPc s.path.pc ∧
        u.block = popped.block ∧ u.wave.v = s.wave.v ∧ u.wave.q = s.wave.q ∧ (∃ idx, u.path.token = mkTok (tokLen e.token) idx) ∧ u.path.e = 0 ∧
        ∀ k, u.wave.sGet k = if k ∈ s.path.under then s.wave.sGet k else if k = r.toNat + 1 then 0 else if k = r.toNat then e.val else s.wave.sGet k)) ∧
    (q.entries = [] →
      (s.runs (.qpop n o) = true → s.path.status = .running → q.closed = false →
        waits (.qpop n o) (.pop n.toNat o.d)) ∧
      (s.runs (.qtry n o) = true → ∀ r, o.d = .s r →
        s.Leads (.qtry n o) (s.issuing.sPut (r.toNat + 1) (if q.closed then 2 else 1)))) ∧
    (s.runs (.qclose n o) = true → does (.qclose n o) (set { q with closed := true })) ∧
    ∀ u : State, u.queueWaits n.toNat = [] → u.settleQueue n.toNat = u

/-- R41, R256 to R258: `spawn` whose counters pass their checks and whose records find room: one task for each participant, in
ascending lane order, on the core's deque; its counter is incremented with release, under the lane's next sequence number; task serial numbers are consecutive. -/
def Obligations.SpawnedTasks : Prop :=
  ∀ (s s1 : State) (rb : BitVec 4) (ac : BitVec 3) (off : BitVec 24) (o : Args) (ts : List Target),
    let i := Instr.spawn rb ac off o
    s.runs i = true → s.clear = true → s.guard o.h ≠ 0 → s.wave.spawndepth < 8 →
    let lanes := lanesOf (execLanes o.h (s.guard o.h))
    (s.begin i).spawnTargets o lanes = (s1, ts, []) → (∀ t ∈ ts, s1.lockedFor s1.who t true = false) →
    let tasks := lanes.zipIdx.map fun x =>
      ({ entry := branchPc s.path.pc off, arg := s.rd false x.1 o.a, cnt := s.rd true x.1 o.b &&& BitVec.ofNat 64 (2 ^ 56 - 1),
         launch := s.block.launch, depth := s.wave.spawndepth + 1, regblk := rb, abclass := ac,
         serial := s1.dom.nextTask + BitVec.ofNat 32 x.2, token := s.carry } : Task)
    s.core.deque.length + lanes.length ≤ 256 → ts.any s1.appliedFull = false → s1.dom.memDeque.length ≤ 2 ^ s1.dom.cfg.dequeLog →
    let counted : State := { s1 with wave := { s1.wave with seq := lanes.foldl (fun m l => mset m l (mget m l + 1)) s1.wave.seq } }
    let a := ts.foldl (fun s t => (s.doRmw s.who t .normal 4 false (fun x => some ((x + 1) % 2 ^ 32)) .plain).1)
      (counted.release s1.core.ix .die)
    s.Leads i { a with core := { a.core with deque := tasks.reverse ++ s.core.deque },
                       dom := { a.dom with nextTask := a.dom.nextTask + BitVec.ofNat 32 lanes.length } }

/-- R188 to R190: `cpl` and `cpl.out` whose lanes pass the checks at issue give the open batch one element for each lane; `cpclose`
closes the batch and gives D its number; `cpwait` for a batch that is complete without failures goes on, and else waits. -/
def Obligations.LaneCopies : Prop :=
  ∀ (s : State) (hint : Hint) (sz : Size) (x : Idx) (o : Args), s.clear = true → s.guard o.h ≠ 0 →
    let lanes := lanesOf (execLanes o.h (s.guard o.h))
    let ga := fun l => s.addr l x o.a o.b
    let ab := fun l => s.rd false l o.d
    let elem := fun out l => ({ wave := s.wave.wid, batch := s.wave.batchOpen, lane := l, out := out, bytes := sizeBytes sz, ga := ga l, ab := ab l,
                                hint := hint, pc := s.path.pc, user := !s.path.priv, token := s.carry, e := 0, parked := none } : Elem)
    let good := ∀ l ∈ lanes, bitsOf (ga l).toNat 60 4 = 0 ∧ (∃ r, s.abAddr (ab l) (sizeBytes sz) = .ok r) ∧ (ga l).toNat % sizeBytes sz = 0 ∧
      (ab l).toNat % sizeBytes sz = 0
    let added := fun out => ({ s with block := { s.block with copy := { s.block.copy with
      elems := s.block.copy.elems ++ lanes.map (elem out) } } } : State)
    (s.runs (.cpl hint sz x o) = true → good → s.Leads (.cpl hint sz x o) (added false)) ∧
    (s.runs (.cplOut hint sz x o) = true → good → s.Leads (.cplOut hint sz x o) (added true)) ∧
    (s.runs (.cpclose o) = true → s.wave.batchDone < s.wave.batchOpen → s.wave.batchOpen - s.wave.batchDone ≤ 8 →
      (s.block.copy.elems.any (fun e => e.wave == s.wave.wid && decide (e.batch ≤ s.wave.batchDone + 1)) = true →
        s.Leads (.cpclose o) (({ s with wave := { s.wave with batchOpen := s.wave.batchOpen + 1 } } : State).issuing.putS o.d
          (BitVec.ofNat 64 s.wave.batchOpen))) ∧
      (s.block.copy.elems.all (fun e => e.wave != s.wave.wid) = true →
        s.Leads (.cpclose o) (({ s with wave := { s.wave with batchOpen := s.wave.batchOpen + 1, batchDone := s.wave.batchOpen } } : State).issuing.putS o.d
          (BitVec.ofNat 64 s.wave.batchOpen)))) ∧
    (let n := min (s.uni o.a).toNat (s.wave.batchOpen - 1)
     s.runs (.cpwait o) = true →
      (n ≤ s.wave.batchDone → (∀ f ∈ s.block.copy.efails, ¬ (f.wave = s.wave.wid ∧ f.batch ≤ n)) → s.Leads (.cpwait o) s) ∧
      (s.wave.batchDone < n → s.path.status = .running →
        ∃ u, exec (.cpwait o) s = .next u ∧ u.path.pc = s.path.pc ∧ u.path.status = .waiting (.batch n) ∧ u.block = s.block))

/-- R191, R192, R198: a tensor copy whose record passes the checks and that finds room joins the queue with the coordinates that its
registers hold; `tlwait` for a number that DONE has reached without a recorded cause goes on, and else waits; `tlread` gives DONE
and ISSUED. -/
def Obligations.TensorCopies : Prop :=
  ∀ (s s1 : State) (i : Instr) (form : CForm) (hint : Hint) (o : Args) (k : BitVec 7) (r : Nat), s.clear = true → s.guard o.h ≠ 0 →
    ((form = .ab ∧ i = .cptAb hint o ∨ form = .wb ∧ i = .cptWb hint o ∨ form = .scl ∧ i = .cpts hint o ∨ form = .acc ∧ i = .cpta hint o) →
      s.runs i = true → o.b = .s k → (s.begin i).tensorRecord ((s.uni o.a).toNat % 2 ^ 32) = (s1, .record r) →
      s1.copyRefuses form r k.toNat (s.uni o.d).toNat = none → s.block.copy.ops.length < 64 →
      let op : CopyOp :=
        { num := s.block.copy.issued + 1, wave := s.wave.wid, user := !s.path.priv, form := form, off := (s.uni o.d).toNat,
          rcd := BitVec.ofNat 512 r, coords := (tDims r).map (fun d => s.sVal (k.toNat + d)), hint := hint, pc := s.path.pc, next := 0,
          deferred := false, parked := none, token := s.carry, e := 0 }
      s.Leads i { s1 with block := { s.block with copy := { s.block.copy with issued := s.block.copy.issued + 1,
                                                                              ops := s.block.copy.ops ++ [op] } } }) ∧
    (let n := min (s.uni o.a).toNat s.block.copy.issued
     s.runs (.tlwait o) = true →
      (n ≤ s.block.copy.done → (∀ f ∈ s.block.copy.fails, n < f.num) → s.Leads (.tlwait o) s) ∧
      (s.block.copy.done < n → s.path.status = .running →
        ∃ u, exec (.tlwait o) s = .next u ∧ u.path.pc = s.path.pc ∧ u.path.status = .waiting (.timeline n) ∧ u.block = s.block)) ∧
    (s.runs (.tlreadDone o) = true → s.Leads (.tlreadDone o) (s.issuing.putS o.d (BitVec.ofNat 64 s.block.copy.done))) ∧
    (s.runs (.tlreadIss o) = true → s.Leads (.tlreadIss o) (s.issuing.putS o.d (BitVec.ofNat 64 s.block.copy.issued)))

/-- R251 to R255, log 49: a ring form whose ring lies in the domain, has a header in order, and whose act at the unit succeeds: the record
headers that the act writes and then the header stand in memory, D takes the position and the status, the lowest lane counts the
operation, and the path goes on. That `rgcmt` and `rbsurr` write the header with their token when nothing in it has changed is the
model's choice (log 49). -/
def Obligations.RingForms : Prop :=
  ∀ (s s1 s2 s3 : State) (i : Instr) (sc : Scope) (o : Args) (rel tok pair at' : Bool) (f : State → Target → RingOp → RingRes)
    (va : W64) (l : Leaf) (x : Nat) (op : RingOp) (pos : Option W64) (status : Nat),
    let b := (s.uni o.b).toNat
    let held := fun (g : RecHdr → RecHdr) => fun (s : State) t (op : RingOp) => s.rgheld t op b g
    ((i = .rgres sc o ∧ at' = false ∧ rel = false ∧ tok = false ∧ pair = true ∧ f = (fun s t op => s.rgres t op (b % 2 ^ 32))) ∨
      (i = .rgcmt sc o ∧ at' = true ∧ rel = true ∧ tok = true ∧ pair = true ∧ f = held (fun r => { r with st := .committed, owner := 0 })) ∨
      (i = .rgpop sc o ∧ at' = false ∧ rel = false ∧ tok = false ∧ pair = true ∧ f = (fun s t op => s.rgpop t op ((op.h.resv - op.h.read) / 16 + 1))) ∨
      (i = .rgfree sc o ∧ at' = true ∧ rel = true ∧ tok = false ∧ pair = true ∧ f = (fun s t op => s.rgfree t op b)) ∨
      (i = .rbsurrHold sc o ∧ at' = true ∧ rel = true ∧ tok = true ∧ pair = true ∧ f = held (fun r => { r with st := .surrendered, owner := 0 })) ∨
      (i = .rbsurrSkip sc o ∧ at' = true ∧ rel = true ∧ tok = true ∧ pair = true ∧
        f = held (fun r => { owner := 0, st := .skip, len := spanOf r.len - 16 })) ∨
      (i = .rbclaim sc o ∧ at' = true ∧ rel = false ∧ tok = false ∧ pair = false ∧ f = (fun s t op => s.rbclaim t op b))) →
    s.runs i = true → s.clear = true → s.guard o.h ≠ 0 →
    let g := s.begin i
    let home : Target := .loc va l
    (s.uni o.a).toNat % 64 = 0 → g.check g.who (s.uni o.a) { n := 8, write := true, atomic := true, tags := true, sc := some sc } = (s1, .ok home) →
    s1.lockedFor s1.who home true = false → s1.appliedFull home = false →
    let r := if rel then s1.release s1.core.ix sc else s1
    r.unitRead r.ringWho home .normal 64 = (s2, x) →
    let h := RingHdr.ofBits x
    h.ok = true → (at' = true → b % 16 = 0 ∧ h.free ≤ b ∧ b ≤ h.resv) → f s2 home { h := h, recs := [] } = (s3, .ok (op, pos, status)) →
    let w1 := op.recs.reverse.foldl (fun s r => s.unitWrite s.ringWho r.1 .normal 16 r.2 .plain) (s3.takeSeq (s.guard o.h))
    let w2 := if op.h ≠ h ∨ tok = true then
      w1.unitWrite w1.ringWho home .normal 64 op.h.bits (if tok then .tok w1.carry w1.pathUnit else .plain) else w1
    let w3 := if !rel && status % 2 ^ 32 == 0 then w2.acquire w2.core.ix sc else w2
    s.Leads i (if pair then w3.putPair o.d pos status else w3.putS o.d (BitVec.ofNat 64 status))

/-- R252, R253: a reservation: a length that fits ends at RESV plus its span with the record RESERVED for the issuer; without room
nothing changes and the status is 1; a span of more than half the ring, or a length of more than 24 bits, is RBLOCK. -/
def Obligations.RingReservation : Prop :=
  ∀ (s s1 : State) (home t : Target) (h : RingHdr) (len : Nat),
    let span := 16 + (len % 2 ^ 24 + 15) / 16 * 16
    (2 ^ 24 ≤ len ∨ 2 ^ h.log / 2 < span → s.rgres home ⟨h, []⟩ len = (s, .error .block)) ∧
    (len < 2 ^ 24 → span ≤ 2 ^ h.log / 2 → h.resv % 2 ^ h.log + span ≤ 2 ^ h.log → h.free ≤ h.resv →
      (2 ^ h.log < h.resv + span - h.free → s.rgres home ⟨h, []⟩ len = (s, .ok (⟨h, []⟩, none, 1))) ∧
      (h.resv + span - h.free ≤ 2 ^ h.log → s.ringByte home (BitVec.ofNat 64 (h.data + h.resv % 2 ^ h.log)) = (s1, .ok t) →
        s.rgres home ⟨h, []⟩ len = (s1, .ok (⟨{ h with resv := h.resv + span },
          [(t, (RecHdr.mk s1.ringOwner .reserved len).bits)]⟩, some (BitVec.ofNat 64 h.resv), 0))))

/-- R316 to R318, R333 to R337: the sequencer of a matrix stream: `nop`, `mjmp`, `mloop`, `mend`, `marv`, `mwaitb` for a phase that is
complete, `mpop` and `mpush` that need not wait; the waits on the queue that these let go on do so. Nothing else changes. -/
def Obligations.StreamForms : Prop :=
  ∀ (s : State) (m : Stream) (n : BitVec 4) (off : BitVec 24) (o : Args), s.kind = .stream → s.block.stream = some m →
    let next := nextPc m.pc
    let put := fun m' : Stream => ({ s with block := { s.block with stream := some m' } } : State)
    let at' := fun (m' : Stream) pc => put { m' with pc := pc, ir := none, status := .running }
    let does := fun (i : Instr) (t : State) => i.wf = true → exec i s = .next t
    (legalPc next = true → o.h.neg = false → o.h.pred = 7 → does (.nop o) (put { m with pc := next, ir := none })) ∧
    (legalPc (branchPc m.pc off) = true → does (.mjmp off o) (at' m (branchPc m.pc off))) ∧
    (∀ k, o.d = .s k →
      let m1 := match o.a with
        | .s a => { m with s := mset m.s a.toNat (mget m.s a.toNat + m.rd o.b) }
        | _ => m
      let count := mget m1.s k.toNat - 1
      let pc := if count = 0 then next else branchPc m.pc off
      legalPc pc = true → does (.mloop off o) (at' { m1 with s := mset m1.s k.toNat count } pc)) ∧
    (m.doneOps = m.issuedOps → m.held = [] →
      let ended : Block := { s.block with stream := some { m with status := .ended, opFlags := [], ir := none } }
      does (.mend o) { s with block := ended.dropStream (carried m.token m.e) s.streamUnit }) ∧
    (legalPc next = true → does (.marv n o) (at' { m with held := m.held ++ [{ bar := n.toNat, pc := m.pc, after := m.issuedOps }] } next)) ∧
    (legalPc next = true → 0 < ((s.bar n.toNat).ph - (m.rd o.a).setWidth 32 : W32).toInt →
      does (.mwaitb n o) (at' (m.wr o.d ((s.bar n.toNat).ph ++ (s.bar n.toNat).lastflg.setWidth 32)) next)) ∧
    (∀ q, s.block.hq[n.toNat]? = some q → legalPc next = true →
      let setq := fun (q' : HQueue) (m' : Stream) =>
        (({ s with block := { s.block with hq := s.block.hq.set n.toNat q', stream := some { m' with pc := next, ir := none, status := .running } } } : State)
          ).settleQueue n.toNat
      (∀ e es, q.entries = e :: es → does (.mpop n o)
        (setq { q with entries := es, out := mset q.out e.prod (mget q.out e.prod - 1) } (m.wr o.d e.val))) ∧
      (m.held = [] → q.closed = false → q.entries.length < q.depth → (mget q.out 128).toNat < q.allow → does (.mpush n o)
        (setq { q with entries := q.entries ++ [{ val := m.rd o.a, token := carried m.token m.e, prod := 128, unit := s.streamUnit }],
                       out := mset q.out 128 (mget q.out 128 + 1) } m)))

/-- R319 to R326: a compute form of the matrix stream whose operands lie in the block's allocations, aligned, joins the engine's
queue when it has room, and the stream goes on. -/
def Obligations.EngineForms : Prop :=
  ∀ (s : State) (m : Stream) (i : Instr) (kind : MKind) (ks : Nat) (o : Args) (z : Bool) (f : MFmt) (rm : Rm) (k : BitVec 4),
    s.kind = .stream → s.block.stream = some m → i.wf = true → legalPc (nextPc m.pc) = true →
    let d := (m.rd o.d).toNat
    let a := (m.rd o.a).toNat
    let b := (m.rd o.b).toNat
    let rs := (m.rd o.c).toNat % 2 ^ 16
    let cs := (m.rd o.c).toNat / 2 ^ 16 % 2 ^ 16
    let inside := fun off n buf al : Nat => off + n ≤ s.block.size buf ∧ off % al = 0
    let panels := ks * mfPanel f
    let scales := 64 * mfGroups f * ks
    ((i = .mzero o ∧ kind = .mzero ∧ ks = 1 ∧ inside d 16384 2 256) ∨
      (i = .mma z f k o ∧ kind = .mma z f ∧ ks = k.toNat + 1 ∧ inside d 16384 2 256 ∧ inside a panels 0 64 ∧ inside b panels 1 64) ∨
      (i = .mmas z f k o ∧ kind = .mmas z f ∧ ks = k.toNat + 1 ∧ inside d 16384 2 256 ∧ inside a panels 0 64 ∧ inside b panels 1 64 ∧
        inside rs scales 3 1 ∧ inside cs scales 3 1) ∨
      (i = .mcvt rm f o ∧ kind = .mcvt rm f ∧ ks = 1 ∧ inside d (mfPanel f) 0 64 ∧ inside a 16384 2 256) ∨
      (i = .madd o ∧ kind = .madd ∧ ks = 1 ∧ inside d 16384 2 256 ∧ inside a 16384 2 256)) →
    s.core.engine.length < 4 →
    let op : MOp := { blk := s.block.id, num := m.issuedOps + 1, kind := kind, d := d, a := a, b := b, rs := rs, cs := cs, ks := ks,
                      phase := .issued, out := 0, flags := 0 }
    exec i s = .next { s with core := { s.core with engine := s.core.engine ++ [op] },
                              block := { s.block with stream := some { m with issuedOps := m.issuedOps + 1, pc := nextPc m.pc, ir := none,
                                                                              status := .running } } }

/-- R100, R101, R328 to R330: what the engine computes: `mzero` gives zeros; `madd` adds two tiles element by element, rounding once; `mma`
gives each element the sum over the groups of its row of A and row of B, in ascending K, each rounded once, from the tile in ACC or from 0;
`mmas` the same with each group under its two scale bytes, a NaN where either is 0xFF; `mcvt` converts the ACC tile at A into a panel, each
16 columns of a row into one block of a JB format, or each element into one of bf16 or i8, under its rounding mode. -/
def Obligations.MatrixResults : Prop :=
  ∀ (s : State) (op : MOp) (r c : Nat), r < 64 → c < 64 →
    let out := tileElem (s.mopResult op).1 r c
    let tile := fun off => tileElem (rdN s.core.acc (s.block.base 2 + off) 16384) r c
    (op.kind = .mzero → out = 0) ∧
    (op.kind = .madd → out = (faddOf .f32 .rne (tile op.d) (tile op.a)).1) ∧
    (∀ z f, op.kind = .mma z f →
      let xa := rdN s.core.ab (s.block.base 0 + op.a) (op.ks * mfPanel f)
      let xb := rdN s.core.wb (s.block.base 1 + op.b) (op.ks * mfPanel f)
      out = (List.range (mfGroups f * op.ks)).foldl (fun acc q => (faddOf .f32 .rne acc (groupOf f xa xb r c q 0).1).1)
        (if z then 0 else tile op.d)) ∧
    (∀ z f, op.kind = .mmas z f →
      let xa := rdN s.core.ab (s.block.base 0 + op.a) (op.ks * mfPanel f)
      let xb := rdN s.core.wb (s.block.base 1 + op.b) (op.ks * mfPanel f)
      let scale := fun off q k => (mget s.core.scl (s.block.base 3 + off + 64 * q + k)).toNat
      let group := fun q =>
        let ea := scale op.rs q r
        let eb := scale op.cs q c
        if ea = 255 ∨ eb = 255 then fNan .f32 else (groupOf f xa xb r c q ((ea : Int) + eb - 254)).1
      out = (List.range (mfGroups f * op.ks)).foldl (fun acc q => (faddOf .f32 .rne acc (group q)).1) (if z then 0 else tile op.d)) ∧
    ∀ rm f, op.kind = .mcvt rm f →
      let source := rdN s.core.acc (s.block.base 2 + op.a) 16384
      let panel := (s.mopResult op).1
      let unit := 8 * mfUnit f
      match f with
      | .bf16 => bitsOf panel (16 * (64 * r + c)) 16 = (cvtOf .f32 .bf16 rm (tile op.a)).1
      | .i8 => bitsOf panel (8 * (64 * r + c)) 8 = (BitVec.ofInt 8 (toIntOf .f32 rm .i8 (tile op.a)).1).toNat
      | .jb3 | .jb5 | .jb8 => bitsOf panel (unit * (4 * r + c / 16)) unit =
          (jbEncode (if f = .jb3 then 0 else if f = .jb5 then 1 else 2) rm ((List.range 16).map fun e => tileElem source r (c / 16 * 16 + e))).1

/-- R342, R343, R346, R349 to R351, R360 to R363, log 111: the forms of Clasp regions: a `txb` at which logs are free and no lane waits
for one opens a speculative region; a nested one and its `txe` count the depth; `txe` closes the region of an aborted path with D
false, and one whose lanes have written and read nothing with D true, where the lanes commit one after another, one a cycle (the
model's choice, log 111), and the path waits between them; `txabt` sends the lanes of a speculative region to its end; `txst` reads
the lanes' state. -/
def Obligations.ClaspForms : Prop :=
  ∀ (s : State) (off : BitVec 24) (k : BitVec 2) (o : Args), s.wave.locket = [] → s.path.posted = [] → s.path.mask ≠ 0 →
    s.dom.trace = none →
    let next := nextPc s.path.pc
    let lanes := lanesOf s.path.mask
    (s.runs (.txb off o) = true → s.path.txdepth = 0 → (∀ l ∈ lanes, mget s.wave.sernext l = 0) → s.logWaiters = [] →
      s.core.logs + lanes.length ≤ 170 →
      ∃ u, exec (.txb off o) s = .next u ∧ u.path.pc = next ∧ u.path.txdepth = 1 ∧ u.path.mask = s.path.mask ∧
        u.path.region = some { begin := s.path.pc, stop := branchPc s.path.pc off, depth := s.path.stack.length, serial := false, aborted := false } ∧
        u.core.logs = s.core.logs + lanes.length ∧
        (∀ l ∈ lanes, mget u.wave.txcause l = 0 ∧ ∃ g ∈ u.wave.logs, g.lane = l ∧ g.rd = [] ∧ g.wr = []) ∧
        u.wave.v = s.wave.v ∧ u.wave.s = s.wave.s ∧ u.wave.q = s.wave.q ∧ u.dom = s.dom ∧ u.block = s.block) ∧
    (s.runs (.txb off o) = true → 1 ≤ s.path.txdepth → s.path.txdepth < 7 →
      s.Moves (.txb off o) { s.path with pc := next, txdepth := s.path.txdepth + 1 }) ∧
    (s.runs (.txe o) = true → 2 ≤ s.path.txdepth → s.Moves (.txe o) { s.path with pc := next, txdepth := s.path.txdepth - 1 }) ∧
    (∀ r, s.runs (.txe o) = true → s.path.txdepth = 1 → s.path.region = some r →
      let rest := s.path.mask &&& ~~~((1 : W64) <<< lowLane s.path.mask)
      let quiet := r.aborted = false ∧ r.serial = false ∧ s.path.stack.length ≤ r.depth ∧
        ∀ l ∈ lanes, ∀ g ∈ s.wave.logs, g.lane = l → g.rd = [] ∧ g.wr = []
      (r.aborted = true ∨ (quiet ∧ rest = 0) →
        ∃ u, exec (.txe o) s = .next u ∧ u.path.pc = next ∧ u.path.txdepth = 0 ∧ u.path.region = none ∧ u.path.mask = s.path.mask ∧
          s.issuing.Wrote u s.path.mask false o.d (fun _ => if r.aborted then 0 else 1) ∧ (r.aborted = true → u.dom = s.dom) ∧ u.block = s.block) ∧
      (quiet → rest ≠ 0 →
        ∃ u, exec (.txe o) s = .next u ∧ u.path.pc = s.path.pc ∧ u.path.txdepth = 1 ∧ u.path.mask = s.path.mask ∧
          u.path.status = .waiting (.commit rest ((1 : W64) <<< lowLane s.path.mask) o.d) ∧
          u.wave.v = s.wave.v ∧ u.wave.s = s.wave.s ∧ u.wave.q = s.wave.q ∧ u.block = s.block)) ∧
    (∀ r todo ok d, s.path.status = .waiting (.commit todo ok d) → s.path.region = some r → r.aborted = false → r.serial = false →
      s.path.stack.length ≤ r.depth → covers s.path.mask todo = true → todo ≠ 0 → legalPc next = true →
      (∀ l ∈ lanesOf todo, ∀ g ∈ s.wave.logs, g.lane = l → g.rd = [] ∧ g.wr = []) →
      let rest := todo &&& ~~~((1 : W64) <<< lowLane todo)
      let u := s.endWait
      u.path.mask = s.path.mask ∧ u.block = s.block ∧
      (rest ≠ 0 → u.path.status = .waiting (.commit rest (ok ||| (1 : W64) <<< lowLane todo) d) ∧ u.path.pc = s.path.pc ∧
        u.wave.v = s.wave.v ∧ u.wave.s = s.wave.s ∧ u.wave.q = s.wave.q) ∧
      (rest = 0 → u.path.pc = next ∧ u.path.txdepth = 0 ∧ u.path.region = none ∧
        s.Wrote u s.path.mask false d (fun l => if hasLane (ok ||| todo) l then 1 else 0))) ∧
    (∀ r, s.runs (.txabt o) = true → s.path.inRegion = true → s.path.region = some r → r.serial = false → s.guard o.h = s.path.mask →
      (s.path.stack.drop (s.path.stack.length - r.depth)).head?.bind (·.slot) = none →
      ∃ u, exec (.txabt o) s = .next u ∧ u.path.pc = r.stop ∧ u.path.txdepth = 1 ∧ u.path.region = some { r with aborted := true } ∧
        (∀ l ∈ lanes, (mget u.wave.txcause l).toNat % 32 = 5 ∧
          (mget u.wave.txcause l).toNat / 256 % 256 = (s.rd false l o.a).toNat % 256) ∧
        u.wave.v = s.wave.v ∧ u.wave.s = s.wave.s ∧ u.wave.q = s.wave.q ∧ u.dom = s.dom) ∧
    (s.runs (.txabt o) = true → s.path.inRegion = false → s.Moves (.txabt o) { s.path with pc := next }) ∧
    (s.runs (.txst k o) = true →
      let acting := lanesOf (s.guard o.h)
      let mask := fun p : Nat → Bool => ((acting.filter p).foldl (fun m l => m ||| (1 : W64) <<< l) 0 : W64)
      let logs := fun l => match s.wave.logs.find? fun g => g.lane == l with
        | some g => g.rd.length + 256 * g.wr.length
        | none => 0
      s.Gives (.txst k o) (s.guard o.h) false o.d (fun l => match k.toNat with
        | 0 => (mget s.wave.txcause l).setWidth 64
        | 1 => mask fun l => (mget s.wave.txcause l).toNat % 16 != 0
        | 2 => mask fun l => mget s.wave.sernext l == 1
        | _ => BitVec.ofNat 64 ((if s.path.inRegion = true ∧ (s.path.region.map (·.serial)).getD false = false then logs l else 0)
          + 65536 * s.path.txdepth)) s.path.flags)

/-- R376, R377, R378: the forms of Filigree: `stepb` begins a step; outside a Clasp region `fgmark` and `stepe` write a record of the path
under the next index of the ring, `fgmark` continues with a token of the path's total length, and `stepe` releases at die scope and gives
D that token; `rngpush` of a label that is not 0 and `rngpop` keep sixteen labels, inside a region too. -/
def Obligations.FiligreeForms : Prop :=
  ∀ (s : State) (o : Args), s.guard o.h ≠ 0 →
    let next := nextPc s.path.pc
    let label := (s.uni o.a).setWidth 32
    let total := min (s.path.token.toNat / 2 ^ 26 + s.path.e.toNat / 2 ^ 24) (2 ^ 38 - 1)
    let same := fun u : State => u.path.pc = next ∧ u.path.status = .running ∧ u.path.stepid = s.path.stepid ∧ u.wave.v = s.wave.v ∧
      u.wave.q = s.wave.q ∧ u.block = s.block
    (s.runs (.stepb o) = true → s.path.inRegion = false →
      s.Moves (.stepb o) { s.path with pc := next, stepid := label, token := 0, e := 0, drop := false,
                                       stepStart := BitVec.ofNat 26 ((s.launch.map (·.ringNext)).getD 0) }) ∧
    (s.runs (.fgmark o) = true → s.path.inRegion = false →
      let r := (s.begin (.fgmark o)).ringIndex
      let w := r.1.ringWrite s.pathUnit r.2 (edgeRecord 8 false false total (s.path.e.toNat / 2 ^ 24) (s.path.token.toNat % 2 ^ 26)
        s.path.stepid.toNat label.toNat s.pathUnit s.pathUnit)
      ∃ u, exec (.fgmark o) s = .next u ∧ same u ∧ u.wave.s = s.wave.s ∧ u.path.token = mkTok total r.2 ∧ u.path.e = 0 ∧
        u.path.drop = (s.path.drop || w.2) ∧ u.dom = w.1.dom ∧ u.doms = w.1.doms) ∧
    (s.runs (.stepe o) = true → s.path.inRegion = false → s.path.posted = [] → s.postedTags = [] →
      let r := (s.begin (.stepe o)).ringIndex
      let w := r.1.ringWrite s.pathUnit r.2 (edgeRecord 9 r.1.wrapped s.path.drop total (s.path.e.toNat / 2 ^ 24)
        (s.path.token.toNat % 2 ^ 26) s.path.stepid.toNat 0 s.pathUnit s.pathUnit)
      ∃ u, exec (.stepe o) s = .next u ∧ same u ∧ u.path.token = s.path.token ∧ u.path.e = s.path.e ∧
        u.path.drop = (s.path.drop || w.2) ∧ u.dom = (w.1.releaseL1 s.core.ix).dom ∧
        ∀ n, u.wave.sGet n = if (∃ k, o.d = .s k ∧ n = k.toNat) ∧ n ∉ s.path.under then mkTok total r.2 else s.wave.sGet n) ∧
    (s.runs (.rngpush o) = true → label ≠ 0 → s.Moves (.rngpush o) { s.path with pc := next, ranges := (label :: s.path.ranges).take 16 }) ∧
    (s.runs (.rngpop o) = true → s.Leads (.rngpop o) (({ s with path := { s.path with ranges := s.path.ranges.tail } } : State).issuing.putS o.d
      ((s.path.ranges.headD 0).setWidth 64)))

/-- R26, R31, R85, R111, R183, R186, R269, R275, R302, R309, R343, R352, R381, R389, R420, log 8, log 9, log 110: the events of one path of
a resident block: what each does when it is due. Where the end of a wait writes an s register, a later instruction's write of it that
has come first stays (log 110). BOUNCE, an imposed bounce of the path's next access, is the model's form of what makes an access
bounce (log 8), and the five values of a sample that the spec leaves open, which the counter `fresh` numbers, are its choice (log 9);
`claspRevalidation` is stated for lanes that have read nothing. -/
def Obligations.PathEvents : Prop :=
  ∀ (s t : State) (p : PRef), s.focusPath p = some t → t.block.res = .resident → legalPc (nextPc t.path.pc) = true →
    let next := nextPc t.path.pc
    (t.path.hold ≤ t.core.cycles.toNat → exec (.yieldExpiry p) s = .next { t with path := { t.path with hold := 0 } }) ∧
    exec (.bounce p) s = .next { t with path := { t.path with forced := t.path.forced + 1 } } ∧
    (∀ x xs, t.path.posted = x :: xs → x.cause = none → exec (.postedAck p) s = .next { t with path := { t.path with posted := xs } }) ∧
    (∀ e x rest, t.path.status = .waiting (.join e) → Config.joinBound < t.joinWaited → t.wave.paths = [] → t.path.mask ≠ 0 →
      t.dom.trace = none → t.path.stack = x :: rest → rest.head?.bind (·.slot) = none →
      ∃ u, exec (.joinTimeout p) s = .next u ∧ u.path.pc = next ∧ u.path.stack = rest ∧ u.path.status = .running ∧
        u.path.mask = t.path.mask ∧ u.wave.v = t.wave.v ∧ u.wave.s = t.wave.s ∧ u.wave.q = t.wave.q ∧ u.dom = t.dom) ∧
    (∀ m d, t.path.status = .waiting (.wsync m d) → (∀ k, d ≠ .s k) → Config.joinBound < t.joinWaited →
      ∃ u, exec (.wsyncTimeout p) s = .next u ∧ u.path.pc = next ∧ u.path.status = .running ∧
        t.Wrote u t.path.mask false d (fun _ => 0) ∧ u.dom = t.dom ∧ u.block = t.block) ∧
    (t.path.status = .waiting .superv → t.supervTurn = true →
      exec (.supervisorEntry p) s = .next ({ t with path := { t.path with status := .running } } : State).superviseNow) ∧
    (∀ l, t.launch = some l → t.path.priv = true → t.dom.cfg.supervisor < t.path.privFor →
      ∃ u, exec (.supervisorBoundExpiry p) s = .next u ∧ u.launch = some { l with dead := true } ∧ u.path = t.path ∧
        u.dom.reports = t.dom.reports ++ [.faulted t.block.launch t.path.cause t.path.pc]) ∧
    (∀ lanes sz ord sc d s1 s2 ts vs, t.path.status = .waiting (.mon lanes sz ord sc d) →
      t.dom.cfg.mwait < t.joinWaited * t.core.nspercyc.toNat → (∀ l ∈ lanes, t.vaHeld l.2 = false) →
      (t.disarm t.pref).checkAll (mwaitWant sz ord sc) lanes = (s1, ts, []) →
      (if ord.isAcq then s1.acquire s1.core.ix sc else s1).readAll (sizeBytes sz) ts = (s2, vs) →
      ∃ u, exec (.mwaitTimeout p) s = .next u ∧ u.path.pc = next ∧ u.path.status = .running ∧
        u.wave.v = (t.putLoads sz d vs).wave.v ∧ u.wave.s = (t.putLoads sz d vs).wave.s ∧ u.block = t.block) ∧
    (∀ va sz c x sc d s1 s2 tg v, t.path.status = .waiting (.sig va sz c x sc d) →
      t.check t.who va { n := sizeBytes sz, write := false, atomic := false, tags := true, sc := some sc } = (s1, .ok tg) →
      s1.lockedFor s1.who tg false = false →
      (let a := ((s1.disarm s1.pref).arm s1.pref tg (some (sizeBytes sz, c, x.toNat % 2 ^ (8 * sizeBytes sz)))).acquire s1.core.ix sc
       a.doRead a.who tg .normal (sizeBytes sz) = (s2, v)) → sigHolds c v (x.toNat % 2 ^ (8 * sizeBytes sz)) = true →
      ∃ u, exec (.sigwaitPoll p) s = .next u ∧ u.path.pc = next ∧ u.path.status = .running ∧
        u.wave.s = (t.putS d (BitVec.ofNat 64 v)).wave.s ∧ u.wave.v = t.wave.v ∧ u.block = t.block) ∧
    (t.waitReady = true → exec (.waitWake p false) s = .next t.endWait) ∧
    (∀ n ph d, t.path.status = .waiting (.barrier n ph d) → phaseDone (t.bar n).ph ph = true → t.streamRecord n = none →
      ∃ u, exec (.waitWake p false) s = .next u ∧ u.path.pc = next ∧ u.path.status = .running ∧ u.wave.v = t.wave.v ∧
        u.wave.s = (t.putS d ((t.bar n).ph ++ (t.bar n).lastflg.setWidth 32)).wave.s ∧ u.block = t.block) ∧
    (∀ n x, (t.sPut n x).wave.sGet n = if n ∈ t.path.lost then t.wave.sGet n else x) ∧
    exec (.sampleInterval p) s =
      .next { s with issueQ := updIf (fun r => r.p == p && !r.stream) (fun r => { r with sample := true }) s.issueQ } ∧
    (∀ (v : State) c, t.dom.trace = some c → v.dom.trace = some c → t.traced c 4 = true → (∀ e ∈ v.wave.locket, e.tag < t.wave.nextTag) →
      (v.sampled t).dom.traceCount = v.dom.traceCount + 1 ∧ (v.sampled t).path = v.path ∧ (v.sampled t).wave = v.wave ∧
        (v.sampled t).block = v.block ∧ (v.sampled t).fresh = v.fresh + 5) ∧
    (∀ off l, t.path.txbOff = some off → t.path.waitsLog = true → t.core.logs < 170 → t.logTurn = true → l < 64 →
      t.path.mask = (1 : W64) <<< l →
      ∃ u, exec (.laneLogGrant p) s = .next u ∧ u.path.pc = next ∧ u.path.txdepth = 1 ∧ u.core.logs = t.core.logs + 1 ∧
        u.path.region = some { begin := t.path.pc, stop := branchPc t.path.pc off, depth := t.path.stack.length, serial := false, aborted := false } ∧
        u.dom = t.dom) ∧
    ((∀ g ∈ t.wave.logs, g.rd = []) → exec (.claspRevalidation p) s = .next { t with wave := { t.wave with
      logs := t.wave.logs.map fun g => if t.revalLanes.contains g.lane then { g with since := t.core.cycles.toNat } else g } }) ∧
    (∀ s1 b i, t.path.status = .running → t.path.ir = none → t.path.uncorr = false → t.path.stepped = false →
      t.fetchBundle (!t.path.priv) t.path.pc = (s1, .bundle b) → decode (bundleWord b (t.path.pc.toNat % 64)) = .instr i →
      (s1.refuses i = none → exec (.instructionFetch p false) s =
        .next { s1 with path := { s1.path with ir := some i, kept := s1.path.kept.filter fun k => k.regs.isSome } }) ∧
      ∀ r, s1.refuses i = some r → exec (.instructionFetch p false) s = .next (s1.refuse r.1 r.2))

/-- R9, R163, R186, R203, R220 to R224, R239, R285, R288, R290, R367, R386, R397, log 13, log 30, log 63, log 125: the events of the memory system of the
domain in focus. An access is stated at sectors that the serial lane does not hold (log 13), a write where no dirty-page buffer could
stand in its bytes, and the walk where no L1 holds a dirty copy and no dirty-page base is set (the frame of the walk is then the
accessed bit alone). That FAULT_QUEUE_WRITE writes at the physical address base + 32 × slot (log 63), and that a slot is taken while it
holds the record of a live park (log 30), are the model's choices; so is where the records of the memory deque stand, which system software
writes while the domain is idle (log 125). -/
def Obligations.MemoryEvents : Prop :=
  ∀ (s : State), s.kind = .idle →
    let dom := s.dom.ix
    (∀ unit tag r, unit < 48 → (∀ a ∈ s.dom.applied, ¬ (a.unit = unit ∧ a.tag = tag)) →
      (s.dom.applied.filter fun a => a.unit == unit).length < 512 → sliceOf r.key = unit → tierOf r.key ≠ 3 →
      s.dom.lockedAt (r.key / 64) true = false → s.tier2Failed r.key = false → (r.cmp ≠ none → s.dom.dirtyBase0 = 0 ∧ s.dom.dirtyBase1 = 0) →
      let old := (s.recall 96 (r.key / 64) false).home r.key r.bytes
      let val := r.val.toNat % 2 ^ (8 * r.bytes)
      let new := match r.cmp with
        | none => atomNew r.op (8 * r.bytes) old val
        | some c => if old = c.toNat % 2 ^ (8 * r.bytes) then val else old
      ∃ u, exec (.atomicApply dom unit tag r) s = .next u ∧ rdN u.dom.mem r.key r.bytes = new % 256 ^ r.bytes ∧
        { unit := unit, tag := tag, val := BitVec.ofNat 128 old } ∈ u.dom.applied) ∧
    (∀ unit tag, unit < 48 → exec (.atomicAck dom unit tag) s =
      .next { s with dom := { s.dom with applied := s.dom.applied.filter fun a => !(a.unit == unit && a.tag == tag) } }) ∧
    (∀ r x s1 va l, s.dom.up = true → r.store = some x → tierOf (l.key va) ≠ 3 →
      (∀ p, r.port = some p → ∃ y, s.ports[p]? = some y ∧ y.up = true ∧ y.dom = dom) →
      s.exportCheck r.gen r.slot r.page r.off r.tag.toNat r.user { n := r.bytes, write := true, atomic := r.op.isSome, tags := true, sc := none } =
        (s1, .ok (va, l)) → s1.dom.lockedAt (l.key va / 64) true = false →
      ∃ u, exec (.remoteAccess dom r) s = .next u ∧ rdN u.dom.mem (l.key va) r.bytes = x.toNat % 256 ^ r.bytes) ∧
    (∀ cluster tenant va write addr l, s.dom.tlbFind cluster tenant va = none → s.dom.walk tenant va = .leaf addr l →
      s.dom.keysMatch l = true → (∀ x ∈ s.dom.l1, x.key = addr / 64 → x.leaf.reg = 2 → x.dirty = false) →
      s.dom.lockedAt (addr / 64) true = false → s.dom.settledAt addr = none →
      s.dom.dirtyBase0 = 0 → s.dom.dirtyBase1 = 0 →
      ∃ u, exec (.tlbWalk dom cluster tenant va write) s = .next u ∧
        u.dom.tlbFind cluster tenant va = some { l with dirty := l.dirty || (write && l.w) } ∧
        rdN u.dom.mem addr 8 = rdN s.dom.mem addr 8 ||| 128 ||| (if write && l.w then 256 else 0) ∧
        ∀ a, (a < addr ∨ addr + 8 ≤ a) → mget u.dom.mem a = mget s.dom.mem a) ∧
    (∀ x rest, s.dom.invals = x :: rest →
      let purged := s.doInval x.r
      (purged.invalHeld x.r = true → exec (.invalidationComplete dom) s = .next purged) ∧
      (purged.invalHeld x.r = false → ∃ u, exec (.invalidationComplete dom) s = .next u ∧ u.dom.invals = rest ∧
        (∀ e ∈ u.dom.tlb, rangeMeets x.r e.tenant (e.vpage / 4 * 2 ^ pageBits e.leaf.level) (pageBits e.leaf.level) = false) ∧
        u.dom.completions = s.dom.completions ++ (match x.cmd with
          | some (q, n) => [{ queue := q, seq := n, status := .ok, data := [] }]
          | none => []))) ∧
    (∀ core key, ∃ u, exec (.l1WriteBack dom core { key := key, ecc := .clean }) s = .next u ∧
      ∀ x ∈ u.dom.l1, x.core = core → x.key = key → x.dirty = false) ∧
    exec (.memoryTableCycle dom false) s =
      .next { s with dom := { s.dom with ctl0 := { table := s.dom.ctl0.new.getD s.dom.ctl0.table, new := none } } } ∧
    exec (.memoryTableCycle dom true) s =
      .next { s with dom := { s.dom with ctl1 := { table := s.dom.ctl1.new.getD s.dom.ctl1.table, new := none } } } ∧
    (∀ addr b, s.dom.up = true → addr < 2 ^ 36 + 2 ^ 35 → s.dom.lockedAt (addr / 64) true = false → ∃ u, exec (.hostMemoryAccess dom addr { data := some [b], ecc := .clean }) s = .next u ∧
      mget u.dom.mem addr = b) ∧
    (∀ (i off : Nat) (bs : List Byte) (old : BitVec 512), i < 2 ^ 26 → off < 64 → off + bs.length ≤ 64 → s.dom.memDeque[i]? = some old → s.dom.up = true →
      s.dom.launches = [] → s.dom.blocks = [] →
      ∃ (u : State) (new : BitVec 512), exec (.hostMemoryAccess dom (2 ^ 51 + 64 * i + off) { data := some bs, ecc := .clean }) s = .next u ∧
        u.dom.memDeque = s.dom.memDeque.set i new ∧ u.dom.mem = s.dom.mem ∧
        ∀ k, k < 64 → new.extractLsb' (8 * k) 8 = if off ≤ k ∧ k < off + bs.length then (bs[k - off]?).getD 0 else old.extractLsb' (8 * k) 8) ∧
    (∀ x : HostLine, ∃ u, exec (.hostSnoopInvalidate dom x) s = .next u ∧ (∀ m ∈ u.dom.monitors, m.sector = pkey 3 x.addr / 64 → m.hit = true) ∧
      ∀ k b, x.data[k]? = some b → x.addr % 64 + k < 64 → mget u.hostMem (x.addr + k) = b) ∧
    (∀ k, s.dom.parks.find? (fun k => k.slot == none) = some k → s.dom.fqsize ≠ 0 → s.dom.faultqBase.toNat + 32 * s.dom.fqsize ≤ 2 ^ 50 →
      let slot := s.dom.fqnext % s.dom.fqsize
      (∀ x ∈ s.dom.parks, x.slot ≠ some slot) → s.dom.lockedAt (s.dom.faultKey / 64) true = false →
      ∃ u, exec (.faultQueueWrite dom) s = .next u ∧ u.dom.fqnext = s.dom.fqnext + 1 ∧
        u.dom.interrupts = s.dom.interrupts ++ [.faultPending] ∧
        rdN u.dom.mem (s.dom.faultqBase.toNat + 32 * slot) 32 = k.record % 256 ^ 32) ∧
    (∀ b t v wave e s1 xs, s.focusBlock b = some t → t.block.res = .resident → t.openWave wave = some v → v.nextEntry = some e →
      e.req.kind.isAgain = false → (∀ x ∈ v.wave.locket, x.slot = none ∧ x.sample = none) →
      (∀ x ∈ s1.block.copy.elems, x.place.bind (·.slot) = none) → v.wave.paths = [] →
      e.paths.contains v.path.pid = true →
      (if e.req.ord.isAcq then v.acquire v.core.ix e.req.orderScope else v).reqLanes e.req false false e.req.lanes = (s1, xs) →
      (∀ y ∈ xs, ∃ n, y.2 = .done n) →
      ∃ u, exec (.locketReissue b wave) s = .next u ∧ (∀ x ∈ u.wave.locket, x.tag ≠ e.tag) ∧
        u.wave.v = (if e.req.kind.returns then s1.putLoads e.req.sz e.req.d (doneOf xs) else s1).wave.v ∧ u.path = { s1.path with fb := u.path.fb } ∧
        u.dom = s1.dom)

/-- R188 to R197, R319, R323, R329, R333, R371, log 19: the events of the copy engine and the matrix engine of a resident block. That
MATRIX_OP_START computes an operation's result at once from all its operands, those in AB, WB and SCL included, is the model's choice
(log 19). -/
def Obligations.EngineEvents : Prop :=
  ∀ (s t : State) (b : BRef), s.focusBlock b = some t → t.block.res = .resident →
    (∀ e byte s1 v, t.nextElem = some e → e.cut = false → t.elemBounces e = false → t.block.copy.locks = [] → e.out = false → t.elemAb e = .ok (t.core.ix, byte) →
      t.copyGlobal e.user e.hint e.ga e.bytes none = (s1, .ok v) →
      ∃ u, exec (.copyElementPerform b) s = .next u ∧ u.block.copy.elems = t.block.copy.elems.erase e ∧
        rdN u.core.ab byte e.bytes = v % 256 ^ e.bytes ∧ u.block.copy.efails = t.block.copy.efails) ∧
    (∀ op s1 v, t.block.copy.ops.find? (fun x => x.num == op.num) = some op → t.opReady op = true → boxCount op.rcd.toNat = op.next + 1 → op.cut = false →
      t.opBounces op = false → t.block.copy.locks = [] →
      let moved : CopyOp := { op with lock := none }
      let t1 := t.updOp op.num fun x => { x with lock := none }
      t1.boxHeld moved op.next = false → t1.moveBox moved op.next = (s1, .ok v) →
      exec (.tensorCopyComplete b op.num) s = .next (s1.completeOp moved none)) ∧
    (∀ (u : State) (op : CopyOp), let c := u.completeOp op none
      c.block.copy = u.block.copy.complete op none ∧ c.path.adopts = (match u.path.status with
        | .waiting (.timeline n) => if u.block.copy.done < n ∧ n ≤ c.block.copy.done then some (carried op.token op.e) else u.path.adopts
        | _ => u.path.adopts)) ∧
    (∀ op s1 v, t.block.copy.ops.find? t.opFreed = some op → t.moveBox op op.next = (s1, .ok v) →
      let ops := updIf (fun x => x.num == op.num) (fun x => { x with next := op.next + 1, deferred := false }) s1.block.copy.ops
      exec (.copyDeferredWrite b) s = .next (s1.setCopy { s1.block.copy with ops := ops })) ∧
    (∀ o rest, s.kind = .idle → s.dom.ix = b.dom → (s.coreAt t.core.ix).engine = o :: rest → o.blk = b.blk → t.core.engine = o :: rest →
      let marked := fun (n : Nat) (f : MOp → MOp) =>
        ({ t with core := { t.core with engine := updIf (fun y => y.num == n) f t.core.engine } } : State)
      (∀ x, nextStart [] t.core.engine = some x → t.mopFlawed x = false →
        exec (.matrixOpStart b.dom t.core.ix) s = .next (marked x.num fun y =>
          { y with phase := .started, out := (t.mopResult x).1, flags := BitVec.ofNat 8 (t.mopResult x).2 })) ∧
      (∀ x, t.core.engine.find? (fun y => y.phase == .started) = some x →
        exec (.matrixOpConsumed b.dom t.core.ix) s = .next (marked x.num fun y => { y with phase := .consumed })) ∧
      (∀ m, o.phase = .consumed → t.block.stream = some m → m.status = .running →
        ∃ u, exec (.matrixOpComplete b.dom t.core.ix) s = .next u ∧ u.core.engine = rest ∧
          u.block.stream = some { m with doneOps := o.num, opFlags := m.opFlags ++ [(o.num, o.flags)] } ∧
          (match o.kind with
            | .mcvt _ f => u.core.ab = wrN t.core.ab (t.block.base 0 + o.d) (mfPanel f) o.out ∧ u.core.acc = t.core.acc
            | _ => u.core.acc = wrN t.core.acc (t.block.base 2 + o.d) 16384 o.out ∧ u.core.ab = t.core.ab) ∧
          u.core.wb = t.core.wb ∧ u.core.scl = t.core.scl ∧ u.dom = t.dom)) ∧
    (∀ m h rest, t.block.stream = some m → m.held = h :: rest → m.status = .running → h.after ≤ m.doneOps →
      let bar := t.bar h.bar
      bar.reg.getLsbD 32 = true → bar.penddrop.getLsbD 32 = false → bar.arr.getLsbD 32 = false →
      let fl := (m.opFlags.filter fun f => decide (f.1 ≤ h.after)).foldl (fun a f => a ||| f.2) 0
      let bar' : Barrier := { bar with flg := bar.flg ||| fl, arr := bar.arr ||| (1 : BitVec 33) <<< 32 }
      let m' : Stream := { m with held := rest, opFlags := m.opFlags.filter fun f => decide (h.after < f.1) }
      let bars := t.block.bars.set h.bar (bar'.settle (carried m.token m.e) t.streamUnit)
      exec (.marvPerform b) s = .next { t with block := { t.block with stream := some m', bars := bars } })

/-- R22, R23, R39 to R52, R354 to R356, R381, R392, R431, log 25, log 31, log 33, log 89: the events of blocks, tasks and cores. The
model's choices: BLOCK_PLACE places the first job of the list for which there is room (log 25), TASK_START goes on to the next source
where a record does not fit (log 89), UNCORRECTABLE goes to the lowest path of the lowest wave of a block whose save is not taken
(log 31), and a block that was pre-empted while it could run joins the placement list as its save completes (log 33). -/
def Obligations.BlockEvents : Prop :=
  ∀ (s : State), s.kind = .idle →
    let dom := s.dom.ix
    (∀ b t l, s.focusBlock b = some t → t.launch = some l → l.dead = false → t.block.isOver = true →
      ∃ u, exec (.blockEnd b) s = .next u ∧ ∀ x ∈ u.dom.blocks, x.id ≠ b.blk) ∧
    (∀ core src tk l b sp, (s.taskSources core).find? (s.taskFits core) = some (src, tk) →
      (s.takeTask core src).dom.launch tk.launch = some l → l.dead = false → (s.takeTask core src).dom.planTask core tk l = some (b, sp) →
      ∃ u x w, exec (.taskStart dom core) s = .next u ∧ x ∈ u.dom.blocks ∧ x.id = b.id ∧ w ∈ x.waves ∧ w.task = some tk ∧
        w.spawndepth = tk.depth ∧ w.sGet 0 = tk.arg ∧ w.paths.map (·.pc) = [tk.entry] ∧ w.paths.map (·.token) = [tk.token]) ∧
    (∀ u, s.dom.up = true → s.dom.jobs.findSome? s.tryJob = some u → exec (.blockPlace dom) s = .next u) ∧
    (∀ l n cores u, s.tryFresh l n cores = some u → ∃ b ∈ u.dom.blocks, b.id = s.dom.nextBlock ∧ b.launch = l.id ∧ b.res = .resident ∧
      b.blockid = BitVec.ofNat 32 (l.firstBlock + n) ∧ ∀ w ∈ b.waves, w.sGet 0 = l.args ∧ w.paths.map (·.pc) = [l.entry]) ∧
    (∀ b t x, b.dom = dom → s.focusBlock b = some t → s.dom.blocks.find? (fun y => y.id == b.blk) = some x → s.dom.groupOf x = [x] →
      s.evictable b = true → t.areaWritable = true →
      ∃ u y, exec (.residencyEviction b) s = .next u ∧ y ∈ u.dom.blocks ∧ y.id = b.blk ∧ y.res = .saving) ∧
    (∀ b t t1, s.focusBlock b = some t → t.block.res = .saving → t.writeArea = (t1, false) →
      exec (.evictionSaveComplete b) s = .next t1.keepCore) ∧
    (∀ b t t1, s.focusBlock b = some t → t.block.res = .saving → t.writeArea = (t1, true) →
      ∃ u y, exec (.evictionSaveComplete b) s = .next u ∧ y ∈ u.dom.blocks ∧ y.id = b.blk ∧ y.images = t1.saveImages ∧
        (if t.block.wake || t.block.canRun then y.res = .unplaced ∧ b.blk ∈ u.dom.place else y.res = .evicted)) ∧
    (∀ b t, s.focusBlock b = some t → t.block.res = .saving → t.blockWoken = true →
      exec (.evictedWake b) s = .next { t with block := { t.block with wake := true } }) ∧
    (∀ b t, s.focusBlock b = some t → t.block.res = .evicted → t.blockWoken = true →
      ∃ u, exec (.evictedWake b) s = .next u ∧ b.blk ∈ u.dom.place) ∧
    (∀ b t x, b.dom = dom → s.focusBlock b = some t → s.dom.blocks.find? (fun y => y.id == b.blk) = some x → s.dom.groupOf x = [x] →
      t.block.res = .resident → t.block.preempt = none →
      let m := ({ t with block := { t.block with preempt := some t.core.cycles.toNat } } : State).eachPath State.preemptPath
      exec (.preemptRequest b) s = .next (if m.block.stopped then m.startSave else m).unfocus) ∧
    (∀ p t c, s.focusBlock { dom := p.dom, blk := p.blk } = some t → t.block.res = .resident → t.block.preempt = some c →
      Config.preemptBound < t.core.span c → t.block.streamQuiet = true → exec (.preemptFullSave p) s = .next t.startSave) ∧
    (∀ p lane rest t off, s.dom.serial = none → s.nextToken s.dom.clQueue = some ((p, lane), rest) →
      ({ s with dom := { s.dom with clQueue := rest } } : State).focusPath p = some t → t.path.txbOff = some off → lane < 64 →
      t.path.mask = (1 : W64) <<< lane → legalPc (nextPc t.path.pc) = true →
      ∃ u, exec (.claspTokenGrant dom) s = .next u ∧ u.path.pc = nextPc t.path.pc ∧ u.path.txdepth = 1 ∧ u.path.serial = true ∧
        mget u.wave.sernext lane = 0 ∧ (u.dom.serial.map (·.lane)) = some lane ∧ u.dom.locks = []) ∧
    (∀ x p t, s.dom.serial = some x → s.serialPath x = some p → s.focusPath p = some t → t.dom.cfg.serial < t.core.span x.since →
      exec (.serialBoundExpiry dom) s = .next (t.unserial.trap .claspWait (BitVec.ofNat 64 (2 ^ 63 + t.path.pc.toNat % 2 ^ 56)))) ∧
    (∀ core c, s.dom.cores.find? (fun c => c.ix == core) = some c → s.dom.trace = none →
      ∃ u c', exec (.issueCycle dom core) s = .next u ∧ c' ∈ u.dom.cores ∧ c'.ix = core ∧ c'.cycles = c.cycles + 1 ∧
        s.issueQ <+: u.issueQ ∧ u.dom.mem = s.dom.mem)

/-- R12, R13, R20, R21, R36 to R38, R305, R397, R401, R402, R405, R408 to R410, log 22, log 27, log 28, log 91, log 96, log 113: the events
of the package and of the host's notifications: at BOOT firmware builds the interleave table (R402), assigns the ports (R401) and turns
CXL IDE on or not (R397). The model's choices: BOOT carries the settings of a domain, and a value outside its bounds is brought to the
nearest one (log 22); the form of the interleave table (log 96); HOST_NOTIFY stands for one command more in its queue (log 27); PACKAGE_RESET clears the
memory of the package and keeps the host's (log 28); SLOT_FREE_MAP frees the slot of a queue that has neither commands nor a launch
(log 91); no domain starts while the image of the IOD or of the FED does not run (log 113). -/
def Obligations.PackageEvents : Prop :=
  ∀ (s : State), s.kind = .idle →
    let dom := s.dom.ix
    let all := fun u : State => u.dom :: u.doms
    (∀ link l, s.links[link]? = some l → l.down = false →
      exec (.flitReceive link true) s = .next { s with links := s.links.set link { replays := 0, down := false } } ∧
      (l.replays < 8 → exec (.flitReceive link false) s = .next { s with links := s.links.set link { replays := l.replays + 1, down := false } }) ∧
      (8 ≤ l.replays → ∃ u, exec (.flitReceive link false) s = .next u ∧ (u.links[link]?).map (·.down) = some true)) ∧
    (∀ core ns, exec (.clockChange dom core ns) s = .next { s with dom := { s.dom with
      cores := updIf (fun c => c.ix == core) (fun c => { c with nspercyc := ns.setWidth 64 }) s.dom.cores } }) ∧
    (∀ ns, exec (.ageingReplan dom ns) s = .next { s with dom := { s.dom with
      cores := s.dom.cores.map fun c => { c with nspercyc := ns.setWidth 64 } } }) ∧
    (∀ d ∈ all s, ∃ u d', exec (.thermal d.ix) s = .next u ∧ d' ∈ all u ∧ d'.ix = d.ix ∧ d'.up = false ∧ d'.launches = [] ∧ d'.blocks = [] ∧
      d'.mem = d.mem ∧ d'.reports = d.reports ++ [.thermal]) ∧
    (∀ d ∈ all s, ∀ x : BootImage, x.signed = true → d.fuse ≤ x.version → ∃ u, exec (.domainRejoin d.ix x) s = .next u ∧
      { d with up := true, measure := x.image, version := x.version } ∈ all u) ∧
    (∀ d ∈ all s, ∀ x : BootImage, (x.signed = false ∨ x.version < d.fuse) → ∃ u, exec (.domainRejoin d.ix x) s = .next u ∧ d ∈ all u) ∧
    (∃ u, exec .packageReset s = .next u ∧ (∀ d ∈ all u, d.up = false ∧ d.launches = [] ∧ d.mem = []) ∧ u.hostMem = s.hostMem ∧
      u.iod.fuse = s.iod.fuse ∧ u.fedDie.fuse = s.fedDie.fuse) ∧
    (∀ (images : BootCfg), images.iod.signed = true → s.iod.fuse ≤ images.iod.version → images.fed.signed = true →
      s.fedDie.fuse ≤ images.fed.version → ∃ u : State, exec (.boot images) s = .next u ∧
      (∀ d ∈ all s, ∃ d' ∈ all u, d'.ix = d.ix ∧ d'.mem = d.mem ∧
        (∀ x, images.images[d.ix]? = some x → x.signed = true → d.fuse ≤ x.version → d'.up = true ∧ d'.measure = x.image ∧ d'.version = x.version ∧
          (∀ c, images.doms[d.ix]? = some c → d'.cfg = DomCfg.bounded c) ∧
          ∀ qs, images.queues[d.ix]? = some qs → d'.queues = (qs.foldl Dom.describe d).queues) ∧
        ((images.images[d.ix]?).all (fun x => !x.signed || decide (x.version < d.fuse)) = true → d' = { d with up := false })) ∧
      u.iod.measure = images.iod.image ∧ u.fedDie.measure = images.fed.image ∧ u.tier2 = images.tier2 ∧ u.ide = images.ide ∧
      ∀ (n : Nat) (p : Port) k, s.ports[n]? = some p → images.ports[n]? = some k → k < 9 → u.ports[n]? = some { p with dom := k }) ∧
    (∀ (images : BootCfg), (images.iod.signed = false ∨ images.iod.version < s.iod.fuse ∨ images.fed.signed = false ∨
      images.fed.version < s.fedDie.fuse) → ∃ u : State, exec (.boot images) s = .next u ∧ ∀ d ∈ all u, d.up = false) ∧
    (∀ (g : GangSig), ∃ u, exec (.gangArrivalSignal dom g) s = .next u ∧ u.doms = s.doms ∧
      ∀ (l : Launch) (x : Gang), l ∈ s.dom.launches → l.linked = true → l.tenant = g.tenant → l.linkid = g.link → l.gangs[g.gang]? = some x → x.scope = .pkg →
        x.reg.contains g.block = true → ∃ l' ∈ u.dom.launches, l'.id = l.id ∧ l'.gangs[g.gang]? = some (x.member g.block g.ended g.token g.unit)) ∧
    (∀ x : Tier2Fail, x.port < 8 → ∃ u, exec (.secondTierPortFailure x) s = .next u ∧ x ∈ u.tier2down ∧ ∀ y ∈ s.tier2down, y ∈ u.tier2down) ∧
    (∀ q, q < 4096 → ∃ u, exec (.hostNotify dom q) s = .next u ∧ (u.dom.queue q).cmds = (s.dom.queue q).cmds + 1 ∧
      (s.dom.slots.length < 64 → q ∈ u.dom.slots)) ∧
    (∀ slot n, s.dom.slots[slot]? = some n → s.dom.slots.length ≤ 64 → s.dom.idleQueue n = true → s.dom.pend = [] →
      exec (.slotFreeMap dom slot) s = .next { s with dom := ({ s.dom with slots := s.dom.slots.filter (· != n) } : Dom).watchSlots }) ∧
    (∀ q, s.dom.starving q = true →
      ∃ u, exec (.qslotStarved dom q) s = .next u ∧ u.dom.interrupts = s.dom.interrupts ++ [.qslotStarved q] ∧ (u.dom.queue q).starved = true)

/-- R281, R284, R290, R291, R342, R379, R383, R386, R394, R398 to R400, R403, log 29, log 30, log 97, log 109: the commands that set up a domain,
each with arguments in range; a DIRTY_SWAP of another tenant than its queue's takes BAD_DESC, and a PT_ROOT that no supervisor queue
gives PRIV; a DIRTY_SWAP waits while a bit of the buffers is still to be written at a sector that a lock holds (R291, R346). The model's
choices: DBG_DETACH drops the words of the program buffer and leaves the halted paths halted (log 109), TRACE_CFG starts the count and the position at 0 (log 29), FAULTQ_CFG empties the queue, so that the
live parks stand without a slot again (log 30), and TENANT_CFG leaves the table entries that no share names (log 97). -/
def Obligations.ConfigurationCommands : Prop :=
  ∀ (s : State) (c : CmdHdr), s.serves c false = true →
    let sup := (s.dom.queue c.queue).superv = true
    let ok := fun i f => s.Answers i c f []
    (∀ entries, entries.length = 64 → ok (.slotTable c entries)
      fun d => { d with ctl0 := { d.ctl0 with new := some entries }, ctl1 := { d.ctl1 with new := some entries } }) ∧
    (s.dom.bitsLate = false → ok (.dirtySwap c) fun d => { d with dirtySel := !d.dirtySel }) ∧
    (s.dom.bitsLate = true → exec (.dirtySwap c) s = .next s) ∧
    (∀ b0 b1, ok (.dirtyBitmapBase c b0 b1) fun d => { d with dirtyBase0 := b0, dirtyBase1 := b1 }) ∧
    (∀ tn root, sup → root % 8192 = 0 → root < 2 ^ 50 → ok (.ptRoot c tn root)
      fun d => { d with ptroot := (tn, root) :: d.ptroot.filter fun x => x.1 != tn }) ∧
    (∀ base slots, sup → slots ≤ 2 ^ 20 → ok (.ttCfg c base slots) fun d => { d with ttbase := base, ttslots := slots }) ∧
    (∀ base, ok (.serialLogBase c base) fun d => { d with serialBase := base }) ∧
    (∀ entry save, legalPc entry = true → save.toNat % 32 = 0 → ok (.trapCfg c entry save) fun d => { d with supentry := entry, supsave := save }) ∧
    (∀ base size, ok (.faultqCfg c base size)
      fun d => { d with faultqBase := base, fqsize := size, fqnext := 0, parks := d.parks.map fun k => { k with slot := none } }) ∧
    ok (.dbgAttach c) (fun d => { d with dbg := true }) ∧
    ok (.dbgDetach c) (fun d => { d with dbg := false, dbgBuffer := [], dbgPath := none }) ∧
    (∀ cfg : TraceCfg, 4096 ≤ cfg.size → 2 ^ Nat.log2 cfg.size = cfg.size → 2 ^ 8 ≤ cfg.interval → cfg.interval ≤ 2 ^ 24 →
      (s.dom.isolation = true → cfg.tenant ≠ none) → ok (.traceCfg c cfg)
        fun d => { d with trace := some cfg, traceCount := 0, tracePos := 0, cores := d.cores.map fun k => { k with samples := [] } }) ∧
    (∀ iso shares, sup → (∀ x ∈ shares, x.ways ≠ 0) → s.dom.launches = [] → ok (.tenantCfg c iso shares)
      fun d => d.share iso shares) ∧
    (∀ e h port, sup → e < 256 → (∀ p, port = some p → (s.ports[p]?).map (·.dom) = some s.dom.ix) → s.Answers (.importHandle c e h port) c
      (fun d => { d with imports := insertBy Import.ix { ix := e, handle := h, port := port } d.imports }) [e]) ∧
    (∀ slot (ex : ExportReq), sup → slot < 4096 → ex.base.toNat % 65536 = 0 → ex.base.toNat < 2 ^ 56 →
      1 ≤ ex.pages → ex.pages ≤ 2 ^ 26 →
      let free : Export := { base := 0, pages := 0, read := false, write := false, atomic := false, tenant := 0, live := false, gen := s.dom.genBase }
      let x := (s.dom.exports[slot]?).getD free
      x.live = false →
      let e : Export := { base := ex.base, pages := ex.pages, read := ex.read, write := ex.write, atomic := ex.atomic, tenant := ex.tenant, live := true, gen := x.gen }
      s.Answers (.exportRange c slot ex) c (fun d => { d with exports := (s.dom.exports ++ List.replicate (slot + 1 - s.dom.exports.length) free).set slot e })
        [s.dom.ix * 2 ^ 28 + slot * 2 ^ 12 + x.gen.toNat]) ∧
    (∀ slot x, sup → s.dom.exports[slot]? = some x → ok (.revoke c slot)
      fun d => { d with exports := s.dom.exports.set slot { x with live := false, gen := if x.gen = 0xFFF then 1 else x.gen + 1 } }) ∧
    (∀ x : CmdHdr, x.dom = c.dom → x.queue = c.queue → x.ord = c.ord → x.tenant ≠ c.tenant → s.dom.bitsLate = false →
      exec (.dirtySwap x) s = .next ((s.taken c).complete c.queue x.seq .badDesc [])) ∧
    (∀ tn root, ¬ sup → exec (.ptRoot c tn root) s = .next ((s.taken c).complete c.queue c.seq .priv []))

/-- R32 to R35, R168, R169, R288, R313, R346, R379, R386, R394, R398, R402, R406, R409, log 109, log 129, log 144: LAUNCH of a descriptor in
order, the commands that read and select counters, KEY_ASSIGN of a frame of the HBM or of the second tier of which no lock holds a sector,
INVAL, ATTEST, RESET_DOMAIN, and those that act on a park or on a path under a debugger. The model's choices: DBG_EXEC completes as the
buffer takes its words, before they have acted, and DBG_RESUME from TRAPPC leaves the wait in which the path was halted without its writes
(log 109); the owner of a counter is the guest of the queue that has configured it, or the system (log 129); a KEY_ASSIGN of a frame behind
a failed port of the second tier is FAULTED (log 144). -/
def Obligations.ServiceCommands : Prop :=
  ∀ (s : State) (c : CmdHdr), s.serves c false = true →
    let q := s.taken c
    let ok := fun (u : State) (data : List Nat) => Host.Outcome.next (u.complete c.queue c.seq .ok data)
    let sup := (s.dom.queue c.queue).superv = true
    (∀ addr s1 l, q.readLaunch c addr = (s1, .ok l) → l.linked = false →
      exec (.launch c addr) s = .next { s1 with dom := { s1.dom with launches := s1.dom.launches ++ [l], nextLaunch := s1.dom.nextLaunch + 1, ccache := [], icache := [] } }) ∧
    (∀ frame key, sup → (frame < 1572864 ∨ (2 ^ 34 ≤ frame ∧ frame < 2 ^ 35)) → s.dom.frameHeld frame = false →
      (s.frameFailed frame = true → 2 ^ 34 ≤ frame → exec (.keyAssign c frame key) s = .next (q.complete c.queue c.seq .faulted [])) ∧
      (s.frameFailed frame = false →
       let base := frame / 2 ^ 34 * 2 ^ 50 + frame % 2 ^ 34 * 65536
       ∃ u, exec (.keyAssign c frame key) s = .next u ∧ mget u.dom.keys frame = key ∧
         ∀ a, base ≤ a → a < base + 65536 → mget u.dom.mem a = 0 ∧ mget u.dom.tags (a / 32) = 0)) ∧
    (∀ r,
      let v : Inval := { num := s.dom.nextInval, r := r, cmd := some (c.queue, c.seq) }
      exec (.inval c r) s = .next { q with dom := { q.dom with invals := s.dom.invals ++ [v], nextInval := s.dom.nextInval + 1 } }) ∧
    (∀ ix ev tn,
      let n : Counter := { ev := ev, tenant := tn, val := 0, ovf := false, owner := if (s.dom.queue c.queue).superv then none else some c.tenant }
      (∀ core, core < 96 → ix < 16 → s.Answers (.perfCfg c (.core core) ix ev tn) c
        (fun d => { d with cores := updIf (fun k => k.ix == core) (fun k => { k with perf := k.perf.set ix n }) d.cores }) []) ∧
      ∀ slice, slice < 48 → ix < 8 → s.Answers (.perfCfg c (.slice slice) ix ev tn) c
        (fun d => { d with slicePerf := insertBy (·.1) (8 * slice + ix, n) d.slicePerf }) []) ∧
    (∀ core ix k x, core < 96 → ix < 16 → s.dom.cores.find? (fun k => k.ix == core) = some k → k.perf[ix]? = some x →
      s.Answers (.perfRead c (.core core) ix) c id [x.val.toNat, if x.ovf then 1 else 0]) ∧
    s.Answers (.traceRead c) c id [s.dom.traceCount.toNat] ∧
    (∀ nonce, nonce.length = 32 → ∃ report sig, exec (.attest c nonce) s = ok q (report ++ nonce.map BitVec.toNat ++ [sig])) ∧
    (∀ d, d ∈ s.dom :: s.doms → sup → d.ix < 9 → ∃ u d', exec (.resetDomain c d.ix) s = .next u ∧ d' ∈ u.dom :: u.doms ∧ d'.ix = d.ix ∧
      d'.up = false ∧ d'.launches = [] ∧ d'.blocks = [] ∧ d'.mem = d.mem ∧ d'.tags = d.tags) ∧
    (∀ id k p t, q.dom.parkOf id = some k → k.what = .path p → (q.dropPark id).focusPath p = some t → t.path.status = .parked k.id →
      exec (.faultReplay c id) s = ok (((({ t with path := { t.path with windows := [] } } : State).stay).wakeBlock { dom := p.dom, blk := p.blk }).focusDom c.dom) [] ∧
      (t.block.res = .resident → p.dom = c.dom → exec (.faultFail c id) s = ok ((t.trapFull .pageFault false k.kind.toNat
        (fun l => ((k.addrs.find? fun x => x.1 == l).map (·.2)).getD k.va) (fun _ => 1)).focusDom c.dom) [])) ∧
    (∀ p t, s.dom.dbg = true → p.dom = c.dom → q.focusPath p = some t → t.path.inRegion = false → t.path.waitsLog = false →
      t.path.waitsToken = false →
      exec (.dbgHalt c p) s = ok ({ t with path := { t.path with halted := true } } : State).unfocus []) ∧
    (∀ p t, s.dom.dbg = true → p.dom = c.dom → q.focusPath p = some t →
      exec (.dbgStep c p) s = ok ({ t with path := { t.path with halted := false, stepBit := true } } : State).resumed.unfocus []) ∧
    (∀ p t, s.dom.dbg = true → p.dom = c.dom → q.focusPath p = some t → t.path.halted = true →
      (∀ words, s.dom.dbgBuffer = [] → words.length ≤ 16 → s.Answers (.dbgExec c p words) c
        (fun d => { d with dbgBuffer := words, dbgPath := some p, dbgIx := 0 }) []) ∧
      exec (.dbgResume c p false) s = ok ({ t with path := { t.path with halted := false } } : State).resumed.unfocus [] ∧
      let left := t.leaveWait
      exec (.dbgResume c p true) s = ok ({ left with path := { left.path with halted := false, pc := t.path.trappc, ir := none } } : State).resumed.unfocus [] ∧
      (t.path.status = .running → left = { t with path := { t.path with again := false, kept := none } }) ∧
      ∀ w, t.path.status = .waiting w → left.path.status = .running ∧ left.wave.v = t.wave.v ∧ left.wave.s = t.wave.s ∧ left.wave.q = t.wave.q)

/-- R71 to R80, R86: decode and encode agree: every well-formed instruction of a stream has a word, which decodes to it; and an instruction
that any word decodes to is well formed and is one of a stream. -/
def Obligations.EncodingAgrees : Prop :=
  (∀ i : Instr, i.wf = true → i.args ≠ none → ∃ w, encode i = some w ∧ decode w = .instr i) ∧
  (∀ (w : IWord) (i : Instr), decode w = .instr i → i.wf = true ∧ i.args ≠ none)

/-- A step runs the decoded instruction: a path that has been chosen to issue, of a resident block of a live launch, takes the word at
its PC, and the step is `exec` of what the word decodes to; a word that has been fetched already is the one that runs. The same holds of
a block's matrix stream and of an event on the agenda. -/
def Obligations.StepRunsDecoded : Prop :=
  (∀ (s : State) (i : Instr) (rest : List Instr), s.agenda = i :: rest → cmdOf i = none → step s = exec i { s with agenda := rest }) ∧
  (∀ (s : State) (i : Instr) (rest : List Instr), s.pickAgenda = some (i, rest) → step s = exec i { s with agenda := rest }) ∧
  (∀ (s t : State) (p : PRef) (rest : List Ref) (l : Launch), s.agenda = [] → s.sigs = [] →
    s.issueQ = { p := p, stream := false } :: rest → ({ s with issueQ := rest } : State).unfocus.focusPath p = some t →
    t.block.res = .resident → t.launch = some l → l.dead = false → t.path.status = .running → t.path.halted = false →
    t.path.hold ≤ t.core.cycles.toNat →
    (∀ s1 b i, t.path.ir = none → t.path.uncorr = false → t.path.stepped = false →
      t.fetchBundle (!t.path.priv) t.path.pc = (s1, .bundle b) → decode (bundleWord b (t.path.pc.toNat % 64)) = .instr i →
      s1.refuses i = none → step s = exec i { s1 with path := { s1.path with ir := some i, kept := s1.path.kept.filter fun k => k.regs.isSome } }) ∧
    (∀ i, t.path.ir = some i → t.wave.locket = [] → step s = exec i t)) ∧
  ∀ (s t : State) (p : PRef) (rest : List Ref) (l : Launch) (m : Stream), s.agenda = [] → s.sigs = [] →
    s.issueQ = { p := p, stream := true } :: rest → ({ s with issueQ := rest } : State).unfocus.focusBlock { dom := p.dom, blk := p.blk } = some t →
    t.block.res = .resident → t.launch = some l → l.dead = false → t.block.preempt = none → t.block.stream = some m → m.status = .running →
    m.held = [] → m.doneOps = m.issuedOps → t.core.engineRoom = true →
    (∀ s1 b i, m.ir = none → t.fetchBundle true m.pc = (s1, .bundle b) → decode (bundleWord b (m.pc.toNat % 64)) = .instr i →
      step s = exec i { s1 with block := { s1.block with stream := some { m with ir := some i, locket := [] } } }) ∧
    ∀ i, m.ir = some i → step s = exec i t

/-- R8, R21, R23, R84, R107 and others: what reset leaves: nine domains in order, with nothing launched, no path and no block, no
translation, no cached line, and no memory written, and every memory in canonical form. -/
def Obligations.ResetState : Prop :=
  let s := State.reset
  let all := s.dom :: s.doms
  all.map (·.ix) = List.range 9 ∧ s.kind = .idle ∧ s.agenda = [] ∧ s.issueQ = [] ∧ s.hostMem = [] ∧ s.fabricMem = [] ∧
  (∀ d ∈ all, d.launches = [] ∧ d.blocks = [] ∧ d.tlb = [] ∧ d.l1 = [] ∧ d.mem = [] ∧ d.parks = [] ∧ d.ptroot = [] ∧
    d.cores.map (·.ix) = List.range 96 ∧ ∀ c ∈ d.cores, c.cycles = 0 ∧ c.ab = [] ∧ c.engine = [] ∧ c.deque = []) ∧
  ∀ d ∈ all, mwf d.mem = true

/-- The memories keep their canonical form, strictly rising addresses and no byte that equals what an unlisted one reads as, whatever
step is taken, in every state. -/
def Obligations.MemoryStaysCanonical : Prop :=
  ∀ s t : State, s.canonical → step s = .next t → t.canonical

/-- R71 to R80: words written out from the encoding tables decode to the instructions they stand for. -/
def Obligations.TableWords : Prop :=
  let always : Hdr := { neg := false, pred := 7, look := 0, u := false }
  let once : Hdr := { always with u := true }
  let word := fun (hi mid lo : BitVec 32) => decode (hi ++ mid ++ lo)
  word 0x100B0002 0x01C03FFC 0x0000012C = .instr (.iadd false .i32
    { h := { always with neg := true, pred := 3 }, d := .v 7, a := .v 3, b := .immI 0 300, c := .absent }) ∧
  word 0x1067000E 0x01005018 0x07000000 = .instr (.imad true .n32 { h := always, d := .v 4, a := .v 5, b := .v 6, c := .v 7 }) ∧
  word 0x20370018 0x01005018 0x07000000 = .instr (.ffma .rdn .f32 { h := always, d := .v 4, a := .v 5, b := .v 6, c := .v 7 }) ∧
  word 0x3007005A 0x0150400B 0xFE040010 = .instr (.ld .normal .acq .die .n32 { scale := 2, disp := 16 }
    { h := always, d := .v 5, a := .s 4, b := .v 2, c := .absent }) ∧
  word 0x320700DA 0x0210600C 0x0C35FFF8 = .instr (.atom .smin .normal .acqrel .die .n32 { scale := 2, disp := 0x1FFF8 }
    { h := always, d := .v 8, a := .s 6, b := .v 3, c := .v 12 }) ∧
  word 0x02010800 0xFFBFEFFB 0xFEFFFFFC = .instr (.bra 0xFFFFFC { h := { once with pred := 1 }, d := .absent, a := .absent, b := .absent, c := .absent }) ∧
  word 0x402708C0 0x41504FF8 0 = .instr (.bwait 3 { h := once, d := .s 5, a := .s 4, b := .absent, c := .absent }) ∧
  word 0x50270809 0x4050240D 0x04000007 = .instr (.mmas true .jb5 7 { h := once, d := .s 1, a := .s 2, b := .s 3, c := .s 4 }) ∧
  word 0x60170000 0x607FEFF8 0 = .instr (.txe { h := always, d := .q 1, a := .absent, b := .absent, c := .absent }) ∧
  word 0x70170800 0x67103FF8 0 = .instr (.swr { h := once, d := .sr .trappc, a := .s 3, b := .absent, c := .absent })
end

