-- ==== Sys2Proof/Laws/Map.lean ====
section
/-! SUPPORT. The laws of finite maps: a read after a write, which needs no hypothesis, and the canonical form. -/

namespace Sys2Proof.Machine

variable {w : Nat}

@[simp] theorem mget_nil (x : Nat) : mget ([] : SMap w) x = 0 := rfl

/-! A read after a write -/

theorem mget_filter_ne (m : SMap w) (x a : Nat) : mget (m.filter fun e => e.1 != x) a = if a = x then 0 else mget m a := by
  induction m with
  | nil => simp
  | cons e m ih =>
    obtain ⟨k, v⟩ := e
    rw [List.filter_cons]
    by_cases hk : k = x
    · subst hk
      simp only [bne_self_eq_false, Bool.false_eq_true, if_false, ih, mget]
      split <;> rfl
    · simp only [bne_iff_ne, ne_eq, hk, not_false_eq_true, if_true, mget, ih]
      by_cases ha : a = k
      · simp [ha, hk]
      · simp [ha]

theorem mget_mins (m : SMap w) (x : Nat) (y : BitVec w) (h : ∀ e ∈ m, e.1 ≠ x) (a : Nat) :
    mget (mins m x y) a = if a = x then y else mget m a := by
  induction m with
  | nil => simp [mins, mget]
  | cons e m ih =>
    obtain ⟨k, v⟩ := e
    have hk : k ≠ x := h (k, v) (by simp)
    unfold mins
    split
    · simp [mget]
    · simp only [mget, ih fun e he => h e (by simp [he])]
      by_cases ha : a = k
      · simp [ha, hk]
      · simp [ha]

/-- A read after a write: the written value at its key, what was there everywhere else. -/
theorem mget_mset (m : SMap w) (x : Nat) (y : BitVec w) (a : Nat) :
    mget (mset m x y) a = if a = x then y else mget m a := by
  have hne : ∀ e ∈ m.filter (fun e => e.1 != x), e.1 ≠ x := fun e he => by simpa using (List.mem_filter.mp he).2
  unfold mset
  by_cases hy : y = 0
  · simp only [hy, if_true, mget_filter_ne]
  · simp only [hy, if_false, mget_mins _ _ _ hne, mget_filter_ne]
    split <;> rfl

@[simp] theorem mget_mset_same (m : SMap w) (x : Nat) (y : BitVec w) : mget (mset m x y) x = y := by simp [mget_mset]

theorem mget_mset_other (m : SMap w) {x a : Nat} (y : BitVec w) (ha : a ≠ x) : mget (mset m x y) a = mget m a := by
  simp [mget_mset, ha]

/-- Writing `n` bytes leaves every other byte alone. -/
theorem mget_wrN_other (m : SMap 8) (k n x : Nat) {a : Nat} (ha : a < k ∨ k + n ≤ a) :
    mget (wrN m k n x) a = mget m a := by
  induction n generalizing m k x with
  | zero => rfl
  | succ n ih =>
    unfold wrN
    rw [ih _ (k + 1) (x / 256) (by omega), mget_mset]
    simp [show ¬ a = k by omega]

/-- The bytes that were written, least significant first. -/
theorem mget_wrN_in (m : SMap 8) (k n x : Nat) {i : Nat} (hi : i < n) :
    mget (wrN m k n x) (k + i) = BitVec.ofNat 8 (x / 256 ^ i) := by
  induction n generalizing m k x i with
  | zero => omega
  | succ n ih =>
    unfold wrN
    cases i with
    | zero =>
      rw [mget_wrN_other _ (k + 1) n (x / 256) (by omega)]
      simp
    | succ i =>
      have := ih (mset m k (BitVec.ofNat 8 x)) (k + 1) (x / 256) (i := i) (by omega)
      rw [show k + (i + 1) = k + 1 + i by omega, this, Nat.div_div_eq_div_mul, pow_succ, Nat.mul_comm]

/-- A number is read from its bytes. -/
theorem rdN_of_bytes (m : SMap 8) (n j x : Nat) (h : ∀ i, i < n → mget m (j + i) = BitVec.ofNat 8 (x / 256 ^ i)) :
    rdN m j n = x % 256 ^ n := by
  induction n generalizing j x with
  | zero => simp [rdN, Nat.mod_one]
  | succ n ih =>
    unfold rdN
    have h0 := h 0 (by omega)
    simp only [Nat.add_zero, pow_zero, Nat.div_one] at h0
    rw [h0, ih (j + 1) (x / 256) ?_]
    · rw [BitVec.toNat_ofNat, Nat.pow_succ 256 n, Nat.mul_comm (256 ^ n) 256, Nat.mod_mul]
    · intro i hi
      have := h (i + 1) (by omega)
      rw [show j + 1 + i = j + (i + 1) by omega, this, pow_succ, Nat.mul_comm, Nat.div_div_eq_div_mul]

/-- Reading back what was written. -/
theorem rdN_wrN (m : SMap 8) (k n x : Nat) : rdN (wrN m k n x) k n = x % 256 ^ n :=
  rdN_of_bytes _ n k x fun _ hi => mget_wrN_in m k n x hi

/-- Reads depend on the bytes read alone. -/
theorem rdN_congr {m m' : SMap 8} (k n : Nat) (h : ∀ a, k ≤ a → a < k + n → mget m a = mget m' a) :
    rdN m k n = rdN m' k n := by
  induction n generalizing k with
  | zero => rfl
  | succ n ih =>
    unfold rdN
    rw [h k (by omega) (by omega), ih (k + 1) fun a h1 h2 => h a (by omega) (by omega)]

/-- A read beside a write. -/
theorem rdN_wrN_other (m : SMap 8) (k n x j i : Nat) (h : j + i ≤ k ∨ k + n ≤ j) :
    rdN (wrN m k n x) j i = rdN m j i :=
  rdN_congr j i fun a h1 h2 => mget_wrN_other m k n x (by omega)

/-! The canonical form -/

theorem mwfFrom_mono {lo lo' : Nat} {m : SMap w} (h : mwfFrom lo m = true) (hl : lo' ≤ lo) : mwfFrom lo' m = true := by
  cases m with
  | nil => rfl
  | cons e m =>
    obtain ⟨k, v⟩ := e
    simp only [mwfFrom, Bool.and_eq_true, decide_eq_true_eq] at h ⊢
    exact ⟨⟨by omega, h.1.2⟩, h.2⟩

theorem mwf_nil : mwf ([] : SMap w) = true := rfl

theorem mwfFrom_filter {lo : Nat} {m : SMap w} (p : Nat × BitVec w → Bool) (h : mwfFrom lo m = true) :
    mwfFrom lo (m.filter p) = true := by
  induction m generalizing lo with
  | nil => rfl
  | cons e m ih =>
    obtain ⟨k, v⟩ := e
    simp only [mwfFrom, Bool.and_eq_true, decide_eq_true_eq] at h
    rw [List.filter_cons]
    split
    · simp only [mwfFrom, Bool.and_eq_true, decide_eq_true_eq]
      exact ⟨h.1, ih h.2⟩
    · exact mwfFrom_mono (ih h.2) (by omega)

theorem mwf_filter {m : SMap w} (p : Nat × BitVec w → Bool) (h : mwf m = true) : mwf (m.filter p) = true :=
  mwfFrom_filter p h

theorem mwf_mclear {m : SMap w} (lo hi : Nat) (h : mwf m = true) : mwf (mclear m lo hi) = true := mwf_filter _ h

theorem mwfFrom_mins {lo : Nat} {m : SMap w} (x : Nat) (y : BitVec w) (hy : y ≠ 0) (h : mwfFrom lo m = true) (hx : lo ≤ x)
    (hn : ∀ e ∈ m, e.1 ≠ x) : mwfFrom lo (mins m x y) = true := by
  induction m generalizing lo with
  | nil =>
    simp only [mins, mwfFrom, Bool.and_eq_true, decide_eq_true_eq, bne_iff_ne]
    exact ⟨⟨hx, hy⟩, trivial⟩
  | cons e m ih =>
    obtain ⟨k, v⟩ := e
    have hk : k ≠ x := hn (k, v) (by simp)
    simp only [mwfFrom, Bool.and_eq_true, decide_eq_true_eq, bne_iff_ne] at h
    unfold mins
    split
    · simp only [mwfFrom, Bool.and_eq_true, decide_eq_true_eq, bne_iff_ne]
      exact ⟨⟨hx, hy⟩, ⟨by omega, h.1.2⟩, h.2⟩
    · simp only [mwfFrom, Bool.and_eq_true, decide_eq_true_eq, bne_iff_ne]
      exact ⟨h.1, ih h.2 (by omega) fun e he => hn e (by simp [he])⟩

/-- A write keeps the canonical form. -/
theorem mwf_mset {m : SMap w} (x : Nat) (y : BitVec w) (h : mwf m = true) : mwf (mset m x y) = true := by
  unfold mset
  by_cases hy : y = 0
  · simp only [hy, if_true]
    exact mwf_filter _ h
  · simp only [hy, if_false]
    exact mwfFrom_mins x y hy (mwf_filter _ h) (Nat.zero_le _)
      fun e he => by simpa using (List.mem_filter.mp he).2

/-- Writing bytes keeps the canonical form. -/
theorem mwf_wrN {m : SMap 8} (k n x : Nat) (h : mwf m = true) : mwf (wrN m k n x) = true := by
  induction n generalizing m k x with
  | zero => exact h
  | succ n ih => exact ih _ _ (mwf_mset _ _ h)

/-- A key below every listed key reads as zero. -/
theorem mget_below {lo x : Nat} {m : SMap w} (h : mwfFrom lo m = true) (hx : x < lo) : mget m x = 0 := by
  induction m generalizing lo with
  | nil => rfl
  | cons e m ih =>
    obtain ⟨k, v⟩ := e
    simp only [mwfFrom, Bool.and_eq_true, decide_eq_true_eq] at h
    have h1 : x ≠ k := by omega
    simp only [mget, h1, if_false]
    exact ih h.2 (by omega)

/-- Maps in canonical form that read alike are equal. -/
theorem mwf_ext {m m' : SMap w} (h : mwf m = true) (h' : mwf m' = true) (e : ∀ a, mget m a = mget m' a) : m = m' := by
  have key : ∀ (m m' : SMap w) (lo lo' : Nat), mwfFrom lo m = true → mwfFrom lo' m' = true → (∀ a, mget m a = mget m' a) → m = m' := by
    intro m
    induction m with
    | nil =>
      intro m' lo lo' _ h' e
      cases m' with
      | nil => rfl
      | cons y m' =>
        obtain ⟨k, v⟩ := y
        simp only [mwfFrom, Bool.and_eq_true, decide_eq_true_eq, bne_iff_ne] at h'
        have := e k
        simp [mget] at this
        exact absurd this.symm h'.1.2
    | cons x m ih =>
      intro m' lo lo' h h' e
      obtain ⟨k, v⟩ := x
      simp only [mwfFrom, Bool.and_eq_true, decide_eq_true_eq, bne_iff_ne] at h
      cases m' with
      | nil =>
        have := e k
        simp [mget] at this
        exact absurd this h.1.2
      | cons y m' =>
        obtain ⟨k', v'⟩ := y
        simp only [mwfFrom, Bool.and_eq_true, decide_eq_true_eq, bne_iff_ne] at h'
        have e1 := e k
        have e2 := e k'
        simp only [mget, if_true] at e1 e2
        have hk : k = k' := by
          by_contra hne
          rcases Nat.lt_or_gt_of_ne hne with hlt | hgt
          · rw [if_neg hne, mget_below h'.2 (by omega)] at e1; exact h.1.2 e1
          · rw [if_neg (Ne.symm hne), mget_below h.2 (by omega)] at e2; exact h'.1.2 e2.symm
        subst hk
        simp only [if_true] at e1
        subst e1
        congr 1
        refine ih m' (k + 1) (k + 1) h.2 h'.2 fun a => ?_
        by_cases ha : a ≤ k
        · rw [mget_below h.2 (by omega), mget_below h'.2 (by omega)]
        · have := e a
          simp only [mget, show ¬ a = k by omega, if_false] at this
          exact this
  exact key m m' 0 0 h h' e

end Sys2Proof.Machine
end

