-- ==== Sys2Proof/Laws/Issue.lean ====
section
/-! SUPPORT. What issuing an instruction does, and what a form that writes registers does: the lemmas that the statements
about single instructions cite. -/

namespace Sys2Proof.Machine

/-! Issuing -/

@[simp] theorem touch_bare (p : Path) (m : W64) (ws : List Reg) : (p.touch m ws).bare = p.bare := by
  unfold Path.touch; split <;> rfl

@[simp] theorem loses_bare (p : Path) (n : Nat) : (p.loses n).bare = p.bare := by
  unfold Path.loses; extract_lets mine; split <;> rfl

@[simp] theorem meets_bare (q w : Path) (n : Nat) : (q.meets w n).bare = q.bare := by
  unfold Path.meets; extract_lets q' earlier
  have h : q'.bare = q.bare := touch_bare q 0 _
  repeat' split
  all_goals first | exact h | exact (loses_bare _ n).trans h

theorem map_bare_meets (ps : List Path) (w : Path) (n : Nat) : (ps.map fun q => q.meets w n).map Path.bare = ps.map Path.bare := by
  rw [List.map_map]; exact List.map_congr_left fun p _ => meets_bare p w n

theorem fbIssue_shape (s : State) (i : Instr) : ∃ fb, s.fbIssue i = { s with path := { s.path with fb := fb } } := by
  unfold State.fbIssue
  extract_lets act ws
  split
  · exact ⟨s.path.fb, rfl⟩
  · exact ⟨_, rfl⟩

/-- All that issuing changes: the word, the age, the flashback point, the writes that it loses (R111), the counters. -/
theorem begin_shape (s : State) (i : Instr) : ∃ fb st perf,
    s.begin i = { s with path := { s.path with fb := fb, ir := some i, age := 0, status := st, stepped := s.path.stepBit, lost := s.path.under, under := [] },
                         core := { s.core with perf := perf } } := by
  obtain ⟨fb, h⟩ := fbIssue_shape s i
  unfold State.begin
  simp only [h]
  exact ⟨fb, _, _, rfl⟩

section
variable (s : State) (i : Instr)

@[simp] theorem begin_dom : (s.begin i).dom = s.dom := by obtain ⟨_, _, _, h⟩ := begin_shape s i; rw [h]
@[simp] theorem begin_kind : (s.begin i).kind = s.kind := by obtain ⟨_, _, _, h⟩ := begin_shape s i; rw [h]
@[simp] theorem begin_doms : (s.begin i).doms = s.doms := by obtain ⟨_, _, _, h⟩ := begin_shape s i; rw [h]
@[simp] theorem begin_block : (s.begin i).block = s.block := by obtain ⟨_, _, _, h⟩ := begin_shape s i; rw [h]
@[simp] theorem begin_v : (s.begin i).wave.v = s.wave.v := by obtain ⟨_, _, _, h⟩ := begin_shape s i; rw [h]
@[simp] theorem begin_s : (s.begin i).wave.s = s.wave.s := by obtain ⟨_, _, _, h⟩ := begin_shape s i; rw [h]
@[simp] theorem begin_q : (s.begin i).wave.q = s.wave.q := by obtain ⟨_, _, _, h⟩ := begin_shape s i; rw [h]
@[simp] theorem begin_mask : (s.begin i).path.mask = s.path.mask := by obtain ⟨_, _, _, h⟩ := begin_shape s i; rw [h]
@[simp] theorem begin_pc : (s.begin i).path.pc = s.path.pc := by obtain ⟨_, _, _, h⟩ := begin_shape s i; rw [h]
@[simp] theorem begin_fmt : (s.begin i).path.fmt = s.path.fmt := by obtain ⟨_, _, _, h⟩ := begin_shape s i; rw [h]
@[simp] theorem begin_flags : (s.begin i).path.flags = s.path.flags := by obtain ⟨_, _, _, h⟩ := begin_shape s i; rw [h]
@[simp] theorem begin_pid : (s.begin i).path.pid = s.path.pid := by obtain ⟨_, _, _, h⟩ := begin_shape s i; rw [h]
@[simp] theorem begin_stack : (s.begin i).path.stack = s.path.stack := by obtain ⟨_, _, _, h⟩ := begin_shape s i; rw [h]
@[simp] theorem begin_stepBit : (s.begin i).path.stepBit = s.path.stepBit := by obtain ⟨_, _, _, h⟩ := begin_shape s i; rw [h]
@[simp] theorem begin_lost : (s.begin i).path.lost = s.path.under := by obtain ⟨_, _, _, h⟩ := begin_shape s i; rw [h]
@[simp] theorem begin_wave : (s.begin i).wave = s.wave := by obtain ⟨_, _, _, h⟩ := begin_shape s i; rw [h]
@[simp] theorem begin_width : (s.begin i).wave.width = s.wave.width := by obtain ⟨_, _, _, h⟩ := begin_shape s i; rw [h]

@[simp] theorem begin_kept : (s.begin i).path.kept = s.path.kept := by obtain ⟨_, _, _, h⟩ := begin_shape s i; rw [h]
@[simp] theorem begin_seen : (s.begin i).path.seen = s.path.seen := by obtain ⟨_, _, _, h⟩ := begin_shape s i; rw [h]

@[simp] theorem begin_vGet (l n : Nat) : (s.begin i).wave.vGet l n = s.wave.vGet l n := by simp [Wave.vGet]
@[simp] theorem begin_sGet (n : Nat) : (s.begin i).wave.sGet n = s.wave.sGet n := by simp [Wave.sGet]
@[simp] theorem begin_sVal (n : Nat) : (s.begin i).sVal n = s.sVal n := by simp [State.sVal]
@[simp] theorem begin_qGet (l n : Nat) : (s.begin i).wave.qGet l n = s.wave.qGet l n := by simp [Wave.qGet]
@[simp] theorem begin_wGet (l n : Nat) : (s.begin i).wave.wGet l n = s.wave.wGet l n := by simp [Wave.wGet]
@[simp] theorem begin_guard (h : Hdr) : (s.begin i).guard h = s.guard h := by simp [State.guard]

@[simp] theorem begin_special (l : Nat) (r : SReg) : (s.begin i).special l r = s.special l r := by
  obtain ⟨_, _, _, h⟩ := begin_shape s i
  rw [h]; cases r <;> rfl

/-- Issuing changes no operand. -/
@[simp] theorem begin_rd (wide : Bool) (l : Nat) (o : Opnd) : (s.begin i).rd wide l o = s.rd wide l o := by
  cases o <;> simp [State.rd]

@[simp] theorem begin_src (t : ITy) (l : Nat) (o : Opnd) : (s.begin i).src t l o = s.src t l o := by simp [State.src]
@[simp] theorem begin_bits (t : ITy) (l : Nat) (o : Opnd) : (s.begin i).bits t l o = s.bits t l o := by simp [State.bits]
@[simp] theorem begin_uni (o : Opnd) : (s.begin i).uni o = s.uni o := by simp [State.uni]
@[simp] theorem begin_pred (l : Nat) (o : Opnd) : (s.begin i).pred l o = s.pred l o := by simp [State.pred]
@[simp] theorem begin_addr (l : Nat) (x : Idx) (a b : Opnd) : (s.begin i).addr l x a b = s.addr l x a b := by
  cases b <;> simp [State.addr]
@[simp] theorem begin_carryIn (l : Nat) (c : Opnd) : (s.begin i).carryIn l c = s.carryIn l c := by
  cases c <;> simp [State.carryIn]

end

/-- What `runs` says, part by part. -/
theorem runs_iff (s : State) (i : Instr) : s.runs i = true ↔
    s.kind = .path ∧ s.refuses i = none ∧ s.path.strayed i = false ∧ s.blockedBy i = none ∧ legalPc (nextPc s.path.pc) = true := by
  simp [State.runs, and_assoc]

/-- R88: an instruction that runs is well formed. -/
theorem runs_wf {s : State} {i : Instr} (h : s.runs i = true) : i.wf = true := by
  have h2 := ((runs_iff s i).mp h).2.1
  unfold State.refuses at h2
  by_contra hw
  simp only [Bool.not_eq_true] at hw
  simp only [hw] at h2
  split at h2 <;> try simp at h2
  split at h2 <;> simp at h2

/-- Of an instruction that runs, the answer is what its body makes of the issued state. -/
theorem vec_runs {s : State} {i : Instr} (f : State → State) (h : s.runs i = true) :
    vec i s f = .next (f (s.begin i)) := by
  obtain ⟨h1, h2, h3, h4, h5⟩ := (runs_iff s i).mp h
  simp [vec, State.issueVec, h1, h2, h3, h4, h5]

/-- All that going on changes in a path. -/
theorem goto_shape (p : Path) (pc : W64) : ∃ ws,
    p.goto pc = { p with pc := pc, ir := none, status := .running, age := 0, again := false, kept := none, windows := ws } := by
  unfold Path.goto Path.tick
  simp only
  repeat' split
  all_goals exact ⟨_, rfl⟩

theorem advance_legal {s : State} (h : legalPc (nextPc s.path.pc) = true) :
    s.advance = { s with path := s.path.goto (nextPc s.path.pc) } := by simp [State.advance, h]

/-! Writing registers -/

theorem mem_lanesOf {m : W64} {l : Nat} : l ∈ lanesOf m ↔ l < 64 ∧ hasLane m l = true := by
  simp [lanesOf, hasLane]

theorem nodup_lanesOf (m : W64) : (lanesOf m).Nodup := List.Nodup.filter _ List.nodup_range

theorem lanesOf_eq_nil {m : W64} : lanesOf m = [] ↔ m = 0 := by
  constructor
  · intro h
    refine BitVec.eq_of_getLsbD_eq fun l hl => ?_
    by_contra hne
    have : l ∈ lanesOf m := mem_lanesOf.mpr ⟨hl, by cases hb : m.getLsbD l with | true => exact hb | false => exact absurd (by rw [hb]; simp) hne⟩
    simp [h] at this
  · rintro rfl; rfl

/-- A fold over lanes in which each lane writes its own part: what a read of lane `l` finds. -/
theorem foldl_lane {α : Type} (g : Wave → α) (f : Wave → Nat → Wave) (l : Nat) (x : α)
    (hl : ∀ w, g (f w l) = x) (ho : ∀ w k, k < 64 → k ≠ l → g (f w k) = g w) (ls : List Nat) (hls : ∀ k ∈ ls, k < 64) (w : Wave) :
    g (ls.foldl f w) = if l ∈ ls then x else g w := by
  induction ls generalizing w with
  | nil => simp
  | cons k ls ih =>
    simp only [List.foldl_cons]
    rw [ih (fun j hj => hls j (by simp [hj]))]
    by_cases hk : k = l
    · subst hk; simp [hl]
    · rw [ho w k (hls k (by simp)) hk]
      simp [Ne.symm hk]

theorem foldl_keep {α β : Type} (g : β → α) (f : β → Nat → β) (h : ∀ w k, g (f w k) = g w) (ls : List Nat) (w : β) :
    g (ls.foldl f w) = g w := by
  induction ls generalizing w with
  | nil => rfl
  | cons k ls ih => simp only [List.foldl_cons]; rw [ih, h]

theorem vGet_vSet (w : Wave) (l n l' n' : Nat) (x : W32) (hn : n < 256) (hn' : n' < 256) :
    (w.vSet l n x).vGet l' n' = if l' = l ∧ n' = n then x else w.vGet l' n' := by
  simp only [Wave.vSet, Wave.vGet, mget_mset]
  by_cases h : l' = l ∧ n' = n
  · simp [h.1, h.2]
  · rw [if_neg h, if_neg]; omega

@[simp] theorem sGet_vSet (w : Wave) (l n k : Nat) (x : W32) : (w.vSet l n x).sGet k = w.sGet k := rfl
@[simp] theorem qGet_vSet (w : Wave) (l n l' k : Nat) (x : W32) : (w.vSet l n x).qGet l' k = w.qGet l' k := rfl
@[simp] theorem vGet_sSet (w : Wave) (n l k : Nat) (x : W64) : (w.sSet n x).vGet l k = w.vGet l k := rfl
@[simp] theorem qGet_sSet (w : Wave) (n l k : Nat) (x : W64) : (w.sSet n x).qGet l k = w.qGet l k := rfl
theorem sGet_sSet (w : Wave) (n k : Nat) (x : W64) : (w.sSet n x).sGet k = if k = n then x else w.sGet k := by
  simp [Wave.sSet, Wave.sGet, mget_mset]
@[simp] theorem vGet_qSet (w : Wave) (l n l' k : Nat) (x : Bool) : (w.qSet l n x).vGet l' k = w.vGet l' k := by
  unfold Wave.qSet; split <;> rfl
@[simp] theorem sGet_qSet (w : Wave) (l n k : Nat) (x : Bool) : (w.qSet l n x).sGet k = w.sGet k := by
  unfold Wave.qSet; split <;> rfl

/-- R74, R107: a predicate after a write; q7 reads true. -/
theorem qGet_qSet (w : Wave) (l n l' n' : Nat) (x : Bool) (hn : n < 8) (hn' : n' < 8) :
    (w.qSet l n x).qGet l' n' = if l' = l ∧ n' = n ∧ n' ≠ 7 then x else w.qGet l' n' := by
  unfold Wave.qSet
  by_cases h7 : n = 7
  · subst h7
    rw [if_pos rfl, if_neg]; omega
  · simp only [h7, if_false, Wave.qGet, mget_mset]
    by_cases h : l' = l ∧ n' = n
    · obtain ⟨rfl, rfl⟩ := h
      cases x <;> simp [h7]
    · have : ¬ 8 * l' + n' = 8 * l + n := by omega
      simp only [this, if_false]
      rw [if_neg]; omega

/-- The destination is one that a form of this width may write. -/
def fits (d : Opnd) (wide : Bool) : Bool :=
  match d with
  | .v k => !wide || even8 k
  | _ => true

theorem fits_v {k : BitVec 8} (h : fits (.v k) true = true) : k.toNat + 1 < 256 := by
  simp only [fits, Bool.not_true, Bool.false_or, even8, beq_iff_eq] at h
  omega

theorem putLane_vGet (w : Wave) (wide : Bool) (l l' n : Nat) (d : Opnd) (x : W64) (hf : fits d wide = true) (hn : n < 256) :
    (w.putLane wide l d x).vGet l' n = match halfOf d wide n with
      | some k => if l' = l then x.extractLsb' k 32 else w.vGet l' n
      | none => w.vGet l' n := by
  have lo : x.setWidth 32 = x.extractLsb' 0 32 := by ext; simp
  cases d with
  | v k =>
    have hk := k.isLt
    cases wide with
    | false =>
      simp only [Wave.putLane, halfOf, Bool.false_eq_true, if_false, false_and]
      rw [vGet_vSet _ _ _ _ _ _ (by omega) hn, lo]
      by_cases h : n = k.toNat <;> simp [h]
    | true =>
      have hk1 := fits_v hf
      simp only [Wave.putLane, halfOf, if_true, true_and]
      rw [vGet_vSet _ _ _ _ _ _ hk1 hn, vGet_vSet _ _ _ _ _ _ (by omega) hn, lo]
      by_cases h : n = k.toNat
      · subst h; simp
      · by_cases h1 : n = k.toNat + 1 <;> simp [h, h1]
  | pair k =>
    have hk := k.isLt
    simp only [Wave.putLane, halfOf]
    rw [vGet_vSet _ _ _ _ _ _ (by omega) hn, vGet_vSet _ _ _ _ _ _ (by omega) hn, lo]
    by_cases h : n = 2 * k.toNat
    · subst h; simp
    · by_cases h1 : n = 2 * k.toNat + 1 <;> simp [h, h1]
  | q k => simp [Wave.putLane, halfOf]
  | _ => rfl

theorem putLane_sGet (w : Wave) (wide : Bool) (l n : Nat) (d : Opnd) (x : W64) : (w.putLane wide l d x).sGet n = w.sGet n := by
  cases d with
  | v k => cases wide <;> rfl
  | q k => simp [Wave.putLane]
  | _ => rfl

theorem putLane_qGet (w : Wave) (wide : Bool) (l l' n : Nat) (d : Opnd) (x : W64) (hn : n < 8) :
    (w.putLane wide l d x).qGet l' n =
      if l' = l ∧ n ≠ 7 ∧ (∃ k, d = .q k ∧ n = k.toNat) then x != 0 else w.qGet l' n := by
  cases d with
  | v k => cases wide <;> simp [Wave.putLane]
  | q k =>
    have hk := k.isLt
    simp only [Wave.putLane]
    rw [qGet_qSet _ _ _ _ _ _ (by omega) hn]
    congr 1
    simp only [Opnd.q.injEq, eq_iff_iff]
    constructor
    · rintro ⟨h1, h2, h3⟩; exact ⟨h1, h3, k, rfl, h2⟩
    · rintro ⟨h1, h3, k', e, h2⟩; subst e; exact ⟨h1, h2, h3⟩
  | _ => simp [Wave.putLane]

/-- All that writing a lane changes in a wave. -/
theorem putLane_shape (w : Wave) (wide : Bool) (l : Nat) (d : Opnd) (x : W64) :
    w.putLane wide l d x = { w with v := (w.putLane wide l d x).v, q := (w.putLane wide l d x).q } := by
  cases d with
  | v k => cases wide <;> rfl
  | q k => simp only [Wave.putLane, Wave.qSet]; split <;> rfl
  | _ => rfl

theorem lowLane_mem {m : W64} (h : m ≠ 0) : lowLane m ∈ lanesOf m := by
  unfold lowLane
  cases hl : lanesOf m with
  | nil => exact absurd (lanesOf_eq_nil.mp hl) h
  | cons a t => simp

/-- R111: an s register after an instruction has written it: the write stands, unless one that comes later has made its own. -/
theorem sPut_sGet (s : State) (n k : Nat) (x : W64) :
    (s.sPut n x).wave.sGet k = if k = n ∧ k ∉ s.path.lost then x else s.wave.sGet k := by
  unfold State.sPut
  by_cases h : n ∈ s.path.lost
  · rw [if_pos (by simpa using h), if_neg]; rintro ⟨rfl, hk⟩; exact hk h
  · rw [if_neg (by simpa using h)]
    show (s.wave.sSet n x).sGet k = _
    rw [sGet_sSet]
    by_cases hk : k = n
    · subst hk; simp [h]
    · simp [hk]

/-- All that the write of an s register can change. -/
theorem sPut_shape (s : State) (n : Nat) (x : W64) :
    ∃ r ps, s.sPut n x = { s with wave := { s.wave with s := r, paths := ps } } ∧ ps.map Path.bare = s.wave.paths.map Path.bare := by
  unfold State.sPut
  split
  · exact ⟨s.wave.s, s.wave.paths, rfl, rfl⟩
  · exact ⟨_, _, rfl, map_bare_meets _ _ _⟩

/-- Writing D in the lanes `m`: every register afterwards. -/
theorem put_wrote (s : State) (wide : Bool) (m : W64) (d : Opnd) (f : Nat → W64) (hf : fits d wide = true) :
    s.Wrote (s.put wide m d f) m wide d f := by
  have hls : ∀ k ∈ lanesOf m, k < 64 := fun k hk => (mem_lanesOf.mp hk).1
  by_cases hs : ∃ k, d = .s k
  · obtain ⟨k, rfl⟩ := hs
    have hput : s.put wide m (.s k) f = if m = 0 then s else s.sPut k.toNat (f (lowLane m)) := rfl
    obtain ⟨r, ps, hsh, -⟩ := sPut_shape s k.toNat (f (lowLane m))
    refine ⟨fun l n _ _ => ?_, fun n => ?_, fun l n _ _ => ?_⟩
    · rw [hput]; simp only [halfOf]; split
      · rfl
      · rw [hsh]; rfl
    · rw [hput]
      by_cases hm : m = 0
      · simp [hm]
      · simp only [hm, if_false, sPut_sGet, ne_eq, not_false_eq_true, true_and, Opnd.s.injEq]
        congr 1
        simp
    · rw [hput]; split
      · simp
      · rw [hsh]; simp [Wave.qGet]
  · have hput : s.put wide m d f = { s with wave := (lanesOf m).foldl (fun w l => w.putLane wide l d (f l)) s.wave } := by
      cases d <;> first | rfl | exact absurd ⟨_, rfl⟩ hs
    rw [hput]
    refine ⟨fun l n hl hn => ?_, fun n => ?_, fun l n hl hn => ?_⟩
    · simp only
      cases hh : halfOf d wide n with
      | none =>
        rw [foldl_keep (fun w => Wave.vGet w l n)]
        intro w k
        rw [putLane_vGet _ _ _ _ _ _ _ hf hn, hh]
      | some k =>
        rw [foldl_lane (fun w => Wave.vGet w l n) _ l ((f l).extractLsb' k 32) _ _ _ hls]
        · simp [mem_lanesOf, hl]
        · intro w; rw [putLane_vGet _ _ _ _ _ _ _ hf hn, hh]; simp
        · intro w j _ hj; rw [putLane_vGet _ _ _ _ _ _ _ hf hn, hh]; simp [Ne.symm hj]
    · simp only
      rw [foldl_keep (fun w => Wave.sGet w n) _ (fun w k => putLane_sGet ..)]
      rw [if_neg]
      rintro ⟨-, ⟨k, hk, -⟩, -⟩
      exact hs ⟨k, hk⟩
    · simp only
      by_cases hq : n ≠ 7 ∧ ∃ k, d = .q k ∧ n = k.toNat
      · rw [foldl_lane (fun w => Wave.qGet w l n) _ l (f l != 0) _ _ _ hls]
        · simp [mem_lanesOf, hl, hq]
        · intro w; rw [putLane_qGet _ _ _ _ _ _ _ hn, if_pos ⟨rfl, hq⟩]
        · intro w j _ hj; rw [putLane_qGet _ _ _ _ _ _ _ hn, if_neg (fun h => hj h.1.symm)]
      · rw [foldl_keep (fun w => Wave.qGet w l n)]
        · rw [if_neg (fun h => hq h.2)]
        · intro w k; rw [putLane_qGet _ _ _ _ _ _ _ hn, if_neg (fun h => hq h.2)]

/-- All that writing D changes. -/
theorem put_shape (s : State) (wide : Bool) (m : W64) (d : Opnd) (f : Nat → W64) :
    ∃ v r q ps, s.put wide m d f = { s with wave := { s.wave with v := v, s := r, q := q, paths := ps } } ∧
      ps.map Path.bare = s.wave.paths.map Path.bare := by
  have fold : ∀ (ls : List Nat) (w : Wave), ∃ v q, ls.foldl (fun w l => w.putLane wide l d (f l)) w = { w with v := v, q := q } := by
    intro ls
    induction ls with
    | nil => intro w; exact ⟨_, _, rfl⟩
    | cons k ls ih =>
      intro w
      obtain ⟨v, q, h⟩ := ih (w.putLane wide k d (f k))
      refine ⟨v, q, ?_⟩
      rw [List.foldl_cons, h, putLane_shape]
  unfold State.put
  split
  · split
    · exact ⟨s.wave.v, s.wave.s, s.wave.q, s.wave.paths, rfl, rfl⟩
    · obtain ⟨r, ps, h, hps⟩ := sPut_shape s _ _
      exact ⟨s.wave.v, r, s.wave.q, ps, h, hps⟩
  · obtain ⟨v, q, h⟩ := fold (lanesOf m) s.wave
    exact ⟨v, s.wave.s, q, s.wave.paths, by rw [h], rfl⟩

theorem Wrote_congr {s s' u u' : State} {m : W64} {wide : Bool} {d : Opnd} {f : Nat → W64} (h : s.Wrote u m wide d f)
    (hl : s'.path.lost = s.path.lost) (hv : s'.wave.v = s.wave.v) (hs : s'.wave.s = s.wave.s) (hq : s'.wave.q = s.wave.q)
    (hv' : u'.wave.v = u.wave.v) (hs' : u'.wave.s = u.wave.s) (hq' : u'.wave.q = u.wave.q) : s'.Wrote u' m wide d f := by
  simpa only [State.Wrote, Wave.vGet, Wave.sGet, Wave.qGet, hl, hv, hs, hq, hv', hs', hq'] using h

/-- A form whose body writes D in the lanes `m`, ORs flags into FLAGS and goes on: what it answers. -/
theorem gives_of_put {s : State} {i : Instr} {m : W64} {wide : Bool} {d : Opnd} {val : Nat → W64} {fl : W32}
    {body : State → State} (hr : s.runs i = true) (hf : fits d wide = true) (he : exec i s = vec i s body)
    (hb : body (s.begin i) =
      (({ s.begin i with path := { (s.begin i).path with flags := fl } } : State).put wide m d val).advance) :
    s.Gives i m wide d val fl := by
  have h6 := ((runs_iff s i).mp hr).2.2.2.2
  obtain ⟨fb, st, perf, hs⟩ := begin_shape s i
  unfold State.Gives
  rw [he, vec_runs _ hr, hb, hs]
  obtain ⟨c, hc⟩ : ∃ c : State, c = { s with path := { s.path with fb := fb, ir := some i, age := 0, status := st, stepped := s.path.stepBit, lost := s.path.under, under := [], flags := fl },
                                             core := { s.core with perf := perf } } := ⟨_, rfl⟩
  have hc' : ({ s with path := { s.path with fb := fb, ir := some i, age := 0, status := st, stepped := s.path.stepBit, lost := s.path.under, under := [], flags := fl },
                       core := { s.core with perf := perf } } : State) = c := hc.symm
  simp only [hc']
  obtain ⟨v, r, q, ps, hp, hps⟩ := put_shape c wide m d val
  have hw := put_wrote c wide m d val hf
  have hpc : c.path.pc = s.path.pc := by rw [hc]
  rw [hp] at hw ⊢
  rw [advance_legal (by simp only [hpc]; exact h6)]
  obtain ⟨ws, hg⟩ := goto_shape c.path (nextPc c.path.pc)
  rw [hg]
  refine ⟨_, rfl, ?_, ?_, ?_, ?_, ?_, ?_⟩
  · simp only [hpc]
  · exact Wrote_congr hw (by rw [hc]; rfl) (by rw [hc]; rfl) (by rw [hc]; rfl) (by rw [hc]; rfl) rfl rfl rfl
  · rw [hc]
  · rw [hc]
  · rw [hc]
  · rw [hps, hc]

/-- The same for a form that leaves FLAGS alone. -/
theorem gives_of_put_same {s : State} {i : Instr} {m : W64} {wide : Bool} {d : Opnd} {val : Nat → W64}
    {body : State → State} (hr : s.runs i = true) (hf : fits d wide = true) (he : exec i s = vec i s body)
    (hb : body (s.begin i) = ((s.begin i).put wide m d val).advance) : s.Gives i m wide d val s.path.flags := by
  refine gives_of_put hr hf he ?_
  rw [hb]
  have h := begin_flags s i
  generalize s.begin i = b at h
  rw [← h]

/-- An integer form over the values of its lanes. -/
theorem computes_of {s : State} {i : Instr} {t : ITy} {o : Args} {g : State → Nat → Int} {f : Nat → Int}
    (he : exec i s = vec i s fun s => s.compute o t (g s)) (hd : i.wf = true → fits o.d t.wide = true)
    (hg : ∀ l, g (s.begin i) l = f l) : s.Computes i t o f := by
  intro hr
  refine gives_of_put_same hr (hd (runs_wf hr)) he ?_
  have : g (s.begin i) = f := funext hg
  simp only [State.compute, State.putTy, begin_guard, this]
  congr 2

/-- Only what a result leaves in the destination counts. -/
theorem computes_congr {s : State} {i : Instr} {t : ITy} {o : Args} {f g : Nat → Int} (h : s.Computes i t o f)
    (e : ∀ l, typedResult t o.d (f l) = typedResult t o.d (g l)) : s.Computes i t o g := by
  intro hr
  have := h hr
  rwa [show (fun l => typedResult t o.d (f l)) = fun l => typedResult t o.d (g l) from funext e] at this

theorem fits_of_dstQ {t : ITy} {d : Opnd} (h : Opnd.dstQ t d = true) : fits d t.wide = true := by
  cases d <;> simp_all [fits, Opnd.dstQ, Opnd.dst, Opnd.isQ]

/-- A form whose body changes the path by `f` and sends it to `pc`. -/
theorem moves_of_goto {s : State} {i : Instr} {body : State → State} (f : Path → Path) (pc : W64)
    (hr : s.runs i = true) (he : exec i s = vec i s body)
    (hb : body (s.begin i) = { s.begin i with path := (f (s.begin i).path).goto pc })
    (hf : ∀ p fb st sd lo, f { p with fb := fb, ir := some i, age := 0, status := st, stepped := sd, lost := lo, under := [] } =
      { f p with fb := (f { p with fb := fb, ir := some i, age := 0, status := st, stepped := sd, lost := lo, under := [] }).fb, ir := some i,
                 age := 0, status := st, stepped := sd, lost := lo, under := [] }) :
    s.Moves i { f s.path with pc := pc } := by
  obtain ⟨fb, st, perf, hs⟩ := begin_shape s i
  unfold State.Moves
  rw [he, vec_runs _ hr, hb]
  obtain ⟨ws, hg⟩ := goto_shape (f (s.begin i).path) pc
  rw [hg, hs]
  simp only
  have e := hf s.path fb st s.path.stepBit s.path.under
  refine ⟨_, rfl, rfl, ?_, rfl⟩
  simp only
  rw [e]

/-- A form whose body changes the path by `f` and goes on in sequence. -/
theorem moves_of_advance {s : State} {i : Instr} {body : State → State} (f : Path → Path)
    (hr : s.runs i = true) (he : exec i s = vec i s body)
    (hb : body (s.begin i) = ({ s.begin i with path := f (s.begin i).path } : State).advance)
    (hf : ∀ p fb st sd lo, f { p with fb := fb, ir := some i, age := 0, status := st, stepped := sd, lost := lo, under := [] } =
      { f p with fb := (f { p with fb := fb, ir := some i, age := 0, status := st, stepped := sd, lost := lo, under := [] }).fb, ir := some i,
                 age := 0, status := st, stepped := sd, lost := lo, under := [] })
    (hpc : ∀ p, (f p).pc = p.pc) :
    s.Moves i { f s.path with pc := nextPc s.path.pc } := by
  refine moves_of_goto f _ hr he ?_ hf
  have h6 := ((runs_iff s i).mp hr).2.2.2.2
  rw [hb, advance_legal]
  · simp only [hpc, begin_pc]
  · simp only [hpc, begin_pc]; exact h6

end Sys2Proof.Machine
end

