-- ==== Sys2Proof/Laws/Mem.lean ====
section
/-! SUPPORT. Every memory operation keeps the memories in canonical form. -/

namespace Sys2Proof.Machine

/-- The memories of a state: the host's, the fabric's, the focused domain's, the others'. -/
def State.mems (s : State) : SMap 8 × SMap 8 × SMap 8 × List (SMap 8) := (s.hostMem, s.fabricMem, s.dom.mem, s.doms.map (·.mem))

theorem canonical_iff (s : State) : s.canonical ↔
    mwf s.mems.1 = true ∧ mwf s.mems.2.1 = true ∧ mwf s.mems.2.2.1 = true ∧ ∀ m ∈ s.mems.2.2.2, mwf m = true := by
  simp [State.canonical, State.mems]

theorem canonical_congr {s t : State} (h : t.mems = s.mems) (hs : s.canonical) : t.canonical := by
  rw [canonical_iff, h, ← canonical_iff]; exact hs

/-! A domain -/

theorem markToken_mem (d : Dom) (sec : Nat) (m : TokMark) : (d.markToken sec m).mem = d.mem := by
  unfold Dom.markToken; cases m <;> rfl

theorem mwf_pull {d : Dom} (sec : Nat) (h : mwf d.mem = true) : mwf (d.pull sec).mem = true := by
  have fold : ∀ (l : List L1Sector) (d : Dom), mwf d.mem = true → mwf (l.foldl (fun (d : Dom) x =>
      { d.markToken sec x.mark with mem := wrN d.mem (sec * 64) 64 x.data.toNat }) d).mem = true := by
    intro l
    induction l with
    | nil => exact fun d h => h
    | cons x l ih => exact fun d h => ih _ (mwf_wrN _ _ _ h)
  simp only [Dom.pull]
  split
  · exact fold _ _ h
  · exact h

theorem hitMonitors_mem (d : Dom) (sec : Nat) : (d.hitMonitors sec).mem = d.mem := rfl

theorem seeWrite_mem (d : Dom) (sec : Nat) (f : Nat → Nat → Nat) : (d.seeWrite sec f).mem = d.mem := rfl

theorem mwf_setBit {d : Dom} (a k : Nat) (h : mwf d.mem = true) : mwf (d.setBit a k).mem = true := by
  unfold Dom.setBit
  extract_lets e mem f
  have hm : mwf mem = true := mwf_mset _ _ (mwf_pull _ h)
  split
  · exact h
  · split
    · exact hm
    · exact hm

theorem mwf_setDirty {d : Dom} (key : Nat) (h : mwf d.mem = true) : mwf (d.setDirty key).mem = true := by
  unfold Dom.setDirty
  extract_lets base set f a own e
  have he : mwf e.mem = true := mwf_setBit _ _ h
  repeat' split
  · exact h
  · exact mwf_setBit _ _ he
  · exact he

theorem deferAD_mem (d : Dom) (addr seen : Nat) (w : Bool) : (d.deferAD addr seen w).mem = d.mem := rfl

theorem mwf_setAD {d : Dom} (addr : Nat) (w : Bool) (h : mwf d.mem = true) : mwf (d.setAD addr w).mem = true := by
  unfold Dom.setAD
  extract_lets e x d' mem
  split
  · exact h
  split
  · exact (deferAD_mem _ _ _ _).symm ▸ h
  · refine mwf_wrN _ _ _ ?_
    rw [hitMonitors_mem, markToken_mem]
    exact mwf_setDirty _ (mwf_pull _ h)

theorem tlbFill_mem (d : Dom) (c : Nat) (t : BitVec 8) (va : W64) (l : Leaf) : (d.tlbFill c t va l).mem = d.mem := rfl

/-! The package -/

theorem canonical_dom {s : State} {d : Dom} (hs : s.canonical) (hd : mwf d.mem = true) : State.canonical { s with dom := d } :=
  ⟨hs.1, hs.2.1, fun x hx => by
    rcases List.mem_cons.mp hx with rfl | hx
    · exact hd
    · exact hs.2.2 x (List.mem_cons_of_mem _ hx)⟩

theorem canonical_same {s : State} {d : Dom} (hs : s.canonical) (hd : d.mem = s.dom.mem) : State.canonical { s with dom := d } :=
  canonical_dom hs (by rw [hd]; exact hs.2.2 _ List.mem_cons_self)

theorem canonical_poison {s : State} (ps : List Nat) (hs : s.canonical) : State.canonical { s with dom := { s.dom with poison := ps } } :=
  canonical_same hs rfl

theorem canonical_host {s : State} {d : Dom} {m : SMap 8} (hs : s.canonical) (hd : mwf d.mem = true) (hm : mwf m = true) :
    State.canonical { s with dom := d, hostMem := m } := ⟨hm, (canonical_dom hs hd).2⟩

theorem canonical_updCore {s : State} (ix : Nat) (f : Core → Core) (hs : s.canonical) : (s.updCore ix f).canonical := by
  unfold State.updCore
  split
  · exact hs
  · exact canonical_same hs rfl

theorem canonical_foldl {α : Type} (f : State → α → State) (hf : ∀ s a, s.canonical → (f s a).canonical) (l : List α) {s : State}
    (hs : s.canonical) : (l.foldl f s).canonical := by
  induction l generalizing s with
  | nil => exact hs
  | cons a l ih => exact ih (hf s a hs)

theorem canonical_doms {s : State} {f : Dom → Dom} (hf : ∀ d, (f d).mem = d.mem) (hs : s.canonical) :
    State.canonical { s with doms := s.doms.map f } :=
  ⟨hs.1, hs.2.1, fun x hx => by
    rcases List.mem_cons.mp hx with rfl | hx
    · exact hs.2.2 _ List.mem_cons_self
    · obtain ⟨d, hd, rfl⟩ := List.mem_map.mp hx
      rw [hf]; exact hs.2.2 _ (List.mem_cons_of_mem _ hd)⟩

theorem canonical_countPf {s : State} (y : Option CLine) (ev : PerfEvent) (hs : s.canonical) : (s.countPf y ev).canonical := by
  unfold State.countPf
  split
  · exact hs
  · exact canonical_updCore _ _ hs

theorem hitLine_mem (d : Dom) (line : Nat) : (d.hitLine line).mem = d.mem := rfl

theorem canonical_pfGone {s : State} (xs : List L1Sector) (hs : s.canonical) : (s.pfGone xs).canonical := by
  simp only [State.pfGone]
  exact canonical_foldl _ (fun _ _ h => canonical_updCore _ _ h) _ hs

/-- The domain in focus becomes another whose memory is in canonical form. -/
theorem canonical_setDom {s : State} {d : Dom} (hs : s.canonical) (hd : mwf d.mem = true) : (s.setDom d).canonical := by
  simp only [State.setDom]
  split
  · exact canonical_dom hs hd
  · exact canonical_pfGone _ (canonical_dom hs hd)

/-- The use of a line at its home slice. -/
theorem canonical_l2Access {s : State} (tn : Option (BitVec 8)) (key p : Nat) (pf : Option Nat) (use : Bool) (hs : s.canonical) :
    (s.l2Access tn key p pf use).canonical := by
  simp only [State.l2Access]
  generalize useLine _ _ _ _ _ = r
  have h2 : ∀ (d : Dom), d.mem = s.dom.mem → (({ s with dom := d } : State).countPf r.2 .pfUnused).canonical :=
    fun d hd => canonical_countPf _ _ (canonical_same hs hd)
  split
  · exact canonical_same (canonical_countPf _ _ (h2 _ (by split <;> rfl))) rfl
  · exact h2 _ (by split <;> rfl)

/-- A write at the home slice. -/
theorem canonical_putRaw {s : State} (key n val : Nat) (m : TokMark) (hs : s.canonical) : (s.putRaw key n val m).canonical := by
  unfold State.putRaw
  extract_lets sec s1 d e mem see clear mem'
  have h1 : s1.canonical := canonical_setDom hs (mwf_setDirty _ (hs.2.2 _ List.mem_cons_self))
  have hd : mwf d.mem = true := by
    show mwf ((s1.dom.markToken sec m).hitMonitors sec).mem = true
    rw [hitMonitors_mem, markToken_mem]
    exact h1.2.2 _ List.mem_cons_self
  have he : mwf e.mem = true := by
    show mwf (ite _ _ _ : Dom).mem = true
    split <;> exact hd
  split
  · exact canonical_doms (f := fun o => see ((clear o).hitMonitors sec)) (fun o => by
      show (clear o).mem = o.mem
      simp only [clear]
      split
      · rfl
      · exact markToken_mem _ _ _) (canonical_host (d := see e) h1 he (mwf_wrN _ _ _ h1.1))
  · exact canonical_dom h1 (mwf_wrN _ _ _ he)

theorem canonical_homePut {s : State} (tn : Option (BitVec 8)) (key n val : Nat) (m : TokMark) (hs : s.canonical) :
    (s.homePut tn key n val m).canonical := canonical_putRaw _ _ _ _ (canonical_l2Access _ _ _ _ _ hs)

theorem canonical_putUnder {s : State} (tn : BitVec 8) (l : Leaf) (key n val : Nat) (m : TokMark) (hs : s.canonical) :
    (s.putUnder tn l key n val m).canonical := by
  unfold State.putUnder
  split
  · exact canonical_putRaw _ _ _ _ hs
  · exact canonical_homePut _ _ _ _ _ hs

theorem canonical_raiseOn {s : State} (c : Nat) (tn : BitVec 8) (hs : s.canonical) : (s.raiseOn c tn).canonical := by
  simp only [State.raiseOn]
  repeat' split
  all_goals first | exact hs | exact canonical_same hs rfl

theorem canonical_writeBack {s : State} (x : L1Sector) (hs : s.canonical) : (s.writeBack x).canonical := by
  unfold State.writeBack
  repeat' split
  · exact canonical_raiseOn _ _ hs
  · exact canonical_same (canonical_homePut _ _ _ _ _ hs) rfl
  · exact hs

theorem dropL1_mem (d : Dom) (p : L1Sector → Bool) : (d.dropL1 p).mem = d.mem := rfl

theorem dom_pfGone_mem (d : Dom) (xs : List L1Sector) : (d.pfGone xs).mem = d.mem := by
  have fold : ∀ (l : List L1Sector) (d : Dom) (i : Bool), (l.foldl (fun (d : Dom) x =>
      { d with cores := updIf (fun c => c.ix == x.core) (fun c => c.count d.isolation x.tenant .pfUnused) d.cores }) d).mem = d.mem := by
    intro l
    induction l with
    | nil => exact fun d i => rfl
    | cons x l ih => exact fun d i => ih _ i
  exact fold _ _ false

theorem canonical_flushL1 {s : State} (p : L1Sector → Bool) (keep : Bool) (hs : s.canonical) : (s.flushL1 p keep).canonical := by
  simp only [State.flushL1]
  have ht : ((s.dom.l1.filter p).foldl State.writeBack s).canonical :=
    canonical_foldl _ (fun _ _ h => canonical_writeBack _ h) _ hs
  split
  · exact canonical_same ht rfl
  · exact canonical_pfGone _ (canonical_same ht (dropL1_mem _ _))

theorem snoopL2_mem (d : Dom) (sec : Nat) : (d.snoopL2 sec).mem = d.mem := by
  have fold : ∀ (l : List (Nat × BitVec 8)) (d : Dom), (l.foldl (fun (d : Dom) x =>
      { d with cores := updIf (fun c => c.ix == x.1) (fun c => c.count d.isolation x.2 .pfUnused) d.cores }) d).mem = d.mem := by
    intro l
    induction l with
    | nil => exact fun d => rfl
    | cons x l ih => exact fun d => ih _
  exact fold _ _

theorem canonical_snoop {s : State} (sec : Nat) (keep : Bool) (hs : s.canonical) : (s.snoop sec keep).canonical := by
  unfold State.snoop
  extract_lets p s1 dirty s2
  have h1 : s1.canonical := by
    show State.canonical (ite _ _ _)
    split
    · exact hs
    · exact canonical_doms (f := fun d => (d.hitMonitors sec).snoopL2 sec) (fun _ => snoopL2_mem _ _) hs
  split
  · exact hs
  split
  · refine canonical_foldl _ (fun _ _ h => canonical_poison _ (canonical_homePut _ _ _ _ _ h)) _ (canonical_doms (fun d => ?_) h1)
    split
    · rfl
    · rw [dom_pfGone_mem, dropL1_mem]
  · exact h1

theorem canonical_recall {s : State} (c sec : Nat) (keep : Bool) (hs : s.canonical) : (s.recall c sec keep).canonical := by
  simp only [State.recall]
  split
  · exact canonical_flushL1 _ _ (canonical_snoop _ _ hs)
  · exact canonical_snoop _ _ hs

theorem canonical_rmapFill {s : State} (c sec : Nat) (hs : s.canonical) : (s.rmapFill c sec).canonical := by
  simp only [State.rmapFill]
  repeat' split
  · exact canonical_same hs rfl
  · exact hs
  · exact canonical_same (canonical_flushL1 _ _ hs) rfl

/-- A condition guards one operation. -/
theorem canonical_ite {s t : State} {p : Prop} [Decidable p] (hs : s.canonical) (ht : t.canonical) :
    (if p then s else t).canonical := by
  split <;> assumption

theorem canonical_evictL1 {s : State} (core : Nat) (tn : BitVec 8) (va : W64) (hs : s.canonical) : (s.evictL1 core tn va).canonical := by
  simp only [State.evictL1]
  split
  · exact hs
  · split
    · exact hs
    · exact canonical_flushL1 _ _ hs

theorem canonical_dropAlias {s : State} (core sec : Nat) (hs : s.canonical) : (s.dropAlias core sec).canonical :=
  canonical_ite (canonical_flushL1 _ _ hs) hs

theorem useL1_mem (d : Dom) (x : L1Sector) (h : Nat) : (d.useL1 x h).mem = d.mem := rfl

theorem canonical_fill {s : State} (core : Nat) (tn : BitVec 8) (va : W64) (l : Leaf) (h : Nat) (pf : Bool) (hs : s.canonical) :
    (s.fill core tn va l h pf).canonical := by
  unfold State.fill
  extract_lets sec s1 s2 s3 x new
  have h3 : s3.canonical := canonical_rmapFill _ _ (canonical_evictL1 _ _ _
    (canonical_ite (canonical_recall _ _ _ (canonical_ite (canonical_flushL1 _ _ hs) hs)) (canonical_ite (canonical_flushL1 _ _ hs) hs)))
  split
  · exact canonical_same hs (useL1_mem _ _ _)
  · exact canonical_same h3 (useL1_mem _ _ _)

theorem canonical_pfHit {s : State} (core key : Nat) (hs : s.canonical) : (s.pfHit core key).canonical := by
  simp only [State.pfHit]
  split
  · exact hs
  · exact canonical_updCore _ _ (canonical_same hs rfl)

theorem canonical_homeUse {s : State} (tn : BitVec 8) (va : W64) (l : Leaf) (h : Hint) (hs : s.canonical) :
    (s.homeUse tn va l h).canonical := canonical_ite hs (canonical_l2Access _ _ _ _ _ hs)

theorem canonical_demand {s : State} (core : Nat) (tn : BitVec 8) (va : W64) (h : Hint) (l : Leaf) (home : Bool) (hs : s.canonical) :
    (s.demand core tn va h l home).canonical := by
  unfold State.demand
  extract_lets hit s1
  have h1 : s1.canonical := canonical_ite (canonical_pfHit _ _ hs) hs
  repeat' split
  · exact hs
  · exact h1
  · exact canonical_homeUse _ _ _ _ h1

theorem canonical_readAt {s : State} (core : Nat) (tn : BitVec 8) (va : W64) (l : Leaf) (h : Hint) (n : Nat) (hs : s.canonical) :
    (s.readAt core tn va l h n).1.canonical := by
  unfold State.readAt
  extract_lets key hh s1 s2 s3
  have h1 : s1.canonical := canonical_dropAlias _ _ hs
  have h2 : s2.canonical := canonical_ite (canonical_recall _ _ _ h1) h1
  have h3 : s3.canonical := canonical_fill _ _ _ _ _ _ hs
  repeat' split
  · exact hs
  · exact h2
  · exact h3
  · exact h3

/-- The home slices that watch a sector look at a core's copy of it. -/
theorem canonical_seeCopy {s : State} (core sec : Nat) (hs : s.canonical) : (s.seeCopy core sec).canonical := by
  unfold State.seeCopy
  split
  · split
    · simp only
      split
      · exact canonical_same (canonical_doms (f := fun d => d.seeWrite _ _) (fun _ => seeWrite_mem _ _ _) hs) rfl
      · exact canonical_same hs rfl
    · exact hs
  · exact hs

theorem canonical_writeCopy {s : State} (core sec off n val : Nat) (d : Bool) (m : TokMark) (hs : s.canonical) :
    (s.writeCopy core sec off n val d m).canonical := by
  unfold State.writeCopy
  extract_lets up l1 whole d1 s1
  have h1 : s1.canonical := canonical_same hs rfl
  exact canonical_ite (canonical_seeCopy _ _ h1) h1

theorem canonical_retok {s : State} (core sec : Nat) (hs : s.canonical) : (s.retok core sec).canonical := canonical_same hs rfl

theorem canonical_writeAt {s : State} (core : Nat) (t : BitVec 8) (va : W64) (l : Leaf) (h : Hint) (n val : Nat) (m : TokMark)
    (hs : s.canonical) : (s.writeAt core t va l h n val m).canonical := by
  unfold State.writeAt
  extract_lets key sec hh d s2
  have hd : d.mem = s.dom.mem := by
    show (match s.dom.copyOf core sec with | some x => s.dom.useL1 x hh | none => s.dom : Dom).mem = _
    split <;> rfl
  have h2 : s2.canonical := by
    show State.canonical (if _ then _ else _)
    split
    · exact canonical_recall _ _ _ (canonical_same (d := s.dom.hitMonitors sec) hs rfl)
    · exact hs
  repeat' split
  · exact canonical_putRaw _ _ _ _ hs
  · exact canonical_retok _ _ (canonical_homePut _ _ _ _ _ (canonical_writeCopy _ _ _ _ _ _ _ (canonical_same hs hd)))
  · exact canonical_homePut _ _ _ _ _ (canonical_flushL1 _ _ h2)
  · exact canonical_writeCopy _ _ _ _ _ _ _ (canonical_fill _ _ _ _ _ _ h2)

theorem canonical_rmwAt {s : State} (core : Nat) (tn : BitVec 8) (va : W64) (l : Leaf) (h : Hint) (n : Nat) (ret : Bool) (f : Nat → Option Nat)
    (m : TokMark) (hs : s.canonical) : (s.rmwAt core tn va l h n ret f m).1.canonical := by
  unfold State.rmwAt
  extract_lets key sec s1 hh s2 old s3 s4 old'
  have h1 : s1.canonical := canonical_ite (canonical_recall _ _ _ hs) hs
  have h2 : s2.canonical := canonical_fill _ _ _ _ _ _ h1
  have h3 : s3.canonical := canonical_ite (canonical_recall _ _ _ hs) hs
  have h4 : s4.canonical := canonical_ite (canonical_flushL1 _ _ h3) h3
  split
  · rcases f old with _ | y
    · exact h2
    · exact canonical_writeCopy _ _ _ _ _ _ _ (canonical_ite (canonical_same h2 (hitMonitors_mem _ _)) h2)
  · rcases f old' with _ | y
    · exact canonical_setDom h4 (mwf_setDirty _ (h4.2.2 _ List.mem_cons_self))
    · exact canonical_putUnder _ _ _ _ _ _ h4

theorem canonical_acquireL1 {s : State} (core : Nat) (hs : s.canonical) : (s.acquireL1 core).canonical :=
  canonical_pfGone _ (canonical_same hs (dropL1_mem _ _))

theorem canonical_releaseL1 {s : State} (core : Nat) (hs : s.canonical) : (s.releaseL1 core).canonical := canonical_flushL1 _ _ hs

theorem canonical_release {s : State} (core : Nat) (sc : Scope) (hs : s.canonical) : (s.release core sc).canonical := by
  unfold State.release
  split
  · exact canonical_releaseL1 _ hs
  · exact hs

theorem canonical_acquire {s : State} (core : Nat) (sc : Scope) (hs : s.canonical) : (s.acquire core sc).canonical := by
  unfold State.acquire
  split
  · exact canonical_acquireL1 _ hs
  · exact hs

/-! Other domains, and what the serial lane's locks hold off -/

theorem mwf_setD {d : Dom} (cluster : Nat) (tn : BitVec 8) (va : W64) (h : mwf d.mem = true) : mwf (d.setD cluster tn va).1.mem = true := by
  unfold Dom.setD
  split
  · exact h
  · extract_lets e
    have he : mwf e.mem = true := mwf_setAD _ _ h
    split <;> exact he

theorem canonical_setD {s : State} (cluster : Nat) (tn : BitVec 8) (va : W64) (hs : s.canonical) : (s.setD cluster tn va).1.canonical :=
  canonical_setDom hs (mwf_setD _ _ _ (hs.2.2 _ List.mem_cons_self))

theorem canonical_markD {s : State} (tn : BitVec 8) (va : W64) (hs : s.canonical) : (s.markD tn va).canonical := by
  unfold State.markD
  split
  · exact canonical_setDom hs (mwf_setAD _ _ (hs.2.2 _ List.mem_cons_self))
  · exact hs

theorem takeFirst_mem {α : Type} (p : α → Bool) (l rest : List α) (x : α) (h : takeFirst p l = some (x, rest)) :
    ∀ y, y ∈ x :: rest → y ∈ l := by
  induction l generalizing x rest with
  | nil => simp [takeFirst] at h
  | cons a l ih =>
    unfold takeFirst at h
    split at h
    · simp only [Option.some.injEq, Prod.mk.injEq] at h
      obtain ⟨rfl, rfl⟩ := h
      exact fun y hy => hy
    · cases hr : takeFirst p l with
      | none => simp [hr] at h
      | some r =>
        obtain ⟨b, r⟩ := r
        simp only [hr, Option.map_some, Option.some.injEq, Prod.mk.injEq] at h
        obtain ⟨rfl, rfl⟩ := h
        intro y hy
        rcases List.mem_cons.mp hy with rfl | hy
        · exact List.mem_cons_of_mem _ (ih _ _ hr _ List.mem_cons_self)
        · rcases List.mem_cons.mp hy with rfl | hy
          · exact List.mem_cons_self
          · exact List.mem_cons_of_mem _ (ih _ _ hr _ (List.mem_cons_of_mem _ hy))

theorem insertBy_mem {α : Type} (k : α → Nat) (x y : α) (l : List α) (h : y ∈ insertBy k x l) : y = x ∨ y ∈ l := by
  induction l with
  | nil => simpa [insertBy] using h
  | cons a l ih =>
    unfold insertBy at h
    split at h
    all_goals simp only [List.mem_cons] at h ⊢
    all_goals grind

/-- What another domain does keeps the form, if it does in the domain in focus. -/
theorem canonical_withDom {α : Type} {s : State} (n : Nat) (a : α) (f : State → State × α) (hf : ∀ s, s.canonical → (f s).1.canonical)
    (hs : s.canonical) : (s.withDom n a f).1.canonical := by
  unfold State.withDom
  split
  · exact hf _ hs
  split
  · exact hs
  · next d rest hd =>
    have h1 : State.canonical { s with kind := .idle, dom := d, doms := insertBy Dom.ix s.dom rest } := by
      refine ⟨hs.1, hs.2.1, fun x hx => ?_⟩
      rcases List.mem_cons.mp hx with rfl | hx
      · exact hs.2.2 _ (List.mem_cons_of_mem _ (takeFirst_mem _ _ _ _ hd _ List.mem_cons_self))
      · rcases insertBy_mem _ _ _ _ hx with rfl | hx
        · exact hs.2.2 _ List.mem_cons_self
        · exact hs.2.2 _ (List.mem_cons_of_mem _ (takeFirst_mem _ _ _ _ hd _ (List.mem_cons_of_mem _ hx)))
    have h2 := hf _ h1
    generalize f { s with kind := .idle, dom := d, doms := insertBy Dom.ix s.dom rest } = r at h2
    obtain ⟨t, a⟩ := r
    simp only
    split
    · exact h2
    · next o rest ho =>
      refine ⟨h2.1, h2.2.1, fun x hx => ?_⟩
      rcases List.mem_cons.mp hx with rfl | hx
      · exact h2.2.2 _ (List.mem_cons_of_mem _ (takeFirst_mem _ _ _ _ ho _ List.mem_cons_self))
      · rcases insertBy_mem _ _ _ _ hx with rfl | hx
        · exact h2.2.2 _ List.mem_cons_self
        · exact h2.2.2 _ (List.mem_cons_of_mem _ (takeFirst_mem _ _ _ _ ho _ (List.mem_cons_of_mem _ hx)))

theorem canonical_firstWrite {s : State} (who : Who) (t : Target) (hs : s.canonical) : (s.firstWrite who t).1.canonical := by
  have own : ∀ o : Option W64, State.canonical (o.elim s fun a => (s.setD (who.core / 8) who.tenant a).1) := by
    intro o
    cases o with
    | none => exact hs
    | some a => exact canonical_setD _ _ _ hs
  cases t with
  | loc va l =>
    unfold State.firstWrite
    simp only
    split
    · exact hs
    · exact canonical_setD _ _ _ hs
  | peer dom tn va l o =>
    unfold State.firstWrite
    simp only
    split
    · exact own o
    · exact canonical_withDom _ _ _ (fun _ h => canonical_markD _ _ h) (own o)
  | fabric p key o => exact own o

theorem canonical_homeWrite {s : State} (tn : BitVec 8) (va : W64) (l : Leaf) (n val : Nat) (m : TokMark) (hs : s.canonical) :
    (s.homeWrite tn va l n val m).canonical := by
  unfold State.homeWrite
  exact canonical_putUnder _ _ _ _ _ _ (canonical_ite (canonical_recall _ _ _ hs) hs)

theorem canonical_fabricPut {s : State} (key n val : Nat) (m : TokMark) (hs : s.canonical) : (s.fabricPut key n val m).canonical := by
  refine ⟨hs.1, mwf_wrN _ _ _ hs.2.1, fun x hx => ?_⟩
  rcases List.mem_cons.mp hx with rfl | hx
  · exact hs.2.2 s.dom List.mem_cons_self
  · obtain ⟨d, hd, rfl⟩ := List.mem_map.mp hx
    exact hs.2.2 d (List.mem_cons_of_mem _ hd)

theorem canonical_unitWrite {s : State} (who : Who) (t : Target) (h : Hint) (n val : Nat) (m : TokMark) (hs : s.canonical) :
    (s.unitWrite who t h n val m).canonical := by
  have h1 := canonical_firstWrite who t hs
  unfold State.unitWrite
  generalize s.firstWrite who t = r at h1
  obtain ⟨s', t'⟩ := r
  cases t' with
  | loc va l => exact canonical_homeWrite _ _ _ _ _ _ (canonical_homeUse _ _ _ _ (canonical_flushL1 _ _ h1))
  | peer dom tn va l o =>
    exact canonical_withDom _ _ _ (fun _ h => canonical_homeWrite _ _ _ _ _ _ (canonical_homeUse _ _ _ _ h)) h1
  | fabric p key o => exact canonical_fabricPut _ _ _ _ h1

theorem canonical_doWrite {s : State} (who : Who) (t : Target) (h : Hint) (n val : Nat) (m : TokMark) (hs : s.canonical) :
    (s.doWrite who t h n val m).canonical := by
  have h1 := canonical_firstWrite who t hs
  unfold State.doWrite
  generalize s.firstWrite who t = r at h1
  obtain ⟨s', t'⟩ := r
  cases t' with
  | loc va l => exact canonical_writeAt _ _ _ _ _ _ _ _ (canonical_demand _ _ _ _ _ _ h1)
  | peer dom tn va l o =>
    exact canonical_withDom _ _ _ (fun _ h => canonical_homeWrite _ _ _ _ _ _ (canonical_homeUse _ _ _ _ h)) h1
  | fabric p key o => exact canonical_fabricPut _ _ _ _ h1

theorem canonical_rawPut {s : State} (key n val : Nat) (hs : s.canonical) : (s.rawPut key n val).canonical :=
  canonical_homePut _ _ _ _ _ (canonical_recall _ _ _ hs)

/-- What a lock has held off performs. -/
theorem canonical_latePut {s : State} (l : Late) (hs : s.canonical) : (s.latePut l).canonical := by
  cases l with
  | ad addr seen w =>
    unfold State.latePut
    simp only
    split
    · exact canonical_setDom hs (mwf_setAD _ _ (hs.2.2 _ List.mem_cons_self))
    · exact canonical_same hs rfl
  | put core tn va l n val => exact canonical_unitWrite _ _ _ _ _ _ hs
  | raw key n val => exact canonical_rawPut _ _ _ hs
  | bit a k => exact canonical_setDom hs (mwf_setBit _ _ (hs.2.2 _ List.mem_cons_self))

theorem canonical_unlock {s : State} (hs : s.canonical) : s.unlock.canonical :=
  canonical_foldl _ (fun _ _ h => canonical_latePut _ h) _ (canonical_same hs rfl)

theorem canonical_takeLock {s : State} (sec : Nat) (ls : List Lock) (hs : s.canonical) : (s.takeLock sec ls).canonical :=
  canonical_same (canonical_flushL1 _ _ hs) rfl

/-- The serial lane's own write, and its undoing. -/
theorem canonical_quietPut {s : State} (tn : BitVec 8) (key n val : Nat) (hs : s.canonical) : (s.quietPut tn key n val).canonical := by
  unfold State.quietPut
  extract_lets t
  have ht : t.canonical := canonical_l2Access _ _ _ _ _ hs
  exact canonical_dom ht (mwf_wrN _ _ _ (ht.2.2 _ List.mem_cons_self))

theorem canonical_serialWrite {s : State} (who : Who) (va : W64) (l : Leaf) (h : Hint) (n val : Nat) (hs : s.canonical) :
    (s.serialWrite who va l h n val).canonical :=
  canonical_quietPut _ _ _ _ (canonical_homeUse _ _ _ _ (canonical_flushL1 _ _ (canonical_firstWrite _ _ hs)))

theorem canonical_publish {s : State} (sec : Nat) (m : TokMark) (hs : s.canonical) : (s.publish sec m).canonical := by
  unfold State.publish
  extract_lets t d
  have ht : t.canonical := canonical_setDom hs (mwf_setDirty _ (hs.2.2 _ List.mem_cons_self))
  exact canonical_same ht (by show (t.dom.markToken sec m).mem = _; exact markToken_mem _ _ _)

end Sys2Proof.Machine
end

