-- ==== Sys2Proof/Laws/State.lean ====
section
/-! SUPPORT. One field lemma per field and update, true by computation, so that no proof unfolds a record update. -/

namespace Sys2Proof.Machine

variable (s : State) (w : Wave) (p : Path)

/-! Registers of a wave -/

@[simp] theorem Wave.vSet_wid (l n : Nat) (x : W32) : (w.vSet l n x).wid = w.wid := rfl
@[simp] theorem Wave.vSet_width (l n : Nat) (x : W32) : (w.vSet l n x).width = w.width := rfl
@[simp] theorem Wave.vSet_slot (l n : Nat) (x : W32) : (w.vSet l n x).slot = w.slot := rfl
@[simp] theorem Wave.vSet_octet (l n : Nat) (x : W32) : (w.vSet l n x).octet = w.octet := rfl
@[simp] theorem Wave.vSet_ctx (l n : Nat) (x : W32) : (w.vSet l n x).ctx = w.ctx := rfl
@[simp] theorem Wave.vSet_nregs (l n : Nat) (x : W32) : (w.vSet l n x).nregs = w.nregs := rfl
@[simp] theorem Wave.vSet_placed (l n : Nat) (x : W32) : (w.vSet l n x).placed = w.placed := rfl
@[simp] theorem Wave.vSet_s (l n : Nat) (x : W32) : (w.vSet l n x).s = w.s := rfl
@[simp] theorem Wave.vSet_q (l n : Nat) (x : W32) : (w.vSet l n x).q = w.q := rfl
@[simp] theorem Wave.vSet_exited (l n : Nat) (x : W32) : (w.vSet l n x).exited = w.exited := rfl
@[simp] theorem Wave.vSet_paths (l n : Nat) (x : W32) : (w.vSet l n x).paths = w.paths := rfl
@[simp] theorem Wave.vSet_joins (l n : Nat) (x : W32) : (w.vSet l n x).joins = w.joins := rfl
@[simp] theorem Wave.vSet_nextEtag (l n : Nat) (x : W32) : (w.vSet l n x).nextEtag = w.nextEtag := rfl
@[simp] theorem Wave.vSet_bncinj (l n : Nat) (x : W32) : (w.vSet l n x).bncinj = w.bncinj := rfl
@[simp] theorem Wave.vSet_locket (l n : Nat) (x : W32) : (w.vSet l n x).locket = w.locket := rfl
@[simp] theorem Wave.vSet_nextTag (l n : Nat) (x : W32) : (w.vSet l n x).nextTag = w.nextTag := rfl
@[simp] theorem Wave.vSet_batchOpen (l n : Nat) (x : W32) : (w.vSet l n x).batchOpen = w.batchOpen := rfl
@[simp] theorem Wave.vSet_batchDone (l n : Nat) (x : W32) : (w.vSet l n x).batchDone = w.batchDone := rfl
@[simp] theorem Wave.vSet_trapaddr (l n : Nat) (x : W32) : (w.vSet l n x).trapaddr = w.trapaddr := rfl
@[simp] theorem Wave.vSet_trapinfo (l n : Nat) (x : W32) : (w.vSet l n x).trapinfo = w.trapinfo := rfl
@[simp] theorem Wave.vSet_txcause (l n : Nat) (x : W32) : (w.vSet l n x).txcause = w.txcause := rfl
@[simp] theorem Wave.vSet_sernext (l n : Nat) (x : W32) : (w.vSet l n x).sernext = w.sernext := rfl
@[simp] theorem Wave.vSet_run (l n : Nat) (x : W32) : (w.vSet l n x).run = w.run := rfl
@[simp] theorem Wave.vSet_seq (l n : Nat) (x : W32) : (w.vSet l n x).seq = w.seq := rfl
@[simp] theorem Wave.vSet_logs (l n : Nat) (x : W32) : (w.vSet l n x).logs = w.logs := rfl
@[simp] theorem Wave.vSet_spawndepth (l n : Nat) (x : W32) : (w.vSet l n x).spawndepth = w.spawndepth := rfl
@[simp] theorem Wave.vSet_task (l n : Nat) (x : W32) : (w.vSet l n x).task = w.task := rfl
@[simp] theorem Wave.vSet_abbase (l n : Nat) (x : W32) : (w.vSet l n x).abbase = w.abbase := rfl
@[simp] theorem Wave.vSet_absize (l n : Nat) (x : W32) : (w.vSet l n x).absize = w.absize := rfl
@[simp] theorem Wave.sSet_wid (n : Nat) (x : W64) : (w.sSet n x).wid = w.wid := rfl
@[simp] theorem Wave.sSet_width (n : Nat) (x : W64) : (w.sSet n x).width = w.width := rfl
@[simp] theorem Wave.sSet_slot (n : Nat) (x : W64) : (w.sSet n x).slot = w.slot := rfl
@[simp] theorem Wave.sSet_octet (n : Nat) (x : W64) : (w.sSet n x).octet = w.octet := rfl
@[simp] theorem Wave.sSet_ctx (n : Nat) (x : W64) : (w.sSet n x).ctx = w.ctx := rfl
@[simp] theorem Wave.sSet_nregs (n : Nat) (x : W64) : (w.sSet n x).nregs = w.nregs := rfl
@[simp] theorem Wave.sSet_placed (n : Nat) (x : W64) : (w.sSet n x).placed = w.placed := rfl
@[simp] theorem Wave.sSet_v (n : Nat) (x : W64) : (w.sSet n x).v = w.v := rfl
@[simp] theorem Wave.sSet_q (n : Nat) (x : W64) : (w.sSet n x).q = w.q := rfl
@[simp] theorem Wave.sSet_exited (n : Nat) (x : W64) : (w.sSet n x).exited = w.exited := rfl
@[simp] theorem Wave.sSet_paths (n : Nat) (x : W64) : (w.sSet n x).paths = w.paths := rfl
@[simp] theorem Wave.sSet_joins (n : Nat) (x : W64) : (w.sSet n x).joins = w.joins := rfl
@[simp] theorem Wave.sSet_nextEtag (n : Nat) (x : W64) : (w.sSet n x).nextEtag = w.nextEtag := rfl
@[simp] theorem Wave.sSet_bncinj (n : Nat) (x : W64) : (w.sSet n x).bncinj = w.bncinj := rfl
@[simp] theorem Wave.sSet_locket (n : Nat) (x : W64) : (w.sSet n x).locket = w.locket := rfl
@[simp] theorem Wave.sSet_nextTag (n : Nat) (x : W64) : (w.sSet n x).nextTag = w.nextTag := rfl
@[simp] theorem Wave.sSet_batchOpen (n : Nat) (x : W64) : (w.sSet n x).batchOpen = w.batchOpen := rfl
@[simp] theorem Wave.sSet_batchDone (n : Nat) (x : W64) : (w.sSet n x).batchDone = w.batchDone := rfl
@[simp] theorem Wave.sSet_trapaddr (n : Nat) (x : W64) : (w.sSet n x).trapaddr = w.trapaddr := rfl
@[simp] theorem Wave.sSet_trapinfo (n : Nat) (x : W64) : (w.sSet n x).trapinfo = w.trapinfo := rfl
@[simp] theorem Wave.sSet_txcause (n : Nat) (x : W64) : (w.sSet n x).txcause = w.txcause := rfl
@[simp] theorem Wave.sSet_sernext (n : Nat) (x : W64) : (w.sSet n x).sernext = w.sernext := rfl
@[simp] theorem Wave.sSet_run (n : Nat) (x : W64) : (w.sSet n x).run = w.run := rfl
@[simp] theorem Wave.sSet_seq (n : Nat) (x : W64) : (w.sSet n x).seq = w.seq := rfl
@[simp] theorem Wave.sSet_logs (n : Nat) (x : W64) : (w.sSet n x).logs = w.logs := rfl
@[simp] theorem Wave.sSet_spawndepth (n : Nat) (x : W64) : (w.sSet n x).spawndepth = w.spawndepth := rfl
@[simp] theorem Wave.sSet_task (n : Nat) (x : W64) : (w.sSet n x).task = w.task := rfl
@[simp] theorem Wave.sSet_abbase (n : Nat) (x : W64) : (w.sSet n x).abbase = w.abbase := rfl
@[simp] theorem Wave.sSet_absize (n : Nat) (x : W64) : (w.sSet n x).absize = w.absize := rfl
@[simp] theorem Wave.qSet_wid (l n : Nat) (x : Bool) : (w.qSet l n x).wid = w.wid := by unfold Wave.qSet; split <;> rfl
@[simp] theorem Wave.qSet_width (l n : Nat) (x : Bool) : (w.qSet l n x).width = w.width := by unfold Wave.qSet; split <;> rfl
@[simp] theorem Wave.qSet_slot (l n : Nat) (x : Bool) : (w.qSet l n x).slot = w.slot := by unfold Wave.qSet; split <;> rfl
@[simp] theorem Wave.qSet_octet (l n : Nat) (x : Bool) : (w.qSet l n x).octet = w.octet := by unfold Wave.qSet; split <;> rfl
@[simp] theorem Wave.qSet_ctx (l n : Nat) (x : Bool) : (w.qSet l n x).ctx = w.ctx := by unfold Wave.qSet; split <;> rfl
@[simp] theorem Wave.qSet_nregs (l n : Nat) (x : Bool) : (w.qSet l n x).nregs = w.nregs := by unfold Wave.qSet; split <;> rfl
@[simp] theorem Wave.qSet_placed (l n : Nat) (x : Bool) : (w.qSet l n x).placed = w.placed := by unfold Wave.qSet; split <;> rfl
@[simp] theorem Wave.qSet_v (l n : Nat) (x : Bool) : (w.qSet l n x).v = w.v := by unfold Wave.qSet; split <;> rfl
@[simp] theorem Wave.qSet_s (l n : Nat) (x : Bool) : (w.qSet l n x).s = w.s := by unfold Wave.qSet; split <;> rfl
@[simp] theorem Wave.qSet_exited (l n : Nat) (x : Bool) : (w.qSet l n x).exited = w.exited := by unfold Wave.qSet; split <;> rfl
@[simp] theorem Wave.qSet_paths (l n : Nat) (x : Bool) : (w.qSet l n x).paths = w.paths := by unfold Wave.qSet; split <;> rfl
@[simp] theorem Wave.qSet_joins (l n : Nat) (x : Bool) : (w.qSet l n x).joins = w.joins := by unfold Wave.qSet; split <;> rfl
@[simp] theorem Wave.qSet_nextEtag (l n : Nat) (x : Bool) : (w.qSet l n x).nextEtag = w.nextEtag := by unfold Wave.qSet; split <;> rfl
@[simp] theorem Wave.qSet_bncinj (l n : Nat) (x : Bool) : (w.qSet l n x).bncinj = w.bncinj := by unfold Wave.qSet; split <;> rfl
@[simp] theorem Wave.qSet_locket (l n : Nat) (x : Bool) : (w.qSet l n x).locket = w.locket := by unfold Wave.qSet; split <;> rfl
@[simp] theorem Wave.qSet_nextTag (l n : Nat) (x : Bool) : (w.qSet l n x).nextTag = w.nextTag := by unfold Wave.qSet; split <;> rfl
@[simp] theorem Wave.qSet_batchOpen (l n : Nat) (x : Bool) : (w.qSet l n x).batchOpen = w.batchOpen := by unfold Wave.qSet; split <;> rfl
@[simp] theorem Wave.qSet_batchDone (l n : Nat) (x : Bool) : (w.qSet l n x).batchDone = w.batchDone := by unfold Wave.qSet; split <;> rfl
@[simp] theorem Wave.qSet_trapaddr (l n : Nat) (x : Bool) : (w.qSet l n x).trapaddr = w.trapaddr := by unfold Wave.qSet; split <;> rfl
@[simp] theorem Wave.qSet_trapinfo (l n : Nat) (x : Bool) : (w.qSet l n x).trapinfo = w.trapinfo := by unfold Wave.qSet; split <;> rfl
@[simp] theorem Wave.qSet_txcause (l n : Nat) (x : Bool) : (w.qSet l n x).txcause = w.txcause := by unfold Wave.qSet; split <;> rfl
@[simp] theorem Wave.qSet_sernext (l n : Nat) (x : Bool) : (w.qSet l n x).sernext = w.sernext := by unfold Wave.qSet; split <;> rfl
@[simp] theorem Wave.qSet_run (l n : Nat) (x : Bool) : (w.qSet l n x).run = w.run := by unfold Wave.qSet; split <;> rfl
@[simp] theorem Wave.qSet_seq (l n : Nat) (x : Bool) : (w.qSet l n x).seq = w.seq := by unfold Wave.qSet; split <;> rfl
@[simp] theorem Wave.qSet_logs (l n : Nat) (x : Bool) : (w.qSet l n x).logs = w.logs := by unfold Wave.qSet; split <;> rfl
@[simp] theorem Wave.qSet_spawndepth (l n : Nat) (x : Bool) : (w.qSet l n x).spawndepth = w.spawndepth := by unfold Wave.qSet; split <;> rfl
@[simp] theorem Wave.qSet_task (l n : Nat) (x : Bool) : (w.qSet l n x).task = w.task := by unfold Wave.qSet; split <;> rfl
@[simp] theorem Wave.qSet_abbase (l n : Nat) (x : Bool) : (w.qSet l n x).abbase = w.abbase := by unfold Wave.qSet; split <;> rfl
@[simp] theorem Wave.qSet_absize (l n : Nat) (x : Bool) : (w.qSet l n x).absize = w.absize := by unfold Wave.qSet; split <;> rfl

/-! `orFlags` -/

@[simp] theorem State.orFlags_kind (f : W32) : (s.orFlags f).kind = s.kind := rfl
@[simp] theorem State.orFlags_wave (f : W32) : (s.orFlags f).wave = s.wave := rfl
@[simp] theorem State.orFlags_block (f : W32) : (s.orFlags f).block = s.block := rfl
@[simp] theorem State.orFlags_core (f : W32) : (s.orFlags f).core = s.core := rfl
@[simp] theorem State.orFlags_dom (f : W32) : (s.orFlags f).dom = s.dom := rfl
@[simp] theorem State.orFlags_doms (f : W32) : (s.orFlags f).doms = s.doms := rfl
@[simp] theorem State.orFlags_hostMem (f : W32) : (s.orFlags f).hostMem = s.hostMem := rfl
@[simp] theorem State.orFlags_fabricMem (f : W32) : (s.orFlags f).fabricMem = s.fabricMem := rfl
@[simp] theorem State.orFlags_fabricTok (f : W32) : (s.orFlags f).fabricTok = s.fabricTok := rfl
@[simp] theorem State.orFlags_hostData (f : W32) : (s.orFlags f).hostData = s.hostData := rfl
@[simp] theorem State.orFlags_ports (f : W32) : (s.orFlags f).ports = s.ports := rfl
@[simp] theorem State.orFlags_links (f : W32) : (s.orFlags f).links = s.links := rfl
@[simp] theorem State.orFlags_tier2 (f : W32) : (s.orFlags f).tier2 = s.tier2 := rfl
@[simp] theorem State.orFlags_tier2down (f : W32) : (s.orFlags f).tier2down = s.tier2down := rfl
@[simp] theorem State.orFlags_ide (f : W32) : (s.orFlags f).ide = s.ide := rfl
@[simp] theorem State.orFlags_iod (f : W32) : (s.orFlags f).iod = s.iod := rfl
@[simp] theorem State.orFlags_fedDie (f : W32) : (s.orFlags f).fedDie = s.fedDie := rfl
@[simp] theorem State.orFlags_agenda (f : W32) : (s.orFlags f).agenda = s.agenda := rfl
@[simp] theorem State.orFlags_sigs (f : W32) : (s.orFlags f).sigs = s.sigs := rfl
@[simp] theorem State.orFlags_issueQ (f : W32) : (s.orFlags f).issueQ = s.issueQ := rfl
@[simp] theorem State.orFlags_turn (f : W32) : (s.orFlags f).turn = s.turn := rfl
@[simp] theorem State.orFlags_fresh (f : W32) : (s.orFlags f).fresh = s.fresh := rfl
@[simp] theorem State.orFlags_now (f : W32) : (s.orFlags f).now = s.now := rfl
@[simp] theorem State.orFlags_path_pid (f : W32) : (s.orFlags f).path.pid = s.path.pid := rfl
@[simp] theorem State.orFlags_path_pc (f : W32) : (s.orFlags f).path.pc = s.path.pc := rfl
@[simp] theorem State.orFlags_path_mask (f : W32) : (s.orFlags f).path.mask = s.path.mask := rfl
@[simp] theorem State.orFlags_path_stack (f : W32) : (s.orFlags f).path.stack = s.path.stack := rfl
@[simp] theorem State.orFlags_path_fmt (f : W32) : (s.orFlags f).path.fmt = s.path.fmt := rfl
@[simp] theorem State.orFlags_path_flags (f : W32) : (s.orFlags f).path.flags = s.path.flags ||| f := rfl
@[simp] theorem State.orFlags_path_age (f : W32) : (s.orFlags f).path.age = s.path.age := rfl
@[simp] theorem State.orFlags_path_aged (f : W32) : (s.orFlags f).path.aged = s.path.aged := rfl
@[simp] theorem State.orFlags_path_joinTimer (f : W32) : (s.orFlags f).path.joinTimer = s.path.joinTimer := rfl
@[simp] theorem State.orFlags_path_fb (f : W32) : (s.orFlags f).path.fb = s.path.fb := rfl
@[simp] theorem State.orFlags_path_token (f : W32) : (s.orFlags f).path.token = s.path.token := rfl
@[simp] theorem State.orFlags_path_e (f : W32) : (s.orFlags f).path.e = s.path.e := rfl
@[simp] theorem State.orFlags_path_stepid (f : W32) : (s.orFlags f).path.stepid = s.path.stepid := rfl
@[simp] theorem State.orFlags_path_stepStart (f : W32) : (s.orFlags f).path.stepStart = s.path.stepStart := rfl
@[simp] theorem State.orFlags_path_drop (f : W32) : (s.orFlags f).path.drop = s.path.drop := rfl
@[simp] theorem State.orFlags_path_ranges (f : W32) : (s.orFlags f).path.ranges = s.path.ranges := rfl
@[simp] theorem State.orFlags_path_windows (f : W32) : (s.orFlags f).path.windows = s.path.windows := rfl
@[simp] theorem State.orFlags_path_txdepth (f : W32) : (s.orFlags f).path.txdepth = s.path.txdepth := rfl
@[simp] theorem State.orFlags_path_region (f : W32) : (s.orFlags f).path.region = s.path.region := rfl
@[simp] theorem State.orFlags_path_trapcause (f : W32) : (s.orFlags f).path.trapcause = s.path.trapcause := rfl
@[simp] theorem State.orFlags_path_trappc (f : W32) : (s.orFlags f).path.trappc = s.path.trappc := rfl
@[simp] theorem State.orFlags_path_trapmask (f : W32) : (s.orFlags f).path.trapmask = s.path.trapmask := rfl
@[simp] theorem State.orFlags_path_priv (f : W32) : (s.orFlags f).path.priv = s.path.priv := rfl
@[simp] theorem State.orFlags_path_privFor (f : W32) : (s.orFlags f).path.privFor = s.path.privFor := rfl
@[simp] theorem State.orFlags_path_hdepth (f : W32) : (s.orFlags f).path.hdepth = s.path.hdepth := rfl
@[simp] theorem State.orFlags_path_halted (f : W32) : (s.orFlags f).path.halted = s.path.halted := rfl
@[simp] theorem State.orFlags_path_stepBit (f : W32) : (s.orFlags f).path.stepBit = s.path.stepBit := rfl
@[simp] theorem State.orFlags_path_status (f : W32) : (s.orFlags f).path.status = s.path.status := rfl
@[simp] theorem State.orFlags_path_since (f : W32) : (s.orFlags f).path.since = s.path.since := rfl
@[simp] theorem State.orFlags_path_seg (f : W32) : (s.orFlags f).path.seg = s.path.seg := rfl
@[simp] theorem State.orFlags_path_stamp (f : W32) : (s.orFlags f).path.stamp = s.path.stamp := rfl
@[simp] theorem State.orFlags_path_hold (f : W32) : (s.orFlags f).path.hold = s.path.hold := rfl
@[simp] theorem State.orFlags_path_posted (f : W32) : (s.orFlags f).path.posted = s.path.posted := rfl
@[simp] theorem State.orFlags_path_redo (f : W32) : (s.orFlags f).path.redo = s.path.redo := rfl
@[simp] theorem State.orFlags_path_ir (f : W32) : (s.orFlags f).path.ir = s.path.ir := rfl
@[simp] theorem State.orFlags_path_forced (f : W32) : (s.orFlags f).path.forced = s.path.forced := rfl
@[simp] theorem State.orFlags_path_again (f : W32) : (s.orFlags f).path.again = s.path.again := rfl
@[simp] theorem State.orFlags_path_stepped (f : W32) : (s.orFlags f).path.stepped = s.path.stepped := rfl
@[simp] theorem State.orFlags_path_uncorr (f : W32) : (s.orFlags f).path.uncorr = s.path.uncorr := rfl
@[simp] theorem State.orFlags_path_lost (f : W32) : (s.orFlags f).path.lost = s.path.lost := rfl
@[simp] theorem State.orFlags_path_adopts (f : W32) : (s.orFlags f).path.adopts = s.path.adopts := rfl
@[simp] theorem State.orFlags_path_kept (f : W32) : (s.orFlags f).path.kept = s.path.kept := rfl
@[simp] theorem State.orFlags_path_seen (f : W32) : (s.orFlags f).path.seen = s.path.seen := rfl
@[simp] theorem State.orFlags_path_under (f : W32) : (s.orFlags f).path.under = s.path.under := rfl

/-! `stay` -/

@[simp] theorem State.stay_kind : (s.stay).kind = s.kind := rfl
@[simp] theorem State.stay_wave : (s.stay).wave = s.wave := rfl
@[simp] theorem State.stay_block : (s.stay).block = s.block := rfl
@[simp] theorem State.stay_core : (s.stay).core = s.core := rfl
@[simp] theorem State.stay_dom : (s.stay).dom = s.dom := rfl
@[simp] theorem State.stay_doms : (s.stay).doms = s.doms := rfl
@[simp] theorem State.stay_hostMem : (s.stay).hostMem = s.hostMem := rfl
@[simp] theorem State.stay_fabricMem : (s.stay).fabricMem = s.fabricMem := rfl
@[simp] theorem State.stay_fabricTok : (s.stay).fabricTok = s.fabricTok := rfl
@[simp] theorem State.stay_hostData : (s.stay).hostData = s.hostData := rfl
@[simp] theorem State.stay_ports : (s.stay).ports = s.ports := rfl
@[simp] theorem State.stay_links : (s.stay).links = s.links := rfl
@[simp] theorem State.stay_tier2 : (s.stay).tier2 = s.tier2 := rfl
@[simp] theorem State.stay_tier2down : (s.stay).tier2down = s.tier2down := rfl
@[simp] theorem State.stay_ide : (s.stay).ide = s.ide := rfl
@[simp] theorem State.stay_iod : (s.stay).iod = s.iod := rfl
@[simp] theorem State.stay_fedDie : (s.stay).fedDie = s.fedDie := rfl
@[simp] theorem State.stay_agenda : (s.stay).agenda = s.agenda := rfl
@[simp] theorem State.stay_sigs : (s.stay).sigs = s.sigs := rfl
@[simp] theorem State.stay_issueQ : (s.stay).issueQ = s.issueQ := rfl
@[simp] theorem State.stay_turn : (s.stay).turn = s.turn := rfl
@[simp] theorem State.stay_fresh : (s.stay).fresh = s.fresh := rfl
@[simp] theorem State.stay_now : (s.stay).now = s.now := rfl
@[simp] theorem State.stay_path_pid : (s.stay).path.pid = s.path.pid := rfl
@[simp] theorem State.stay_path_pc : (s.stay).path.pc = s.path.pc := rfl
@[simp] theorem State.stay_path_mask : (s.stay).path.mask = s.path.mask := rfl
@[simp] theorem State.stay_path_stack : (s.stay).path.stack = s.path.stack := rfl
@[simp] theorem State.stay_path_fmt : (s.stay).path.fmt = s.path.fmt := rfl
@[simp] theorem State.stay_path_flags : (s.stay).path.flags = s.path.flags := rfl
@[simp] theorem State.stay_path_age : (s.stay).path.age = s.path.age := rfl
@[simp] theorem State.stay_path_aged : (s.stay).path.aged = s.path.aged := rfl
@[simp] theorem State.stay_path_joinTimer : (s.stay).path.joinTimer = s.path.joinTimer := rfl
@[simp] theorem State.stay_path_fb : (s.stay).path.fb = s.path.fb := rfl
@[simp] theorem State.stay_path_token : (s.stay).path.token = s.path.token := rfl
@[simp] theorem State.stay_path_e : (s.stay).path.e = s.path.e := rfl
@[simp] theorem State.stay_path_stepid : (s.stay).path.stepid = s.path.stepid := rfl
@[simp] theorem State.stay_path_stepStart : (s.stay).path.stepStart = s.path.stepStart := rfl
@[simp] theorem State.stay_path_drop : (s.stay).path.drop = s.path.drop := rfl
@[simp] theorem State.stay_path_ranges : (s.stay).path.ranges = s.path.ranges := rfl
@[simp] theorem State.stay_path_windows : (s.stay).path.windows = s.path.windows := rfl
@[simp] theorem State.stay_path_txdepth : (s.stay).path.txdepth = s.path.txdepth := rfl
@[simp] theorem State.stay_path_region : (s.stay).path.region = s.path.region := rfl
@[simp] theorem State.stay_path_trapcause : (s.stay).path.trapcause = s.path.trapcause := rfl
@[simp] theorem State.stay_path_trappc : (s.stay).path.trappc = s.path.trappc := rfl
@[simp] theorem State.stay_path_trapmask : (s.stay).path.trapmask = s.path.trapmask := rfl
@[simp] theorem State.stay_path_priv : (s.stay).path.priv = s.path.priv := rfl
@[simp] theorem State.stay_path_privFor : (s.stay).path.privFor = s.path.privFor := rfl
@[simp] theorem State.stay_path_hdepth : (s.stay).path.hdepth = s.path.hdepth := rfl
@[simp] theorem State.stay_path_halted : (s.stay).path.halted = s.path.halted := rfl
@[simp] theorem State.stay_path_stepBit : (s.stay).path.stepBit = s.path.stepBit := rfl
@[simp] theorem State.stay_path_status : (s.stay).path.status = .running := rfl
@[simp] theorem State.stay_path_since : (s.stay).path.since = s.path.since := rfl
@[simp] theorem State.stay_path_seg : (s.stay).path.seg = s.path.seg := rfl
@[simp] theorem State.stay_path_stamp : (s.stay).path.stamp = s.path.stamp := rfl
@[simp] theorem State.stay_path_hold : (s.stay).path.hold = s.path.hold := rfl
@[simp] theorem State.stay_path_posted : (s.stay).path.posted = s.path.posted := rfl
@[simp] theorem State.stay_path_redo : (s.stay).path.redo = s.path.redo := rfl
@[simp] theorem State.stay_path_ir : (s.stay).path.ir = none := rfl
@[simp] theorem State.stay_path_forced : (s.stay).path.forced = s.path.forced := rfl
@[simp] theorem State.stay_path_again : (s.stay).path.again = s.path.again := rfl
@[simp] theorem State.stay_path_stepped : (s.stay).path.stepped = false := rfl
@[simp] theorem State.stay_path_uncorr : (s.stay).path.uncorr = s.path.uncorr := rfl
@[simp] theorem State.stay_path_lost : (s.stay).path.lost = s.path.lost := rfl
@[simp] theorem State.stay_path_adopts : (s.stay).path.adopts = s.path.adopts := rfl
@[simp] theorem State.stay_path_kept : (s.stay).path.kept = s.path.kept := rfl
@[simp] theorem State.stay_path_seen : (s.stay).path.seen = s.path.seen := rfl
@[simp] theorem State.stay_path_under : (s.stay).path.under = s.path.under := rfl

/-! `count` -/

@[simp] theorem State.count_kind (e : PerfEvent) : (s.count e).kind = s.kind := rfl
@[simp] theorem State.count_path (e : PerfEvent) : (s.count e).path = s.path := rfl
@[simp] theorem State.count_wave (e : PerfEvent) : (s.count e).wave = s.wave := rfl
@[simp] theorem State.count_block (e : PerfEvent) : (s.count e).block = s.block := rfl
@[simp] theorem State.count_dom (e : PerfEvent) : (s.count e).dom = s.dom := rfl
@[simp] theorem State.count_doms (e : PerfEvent) : (s.count e).doms = s.doms := rfl
@[simp] theorem State.count_hostMem (e : PerfEvent) : (s.count e).hostMem = s.hostMem := rfl
@[simp] theorem State.count_fabricMem (e : PerfEvent) : (s.count e).fabricMem = s.fabricMem := rfl
@[simp] theorem State.count_fabricTok (e : PerfEvent) : (s.count e).fabricTok = s.fabricTok := rfl
@[simp] theorem State.count_hostData (e : PerfEvent) : (s.count e).hostData = s.hostData := rfl
@[simp] theorem State.count_ports (e : PerfEvent) : (s.count e).ports = s.ports := rfl
@[simp] theorem State.count_links (e : PerfEvent) : (s.count e).links = s.links := rfl
@[simp] theorem State.count_tier2 (e : PerfEvent) : (s.count e).tier2 = s.tier2 := rfl
@[simp] theorem State.count_tier2down (e : PerfEvent) : (s.count e).tier2down = s.tier2down := rfl
@[simp] theorem State.count_ide (e : PerfEvent) : (s.count e).ide = s.ide := rfl
@[simp] theorem State.count_iod (e : PerfEvent) : (s.count e).iod = s.iod := rfl
@[simp] theorem State.count_fedDie (e : PerfEvent) : (s.count e).fedDie = s.fedDie := rfl
@[simp] theorem State.count_agenda (e : PerfEvent) : (s.count e).agenda = s.agenda := rfl
@[simp] theorem State.count_sigs (e : PerfEvent) : (s.count e).sigs = s.sigs := rfl
@[simp] theorem State.count_issueQ (e : PerfEvent) : (s.count e).issueQ = s.issueQ := rfl
@[simp] theorem State.count_turn (e : PerfEvent) : (s.count e).turn = s.turn := rfl
@[simp] theorem State.count_fresh (e : PerfEvent) : (s.count e).fresh = s.fresh := rfl
@[simp] theorem State.count_now (e : PerfEvent) : (s.count e).now = s.now := rfl

/-! `updDom` -/

@[simp] theorem State.updDom_kind (f : Dom → Dom) : (s.updDom f).kind = s.kind := rfl
@[simp] theorem State.updDom_path (f : Dom → Dom) : (s.updDom f).path = s.path := rfl
@[simp] theorem State.updDom_wave (f : Dom → Dom) : (s.updDom f).wave = s.wave := rfl
@[simp] theorem State.updDom_block (f : Dom → Dom) : (s.updDom f).block = s.block := rfl
@[simp] theorem State.updDom_core (f : Dom → Dom) : (s.updDom f).core = s.core := rfl
@[simp] theorem State.updDom_doms (f : Dom → Dom) : (s.updDom f).doms = s.doms := rfl
@[simp] theorem State.updDom_hostMem (f : Dom → Dom) : (s.updDom f).hostMem = s.hostMem := rfl
@[simp] theorem State.updDom_fabricMem (f : Dom → Dom) : (s.updDom f).fabricMem = s.fabricMem := rfl
@[simp] theorem State.updDom_fabricTok (f : Dom → Dom) : (s.updDom f).fabricTok = s.fabricTok := rfl
@[simp] theorem State.updDom_hostData (f : Dom → Dom) : (s.updDom f).hostData = s.hostData := rfl
@[simp] theorem State.updDom_ports (f : Dom → Dom) : (s.updDom f).ports = s.ports := rfl
@[simp] theorem State.updDom_links (f : Dom → Dom) : (s.updDom f).links = s.links := rfl
@[simp] theorem State.updDom_tier2 (f : Dom → Dom) : (s.updDom f).tier2 = s.tier2 := rfl
@[simp] theorem State.updDom_tier2down (f : Dom → Dom) : (s.updDom f).tier2down = s.tier2down := rfl
@[simp] theorem State.updDom_ide (f : Dom → Dom) : (s.updDom f).ide = s.ide := rfl
@[simp] theorem State.updDom_iod (f : Dom → Dom) : (s.updDom f).iod = s.iod := rfl
@[simp] theorem State.updDom_fedDie (f : Dom → Dom) : (s.updDom f).fedDie = s.fedDie := rfl
@[simp] theorem State.updDom_agenda (f : Dom → Dom) : (s.updDom f).agenda = s.agenda := rfl
@[simp] theorem State.updDom_sigs (f : Dom → Dom) : (s.updDom f).sigs = s.sigs := rfl
@[simp] theorem State.updDom_issueQ (f : Dom → Dom) : (s.updDom f).issueQ = s.issueQ := rfl
@[simp] theorem State.updDom_turn (f : Dom → Dom) : (s.updDom f).turn = s.turn := rfl
@[simp] theorem State.updDom_fresh (f : Dom → Dom) : (s.updDom f).fresh = s.fresh := rfl
@[simp] theorem State.updDom_now (f : Dom → Dom) : (s.updDom f).now = s.now := rfl
@[simp] theorem State.updDom_dom (f : Dom → Dom) : (s.updDom f).dom = f s.dom := rfl

/-! `updLaunch` -/

@[simp] theorem State.updLaunch_kind (f : Launch → Launch) : (s.updLaunch f).kind = s.kind := rfl
@[simp] theorem State.updLaunch_path (f : Launch → Launch) : (s.updLaunch f).path = s.path := rfl
@[simp] theorem State.updLaunch_wave (f : Launch → Launch) : (s.updLaunch f).wave = s.wave := rfl
@[simp] theorem State.updLaunch_block (f : Launch → Launch) : (s.updLaunch f).block = s.block := rfl
@[simp] theorem State.updLaunch_core (f : Launch → Launch) : (s.updLaunch f).core = s.core := rfl
@[simp] theorem State.updLaunch_doms (f : Launch → Launch) : (s.updLaunch f).doms = s.doms := rfl
@[simp] theorem State.updLaunch_hostMem (f : Launch → Launch) : (s.updLaunch f).hostMem = s.hostMem := rfl
@[simp] theorem State.updLaunch_fabricMem (f : Launch → Launch) : (s.updLaunch f).fabricMem = s.fabricMem := rfl
@[simp] theorem State.updLaunch_fabricTok (f : Launch → Launch) : (s.updLaunch f).fabricTok = s.fabricTok := rfl
@[simp] theorem State.updLaunch_hostData (f : Launch → Launch) : (s.updLaunch f).hostData = s.hostData := rfl
@[simp] theorem State.updLaunch_ports (f : Launch → Launch) : (s.updLaunch f).ports = s.ports := rfl
@[simp] theorem State.updLaunch_links (f : Launch → Launch) : (s.updLaunch f).links = s.links := rfl
@[simp] theorem State.updLaunch_tier2 (f : Launch → Launch) : (s.updLaunch f).tier2 = s.tier2 := rfl
@[simp] theorem State.updLaunch_tier2down (f : Launch → Launch) : (s.updLaunch f).tier2down = s.tier2down := rfl
@[simp] theorem State.updLaunch_ide (f : Launch → Launch) : (s.updLaunch f).ide = s.ide := rfl
@[simp] theorem State.updLaunch_iod (f : Launch → Launch) : (s.updLaunch f).iod = s.iod := rfl
@[simp] theorem State.updLaunch_fedDie (f : Launch → Launch) : (s.updLaunch f).fedDie = s.fedDie := rfl
@[simp] theorem State.updLaunch_agenda (f : Launch → Launch) : (s.updLaunch f).agenda = s.agenda := rfl
@[simp] theorem State.updLaunch_sigs (f : Launch → Launch) : (s.updLaunch f).sigs = s.sigs := rfl
@[simp] theorem State.updLaunch_issueQ (f : Launch → Launch) : (s.updLaunch f).issueQ = s.issueQ := rfl
@[simp] theorem State.updLaunch_turn (f : Launch → Launch) : (s.updLaunch f).turn = s.turn := rfl
@[simp] theorem State.updLaunch_fresh (f : Launch → Launch) : (s.updLaunch f).fresh = s.fresh := rfl
@[simp] theorem State.updLaunch_now (f : Launch → Launch) : (s.updLaunch f).now = s.now := rfl
@[simp] theorem State.updLaunch_dom_ix (f : Launch → Launch) : (s.updLaunch f).dom.ix = s.dom.ix := rfl
@[simp] theorem State.updLaunch_dom_up (f : Launch → Launch) : (s.updLaunch f).dom.up = s.dom.up := rfl
@[simp] theorem State.updLaunch_dom_mem (f : Launch → Launch) : (s.updLaunch f).dom.mem = s.dom.mem := rfl
@[simp] theorem State.updLaunch_dom_tags (f : Launch → Launch) : (s.updLaunch f).dom.tags = s.dom.tags := rfl
@[simp] theorem State.updLaunch_dom_keys (f : Launch → Launch) : (s.updLaunch f).dom.keys = s.dom.keys := rfl
@[simp] theorem State.updLaunch_dom_poison (f : Launch → Launch) : (s.updLaunch f).dom.poison = s.dom.poison := rfl
@[simp] theorem State.updLaunch_dom_l1 (f : Launch → Launch) : (s.updLaunch f).dom.l1 = s.dom.l1 := rfl
@[simp] theorem State.updLaunch_dom_l2 (f : Launch → Launch) : (s.updLaunch f).dom.l2 = s.dom.l2 := rfl
@[simp] theorem State.updLaunch_dom_msc (f : Launch → Launch) : (s.updLaunch f).dom.msc = s.dom.msc := rfl
@[simp] theorem State.updLaunch_dom_ccache (f : Launch → Launch) : (s.updLaunch f).dom.ccache = s.dom.ccache := rfl
@[simp] theorem State.updLaunch_dom_icache (f : Launch → Launch) : (s.updLaunch f).dom.icache = s.dom.icache := rfl
@[simp] theorem State.updLaunch_dom_tlb (f : Launch → Launch) : (s.updLaunch f).dom.tlb = s.dom.tlb := rfl
@[simp] theorem State.updLaunch_dom_rmap (f : Launch → Launch) : (s.updLaunch f).dom.rmap = s.dom.rmap := rfl
@[simp] theorem State.updLaunch_dom_invals (f : Launch → Launch) : (s.updLaunch f).dom.invals = s.dom.invals := rfl
@[simp] theorem State.updLaunch_dom_nextInval (f : Launch → Launch) : (s.updLaunch f).dom.nextInval = s.dom.nextInval := rfl
@[simp] theorem State.updLaunch_dom_tokCache (f : Launch → Launch) : (s.updLaunch f).dom.tokCache = s.dom.tokCache := rfl
@[simp] theorem State.updLaunch_dom_monitors (f : Launch → Launch) : (s.updLaunch f).dom.monitors = s.dom.monitors := rfl
@[simp] theorem State.updLaunch_dom_locks (f : Launch → Launch) : (s.updLaunch f).dom.locks = s.dom.locks := rfl
@[simp] theorem State.updLaunch_dom_applied (f : Launch → Launch) : (s.updLaunch f).dom.applied = s.dom.applied := rfl
@[simp] theorem State.updLaunch_dom_ptroot (f : Launch → Launch) : (s.updLaunch f).dom.ptroot = s.dom.ptroot := rfl
@[simp] theorem State.updLaunch_dom_ttbase (f : Launch → Launch) : (s.updLaunch f).dom.ttbase = s.dom.ttbase := rfl
@[simp] theorem State.updLaunch_dom_ttslots (f : Launch → Launch) : (s.updLaunch f).dom.ttslots = s.dom.ttslots := rfl
@[simp] theorem State.updLaunch_dom_supentry (f : Launch → Launch) : (s.updLaunch f).dom.supentry = s.dom.supentry := rfl
@[simp] theorem State.updLaunch_dom_supsave (f : Launch → Launch) : (s.updLaunch f).dom.supsave = s.dom.supsave := rfl
@[simp] theorem State.updLaunch_dom_faultqBase (f : Launch → Launch) : (s.updLaunch f).dom.faultqBase = s.dom.faultqBase := rfl
@[simp] theorem State.updLaunch_dom_fqsize (f : Launch → Launch) : (s.updLaunch f).dom.fqsize = s.dom.fqsize := rfl
@[simp] theorem State.updLaunch_dom_fqnext (f : Launch → Launch) : (s.updLaunch f).dom.fqnext = s.dom.fqnext := rfl
@[simp] theorem State.updLaunch_dom_parks (f : Launch → Launch) : (s.updLaunch f).dom.parks = s.dom.parks := rfl
@[simp] theorem State.updLaunch_dom_nextPark (f : Launch → Launch) : (s.updLaunch f).dom.nextPark = s.dom.nextPark := rfl
@[simp] theorem State.updLaunch_dom_dbg (f : Launch → Launch) : (s.updLaunch f).dom.dbg = s.dom.dbg := rfl
@[simp] theorem State.updLaunch_dom_dbgBuffer (f : Launch → Launch) : (s.updLaunch f).dom.dbgBuffer = s.dom.dbgBuffer := rfl
@[simp] theorem State.updLaunch_dom_dbgPath (f : Launch → Launch) : (s.updLaunch f).dom.dbgPath = s.dom.dbgPath := rfl
@[simp] theorem State.updLaunch_dom_dbgIx (f : Launch → Launch) : (s.updLaunch f).dom.dbgIx = s.dom.dbgIx := rfl
@[simp] theorem State.updLaunch_dom_serial (f : Launch → Launch) : (s.updLaunch f).dom.serial = s.dom.serial := rfl
@[simp] theorem State.updLaunch_dom_clQueue (f : Launch → Launch) : (s.updLaunch f).dom.clQueue = s.dom.clQueue := rfl
@[simp] theorem State.updLaunch_dom_serialBase (f : Launch → Launch) : (s.updLaunch f).dom.serialBase = s.dom.serialBase := rfl
@[simp] theorem State.updLaunch_dom_dirtySel (f : Launch → Launch) : (s.updLaunch f).dom.dirtySel = s.dom.dirtySel := rfl
@[simp] theorem State.updLaunch_dom_dirtyBase0 (f : Launch → Launch) : (s.updLaunch f).dom.dirtyBase0 = s.dom.dirtyBase0 := rfl
@[simp] theorem State.updLaunch_dom_dirtyBase1 (f : Launch → Launch) : (s.updLaunch f).dom.dirtyBase1 = s.dom.dirtyBase1 := rfl
@[simp] theorem State.updLaunch_dom_ctl0 (f : Launch → Launch) : (s.updLaunch f).dom.ctl0 = s.dom.ctl0 := rfl
@[simp] theorem State.updLaunch_dom_ctl1 (f : Launch → Launch) : (s.updLaunch f).dom.ctl1 = s.dom.ctl1 := rfl
@[simp] theorem State.updLaunch_dom_isolation (f : Launch → Launch) : (s.updLaunch f).dom.isolation = s.dom.isolation := rfl
@[simp] theorem State.updLaunch_dom_shares (f : Launch → Launch) : (s.updLaunch f).dom.shares = s.dom.shares := rfl
@[simp] theorem State.updLaunch_dom_exports (f : Launch → Launch) : (s.updLaunch f).dom.exports = s.dom.exports := rfl
@[simp] theorem State.updLaunch_dom_genBase (f : Launch → Launch) : (s.updLaunch f).dom.genBase = s.dom.genBase := rfl
@[simp] theorem State.updLaunch_dom_imports (f : Launch → Launch) : (s.updLaunch f).dom.imports = s.dom.imports := rfl
@[simp] theorem State.updLaunch_dom_queues (f : Launch → Launch) : (s.updLaunch f).dom.queues = s.dom.queues := rfl
@[simp] theorem State.updLaunch_dom_slots (f : Launch → Launch) : (s.updLaunch f).dom.slots = s.dom.slots := rfl
@[simp] theorem State.updLaunch_dom_pend (f : Launch → Launch) : (s.updLaunch f).dom.pend = s.dom.pend := rfl
@[simp] theorem State.updLaunch_dom_lastMapped (f : Launch → Launch) : (s.updLaunch f).dom.lastMapped = s.dom.lastMapped := rfl
@[simp] theorem State.updLaunch_dom_completions (f : Launch → Launch) : (s.updLaunch f).dom.completions = s.dom.completions := rfl
@[simp] theorem State.updLaunch_dom_interrupts (f : Launch → Launch) : (s.updLaunch f).dom.interrupts = s.dom.interrupts := rfl
@[simp] theorem State.updLaunch_dom_reports (f : Launch → Launch) : (s.updLaunch f).dom.reports = s.dom.reports := rfl
@[simp] theorem State.updLaunch_dom_nextLaunch (f : Launch → Launch) : (s.updLaunch f).dom.nextLaunch = s.dom.nextLaunch := rfl
@[simp] theorem State.updLaunch_dom_place (f : Launch → Launch) : (s.updLaunch f).dom.place = s.dom.place := rfl
@[simp] theorem State.updLaunch_dom_nextBlock (f : Launch → Launch) : (s.updLaunch f).dom.nextBlock = s.dom.nextBlock := rfl
@[simp] theorem State.updLaunch_dom_blocks (f : Launch → Launch) : (s.updLaunch f).dom.blocks = s.dom.blocks := rfl
@[simp] theorem State.updLaunch_dom_memDeque (f : Launch → Launch) : (s.updLaunch f).dom.memDeque = s.dom.memDeque := rfl
@[simp] theorem State.updLaunch_dom_nextTask (f : Launch → Launch) : (s.updLaunch f).dom.nextTask = s.dom.nextTask := rfl
@[simp] theorem State.updLaunch_dom_slicePerf (f : Launch → Launch) : (s.updLaunch f).dom.slicePerf = s.dom.slicePerf := rfl
@[simp] theorem State.updLaunch_dom_trace (f : Launch → Launch) : (s.updLaunch f).dom.trace = s.dom.trace := rfl
@[simp] theorem State.updLaunch_dom_traceCount (f : Launch → Launch) : (s.updLaunch f).dom.traceCount = s.dom.traceCount := rfl
@[simp] theorem State.updLaunch_dom_tracePos (f : Launch → Launch) : (s.updLaunch f).dom.tracePos = s.dom.tracePos := rfl
@[simp] theorem State.updLaunch_dom_measure (f : Launch → Launch) : (s.updLaunch f).dom.measure = s.dom.measure := rfl
@[simp] theorem State.updLaunch_dom_version (f : Launch → Launch) : (s.updLaunch f).dom.version = s.dom.version := rfl
@[simp] theorem State.updLaunch_dom_fuse (f : Launch → Launch) : (s.updLaunch f).dom.fuse = s.dom.fuse := rfl
@[simp] theorem State.updLaunch_dom_cfg (f : Launch → Launch) : (s.updLaunch f).dom.cfg = s.dom.cfg := rfl
@[simp] theorem State.updLaunch_dom_fed (f : Launch → Launch) : (s.updLaunch f).dom.fed = s.dom.fed := rfl
@[simp] theorem State.updLaunch_dom_served (f : Launch → Launch) : (s.updLaunch f).dom.served = s.dom.served := rfl
@[simp] theorem State.updLaunch_dom_hostLocket (f : Launch → Launch) : (s.updLaunch f).dom.hostLocket = s.dom.hostLocket := rfl
@[simp] theorem State.updLaunch_dom_late (f : Launch → Launch) : (s.updLaunch f).dom.late = s.dom.late := rfl
@[simp] theorem State.updLaunch_dom_corrected (f : Launch → Launch) : (s.updLaunch f).dom.corrected = s.dom.corrected := rfl
@[simp] theorem State.updLaunch_dom_msix (f : Launch → Launch) : (s.updLaunch f).dom.msix = s.dom.msix := rfl
@[simp] theorem State.updLaunch_dom_cores (f : Launch → Launch) : (s.updLaunch f).dom.cores = s.dom.cores := rfl

/-! `dropPark` -/

@[simp] theorem State.dropPark_kind (id : W32) : (s.dropPark id).kind = s.kind := rfl
@[simp] theorem State.dropPark_path (id : W32) : (s.dropPark id).path = s.path := rfl
@[simp] theorem State.dropPark_wave (id : W32) : (s.dropPark id).wave = s.wave := rfl
@[simp] theorem State.dropPark_block (id : W32) : (s.dropPark id).block = s.block := rfl
@[simp] theorem State.dropPark_core (id : W32) : (s.dropPark id).core = s.core := rfl
@[simp] theorem State.dropPark_doms (id : W32) : (s.dropPark id).doms = s.doms := rfl
@[simp] theorem State.dropPark_hostMem (id : W32) : (s.dropPark id).hostMem = s.hostMem := rfl
@[simp] theorem State.dropPark_fabricMem (id : W32) : (s.dropPark id).fabricMem = s.fabricMem := rfl
@[simp] theorem State.dropPark_fabricTok (id : W32) : (s.dropPark id).fabricTok = s.fabricTok := rfl
@[simp] theorem State.dropPark_hostData (id : W32) : (s.dropPark id).hostData = s.hostData := rfl
@[simp] theorem State.dropPark_ports (id : W32) : (s.dropPark id).ports = s.ports := rfl
@[simp] theorem State.dropPark_links (id : W32) : (s.dropPark id).links = s.links := rfl
@[simp] theorem State.dropPark_tier2 (id : W32) : (s.dropPark id).tier2 = s.tier2 := rfl
@[simp] theorem State.dropPark_tier2down (id : W32) : (s.dropPark id).tier2down = s.tier2down := rfl
@[simp] theorem State.dropPark_ide (id : W32) : (s.dropPark id).ide = s.ide := rfl
@[simp] theorem State.dropPark_iod (id : W32) : (s.dropPark id).iod = s.iod := rfl
@[simp] theorem State.dropPark_fedDie (id : W32) : (s.dropPark id).fedDie = s.fedDie := rfl
@[simp] theorem State.dropPark_agenda (id : W32) : (s.dropPark id).agenda = s.agenda := rfl
@[simp] theorem State.dropPark_sigs (id : W32) : (s.dropPark id).sigs = s.sigs := rfl
@[simp] theorem State.dropPark_issueQ (id : W32) : (s.dropPark id).issueQ = s.issueQ := rfl
@[simp] theorem State.dropPark_turn (id : W32) : (s.dropPark id).turn = s.turn := rfl
@[simp] theorem State.dropPark_fresh (id : W32) : (s.dropPark id).fresh = s.fresh := rfl
@[simp] theorem State.dropPark_now (id : W32) : (s.dropPark id).now = s.now := rfl
@[simp] theorem State.dropPark_dom_ix (id : W32) : (s.dropPark id).dom.ix = s.dom.ix := rfl
@[simp] theorem State.dropPark_dom_up (id : W32) : (s.dropPark id).dom.up = s.dom.up := rfl
@[simp] theorem State.dropPark_dom_mem (id : W32) : (s.dropPark id).dom.mem = s.dom.mem := rfl
@[simp] theorem State.dropPark_dom_tags (id : W32) : (s.dropPark id).dom.tags = s.dom.tags := rfl
@[simp] theorem State.dropPark_dom_keys (id : W32) : (s.dropPark id).dom.keys = s.dom.keys := rfl
@[simp] theorem State.dropPark_dom_poison (id : W32) : (s.dropPark id).dom.poison = s.dom.poison := rfl
@[simp] theorem State.dropPark_dom_l1 (id : W32) : (s.dropPark id).dom.l1 = s.dom.l1 := rfl
@[simp] theorem State.dropPark_dom_l2 (id : W32) : (s.dropPark id).dom.l2 = s.dom.l2 := rfl
@[simp] theorem State.dropPark_dom_msc (id : W32) : (s.dropPark id).dom.msc = s.dom.msc := rfl
@[simp] theorem State.dropPark_dom_ccache (id : W32) : (s.dropPark id).dom.ccache = s.dom.ccache := rfl
@[simp] theorem State.dropPark_dom_icache (id : W32) : (s.dropPark id).dom.icache = s.dom.icache := rfl
@[simp] theorem State.dropPark_dom_tlb (id : W32) : (s.dropPark id).dom.tlb = s.dom.tlb := rfl
@[simp] theorem State.dropPark_dom_rmap (id : W32) : (s.dropPark id).dom.rmap = s.dom.rmap := rfl
@[simp] theorem State.dropPark_dom_invals (id : W32) : (s.dropPark id).dom.invals = s.dom.invals := rfl
@[simp] theorem State.dropPark_dom_nextInval (id : W32) : (s.dropPark id).dom.nextInval = s.dom.nextInval := rfl
@[simp] theorem State.dropPark_dom_tokCache (id : W32) : (s.dropPark id).dom.tokCache = s.dom.tokCache := rfl
@[simp] theorem State.dropPark_dom_monitors (id : W32) : (s.dropPark id).dom.monitors = s.dom.monitors := rfl
@[simp] theorem State.dropPark_dom_locks (id : W32) : (s.dropPark id).dom.locks = s.dom.locks := rfl
@[simp] theorem State.dropPark_dom_applied (id : W32) : (s.dropPark id).dom.applied = s.dom.applied := rfl
@[simp] theorem State.dropPark_dom_ptroot (id : W32) : (s.dropPark id).dom.ptroot = s.dom.ptroot := rfl
@[simp] theorem State.dropPark_dom_ttbase (id : W32) : (s.dropPark id).dom.ttbase = s.dom.ttbase := rfl
@[simp] theorem State.dropPark_dom_ttslots (id : W32) : (s.dropPark id).dom.ttslots = s.dom.ttslots := rfl
@[simp] theorem State.dropPark_dom_supentry (id : W32) : (s.dropPark id).dom.supentry = s.dom.supentry := rfl
@[simp] theorem State.dropPark_dom_supsave (id : W32) : (s.dropPark id).dom.supsave = s.dom.supsave := rfl
@[simp] theorem State.dropPark_dom_faultqBase (id : W32) : (s.dropPark id).dom.faultqBase = s.dom.faultqBase := rfl
@[simp] theorem State.dropPark_dom_fqsize (id : W32) : (s.dropPark id).dom.fqsize = s.dom.fqsize := rfl
@[simp] theorem State.dropPark_dom_fqnext (id : W32) : (s.dropPark id).dom.fqnext = s.dom.fqnext := rfl
@[simp] theorem State.dropPark_dom_nextPark (id : W32) : (s.dropPark id).dom.nextPark = s.dom.nextPark := rfl
@[simp] theorem State.dropPark_dom_dbg (id : W32) : (s.dropPark id).dom.dbg = s.dom.dbg := rfl
@[simp] theorem State.dropPark_dom_dbgBuffer (id : W32) : (s.dropPark id).dom.dbgBuffer = s.dom.dbgBuffer := rfl
@[simp] theorem State.dropPark_dom_dbgPath (id : W32) : (s.dropPark id).dom.dbgPath = s.dom.dbgPath := rfl
@[simp] theorem State.dropPark_dom_dbgIx (id : W32) : (s.dropPark id).dom.dbgIx = s.dom.dbgIx := rfl
@[simp] theorem State.dropPark_dom_serial (id : W32) : (s.dropPark id).dom.serial = s.dom.serial := rfl
@[simp] theorem State.dropPark_dom_clQueue (id : W32) : (s.dropPark id).dom.clQueue = s.dom.clQueue := rfl
@[simp] theorem State.dropPark_dom_serialBase (id : W32) : (s.dropPark id).dom.serialBase = s.dom.serialBase := rfl
@[simp] theorem State.dropPark_dom_dirtySel (id : W32) : (s.dropPark id).dom.dirtySel = s.dom.dirtySel := rfl
@[simp] theorem State.dropPark_dom_dirtyBase0 (id : W32) : (s.dropPark id).dom.dirtyBase0 = s.dom.dirtyBase0 := rfl
@[simp] theorem State.dropPark_dom_dirtyBase1 (id : W32) : (s.dropPark id).dom.dirtyBase1 = s.dom.dirtyBase1 := rfl
@[simp] theorem State.dropPark_dom_ctl0 (id : W32) : (s.dropPark id).dom.ctl0 = s.dom.ctl0 := rfl
@[simp] theorem State.dropPark_dom_ctl1 (id : W32) : (s.dropPark id).dom.ctl1 = s.dom.ctl1 := rfl
@[simp] theorem State.dropPark_dom_isolation (id : W32) : (s.dropPark id).dom.isolation = s.dom.isolation := rfl
@[simp] theorem State.dropPark_dom_shares (id : W32) : (s.dropPark id).dom.shares = s.dom.shares := rfl
@[simp] theorem State.dropPark_dom_exports (id : W32) : (s.dropPark id).dom.exports = s.dom.exports := rfl
@[simp] theorem State.dropPark_dom_genBase (id : W32) : (s.dropPark id).dom.genBase = s.dom.genBase := rfl
@[simp] theorem State.dropPark_dom_imports (id : W32) : (s.dropPark id).dom.imports = s.dom.imports := rfl
@[simp] theorem State.dropPark_dom_queues (id : W32) : (s.dropPark id).dom.queues = s.dom.queues := rfl
@[simp] theorem State.dropPark_dom_slots (id : W32) : (s.dropPark id).dom.slots = s.dom.slots := rfl
@[simp] theorem State.dropPark_dom_pend (id : W32) : (s.dropPark id).dom.pend = s.dom.pend := rfl
@[simp] theorem State.dropPark_dom_lastMapped (id : W32) : (s.dropPark id).dom.lastMapped = s.dom.lastMapped := rfl
@[simp] theorem State.dropPark_dom_completions (id : W32) : (s.dropPark id).dom.completions = s.dom.completions := rfl
@[simp] theorem State.dropPark_dom_interrupts (id : W32) : (s.dropPark id).dom.interrupts = s.dom.interrupts := rfl
@[simp] theorem State.dropPark_dom_reports (id : W32) : (s.dropPark id).dom.reports = s.dom.reports := rfl
@[simp] theorem State.dropPark_dom_launches (id : W32) : (s.dropPark id).dom.launches = s.dom.launches := rfl
@[simp] theorem State.dropPark_dom_nextLaunch (id : W32) : (s.dropPark id).dom.nextLaunch = s.dom.nextLaunch := rfl
@[simp] theorem State.dropPark_dom_place (id : W32) : (s.dropPark id).dom.place = s.dom.place := rfl
@[simp] theorem State.dropPark_dom_nextBlock (id : W32) : (s.dropPark id).dom.nextBlock = s.dom.nextBlock := rfl
@[simp] theorem State.dropPark_dom_blocks (id : W32) : (s.dropPark id).dom.blocks = s.dom.blocks := rfl
@[simp] theorem State.dropPark_dom_memDeque (id : W32) : (s.dropPark id).dom.memDeque = s.dom.memDeque := rfl
@[simp] theorem State.dropPark_dom_nextTask (id : W32) : (s.dropPark id).dom.nextTask = s.dom.nextTask := rfl
@[simp] theorem State.dropPark_dom_slicePerf (id : W32) : (s.dropPark id).dom.slicePerf = s.dom.slicePerf := rfl
@[simp] theorem State.dropPark_dom_trace (id : W32) : (s.dropPark id).dom.trace = s.dom.trace := rfl
@[simp] theorem State.dropPark_dom_traceCount (id : W32) : (s.dropPark id).dom.traceCount = s.dom.traceCount := rfl
@[simp] theorem State.dropPark_dom_tracePos (id : W32) : (s.dropPark id).dom.tracePos = s.dom.tracePos := rfl
@[simp] theorem State.dropPark_dom_measure (id : W32) : (s.dropPark id).dom.measure = s.dom.measure := rfl
@[simp] theorem State.dropPark_dom_version (id : W32) : (s.dropPark id).dom.version = s.dom.version := rfl
@[simp] theorem State.dropPark_dom_fuse (id : W32) : (s.dropPark id).dom.fuse = s.dom.fuse := rfl
@[simp] theorem State.dropPark_dom_cfg (id : W32) : (s.dropPark id).dom.cfg = s.dom.cfg := rfl
@[simp] theorem State.dropPark_dom_fed (id : W32) : (s.dropPark id).dom.fed = s.dom.fed := rfl
@[simp] theorem State.dropPark_dom_served (id : W32) : (s.dropPark id).dom.served = s.dom.served := rfl
@[simp] theorem State.dropPark_dom_hostLocket (id : W32) : (s.dropPark id).dom.hostLocket = s.dom.hostLocket := rfl
@[simp] theorem State.dropPark_dom_late (id : W32) : (s.dropPark id).dom.late = s.dom.late := rfl
@[simp] theorem State.dropPark_dom_corrected (id : W32) : (s.dropPark id).dom.corrected = s.dom.corrected := rfl
@[simp] theorem State.dropPark_dom_msix (id : W32) : (s.dropPark id).dom.msix = s.dom.msix := rfl
@[simp] theorem State.dropPark_dom_cores (id : W32) : (s.dropPark id).dom.cores = s.dom.cores := rfl

/-! `setCopy` -/

@[simp] theorem State.setCopy_kind (c : CopyCtx) : (s.setCopy c).kind = s.kind := rfl
@[simp] theorem State.setCopy_path (c : CopyCtx) : (s.setCopy c).path = s.path := rfl
@[simp] theorem State.setCopy_wave (c : CopyCtx) : (s.setCopy c).wave = s.wave := rfl
@[simp] theorem State.setCopy_core (c : CopyCtx) : (s.setCopy c).core = s.core := rfl
@[simp] theorem State.setCopy_dom (c : CopyCtx) : (s.setCopy c).dom = s.dom := rfl
@[simp] theorem State.setCopy_doms (c : CopyCtx) : (s.setCopy c).doms = s.doms := rfl
@[simp] theorem State.setCopy_hostMem (c : CopyCtx) : (s.setCopy c).hostMem = s.hostMem := rfl
@[simp] theorem State.setCopy_fabricMem (c : CopyCtx) : (s.setCopy c).fabricMem = s.fabricMem := rfl
@[simp] theorem State.setCopy_fabricTok (c : CopyCtx) : (s.setCopy c).fabricTok = s.fabricTok := rfl
@[simp] theorem State.setCopy_hostData (c : CopyCtx) : (s.setCopy c).hostData = s.hostData := rfl
@[simp] theorem State.setCopy_ports (c : CopyCtx) : (s.setCopy c).ports = s.ports := rfl
@[simp] theorem State.setCopy_links (c : CopyCtx) : (s.setCopy c).links = s.links := rfl
@[simp] theorem State.setCopy_tier2 (c : CopyCtx) : (s.setCopy c).tier2 = s.tier2 := rfl
@[simp] theorem State.setCopy_tier2down (c : CopyCtx) : (s.setCopy c).tier2down = s.tier2down := rfl
@[simp] theorem State.setCopy_ide (c : CopyCtx) : (s.setCopy c).ide = s.ide := rfl
@[simp] theorem State.setCopy_iod (c : CopyCtx) : (s.setCopy c).iod = s.iod := rfl
@[simp] theorem State.setCopy_fedDie (c : CopyCtx) : (s.setCopy c).fedDie = s.fedDie := rfl
@[simp] theorem State.setCopy_agenda (c : CopyCtx) : (s.setCopy c).agenda = s.agenda := rfl
@[simp] theorem State.setCopy_sigs (c : CopyCtx) : (s.setCopy c).sigs = s.sigs := rfl
@[simp] theorem State.setCopy_issueQ (c : CopyCtx) : (s.setCopy c).issueQ = s.issueQ := rfl
@[simp] theorem State.setCopy_turn (c : CopyCtx) : (s.setCopy c).turn = s.turn := rfl
@[simp] theorem State.setCopy_fresh (c : CopyCtx) : (s.setCopy c).fresh = s.fresh := rfl
@[simp] theorem State.setCopy_now (c : CopyCtx) : (s.setCopy c).now = s.now := rfl
@[simp] theorem State.setCopy_block_id (c : CopyCtx) : (s.setCopy c).block.id = s.block.id := rfl
@[simp] theorem State.setCopy_block_launch (c : CopyCtx) : (s.setCopy c).block.launch = s.block.launch := rfl
@[simp] theorem State.setCopy_block_blockid (c : CopyCtx) : (s.setCopy c).block.blockid = s.block.blockid := rfl
@[simp] theorem State.setCopy_block_task (c : CopyCtx) : (s.setCopy c).block.task = s.block.task := rfl
@[simp] theorem State.setCopy_block_started (c : CopyCtx) : (s.setCopy c).block.started = s.block.started := rfl
@[simp] theorem State.setCopy_block_core (c : CopyCtx) : (s.setCopy c).block.core = s.block.core := rfl
@[simp] theorem State.setCopy_block_bctx (c : CopyCtx) : (s.setCopy c).block.bctx = s.block.bctx := rfl
@[simp] theorem State.setCopy_block_res (c : CopyCtx) : (s.setCopy c).block.res = s.block.res := rfl
@[simp] theorem State.setCopy_block_lastCluster (c : CopyCtx) : (s.setCopy c).block.lastCluster = s.block.lastCluster := rfl
@[simp] theorem State.setCopy_block_wake (c : CopyCtx) : (s.setCopy c).block.wake = s.block.wake := rfl
@[simp] theorem State.setCopy_block_idleSince (c : CopyCtx) : (s.setCopy c).block.idleSince = s.block.idleSince := rfl
@[simp] theorem State.setCopy_block_preempt (c : CopyCtx) : (s.setCopy c).block.preempt = s.block.preempt := rfl
@[simp] theorem State.setCopy_block_bases (c : CopyCtx) : (s.setCopy c).block.bases = s.block.bases := rfl
@[simp] theorem State.setCopy_block_sizes (c : CopyCtx) : (s.setCopy c).block.sizes = s.block.sizes := rfl
@[simp] theorem State.setCopy_block_images (c : CopyCtx) : (s.setCopy c).block.images = s.block.images := rfl
@[simp] theorem State.setCopy_block_gangs (c : CopyCtx) : (s.setCopy c).block.gangs = s.block.gangs := rfl
@[simp] theorem State.setCopy_block_bars (c : CopyCtx) : (s.setCopy c).block.bars = s.block.bars := rfl
@[simp] theorem State.setCopy_block_hq (c : CopyCtx) : (s.setCopy c).block.hq = s.block.hq := rfl
@[simp] theorem State.setCopy_block_copy (c : CopyCtx) : (s.setCopy c).block.copy = c := rfl
@[simp] theorem State.setCopy_block_stream (c : CopyCtx) : (s.setCopy c).block.stream = s.block.stream := rfl
@[simp] theorem State.setCopy_block_waves (c : CopyCtx) : (s.setCopy c).block.waves = s.block.waves := rfl
@[simp] theorem State.setCopy_block_nextTaskWave (c : CopyCtx) : (s.setCopy c).block.nextTaskWave = s.block.nextTaskWave := rfl
@[simp] theorem State.setCopy_block_endTok (c : CopyCtx) : (s.setCopy c).block.endTok = s.block.endTok := rfl
@[simp] theorem State.setCopy_block_endUnit (c : CopyCtx) : (s.setCopy c).block.endUnit = s.block.endUnit := rfl
@[simp] theorem State.setCopy_block_pollAt (c : CopyCtx) : (s.setCopy c).block.pollAt = s.block.pollAt := rfl
@[simp] theorem State.setCopy_block_flaws (c : CopyCtx) : (s.setCopy c).block.flaws = s.block.flaws := rfl

/-! `putStream` -/

@[simp] theorem State.putStream_kind (m : Stream) : (s.putStream m).kind = s.kind := rfl
@[simp] theorem State.putStream_path (m : Stream) : (s.putStream m).path = s.path := rfl
@[simp] theorem State.putStream_wave (m : Stream) : (s.putStream m).wave = s.wave := rfl
@[simp] theorem State.putStream_core (m : Stream) : (s.putStream m).core = s.core := rfl
@[simp] theorem State.putStream_dom (m : Stream) : (s.putStream m).dom = s.dom := rfl
@[simp] theorem State.putStream_doms (m : Stream) : (s.putStream m).doms = s.doms := rfl
@[simp] theorem State.putStream_hostMem (m : Stream) : (s.putStream m).hostMem = s.hostMem := rfl
@[simp] theorem State.putStream_fabricMem (m : Stream) : (s.putStream m).fabricMem = s.fabricMem := rfl
@[simp] theorem State.putStream_fabricTok (m : Stream) : (s.putStream m).fabricTok = s.fabricTok := rfl
@[simp] theorem State.putStream_hostData (m : Stream) : (s.putStream m).hostData = s.hostData := rfl
@[simp] theorem State.putStream_ports (m : Stream) : (s.putStream m).ports = s.ports := rfl
@[simp] theorem State.putStream_links (m : Stream) : (s.putStream m).links = s.links := rfl
@[simp] theorem State.putStream_tier2 (m : Stream) : (s.putStream m).tier2 = s.tier2 := rfl
@[simp] theorem State.putStream_tier2down (m : Stream) : (s.putStream m).tier2down = s.tier2down := rfl
@[simp] theorem State.putStream_ide (m : Stream) : (s.putStream m).ide = s.ide := rfl
@[simp] theorem State.putStream_iod (m : Stream) : (s.putStream m).iod = s.iod := rfl
@[simp] theorem State.putStream_fedDie (m : Stream) : (s.putStream m).fedDie = s.fedDie := rfl
@[simp] theorem State.putStream_agenda (m : Stream) : (s.putStream m).agenda = s.agenda := rfl
@[simp] theorem State.putStream_sigs (m : Stream) : (s.putStream m).sigs = s.sigs := rfl
@[simp] theorem State.putStream_issueQ (m : Stream) : (s.putStream m).issueQ = s.issueQ := rfl
@[simp] theorem State.putStream_turn (m : Stream) : (s.putStream m).turn = s.turn := rfl
@[simp] theorem State.putStream_fresh (m : Stream) : (s.putStream m).fresh = s.fresh := rfl
@[simp] theorem State.putStream_now (m : Stream) : (s.putStream m).now = s.now := rfl
@[simp] theorem State.putStream_block_id (m : Stream) : (s.putStream m).block.id = s.block.id := rfl
@[simp] theorem State.putStream_block_launch (m : Stream) : (s.putStream m).block.launch = s.block.launch := rfl
@[simp] theorem State.putStream_block_blockid (m : Stream) : (s.putStream m).block.blockid = s.block.blockid := rfl
@[simp] theorem State.putStream_block_task (m : Stream) : (s.putStream m).block.task = s.block.task := rfl
@[simp] theorem State.putStream_block_started (m : Stream) : (s.putStream m).block.started = s.block.started := rfl
@[simp] theorem State.putStream_block_core (m : Stream) : (s.putStream m).block.core = s.block.core := rfl
@[simp] theorem State.putStream_block_bctx (m : Stream) : (s.putStream m).block.bctx = s.block.bctx := rfl
@[simp] theorem State.putStream_block_res (m : Stream) : (s.putStream m).block.res = s.block.res := rfl
@[simp] theorem State.putStream_block_lastCluster (m : Stream) : (s.putStream m).block.lastCluster = s.block.lastCluster := rfl
@[simp] theorem State.putStream_block_wake (m : Stream) : (s.putStream m).block.wake = s.block.wake := rfl
@[simp] theorem State.putStream_block_idleSince (m : Stream) : (s.putStream m).block.idleSince = s.block.idleSince := rfl
@[simp] theorem State.putStream_block_preempt (m : Stream) : (s.putStream m).block.preempt = s.block.preempt := rfl
@[simp] theorem State.putStream_block_bases (m : Stream) : (s.putStream m).block.bases = s.block.bases := rfl
@[simp] theorem State.putStream_block_sizes (m : Stream) : (s.putStream m).block.sizes = s.block.sizes := rfl
@[simp] theorem State.putStream_block_images (m : Stream) : (s.putStream m).block.images = s.block.images := rfl
@[simp] theorem State.putStream_block_gangs (m : Stream) : (s.putStream m).block.gangs = s.block.gangs := rfl
@[simp] theorem State.putStream_block_bars (m : Stream) : (s.putStream m).block.bars = s.block.bars := rfl
@[simp] theorem State.putStream_block_hq (m : Stream) : (s.putStream m).block.hq = s.block.hq := rfl
@[simp] theorem State.putStream_block_copy (m : Stream) : (s.putStream m).block.copy = s.block.copy := rfl
@[simp] theorem State.putStream_block_stream (m : Stream) : (s.putStream m).block.stream = some m := rfl
@[simp] theorem State.putStream_block_waves (m : Stream) : (s.putStream m).block.waves = s.block.waves := rfl
@[simp] theorem State.putStream_block_nextTaskWave (m : Stream) : (s.putStream m).block.nextTaskWave = s.block.nextTaskWave := rfl
@[simp] theorem State.putStream_block_endTok (m : Stream) : (s.putStream m).block.endTok = s.block.endTok := rfl
@[simp] theorem State.putStream_block_endUnit (m : Stream) : (s.putStream m).block.endUnit = s.block.endUnit := rfl
@[simp] theorem State.putStream_block_pollAt (m : Stream) : (s.putStream m).block.pollAt = s.block.pollAt := rfl
@[simp] theorem State.putStream_block_flaws (m : Stream) : (s.putStream m).block.flaws = s.block.flaws := rfl

end Sys2Proof.Machine
end

