-- ==== Sys2Proof/Tests/Slice0.lean ====
section
/-! SUPPORT. Tests on fixed values: words of the spec's worked encodings, ill-formed instructions, results that the spec
states, and a witness for the hypotheses of every statement. -/

namespace Sys2Proof.Tests

set_option Elab.async false

open Sys2Proof Sys2Proof.Machine

/-! Words (the worked encodings of the spec, R71 to R80) -/

def always : Hdr := { neg := false, pred := 7, look := 0, u := false }
def once : Hdr := { always with u := true }
def lanes (d a b c : Opnd) : Args := { h := always, d := d, a := a, b := b, c := c }
def uni (d a b c : Opnd) : Args := { h := once, d := d, a := a, b := b, c := c }
def no : Opnd := .absent

/-- The words at PC + 8, PC + 4 and PC, as the spec prints them. -/
def word (hi mid lo : BitVec 32) : IWord := hi ++ mid ++ lo

/-- The word decodes to the instruction, and the instruction encodes to the word. -/
def stands (w : IWord) (i : Instr) : Bool := decode w == .instr i && encode i == some w

theorem test_word_iadd : stands (word 0x100B0002 0x01C03FFC 0x0000012C)
    (.iadd false .i32 { h := { always with neg := true, pred := 3 }, d := .v 7, a := .v 3, b := .immI 0 300, c := no }) = true := by decide +kernel
theorem test_word_shl : stands (word 0x11570006 0x00402804 0) (.shl .n32 (lanes (.v 1) (.v 2) (.k 1) no)) = true := by decide +kernel
theorem test_word_imad : stands (word 0x1067000E 0x01005018 0x07000000) (.imad true .n32 (lanes (.v 4) (.v 5) (.v 6) (.v 7))) = true := by
  decide +kernel
theorem test_word_shfl : stands (word 0x1407100E 0x00801804 0)
    (.shfl .rot .whole .n32 { h := { always with look := 1 }, d := .v 2, a := .v 1, b := .k 1, c := no }) = true := by decide +kernel
theorem test_word_jbpack : stands (word 0x24370000 0x04000FF8 0) (.jbpack (lanes (.v 16) (.v 0) no no)) = true := by decide +kernel
theorem test_word_ffma : stands (word 0x20370018 0x01005018 0x07000000) (.ffma .rdn .f32 (lanes (.v 4) (.v 5) (.v 6) (.v 7))) = true := by
  decide +kernel
theorem test_word_ld : stands (word 0x3007005A 0x0150400B 0xFE040010)
    (.ld .normal .acq .die .n32 { scale := 2, disp := 16 } (lanes (.v 5) (.s 4) (.v 2) no)) = true := by decide +kernel
theorem test_word_atom : stands (word 0x320700DA 0x0210600C 0x0C35FFF8)
    (.atom .smin .normal .acqrel .die .n32 { scale := 2, disp := 0x1FFF8 } (lanes (.v 8) (.s 6) (.v 3) (.v 12))) = true := by decide +kernel
theorem test_word_spawn : stands (word 0x44070882 0xFF90641F 0xFEFFFFD8) (.spawn 2 2 0xFFFFD8 (uni no (.s 6) (.s 7) no)) = true := by
  decide +kernel
theorem test_word_qpush : stands (word 0x411708C0 0xFF905FF8 0) (.qpush 3 (uni no (.s 5) no no)) = true := by decide +kernel
theorem test_word_bra : stands (word 0x02010800 0xFFBFEFFB 0xFEFFFFFC)
    (.bra 0xFFFFFC { h := { once with pred := 1 }, d := no, a := no, b := no, c := no }) = true := by decide +kernel
theorem test_word_brx : stands (word 0x02170001 0xFF904007 0xFE000007) (.brx true 7 (lanes no (.s 4) (.v 1) no)) = true := by decide +kernel
theorem test_word_bwait : stands (word 0x402708C0 0x41504FF8 0) (.bwait 3 (uni (.s 5) (.s 4) no no)) = true := by decide +kernel
theorem test_word_sigwait : stands (word 0x4207091A 0x42107FF9 0x09000010)
    (.sigwait .ge .die .n32 { scale := 0, disp := 16 } (uni (.s 8) (.s 7) no (.s 9))) = true := by decide +kernel
theorem test_word_mmas : stands (word 0x50270809 0x4050240D 0x04000007) (.mmas true .jb5 7 (uni (.s 1) (.s 2) (.s 3) (.s 4))) = true := by
  decide +kernel
theorem test_word_mloop : stands (word 0x51470800 0x41905807 0xFEFFFFF9) (.mloop 0xFFFFF9 (uni (.s 6) (.s 5) (.k 1) no)) = true := by
  decide +kernel
theorem test_word_txb : stands (word 0x60070800 0xFFBFEFFB 0xFE000004) (.txb 4 (uni no no no no)) = true := by decide +kernel
theorem test_word_txe : stands (word 0x60170000 0x607FEFF8 0) (.txe (lanes (.q 1) no no no)) = true := by decide +kernel
theorem test_word_stepb : stands (word 0x61070800 0xFFA05FF8 0) (.stepb (uni no (.k 5) no no)) = true := by decide +kernel
theorem test_word_stepe : stands (word 0x61170800 0x427FEFF8 0) (.stepe (uni (.s 9) no no no)) = true := by decide +kernel
theorem test_word_trap : stands (word 0x01370800 0xFFA07FF8 0) (.trapI (uni no (.k 7) no no)) = true := by decide +kernel
theorem test_word_fbk : stands (word 0x01570000 0x00501FFB 0xFE000004) (.fbk 4 (lanes (.v 1) (.s 1) no no)) = true := by decide +kernel
theorem test_word_swr : stands (word 0x70170800 0x67103FF8 0) (.swr (uni (.sr .trappc) (.s 3) no no)) = true := by decide +kernel
theorem test_word_barv : stands (word 0x40130880 0xFFBFEFF8 0)
    (.barv 2 { h := { once with pred := 3 }, d := no, a := no, b := no, c := no }) = true := by decide +kernel
theorem test_word_mwaitb : stands (word 0x51170840 0xFFA00FF8 0) (.mwaitb 1 (uni no (.k 0) no no)) = true := by decide +kernel
theorem test_word_cptWb : stands (word 0x35070800 0x4610B45B 0xFE100000) (.cptWb .normal (uni (.s 24) (.s 11) (.s 22) no)) = true := by
  decide +kernel
/-- R71: the same instruction from its bytes in memory. -/
theorem test_bytes_iadd : decodeBytes [0x2C, 0x01, 0x00, 0x00, 0xFC, 0x3F, 0xC0, 0x01, 0x02, 0x00, 0x0B, 0x10] =
    decode (word 0x100B0002 0x01C03FFC 0x0000012C) := by decide +kernel
/-- R88: a word of zeros, a reserved bit, an unassigned opcode, a code that the field does not allow. -/
theorem test_zero_word : decode 0 = .illegalOpcode := by decide +kernel
theorem test_reserved_bit : decode (word 0x11570406 0x00402804 0) = .illegalOpcode := by decide +kernel
theorem test_unassigned : decode (word 0x77570006 0x00402804 0) = .illegalOpcode := by decide +kernel
theorem test_bad_operand : decode (word 0x11570006 0xF0002804 0) = .illegalOperand .vector := by decide +kernel

/-! Ill-formed instructions, one for each check -/

theorem test_wf_dest : (Instr.pand (lanes (.v 1) (.q 1) (.q 2) no)).wf = false := by decide
theorem test_wf_a : (Instr.pand (lanes (.q 1) (.v 1) (.q 2) no)).wf = false := by decide
theorem test_wf_b : (Instr.ret (lanes no no (.s 1) no)).wf = false := by decide
theorem test_wf_c : (Instr.iadd false .i32 (lanes (.v 1) (.v 2) (.v 3) (.v 4))).wf = false := by decide
theorem test_wf_pair : (Instr.iadd false .i64 (lanes (.v 1) (.v 2) (.v 4) no)).wf = false := by decide
theorem test_wf_imm_twice : (Instr.iadd false .i32 (lanes (.v 1) (.immI 0 1) (.immI 0 1) no)).wf = false := by decide
theorem test_wf_imm_kind : (Instr.iadd false .i32 (lanes (.v 1) (.immI 2 1) (.v 2) no)).wf = false := by decide
theorem test_wf_imm_form : (Instr.imad false .i32 (lanes (.v 1) (.immI 0 1) (.v 2) (.v 3))).wf = false := by decide
theorem test_wf_imm_fixed : (Instr.bra 1 (lanes no (.immC 1) no no)).wf = false := by decide
theorem test_wf_u_lane : (Instr.iadd false .i32 (uni (.s 1) (.v 2) (.s 3) no)).wf = false := by decide
theorem test_wf_u_zero : (Instr.vote .all (uni (.s 1) (.q 2) no no)).wf = false := by decide
theorem test_wf_u_one : (Instr.binit 1 (lanes no (.s 1) no no)).wf = false := by decide
theorem test_wf_guard : (Instr.mend { h := { always with pred := 1 }, d := no, a := no, b := no, c := no }).wf = false := by decide
theorem test_wf_offset : (Instr.recon 0 (lanes no no no no)).wf = false := by decide
theorem test_wf_txb_back : (Instr.txb 0xFFFFFC (uni no no no no)).wf = false := by decide
theorem test_wf_brx : (Instr.brx true 0 (lanes no (.s 4) (.v 1) no)).wf = false := by decide
theorem test_wf_bsel : (Instr.bsel .i64 (lanes (.v 2) (.v 4) (.v 6) (.v 8))).wf = false := by decide
theorem test_wf_lea : (Instr.lea 0 .n32 0 (lanes (.v 2) (.s 4) no no)).wf = false := by decide
theorem test_wf_cvt : (Instr.cvt .rne .f32 .f32 (lanes (.v 2) (.v 4) no no)).wf = false := by decide
theorem test_wf_half : (Instr.hadd2 .rne .f32 (lanes (.v 2) (.v 4) (.v 5) no)).wf = false := by decide
theorem test_wf_order : (Instr.ld .normal .rel .die .n32 { scale := 0, disp := 0 } (lanes (.v 5) (.s 4) no no)).wf = false := by decide
theorem test_wf_scope : (Instr.fence .acq .ab (lanes no no no no)).wf = false := by decide
theorem test_wf_size : (Instr.atom .add .normal .plain .die .n8 { scale := 0, disp := 0 } (lanes (.v 5) (.s 4) no (.v 6))).wf = false := by decide
theorem test_wf_fadd64 : (Instr.atom .fadd .normal .plain .die .n64 { scale := 0, disp := 0 } (lanes (.v 6) (.s 4) no (.v 8))).wf = false := by
  decide
theorem test_wf_exch : (Instr.red .exch .normal .plain .die .n32 { scale := 0, disp := 0 } (lanes no (.s 4) no (.v 6))).wf = false := by decide
theorem test_wf_quad : (Instr.ld .normal .plain .die .b128 { scale := 0, disp := 0 } (lanes (.v 6) (.s 4) no no)).wf = false := by decide
theorem test_wf_mreg : (Instr.mpop 1 (uni (.s 16) no no no)).wf = false := by decide
theorem test_wf_txst : (Instr.txst 1 (lanes (.v 1) no no no)).wf = false := by decide

/-! A small machine: one path at a legal PC, its wave of eight lanes, its block on core 0, and two tables that map the
first 64 GiB to themselves (`setupTables`) -/

def path0 : Path := Path.start 0x200000 0xFF
/-- s4 and s7 hold addresses, s6 the number 1; q1 is true in lane 0 alone. -/
def wave0 : Wave :=
  ({ Wave.start 0 8 0 0 0 256 0 with s := mset (mset (mset [] 4 0x300040) 6 1) 7 0x300080 } : Wave).qSet 0 1 true
def block0 : Block :=
  { Block.start 0 0 0 false 1 [65536, 65536, 65536, 4096] with started := true, res := .resident, stream := some (Stream.start 0x200000) }
def core0 : Core := { Core.reset 0 with tenant := some 0 }
def dom0 : Dom := { (Dom.reset 0).setup 0 with launches := [setupLaunch 0 false], cores := [], nextLaunch := 1, nextBlock := 1 }
def tiny : State :=
  { State.reset with kind := .path, path := path0, wave := wave0, block := block0, core := core0, dom := dom0, doms := [] }

/-- The same with another path, another domain, another leaf entry, other bytes at an address. -/
def withPath (p : Path) : State := { tiny with path := p }
def withDom (f : Dom → Dom) : State := { tiny with dom := f tiny.dom }
def withLeaf (e : Nat) : State := withDom fun d => { d with mem := wrN d.mem 0x102000 8 e }
def withBytes (a n x : Nat) : State := withDom fun d => { d with mem := wrN d.mem a n x }
/-- Nothing in focus: the block and its core stand in the domain. -/
def idle : State := { tiny with dom := { tiny.dom with cores := [] } }.unfocus
def here : PRef := { dom := 0, blk := 0, wave := 0, pid := 0 }
def bhere : BRef := { dom := 0, blk := 0 }
/-- The stream of the block in focus. -/
def streaming : State := tiny.closePath
def hdr : CmdHdr := { dom := 0, queue := 3, hdr := 9 }
/-- A command of a supervisor queue waits. -/
def serving : State :=
  let q : MQueue := { num := 3, prio := 0, preemptible := false, tenant := 0, superv := true, validate := false, cmds := 1, starved := false }
  { idle with dom := { idle.dom with queues := [q], slots := [3] } }

def v1 : Opnd := .v 1
def v2 : Opnd := .v 2
def v4 : Opnd := .v 4
def x0 : Idx := { scale := 0, disp := 0 }
/-- Guarded by q1: lane 0 alone. -/
def lane0 (d a b c : Opnd) : Args := { h := { always with pred := 1 }, d := d, a := a, b := b, c := c }
def ran (o : Host.Outcome State Fault Refusal) (f : State → Bool) : Bool :=
  match o with
  | .next u => f u
  | _ => false
def isOk {α β : Type} : Except α β → Bool
  | .ok _ => true
  | .error _ => false
def allDone (xs : List (LaneReq × LaneRes)) : Bool := xs.all fun y => match y.2 with
  | .done _ => true
  | _ => false

/-! Witnesses: a state and operands that meet the hypotheses of each statement -/

theorem witness_IntegerArithmetic :
    ([.iadd true .i32 (lanes v1 v2 (.k 3) no), .isub false .i64 (lanes v2 v4 (.v 6) no), .imul true .n16 (lanes v1 v2 v4 no),
      .imulh .n32 (lanes v1 v2 v4 no), .imad true .n32 (lanes v1 v2 v4 (.v 5)), .imin .i8 (lanes v1 v2 v4 no), .imax .n8 (lanes v1 v2 v4 no),
      .iabs true .i32 (lanes v1 v2 no no), .ineg true .i32 (lanes v1 v2 no no), .isat .i32 (lanes v1 v2 v4 (.v 5))]).all tiny.runs = true := by
  decide +kernel

theorem witness_DivisionEdges : ([.idiv .i32 (lanes v1 v2 (.k 0) no), .irem .i32 (lanes v1 v2 (.k 3) no)]).all tiny.runs = true := by
  decide +kernel

theorem witness_CarryChain : ([.iaddc .n32 (lanes v1 v2 v4 (.q 2)), .isubb .n32 (lanes v1 v2 v4 no)]).all tiny.runs = true := by decide +kernel

theorem witness_LogicAndShifts :
    ([.andI .n32 (lanes v1 v2 v4 no), .orI .n32 (lanes v1 v2 v4 no), .xorI .n32 (lanes v1 v2 v4 no), .notI .n32 (lanes v1 v2 no no),
      .andn .n32 (lanes v1 v2 v4 no), .shl .i8 (lanes v1 v2 (.k 9) no), .shr .n64 (lanes v2 v4 (.k 63) no), .sar .i32 (lanes v1 v2 v4 no),
      .rotl .n32 (lanes v1 v2 v4 no), .popc .i64 (lanes v2 v4 no no), .brev .n32 (lanes v1 v2 no no)]).all tiny.runs = true := by decide +kernel

theorem witness_FieldsAndBytes :
    ([.bfe .i32 (lanes v1 v2 v4 no), .bfi .n32 (lanes v1 v2 v4 (.v 5)), .clz .n32 (lanes v1 v2 no no), .ctz .n32 (lanes v1 v2 no no),
      .bsel .n32 (lanes v1 v2 v4 (.v 5))]).all tiny.runs = true := by decide +kernel

theorem witness_MovesAndComparisons :
    ([.icmp .lt .i32 (lanes (.q 1) v2 v4 no), .isel .n32 (lanes v1 v2 v4 (.q 1)), .lea 2 .n64 0x10 (lanes (.s 5) (.s 4) v2 no),
      .mov .n32 (lanes v1 (.sr .core) no no), .movi .n64 (uni (.s 3) (.immI 1 0x1234567) no no), .cvti true .i32 .i8 (lanes v1 v2 no no)]).all
      tiny.runs = true := by decide +kernel

theorem witness_PredicateForms :
    ([.pand (lanes (.q 1) (.q 2) (.q 3) no), .por (lanes (.q 7) (.q 2) (.q 3) no), .pxor (lanes (.q 1) (.q 2) (.q 3) no),
      .pnot (lanes (.q 1) (.q 2) no no), .psetM (lanes (.q 1) (.s 4) no no), .pget (lanes v1 no no no), .psetP (lanes no v1 no no)]).all
      tiny.runs = true := by decide +kernel

theorem witness_LaneCrossbar :
    ([.shfl .rot .seg4 .n32 (lanes v1 v2 (.k 1) no), .vote .maj (lanes (.q 1) (.q 2) no no), .ballot (lanes (.s 3) (.q 1) no no),
      .redux .add .i32 (lanes v1 v2 no no), .scan .max true .i32 (lanes v1 v2 no no), .matchL .n32 (lanes v1 v2 no no),
      .rdlane .n32 (lanes v1 v2 v4 no), .wrlane .n32 (lanes v1 v2 (.k 3) no)]).all tiny.runs = true := by decide +kernel

theorem witness_FloatArithmetic :
    ([.fadd .rne .f32 (lanes v1 v2 v4 no), .fsub .rtz .f16 (lanes v1 v2 v4 no), .fmul .rne .bf16 (lanes v1 v2 v4 no),
      .ffma .rdn .f32 (lanes v1 v2 v4 (.v 5)), .fmin true .f32 (lanes v1 v2 v4 no), .fmax false .f32 (lanes v1 v2 v4 no),
      .fcmp .lt true .f32 (lanes (.q 1) v2 v4 no), .fclass .f32 (lanes v1 v2 no no), .fscale .rne .f32 (lanes v1 v2 v4 no),
      .frnd .rup .f32 (lanes v1 v2 no no), .frcp .rne .f32 (lanes v1 v2 no no), .frsq .rne .f32 (lanes v1 v2 no no),
      .fsqrt .rne .f32 (lanes v1 v2 no no), .fdiv .rne .f32 (lanes v1 v2 v4 no), .fexp2 .f32 (lanes v1 v2 no no),
      .flog2 .f32 (lanes v1 v2 no no), .fsin .f32 (lanes v1 v2 no no), .fcos .f32 (lanes v1 v2 no no), .ftanh .f32 (lanes v1 v2 no no)]).all
      tiny.runs = true := by decide +kernel

theorem witness_PackedAndConversions :
    ([.hadd2 .rne .f16 (lanes v1 v2 v4 no), .hmul2 .rne .bf16 (lanes v1 v2 v4 no), .hmin2 true .f16 (lanes v1 v2 v4 no),
      .hmax2 true .f16 (lanes v1 v2 v4 no), .hfma2 .rne .f16 (lanes v1 v2 v4 (.v 5)), .cvt .rne .f32 .f16 (lanes v1 v2 no no),
      .cvtif .rne .i32 .f32 (lanes v1 v2 no no), .dot2 .rne .f16 (lanes v1 v2 v4 (.v 5)), .dot4 true false true (lanes v1 v2 v4 (.v 5)),
      .cvtfi .rtz .i32 .f32 (lanes v1 v2 no no)]).all tiny.runs = true := by decide +kernel

/-- A signalling NaN, the infinities, a zero. -/
theorem witness_NanResults : (Fp.of .f32 0x7F800001).isNan = true ∧ (Fp.of .f32 0x7F800001).isSig = true ∧ Fp.of .f32 0x7F800000 = .inf false ∧
    Fp.of .f32 0xFF800000 = .inf true ∧ (Fp.of .f32 0x80000000).isZero = true ∧ (Fp.of .f16 0x7C00).isInf = true := by decide +kernel

theorem witness_FormatAndFlags : ([.setfmt (uni no (.k 2) no no), .getfmt (lanes v1 no no no), .rdflags (uni (.s 1) no no no),
    .clrflags (uni no no no no)]).all tiny.runs = true ∧ fmtBad 2 = false := by decide +kernel

theorem witness_BlockForms : ([.jbexp (lanes v1 (.v 16) no no), .jbpack (lanes (.v 40) (.v 0) no no), .jbunpack (lanes (.v 16) (.v 0) no no)]).all
    tiny.runs = true ∧ tiny.path.fmt.toNat % 4 ≠ 3 := by decide +kernel

theorem witness_SequentialForms : ([.nop (lanes no no no no), .yieldI (lanes no no no no), .pathq 3 (uni (.s 1) no no no),
    .fbk 4 (lanes v1 (.s 1) no no)]).all tiny.runs = true ∧ tiny.path.inRegion = false ∧ tiny.block.preempt = none := by decide +kernel

/-- A CALL entry on top of the stack. -/
def called : State :=
  withPath { path0 with stack := [{ call := true, mask := 0xFF, pc := 0x20000C, etag := 0, fmts := 2 }] }

/-- `n` CALL entries, the sixteen on top of which stand on core and the others in the spill region. -/
def calls (n : Nat) : State :=
  let e : RecEntry := { call := true, mask := 0xFF, pc := 0x20000C, etag := 0, fmts := 2 }
  withPath { path0 with stack := (List.range n).map fun k => { e with slot := if k < 16 then none else some (k - 16) } }

theorem witness_UniformTransfers : ([.bra 4 (uni no no no no), .jmp (uni no (.s 4) no no), .callI 4 (uni no no no no),
      .callx (uni no (.s 4) no no)]).all tiny.runs = true ∧ tiny.guard once = tiny.path.mask ∧ legalPc (branchPc tiny.path.pc 4) = true ∧
    legalPc 0x300040 = true ∧ (lanesOf 0xFF).all (fun l => tiny.rd false l (.s 4) == 0x300040) = true ∧
    onCore tiny.path.stack < 16 ∧ (calls 80).pushRoom = false ∧ (calls 80).runs (.callI 4 (uni no no no no)) = true ∧
    called.runs (.ret (uni no no no no)) = true ∧ tiny.guard { once with neg := true } = 0 ∧
    tiny.runs (.bra 4 { h := { once with neg := true }, d := no, a := no, b := no, c := no }) = true := by decide +kernel

theorem witness_BranchDivides : tiny.runs (.bra 4 (lane0 no no no no)) = true ∧ tiny.wave.paths = [] ∧ tiny.path.mask ≠ 0 ∧
    tiny.guard (lane0 no no no no).h ≠ tiny.path.mask ∧ legalPc (branchPc tiny.path.pc 4) = true := by decide +kernel

theorem witness_ReconPushes : tiny.runs (.recon 4 (lanes no no no no)) = true ∧ tiny.guard always ≠ 0 ∧ onCore tiny.path.stack < 16 ∧
    tiny.wave.joins.length < 65536 := by decide +kernel

/-- At the join that its RECON entry names; the path of lanes 0 to 3, with another that waits there. -/
def joining (mask : W64) (paths : List Path) : State :=
  let e : RecEntry := { call := false, mask := 0xFF, pc := 0x200000, etag := 1, fmts := 2 }
  { tiny with path := { path0 with mask := mask, stack := [e] },
              wave := { wave0 with paths := paths, joins := [{ etag := 1, mask := 0xFF, arrived := 0xFF &&& ~~~mask, expired := false }] } }

theorem witness_JoinMerges_alone : (joining 0xFF []).runs (.joinI (lanes no no no no)) = true ∧
    (joining 0xFF []).path.halted = false ∧ covers (0 ||| 0xFF ||| 0) (0xFF : W64) = true := by decide +kernel

theorem witness_JoinMerges_merged :
    let q : Path := { path0 with pid := 1, mask := 0xF0, status := .waiting (.join 1) }
    (joining 0x0F [q]).runs (.joinI (lanes no no no no)) = true ∧ q.status = .waiting (.join 1) ∧ q.halted = false ∧
    covers (0xF0 ||| 0x0F ||| 0) (0xFF : W64) = true := by decide +kernel

theorem witness_JoinMerges_wsync : tiny.runs (.wsync (lanes (.q 1) no no no)) = true ∧
    covers (tiny.path.mask ||| tiny.wave.exited) (fullMask tiny.wave.width) = true ∧ covers (fullMask tiny.wave.width) tiny.path.mask = true := by
  decide +kernel

/-- A table of one target at s4. -/
def tabled : State := withBytes 0x300040 16 (1 + 0x200040 * 2 ^ 64)

theorem witness_BrxTakesTable :
    let i := Instr.brx false 0 (lanes no (.s 4) (.s 8) no)
    tabled.runs i = true ∧ tabled.hasOlder = false ∧ tabled.guard always = tabled.path.mask ∧ ((tabled.begin i).vaHeld 0x300040) = false ∧
    (match (tabled.begin i).tableRead 0x300040 with
      | (s1, .ok n) => n == 1 && (match s1.brxReads 0x300040 ((lanesOf 0xFF).map fun l => (l, 0)) with
        | (_, ts, f) => f.isEmpty && ts.all fun t => t.2 == 0x200040)
      | _ => false) = true ∧ legalPc 0x200040 = true := by decide +kernel

theorem witness_UserTrapEntry : Cause.trapInsn.recoverable = true ∧ tiny.path.inRegion = false ∧ tiny.path.priv = false ∧
    tiny.launch = some (setupLaunch 0 false) ∧ (setupLaunch 0 false).trapentry ≠ 0 ∧ tiny.path.hdepth = 0 ∧ tiny.dom.trace = none := by
  decide +kernel

/-- Windows that a bounced instruction of the path keeps open. -/
def windowed : State :=
  let e : Entry := { tag := 4, sector := 0x300040 / 64, paths := [0], parked := none, slot := none, req :=
    { kind := .load, sz := .n32, ord := .plain, sc := .die, hint := .normal, ab := false, user := true, unit := 0, token := 0, pc := 0x200000, d := v1,
      share := none, lanes := [] } }
  { withPath { path0 with windows := [{ pc := 0x200000, dest := [.v 1], left := 2, old := false }] } with wave := { wave0 with locket := [e] } }

theorem witness_UserTrapEntry_waits : tiny.windowTags = [] ∧ windowed.windowTags = [4] ∧ windowed.launch = some (setupLaunch 0 false) ∧
    windowed.path.hdepth = 0 ∧ onCore windowed.path.stack < 16 ∧ windowed.guard once = windowed.path.mask ∧
    windowed.runs (.trapI (uni no (.k 7) no no)) = true ∧ windowed.runs (.bkpt (uni no no no no)) = true := by decide +kernel

theorem witness_SupervisorEntry : isOk (tiny.check { core := 0, tenant := 0, user := false, unit := tiny.pathUnit, serial := false }
    (tiny.dom.supsave + BitVec.ofNat 64 (32 * (128 * tiny.core.ix + tiny.wave.ctx)))
    { n := 32, write := true, atomic := false, tags := true, sc := none }).2 = true ∧ tiny.wave.paths = [] := by decide +kernel

/-- The sector of the save area with no lock, and under one of the serial lane. -/
theorem witness_SupervisorEntry_locks : ([(false, []), (true, [{ sector := 0, excl := false }])] : List (Bool × List Lock)).all (fun x =>
    let s := withDom fun d => { d with locks := x.2 }
    let who : Who := { core := 0, tenant := 0, user := false, unit := s.pathUnit, serial := false }
    match (s.check who (s.dom.supsave + BitVec.ofNat 64 (32 * (128 * s.core.ix + s.wave.ctx)))
        { n := 32, write := true, atomic := false, tags := true, sc := none }).2 with
      | .ok t => s.lockedFor who t true == x.1
      | .error _ => false) = true := by decide +kernel

theorem witness_TrapInstructions : tiny.runs (.trapI (uni no (.k 7) no no)) = true ∧ tiny.guard once = tiny.path.mask ∧
    tiny.runs (.bkpt (uni no no no no)) = true ∧ tiny.dom.dbg = false ∧
    (withDom fun d => { d with dbg := true }).runs (.bkpt (uni no no no no)) = true := by decide +kernel

theorem witness_ExitLeaves : tiny.runs (.exitI (lane0 no no no no)) = true ∧ tiny.guard (lane0 no no no no).h = 1 ∧
    tiny.wave.live &&& ~~~1 ≠ 0 ∧ tiny.path.posted = [] ∧ tiny.postedTags = [] ∧ tiny.block.gangs = 0 := by decide +kernel

theorem witness_SpecialRegisters : tiny.runs (.srd (lanes v1 (.sr .laneid) no no)) = true ∧
    tiny.runs (.swr (uni (.sr .flags) (.k 2) no no)) = true ∧ tiny.swrFault .flags 2 = none := by decide +kernel

theorem witness_PrivilegeFaults : tiny.kind = .path ∧ tiny.path.priv = false ∧ tiny.runs (.swr (uni (.sr .trappc) (.s 4) no no)) = true ∧
    tiny.guard once ≠ 0 := by decide +kernel

/-- A handler at supervisor level. -/
def handler : State := withPath { path0 with priv := true, trappc := 0x20000C }

theorem witness_ReturnFromTrap : handler.runs (.rte (uni no no no no)) = true ∧ legalPc handler.path.trappc = true ∧
    (let b := handler.begin (.rte (uni no no no no))
     let who : Who := { core := 0, tenant := 0, user := false, unit := handler.pathUnit, serial := false }
     match (b.check who (handler.sVal 127) { n := 32, write := false, atomic := false, tags := true, sc := none }).2 with
      | .ok t => !b.lockedFor who t false
      | .error _ => false) = true := by decide +kernel

theorem witness_InvalidationIssue : handler.runs (.tlbiPage .k64 (uni no (.s 4) (.k 0) no)) = true ∧
    handler.runs (.tlbiTenant (uni no no (.k 0) no)) = true ∧ handler.runs (.tlbiAll (uni no no no no)) = true ∧ handler.postedTags = [] ∧
    ((handler.begin (.tlbiAll (uni no no no no))).releaseL1 0).dom.ptroot = [(0, 0x100000)] := by decide +kernel

/-- The hypotheses of `RequestsPerform` for one form. -/
def performs (s : State) (k : RKind) (i : Instr) (hint : Hint) (ord : Sys2Proof.Ord) (sc : Scope) (sz : Size) (o : Args) : Bool :=
  let b := s.begin i
  let ex := execLanes o.h (s.guard o.h)
  let q := b.mkReq k sz ord sc hint x0 o ex
  let a : State × Req := if k.atomic then
      ({ b with wave := { b.wave with seq := (lanesOf ex).foldl (fun m l => mset m l (mget m l + 1)) b.wave.seq } },
       { q with lanes := q.lanes.map fun r => { r with seq := mget s.wave.seq r.lane } })
    else (b, q)
  let reach := if sc = .ab then (if q.lanes.any fun r => decide (2 ^ 23 ≤ r.va.toNat) then Scope.cl else .blk) else sc
  let r1 := if ord.isRel then a.1.release b.core.ix reach else a.1
  let r2 := if ord.isAcq then r1.acquire b.core.ix reach else r1
  s.runs i && s.clear && b.locketFor q.sectors && s.guard o.h != 0 && !a.2.lanes.isEmpty && allDone (r2.reqLanes a.2 false true a.2.lanes).2

theorem witness_RequestsPerform_plain :
    performs tiny .load (.ld .normal .acq .die .n32 x0 (lanes v1 (.s 4) no no)) .normal .acq .die .n32 (lanes v1 (.s 4) no no) = true ∧
    performs tiny .store (.st .na .rel .pkg .n32 x0 (lanes no (.s 4) no v2)) .na .rel .pkg .n32 (lanes no (.s 4) no v2) = true ∧
    performs tiny .load (.lds .n32 x0 (lanes v1 (.s 6) no no)) .normal .plain .ab .n32 (lanes v1 (.s 6) no no) = false ∧
    performs tiny .load (.lds .n32 x0 (lanes v1 (.s 9) no no)) .normal .plain .ab .n32 (lanes v1 (.s 9) no no) = true ∧
    performs tiny .store (.sts .n8 x0 (lanes no (.s 6) no v2)) .normal .plain .ab .n8 (lanes no (.s 6) no v2) = true := by decide +kernel

theorem witness_RequestsPerform_atomic :
    performs tiny (.atom .add) (.atom .add .normal .acqrel .die .n32 x0 (lanes v1 (.s 4) no v2)) .normal .acqrel .die .n32 (lanes v1 (.s 4) no v2) = true ∧
    performs tiny (.atom .add) (.atom .add .normal .acqrel .ab .n32 x0 (lanes v1 (.s 9) no v2)) .normal .acqrel .ab .n32 (lanes v1 (.s 9) no v2) = true ∧
    performs tiny .cas (.cas .normal .plain .die .n32 x0 (lanes v1 (.s 4) no v4)) .normal .plain .die .n32 (lanes v1 (.s 4) no v4) = true ∧
    performs tiny (.red .umax) (.red .umax .normal .plain .die .n32 x0 (lanes no (.s 4) no v2)) .normal .plain .die .n32 (lanes no (.s 4) no v2) = true ∧
    performs tiny (.psig false) (.psigSet .die x0 (uni no (.s 4) no (.s 6))) .normal .rel .die .n64 (uni no (.s 4) no (.s 6)) = true ∧
    performs tiny (.psig true) (.psigAdd .pkg x0 (uni no (.s 4) no (.s 6))) .normal .rel .pkg .n64 (uni no (.s 4) no (.s 6)) = true ∧
    performs tiny (.signal .add) (.signal .add .die .n32 x0 (uni no (.s 4) no (.k 1))) .normal .rel .die .n32 (uni no (.s 4) no (.k 1)) = true := by
  decide +kernel

/-- A page of the uncached region (REG 3). -/
def uncached : State := withLeaf 511
def lane (va : W64) (x : BitVec 128) : LaneReq := { lane := 2, va := va, val := x, cmp := 0, seq := 0, applied := false }
def reqOf (k : RKind) (ab : Bool) : Req :=
  { kind := k, sz := .n32, ord := .plain, sc := .die, hint := .normal, ab := ab, user := true, unit := 0, token := 0, pc := 0, d := v1, share := none, lanes := [] }

theorem witness_UncachedAccess : ([.load, .store, .cas, .atom .add, .red .umin, .psig true, .signal .sub] : List RKind).all (fun k =>
    let q := reqOf k false
    let s : State := { uncached with dom := { uncached.dom with dirtyBase0 := 0x600000 } }
    match s.check (s.reqWho q) 0x300040 q.want with
    | (s1, .ok (.loc va l)) => !(lane 0x300040 0).cut && l.reg == 3 && decide (l.tier.toNat ≤ 1) && l.frame.toNat * 65536 % 2 ^ pageBits l.level == 0
        && !s1.behind (Target.loc va l).sector true && !s1.lockedFor (s1.reqWho q) (.loc va l) q.kind.writes
        && (s1.appliedFind (.loc va l) (s1.ostag 2 0)).isNone && !s1.appliedFull (.loc va l)
        && (let s2 := if q.kind.writes then (s1.firstWrite (s1.reqWho q) (.loc va l)).1 else s1
            !s2.dom.lockedAt ((0x600000 + 0x30 / 8) / 64) true && s2.dom.l1.all fun c => c.leaf.reg != 2 || !c.dirty)
    | _ => false) = true := by decide +kernel

theorem witness_CoreReadsItsWrites : (0x300040 : W64).toNat % 32 = 0 ∧ tiny.dom.dirtyBase0 = 0 ∧ tiny.dom.dirtyBase1 = 0 := by decide +kernel

theorem witness_BufferForms :
    tiny.runs (.ldacc .n32 x0 (lanes v1 (.s 9) no no)) = true ∧ tiny.runs (.stacc .b128 x0 (lanes no (.s 9) no v4)) = true ∧
    tiny.block.task = false ∧ tiny.core.flawed 2 (tiny.block.base 2) 16 = false ∧ (lanesOf 0xFF).all (fun l => decide ((tiny.addr l x0 (.s 9) no).toNat + 16 ≤ tiny.block.size 2)) = true ∧
    tiny.wave.bncinj = 0 ∧ tiny.path.forced = 0 ∧ tiny.hasOlder = false ∧
    (let b := tiny.begin (.ldc .n32 x0 (lanes v1 (.s 4) no no))
     tiny.runs (.ldc .n32 x0 (lanes v1 (.s 4) no no)) && !b.vaHeld 0x300040 && !b.meetsPosted [0x300040] && isOk (b.constRead b.who 0x300040 4).2) = true := by decide +kernel

theorem witness_BufferForms_ab : (reqOf .load true).ab = true ∧ tiny.wave.locket = [] ∧ tiny.coreHere = true ∧ tiny.abSize = 65536 ∧
    tiny.reqLane (reqOf .store true) (lane 0x10 7) false true = (tiny.reqLane (reqOf .store true) (lane 0x10 7) false true) ∧
    allDone [(lane 0xFFFC 7, (tiny.reqLane (reqOf .store true) (lane 0xFFFC 7) false true).2)] = true ∧
    allDone [(lane 0xFFFD 7, (tiny.reqLane (reqOf .store true) (lane 0xFFFD 7) false true).2)] = false := by decide +kernel

def wants (n : Nat) (write atomic : Bool) : Want := { n := n, write := write, atomic := atomic, tags := true, sc := none }
/-- The leaf of an access, when it has one. -/
def leafOf (s : State) (va : W64) (write : Bool) : Option Leaf :=
  match (s.leafFor s.who va { n := 1, write := write, atomic := false, tags := true, sc := none }).2 with
  | .ok l => some l
  | .error _ => none

theorem witness_AccessChecks : bitsOf (0xF000000000300040 : W64).toNat 60 4 ≠ 0 ∧ (0x300042 : W64).toNat % 4 ≠ 0 ∧
    leafOf tiny 0x2000000000 false = none ∧ (leafOf (withLeaf 491) 0x300040 true).map (·.w) = some false ∧
    (leafOf (withLeaf 1019) 0x0100000000300040 false).map (·.tagen) = some true ∧
    (withLeaf 1019).dom.tagSeen 0 0x300040 ≠ BitVec.ofNat 4 (bitsOf (0x0100000000300040 : W64).toNat 56 4) ∧
    (leafOf (withLeaf (507 + 3 * 2 ^ 51)) 0x300040 true).map (·.tier) = some 3 ∧
    isOk (tiny.check tiny.who 0x300040 (wants 4 true true)).2 = true := by decide +kernel

theorem witness_CacheForms :
    ([.prefetch .normal x0 (lanes no (.s 4) no no), .prefetchL2 .normal x0 (lanes no (.s 4) no no), .cctlWb x0 (lanes no (.s 4) no no)]).all
      tiny.runs = true ∧
    ([(.wb, .cctlWb x0 (lanes no (.s 4) no no)), (.wbinv, .cctlWbinv x0 (lanes no (.s 4) no no)), (.demote, .cctlDemote x0 (lanes no (.s 4) no no)),
      (.demoteEf, .cctlDemoteEf x0 (lanes no (.s 4) no no)), (.settag, .cctlSettag x0 (lanes no (.s 10) no v1))] : List (CctlOp × Instr)).all (fun x =>
      let s : State := { withLeaf 1019 with wave := { wave0 with s := mset wave0.s 10 0x300040 } }
      match x.2.args with
      | some o => s.runs x.2 && s.clear &&
          (((s.begin x.2).mkReq .store .n8 .plain .wv .normal x0 o (execLanes o.h (s.guard o.h))).lanes.all fun r => !(s.begin x.2).cctlHeld x.1 r) &&
          ((laneSeq (fun s r => s.cctlLane x.1 r) (s.begin x.2)
            ((s.begin x.2).mkReq .store .n8 .plain .wv .normal x0 o (execLanes o.h (s.guard o.h))).lanes).2.all fun y => y.2 == .done 0)
      | none => false) = true := by decide +kernel

theorem witness_FencesAndWaits :
    tiny.runs (.fence .acqrel .pkg (lanes no no no no)) = true ∧ tiny.clear = true ∧
    ([(v1, v2), (v1, .k 5)] : List (Opnd × Opnd)).all (fun x =>
      let o := lanes x.1 (.s 4) no x.2
      let i := Instr.mwait .acq .die .n32 x0 o
      tiny.runs i && match (tiny.begin i).checkAll (mwaitWant .n32 .acq .die) ((lanesOf 0xFF).map fun l => (l, tiny.addr l x0 o.a o.b)) with
        | (s1, ts, f) => f.isEmpty && ts.length == 8 && ts.all fun t => !s1.lockedFor s1.who t.2.2 false) = true ∧
    ([.eq, .ne] : List SigCond).all (fun c =>
      let i := Instr.sigwait c .die .n32 x0 (uni (.s 1) (.s 4) no (.s 9))
      tiny.runs i && isOk ((tiny.begin i).check tiny.who 0x300040 { n := 4, write := false, atomic := false, tags := true, sc := some .die }).2) = true := by
  decide +kernel

theorem witness_BlockBarriers :
    ([.binit 1 (uni no (.s 6) no no), .barv 0 (uni (.s 1) no no no), .bdrop 0 (uni no no no no), .bsync 0 (uni (.s 1) no no no),
      .bstat 0 1 (uni (.s 1) no no no), .bwait 0 (uni (.s 1) (.s 6) no no)]).all tiny.runs = true ∧ tiny.block.bars[0]? = some (Barrier.start 1) ∧
    (Barrier.start 1).reg.getLsbD 0 = true ∧ (tiny.uni (.s 6)).setWidth 33 = 1 ∧ tiny.streamRecord 0 = none ∧
    (tiny.launch.map (·.waves)) = some 1 ∧ tiny.blockWaves.map (·.wid) = [0] := by decide +kernel

/-- The barrier's phase 1 is complete; and a barrier that waits for a second participant. -/
theorem witness_BlockBarriers_phase : 0 < ((2 : W32) - (tiny.uni (.s 6)).setWidth 32).toInt ∧
    (Barrier.start 3).reg &&& ~~~((Barrier.start 3).arr ||| 1) ≠ 0 := by decide +kernel

/-- A gang of the block alone. -/
def ganged : State :=
  withDom fun d => { d with launches := [{ setupLaunch 0 false with gangs := [{ Gang.new [0] false with scope := .blk }] }] }

theorem witness_GangBarrier :
    let s : State := { ganged with block := { block0 with gangs := 0x8000 } }
    let i := Instr.gbar (uni (.s 1) (.s 9) no no)
    s.runs i = true ∧ 0 ∈ gangsOf s.block.gangs ∧ (s.gangAt 0).map (·.reg) = some [0] ∧
    ((((s.begin i).release 0 .blk).gangArrive 0).gangAt 0).map (·.ph) = some 1 ∧ s.block.waves = [] := by decide +kernel

def entry1 : QEntry := { val := 5, token := 0, prod := 0, unit := 0 }
def queued (q : HQueue) : State := { tiny with block := { block0 with hq := block0.hq.set 1 q } }

theorem witness_HardwareQueues :
    ([.qinit 1 (uni no (.k 8) (.k 4) no), .qpush 1 (uni no (.s 6) no no), .qpop 1 (uni (.s 1) no no no), .qtry 1 (uni (.s 2) no no no),
      .qclose 1 (uni no no no no)]).all tiny.runs = true ∧ tiny.block.hq[1]? = some HQueue.start ∧
    (queued { HQueue.start with entries := [entry1] }).runs (.qpop 1 (uni (.s 1) no no no)) = true ∧
    (queued { HQueue.start with depth := 1, entries := [entry1] }).runs (.qpush 1 (uni no (.s 6) no no)) = true ∧ tiny.queueWaits 1 = [] := by
  decide +kernel

theorem witness_SpawnedTasks :
    let i := Instr.spawn 2 2 4 (uni no (.s 6) (.s 4) no)
    tiny.runs i = true ∧ tiny.clear = true ∧ tiny.wave.spawndepth < 8 ∧
    (match (tiny.begin i).spawnTargets (uni no (.s 6) (.s 4) no) (lanesOf (execLanes once (tiny.guard once))) with
      | (s1, ts, f) => f.isEmpty && ts.length == 1 && (ts.all fun t => !s1.lockedFor s1.who t true) && !(ts.any s1.appliedFull)
        && decide (tiny.core.deque.length + 1 ≤ 256) && decide (s1.dom.memDeque.length ≤ 2 ^ s1.dom.cfg.dequeLog)) = true := by decide +kernel

theorem witness_LaneCopies :
    ([.cpl .normal .n32 x0 (lanes (.s 9) (.s 4) no no), .cplOut .normal .n32 x0 (lanes (.s 9) (.s 4) no no), .cpclose (uni (.s 1) no no no),
      .cpwait (uni no (.k 1) no no)]).all tiny.runs = true ∧ isOk (tiny.abAddr 0 4) = true ∧ tiny.wave.batchDone < tiny.wave.batchOpen ∧
    min (tiny.uni (.k 0)).toNat (tiny.wave.batchOpen - 1) ≤ tiny.wave.batchDone ∧
    (let s : State := { tiny with wave := { wave0 with batchOpen := 2 } }
     decide (s.wave.batchDone < min (s.uni (.k 1)).toNat (s.wave.batchOpen - 1)) && s.runs (.cpwait (uni no (.k 1) no no))) = true := by decide +kernel

/-- R281, R282: a tensor of a type, rank 1, extent 4, box 4, base 0x300000, generation 0, in slot 1 of a table at 0x500000. -/
def tensor (ty : Nat) : Nat := 0x300000 * 2 ^ 456 + ty * 2 ^ 440 + 1 * 2 ^ 437 + 4 * 2 ^ 232 + 4
def tensored (ty : Nat) : State :=
  { withDom fun d => { d with mem := wrN d.mem 0x500040 64 (tensor ty), ttbase := 0x500000, ttslots := 2 } with
    wave := { wave0 with s := mset wave0.s 11 0x1000 } }

theorem witness_TensorCopies :
    ([(.ab, .cptAb .normal (uni (.k 0) (.s 11) (.s 12) no), 4), (.wb, .cptWb .normal (uni (.k 0) (.s 11) (.s 12) no), 4),
      (.scl, .cpts .normal (uni (.k 0) (.s 11) (.s 12) no), 0), (.acc, .cpta .normal (uni (.k 0) (.s 11) (.s 12) no), 6)] :
        List (CForm × Instr × Nat)).all
      (fun x => let s := tensored x.2.2
        s.runs x.2.1 && match (s.begin x.2.1).tensorRecord ((s.uni (.s 11)).toNat % 2 ^ 32) with
        | (s1, .record r) => (s1.copyRefuses x.1 r 12 0).isNone
        | _ => false) = true := by decide +kernel

theorem witness_TensorCopies_waits :
    ([.tlwait (uni no (.k 0) no no), .tlreadDone (uni (.s 1) (.k 0) no no), .tlreadIss (uni (.s 1) (.k 1) no no)]).all tiny.runs = true ∧
    min (tiny.uni (.k 0)).toNat tiny.block.copy.issued ≤ tiny.block.copy.done ∧
    (let s : State := { tiny with block := { block0 with copy := { CopyCtx.start with issued := 1 } } }
     s.runs (.tlwait (uni no (.k 1) no no)) && decide (s.block.copy.done < min (s.uni (.k 1)).toNat s.block.copy.issued)) = true := by
  decide +kernel

/-- A ring of 4 KiB at 0x600000 with its header at s4: one record, in the state and with the owner given. -/
def ringed (st : RecState) (owner : W64) (read : Nat) : State :=
  let hd : RingHdr := { free := 0, read := read, resv := 32, log := 12, data := 0x600000, ok := true }
  let r : RecHdr := { owner := owner, st := st, len := 16 }
  withDom fun d => { d with mem := wrN (wrN d.mem 0x300040 64 hd.bits) 0x600000 16 r.bits }

/-- The hypotheses of `RingForms` for one form. -/
def rings (s : State) (i : Instr) (rel : Bool) (f : State → Target → RingOp → RingRes) : Bool :=
  let g := s.begin i
  s.runs i && s.clear && (s.uni (.s 4)).toNat % 64 == 0 && match g.check g.who (s.uni (.s 4)) { n := 8, write := true, atomic := true, tags := true, sc := some .die } with
    | (s1, .ok home) => !s1.lockedFor s1.who home true &&
        (let r := if rel then s1.release s1.core.ix .die else s1
         match r.unitRead r.ringWho home .normal 64 with
          | (s2, x) => (RingHdr.ofBits x).ok && isOk (f s2 home { h := RingHdr.ofBits x, recs := [] }).2)
    | _ => false

theorem witness_RingForms :
    let me := tiny.ringOwner
    rings (ringed .committed 0 0) (.rgres .die (uni (.s 2) (.s 4) (.k 16) no)) false (fun s t op => s.rgres t op 16) = true ∧
    rings (ringed .reserved me 0) (.rgcmt .die (uni no (.s 4) (.s 9) no)) true
      (fun s t op => s.rgheld t op 0 fun r => { r with st := .committed, owner := 0 }) = true ∧
    rings (ringed .committed 0 0) (.rgpop .die (uni (.s 2) (.s 4) no no)) false (fun s t op => s.rgpop t op 3) = true ∧
    rings (ringed .popped me 32) (.rgfree .die (uni no (.s 4) (.s 9) no)) true (fun s t op => s.rgfree t op 0) = true ∧
    rings (ringed .reserved me 0) (.rbsurrHold .die (uni no (.s 4) (.s 9) no)) true
      (fun s t op => s.rgheld t op 0 fun r => { r with st := .surrendered, owner := 0 }) = true ∧
    rings (ringed .surrendered 0 0) (.rbclaim .die (uni (.s 1) (.s 4) (.s 9) no)) false (fun s t op => s.rbclaim t op 0) = true := by
  decide +kernel

theorem witness_RingReservation :
    let h : RingHdr := { free := 0, read := 0, resv := 32, log := 12, data := 0x600000, ok := true }
    (2 ^ h.log / 2 < 16 + 2048) ∧ (16 + 16 ≤ 2 ^ h.log / 2) ∧ h.resv % 2 ^ h.log + 32 ≤ 2 ^ h.log ∧ h.resv + 32 - h.free ≤ 2 ^ h.log ∧
    2 ^ h.log < (4080 + h.resv) + 32 - h.free ∧
    isOk (tiny.ringByte (.loc 0x300040 (Leaf.ofEntry 507 1)) (BitVec.ofNat 64 (h.data + 32))).2 = true := by decide +kernel

theorem witness_StreamForms :
    streaming.kind = .stream ∧ streaming.block.stream = some (Stream.start 0x200000) ∧ legalPc (nextPc 0x200000) = true ∧
    legalPc (branchPc 0x200000 4) = true ∧
    ([.nop (uni no no no no), .mjmp 4 (uni no no no no), .mloop 4 (uni (.s 6) (.s 5) (.k 1) no), .mend (uni no no no no),
      .marv 1 (uni no no no no), .mwaitb 1 (uni no (.k 0) no no), .mpop 1 (uni (.s 1) no no no), .mpush 1 (uni no (.k 3) no no)]).all Instr.wf = true ∧
    0 < ((1 : W32) - (0 : W32)).toInt ∧ HQueue.start.entries.length < HQueue.start.depth := by decide +kernel

theorem witness_EngineForms :
    ([.mzero (uni (.k 0) no no no), .mma true .jb5 0 (uni (.k 0) (.k 0) (.k 0) no), .mmas false .jb3 0 (uni (.k 0) (.k 0) (.k 0) (.s 1)),
      .mcvt .rne .jb5 (uni (.k 0) (.k 0) no no), .madd (uni (.k 0) (.k 0) no no)]).all Instr.wf = true ∧
    mfPanel .jb5 ≤ streaming.block.size 0 ∧ 16384 ≤ streaming.block.size 2 ∧ 64 * mfGroups .jb3 ≤ streaming.block.size 3 ∧
    streaming.core.engine.length < 4 := by decide +kernel

/-- A path in a region at depth `n`. -/
def regional (n : Nat) (aborted : Bool) : State :=
  { withPath { path0 with txdepth := n, region := some { begin := 0x200000, stop := 0x20000C, depth := 0, serial := false, aborted := aborted } } with
    wave := { wave0 with logs := (List.range 8).map fun l => { lane := l, rd := [], wr := [], since := 0 } } }

theorem witness_ClaspForms :
    tiny.runs (.txb 4 (uni no no no no)) = true ∧ tiny.core.logs + (lanesOf tiny.path.mask).length ≤ 170 ∧
    (lanesOf tiny.path.mask).all (fun l => mget tiny.wave.sernext l == 0) = true ∧
    (regional 1 false).runs (.txb 4 (uni no no no no)) = true ∧ (regional 2 false).runs (.txe (lanes (.q 1) no no no)) = true ∧
    (regional 1 true).runs (.txe (lanes (.q 1) no no no)) = true ∧ (regional 1 false).runs (.txe (lanes (.q 1) no no no)) = true ∧
    (regional 1 false).wave.logs.all (fun g => g.rd.isEmpty && g.wr.isEmpty) = true ∧
    (regional 1 false).runs (.txabt (uni no (.k 7) no no)) = true ∧ (regional 1 false).path.inRegion = true ∧
    tiny.runs (.txabt (uni no (.k 7) no no)) = true ∧ tiny.runs (.txst 3 (lanes v1 no no no)) = true := by decide +kernel

/-- Lane 3 alone in its region; and lanes 3 to 7 of eight that have still to commit. -/
def alone : State := { regional 1 false with path := { (regional 1 false).path with mask := 8 } }
def committing : State := { regional 1 false with path := { (regional 1 false).path with status := .waiting (.commit 0xF8 7 (.q 1)) } }

theorem witness_ClaspForms_commits :
    alone.runs (.txe (lanes (.q 1) no no no)) = true ∧ alone.path.mask &&& ~~~((1 : W64) <<< lowLane alone.path.mask) = 0 ∧
    (regional 1 false).path.mask &&& ~~~((1 : W64) <<< lowLane (regional 1 false).path.mask) ≠ 0 ∧
    committing.path.region = (regional 1 false).path.region ∧ covers committing.path.mask 0xF8 = true ∧ legalPc (nextPc committing.path.pc) = true ∧
    (0xF8 &&& ~~~((1 : W64) <<< lowLane (0xF8 : W64))) ≠ 0 ∧ (0x80 &&& ~~~((1 : W64) <<< lowLane (0x80 : W64))) = 0 := by decide +kernel

theorem witness_FiligreeForms : tiny.guard once ≠ 0 ∧ tiny.path.inRegion = false ∧ tiny.path.posted = [] ∧ tiny.postedTags = [] ∧ ([.stepb (uni no (.k 5) no no), .stepe (uni (.s 9) no no no), .fgmark (uni no (.k 3) no no),
    .rngpush (uni no (.k 7) no no), .rngpop (uni (.s 1) no no no)]).all tiny.runs = true ∧ (tiny.uni (.k 7)).setWidth 32 ≠ (0 : W32) := by
  decide +kernel

/-- The package with a path that stands as given. -/
def standing (p : Path) : State := { idle with dom := (withPath p).unfocus.dom }
/-- What the path's events see. -/
def seen (s : State) (f : State → Bool) : Bool :=
  match s.focusPath here with
  | some t => t.block.res == .resident && legalPc (nextPc t.path.pc) && f t
  | none => false
/-- A core whose clock has run on. -/
def late (s : State) : State := { s with core := { s.core with cycles := 2 ^ 32 } }

theorem witness_PathEvents_sampled :
    let cfg : TraceCfg := { events := 16, tenant := none, launch := none, base := 0x700000, size := 4096, interval := 256, pcLo := 0, pcHi := 0xFFFFFFFFFFFFFF, label := 0, mask := 0 }
    let t := withDom fun d => { d with trace := some cfg }
    t.traced cfg 4 = true ∧ t.wave.locket = [] := by decide +kernel

/-- A bundle was fetched, whose first word is an instruction that the path may execute. -/
def fetched (x : State × Fetched) : Bool := match x.2 with
  | .bundle b => (match decode (bundleWord b 0) with
    | .instr i => (x.1.refuses i).isNone
    | _ => false)
  | _ => false

theorem witness_PathEvents :
    seen idle (fun t => decide (t.path.hold ≤ t.core.cycles.toNat)) = true ∧
    seen (standing { path0 with posted := [{ lanes := [], pc := 0, sector := 0, cause := none }] }) (fun t => t.path.posted != []) = true ∧
    seen (late (withPath { path0 with status := .waiting (.wsync 0xFF (.q 1)) })).unfocus (fun t => decide (Config.joinBound < t.joinWaited)) = true ∧
    seen (standing { path0 with status := .waiting .superv }) (fun t => t.supervTurn) = true ∧
    seen (standing { path0 with priv := true, privFor := idle.dom.cfg.supervisor + 1 }) (fun t => decide (t.dom.cfg.supervisor < t.path.privFor)) = true ∧
    seen (standing { path0 with txdepth := 0, status := .waiting (.laneLog 0xFF) }) (fun t => t.path.waitsLog && t.logTurn) = true ∧
    seen { idle with dom := { idle.dom with mem := wrN idle.dom.mem 0x200000 64 (bundleOf 0x1157000600402804_00000000) } } (fun t => t.wave.logs.isEmpty && t.path.status == .running && t.path.ir.isNone && !t.path.uncorr && !t.path.stepped
      && fetched (t.fetchBundle true t.path.pc)) = true := by
  decide +kernel

theorem witness_PathEvents_waits :
    seen (late (withPath { path0 with status := .waiting (.mon [(0, 0x300040)] .n32 .acq .die v1) })).unfocus (fun t =>
      decide (t.dom.cfg.mwait < t.joinWaited * t.core.nspercyc.toNat) && !t.vaHeld 0x300040) = true ∧
    seen (standing { path0 with status := .waiting (.sig 0x300040 .n32 .eq 0 .die (.s 1)) }) (fun t =>
      isOk (t.check t.who 0x300040 { n := 4, write := false, atomic := false, tags := true, sc := some .die }).2 && sigHolds .eq 0 0) = true ∧
    seen (standing { path0 with status := .waiting (.batch 0) }) (fun t => t.waitReady) = true ∧
    seen (late (withPath { path0 with status := .waiting (.join 1),
                                      stack := [{ call := false, mask := 0xFF, pc := 0x200000, etag := 1, fmts := 2 }] })).unfocus (fun t =>
      decide (Config.joinBound < t.joinWaited) && t.wave.paths.isEmpty && t.dom.trace.isNone) = true := by decide +kernel

def export1 : Export :=
  { base := 0x300000, pages := 1, read := true, write := true, atomic := true, tenant := 0, live := true, gen := 1 }

theorem witness_MemoryEvents :
    idle.kind = .idle ∧ idle.dom.up = true ∧ idle.dom.locks = [] ∧ idle.dom.l1 = [] ∧ idle.dom.dirtyBase0 = 0 ∧ idle.dom.dirtyBase1 = 0 ∧
    idle.dom.applied = [] ∧ idle.tier2Failed 0x300040 = false ∧ idle.dom.settledAt 0x102000 = none ∧ sliceOf 0x300040 < 48 ∧ tierOf 0x300040 ≠ 3 ∧
    idle.dom.tlbFind 0 0 0x300040 = none ∧ (match idle.dom.walk 0 0x300040 with | .leaf _ l => idle.dom.keysMatch l | _ => false) = true ∧
    isOk ((withDom fun d => { d with exports := [export1] }).exportCheck 1 0 0 64 0 true { n := 4, write := true, atomic := false, tags := true, sc := none }).2 = true := by
  decide +kernel

/-- A park whose record can be written; and two records of the memory deque of a domain that is idle. -/
theorem witness_MemoryEvents_units :
    (let k : Park := { id := 1, what := .path here, kind := 1, va := 0x300040, pc := 0x200000, mask := 0xFF, unit := 0, tenant := 0, slot := none, failed := false }
     let d : Dom := { idle.dom with parks := [k], faultqBase := 0x600000, fqsize := 16 }
     d.parks.find? (fun k => k.slot == none) = some k ∧ d.lockedAt (d.faultKey / 64) true = false) ∧
    (let d : Dom := { State.reset.dom with memDeque := [1, 2] }
     d.memDeque[1]? = some 2 ∧ d.up = true ∧ d.launches = [] ∧ d.blocks = [] ∧ dequeRecord (2 ^ 51 + 64 * 1 + 63) = some 1) := by decide +kernel

/-- R288: an invalidation that nothing holds up, and one that a Clasp log of the path does. -/
theorem witness_MemoryEvents_inval :
    (idle.doInval .all).invalHeld .all = false ∧
    (let g : Gran := { va := 0x2000000000, key := 0x300040, val := 0, bytes := 255 }
     let w : Wave := { wave0 with logs := [{ lane := 0, rd := [g], wr := [], since := 0 }] }
     let s : State := ({ tiny with wave := w } : State).unfocus
     (s.doInval .all).invalHeld .all) = true := by decide +kernel

/-- An entry of the Locket: a load of s4's word by the path. -/
def bounced : Entry :=
  { tag := 0, sector := 0x300040 / 64, paths := [0], parked := none, slot := none,
    req := { reqOf .load false with lanes := [lane 0x300040 0] } }

theorem witness_MemoryEvents_reissue :
    let t : State := { tiny with wave := { wave0 with locket := [bounced], nextTag := 1 } }
    let s := t.unfocus
    (match s.focusBlock bhere with
      | some t => t.block.res == .resident && (match t.openWave 0 with
        | some v => v.nextEntry == some bounced && v.wave.paths.isEmpty && v.block.copy.elems.isEmpty && v.path.pid == 0
            && allDone (v.reqLanes bounced.req false false bounced.req.lanes).2
        | none => false)
      | none => false) = true := by decide +kernel

def copied (e : CopyCtx) : State := ({ tiny with block := { block0 with copy := e } } : State).unfocus

theorem witness_EngineEvents_copies :
    let e : Elem := { wave := 0, batch := 1, lane := 0, out := false, bytes := 4, ga := 0x300040, ab := 0, hint := .normal, pc := 0, user := true,
                      token := 0, e := 0, parked := none }
    (match (copied { CopyCtx.start with elems := [e] }).focusBlock bhere with
      | some t => t.nextElem == some e && !e.cut && !t.elemBounces e && t.block.copy.locks.isEmpty && isOk (t.elemAb e) && (match (t.copyGlobal true .normal 0x300040 4 none).2 with | .ok _ => true | _ => false)
      | none => false) = true ∧
    (let op : CopyOp := { num := 1, wave := 0, user := true, form := .ab, off := 0, rcd := BitVec.ofNat 512 (tensor 4), coords := [0],
                          hint := .normal, pc := 0, next := 3, deferred := false, parked := none, token := 0, e := 0 }
     match (copied { CopyCtx.start with issued := 1, ops := [op] }).focusBlock bhere with
      | some t => t.opReady op && !op.cut && !t.opBounces op && t.block.copy.locks.isEmpty && boxCount op.rcd.toNat == 4
          && !(t.updOp 1 fun x => { x with lock := none }).boxHeld op 3 && t.opFreed { op with deferred := true }
          && (match ((t.updOp 1 fun x => { x with lock := none }).moveBox op 3).2 with | .ok _ => true | _ => false)
      | none => false) = true := by decide +kernel

def zeroing (ph : MPhase) : MOp :=
  { blk := 0, num := 1, kind := .mzero, d := 0, a := 0, b := 0, rs := 0, cs := 0, ks := 1, phase := ph, out := 0, flags := 0 }

theorem witness_EngineEvents_engine :
    nextStart [] [zeroing .issued] = some (zeroing .issued) ∧ tiny.mopFlawed (zeroing .issued) = false ∧ ([zeroing .started].find? (fun y => y.phase == .started)) = some (zeroing .started) ∧
    (({ tiny with core := { core0 with engine := [zeroing .consumed] } } : State).unfocus.coreAt 0).engine = [zeroing .consumed] ∧
    (let m : Stream := { Stream.start 0x200000 with held := [{ bar := 1, pc := 0x200000, after := 0 }] }
     m.status = .running ∧ (0 : Nat) ≤ m.doneOps ∧ (Barrier.start (BitVec.ofNat 33 (2 ^ 32))).reg.getLsbD 32 = true) := by decide +kernel

theorem witness_BlockEvents :
    idle.kind = .idle ∧ (match idle.focusBlock bhere with | some t => (t.launch.map (·.dead)) == some false && t.block.preempt.isNone | none => false) = true ∧
    ({ block0 with stream := none } : Block).isOver = true ∧
    (match ((withDom fun d => d).unfocus).dom.blocks.find? (fun y => y.id == 0) with
      | some x => (idle.dom.groupOf x).map (·.id) == [0]
      | none => false) = true ∧
    (idle.dom.cores.find? fun c => c.ix == 0).isSome = true ∧ idle.dom.trace = none := by decide +kernel

/-- A new launch of one block, for a domain with nothing on its cores. -/
def fresh : State := { idle with dom := { (Dom.reset 0).setup 0 with launches := [{ setupLaunch 0 false with started := 0 }] } }

theorem witness_BlockEvents_place : (fresh.dom.jobs.findSome? fresh.tryJob).isSome = true ∧
    (fresh.tryFresh { setupLaunch 0 false with started := 0 } 0 (List.range 96)).isSome = true := by decide +kernel

theorem witness_BlockEvents_saving :
    (match (({ tiny with block := { block0 with res := .saving } } : State).unfocus).focusBlock bhere with
      | some t => t.block.res == .saving && t.block.canRun
      | none => false) = true ∧
    (match (({ tiny with block := { block0 with res := .evicted, wake := true } } : State).unfocus).focusBlock bhere with
      | some t => t.block.res == .evicted && t.blockWoken
      | none => false) = true := by decide +kernel

/-- A block without waves and buffers that is being saved, whose area the cluster's TLB maps. -/
def saved (base : W64) : State :=
  let b : Block := { Block.start 0 0 0 false 1 [0, 0, 0, 0] with started := true, res := .saving, waves := [] }
  let s : State := { tiny with block := b, dom := { dom0 with launches := [{ setupLaunch 0 false with locketbase := base }] } }
  (s.check { s.unitWho false s.pathUnit with core := 96 } (s.areaVa 0) { n := 8, write := true, atomic := false, tags := false, sc := none }).1

theorem witness_BlockEvents_area : (saved 0x800000).writeArea.2 = true ∧ (saved 0x2000000000).writeArea.2 = false := by decide +kernel

/-- A lane that requests the token at its `txb`, and one that holds it. -/
def requesting : Path := { path0 with mask := 1, ir := some (.txb 4 (uni no no no no)), status := .waiting (.token 1) }
def holding : Path :=
  { path0 with mask := 1, txdepth := 1, region := some { begin := 0x200000, stop := 0x20000C, depth := 0, serial := true, aborted := false } }

theorem witness_BlockEvents_serial :
    ((standing requesting).nextToken [(here, 0)]).isSome = true ∧ seen (standing requesting) (fun t => t.path.txbOff == some 4) = true ∧
    (let s := (late (withPath holding)).unfocus
     let x : Serial := { p := here, lane := 0, since := 0, undo := [] }
     s.serialPath x == some here && seen s fun t => decide (t.dom.cfg.serial < t.core.span x.since)) = true := by decide +kernel

theorem witness_BlockEvents_evict :
    let s : State := { late (withPath { path0 with status := .waiting (.barrier 0 0 no) }) with
      block := { block0 with stream := none, idleSince := some 0 } }
    s.unfocus.evictable bhere = true ∧
    (match s.unfocus.focusBlock bhere with | some t => t.areaWritable | none => false) = true ∧
    (let t : State := { s with block := { s.block with preempt := some 0 } }
     decide (Config.preemptBound < t.core.span 0) && t.block.streamQuiet) = true := by decide +kernel

theorem witness_BlockEvents_task :
    let tk : Task := { entry := 0x200000, arg := 7, cnt := 0x300040, launch := 0, depth := 1, regblk := 0, abclass := 0, serial := 0, token := 0 }
    let s : State := { tiny with core := { core0 with deque := [tk] } }
    (match (s.unfocus.taskSources 0).find? (s.unfocus.taskFits 0) with
      | some (src, t) => t == tk && ((s.unfocus.takeTask 0 src).dom.planTask 0 tk (setupLaunch 0 false)).isSome
      | _ => false) = true := by decide +kernel

theorem witness_PackageEvents :
    State.reset.links[0]? = some { replays := 0, down := false } ∧ idle.dom.up = true ∧ idle.dom.slots.length < 64 ∧
    serving.dom.slots[0]? = some 3 ∧ (serving.dom.idleQueue 3 = false) ∧
    (let d : Dom := serving.dom.updQueue 3 fun q => { q with cmds := 0 }
     d.idleQueue 3 && d.pend.isEmpty) = true ∧
    (let q : MQueue := { num := 70, prio := 7, preemptible := true, tenant := 0, superv := false, validate := false, cmds := 1,
                         starved := false, pendSince := some 0 }
     let d : Dom := { serving.dom with slots := List.range 64, pend := [70], queues := serving.dom.queues ++ [q], fed := starveBound }
     d.starving 70) = true ∧ State.reset.ports[3]?.isSome = true ∧
    BootImage.runs { signed := true, image := 1, version := 2 } State.reset.iod.fuse = true ∧
    BootImage.runs { signed := true, image := 1, version := 2 } 3 = false := by decide +kernel

theorem witness_ConfigurationCommands :
    serving.serves hdr false = true ∧ (serving.dom.queue 3).superv = true ∧ serving.serves { hdr with dom := 1 } false = false ∧
    (List.replicate 64 (0x100 : BitVec 9)).length = 64 ∧ legalPc 0x200000 = true ∧ 2 ^ Nat.log2 4096 = 4096 := by decide +kernel

/-- A bit of a dirty-page buffer that a lock holds off; a slot that no export has listed. -/
theorem witness_ConfigurationCommands_late : serving.dom.bitsLate = false ∧
    (let s : State := { serving with dom := { serving.dom with late := [.bit 0x600000 3] } }
     s.serves hdr false && s.dom.bitsLate) = true ∧ serving.dom.exports[5]? = none := by decide +kernel

theorem witness_ConfigurationCommands_export :
    let x : Export := { base := 0, pages := 0, read := false, write := false, atomic := false, tenant := 0, live := false, gen := 1 }
    let s : State := { serving with dom := { serving.dom with exports := [x] } }
    s.serves hdr false = true ∧ s.dom.exports[0]? = some x ∧ x.live = false := by decide +kernel

/-- A descriptor of one block of one wave at 0x300000. -/
def descriptor : Nat :=
  1 + 2 ^ 32 + 0x200000 * 2 ^ 192 + 0x300000 * 2 ^ 384 + 10 * 2 ^ 440 + 0x400000 * 2 ^ 448

theorem witness_ServiceCommands :
    (match ({ serving with dom := { serving.dom with mem := wrN serving.dom.mem 0x300000 64 descriptor } } : State).readLaunch hdr 0x300000 with
      | (_, .ok l) => !l.linked && l.nblocks == 1
      | _ => false) = true ∧
    (serving.dom.cores.find? fun k => k.ix == 0).isSome = true ∧ (List.replicate 32 (0 : Byte)).length = 32 := by decide +kernel

/-- Frames of both tiers, and a port of the second tier that has failed. -/
theorem witness_ServiceCommands_keys :
    ([0, 1572863, 2 ^ 34, 2 ^ 35 - 1] : List Nat).all (fun f => !serving.dom.frameHeld f && !serving.frameFailed f) = true ∧
    (let s : State := { serving with tier2down := [{ port := 0, frames := none }] }
     s.frameFailed (2 ^ 34) && !s.frameFailed 1572863) = true := by decide +kernel

theorem witness_ServiceCommands_paths :
    let k : Park := { id := 1, what := .path here, kind := 1, va := 0x300040, pc := 0x200000, mask := 0xFF, unit := 0, tenant := 0, slot := none, failed := false }
    let s := standing { path0 with status := .parked 1 }
    let s : State := { s with dom := { s.dom with parks := [k] } }
    s.dom.parkOf 1 = some k ∧ (match (s.dropPark 1).focusPath here with | some t => t.path.status == .parked 1 | none => false) = true ∧
    (match ({ idle with dom := { idle.dom with dbg := true } } : State).focusPath here with
      | some t => !t.path.inRegion && !t.path.waitsLog && !t.path.waitsToken
      | none => false) = true ∧
    seen (standing { path0 with halted := true, status := .waiting (.pop 1 (.s 1)) }) (fun t =>
      t.path.halted && t.leaveWait.path.status == .running) = true := by decide +kernel

theorem witness_EncodingAgrees : (Instr.iadd false .i32 (lanes v1 v2 v4 no)).wf = true ∧ (Instr.iadd false .i32 (lanes v1 v2 v4 no)).args ≠ none := by
  decide +kernel

theorem witness_StepRunsDecoded :
    let s : State := { idle with issueQ := [{ p := here, stream := false }] }
    s.agenda = [] ∧ s.sigs = [] ∧ seen { s with issueQ := [] } (fun t => (t.launch.map (·.dead)) == some false && t.path.ir.isNone) = true ∧
    decode (bundleWord (bundleOf 0x1157000600402804_00000000) 0) = .instr (.shl .n32 (lanes v1 v2 (.k 1) no)) := by decide +kernel

theorem witness_MemoryStaysCanonical : mwf idle.hostMem = true ∧ mwf idle.fabricMem = true ∧ mwf idle.dom.mem = true := by decide +kernel

/-! Results that the spec states -/

/-- v1 of lane 3 after an instruction, on operands that are constants. -/
def v1of (i : Instr) (s : State) : W32 := match exec i s with
  | .next u => u.wave.vGet 3 1
  | _ => 0xDEADBEEF
def sOf (n : Nat) (i : Instr) (s : State) : W64 := match exec i s with
  | .next u => u.wave.sGet n
  | _ => 0xDEADBEEF
def onV (n : Nat) (x : W32) : State := { tiny with wave := wave0.vSet 3 n x }

/-- R118: `shl.i8` of 0x40 by 1. -/
theorem test_shl_i8 : v1of (.shl .i8 (lanes v1 (.k 0x40) (.k 1) no)) tiny = 0xFFFFFF80 := by decide +kernel
/-- R123: `cvti.i8.i32` of 200, and with `sat`; `cvti.n32.i8` of 0xFFFFFF80. -/
theorem test_cvti_wrap : v1of (.cvti false .i32 .i8 (lanes v1 (.immI 0 200) no no)) tiny = 0xFFFFFFC8 := by decide +kernel
theorem test_cvti_sat : v1of (.cvti true .i32 .i8 (lanes v1 (.immI 0 200) no no)) tiny = 127 := by decide +kernel
theorem test_cvti_n32_i8 : v1of (.cvti false .i8 .n32 (lanes v1 v2 no no)) (onV 2 0xFFFFFF80) = 0xFFFFFF80 := by decide +kernel
/-- R115: `imad.sat.n32` of 0x00010000, 0x00010000 and 1. -/
theorem test_imad_sat : v1of (.imad true .n32 (lanes v1 v2 v2 (.immC 1))) (onV 2 0x10000) = 0xFFFFFFFF := by decide +kernel
/-- R121: a 64-bit constant in two steps. -/
theorem test_movi : sOf 3 (.movi .n64 (uni (.s 3) (.immI 1 0x01234567) no no)) { tiny with wave := wave0.sSet 3 0x89ABCDEF } = 0x0123456789ABCDEF := by
  decide +kernel
/-- R120: a control that reverses A's bytes, and one that puts the sign of byte 0 in all four. -/
theorem test_bsel_reverse : v1of (.bsel .n32 (lanes v1 v2 v4 (.s 9)))
    { onV 2 0x11223380 with wave := (onV 2 0x11223380).wave.sSet 9 0x00010203 } = 0x80332211 := by decide +kernel
theorem test_bsel_sign : v1of (.bsel .n32 (lanes v1 v2 v4 (.s 9)))
    { onV 2 0x11223380 with wave := (onV 2 0x11223380).wave.sSet 9 0x10101010 } = 0xFFFFFFFF := by decide +kernel
/-- R117: division by 0, and of the most negative number by −1. -/
theorem test_idiv_zero : v1of (.idiv .i32 (lanes v1 v2 (.k 0) no)) (onV 2 7) = 0xFFFFFFFF := by decide +kernel
theorem test_irem_lowest : v1of (.irem .i32 (lanes v1 v2 (.k 0xFF) no)) (onV 2 0x80000000) = 0 := by decide +kernel
/-- R139: `ffma.rdn` of 1 × 1 + −1 gives −0. -/
theorem test_ffma_rdn_zero : ffmaOf .f32 .rdn 0x3F800000 0x3F800000 0xBF800000 = (0x80000000, 0) := by decide +kernel
/-- R98: the worked block. -/
theorem test_jb3_block : (jbEncode 0 .rne [0x40700000, 0xBF800000, 0x3F000000, 0xBE800000, 0x40200000, 0, 0x3F400000, 0x3E800000, 0x3FC00000,
    0x3F800000, 0xC0400000, 0x40000000, 0x3F600000, 0x3F000000, 0x80000000, 0x3E000000]).1 = 0x0149D410409ECA80 := by decide +kernel
/-- R284: VA 0x00ABCDEF01234567 under a 64 MiB leaf with FRAME 0x4C00. -/
theorem test_leaf_key : (Leaf.key { Leaf.ofEntry 1 2 with frame := 0x4C00, tier := 0 } 0x00ABCDEF01234567) = 0x4D234567 := by decide +kernel
/-- R174 to R178: a store and the load of what it stored. -/
theorem test_store_load : (match exec (.st .normal .plain .die .n32 x0 (lanes no (.s 4) no (.k 5))) tiny with
    | .next u => v1of (.ld .normal .plain .die .n32 x0 (lanes v1 (.s 4) no no)) u
    | _ => 0) = 5 ∧ (match exec (.sts .n8 x0 (lanes no (.s 6) no (.k 5))) tiny with
    | .next u => mget u.core.ab 1
    | _ => 0) = 5 := by decide +kernel
/-- R388: `trap 7` takes the user handler with cause 0x38 and the operand in TRAPINFO. -/
theorem test_trap : (match exec (.trapI (uni no (.k 7) no no)) tiny with
    | .next u => (u.path.pc, u.path.trapcause, u.path.trappc, mget u.wave.trapinfo 3)
    | _ => (0, 0, 0, 0)) = (0x201000, 0x38, 0x20000C, 7) := by decide +kernel
/-- R88: `rte` at PRIV 0. -/
theorem test_priv : (match exec (.rte (uni no no no no)) tiny with
    | .next u => u.path.trapcause
    | _ => 0) = BitVec.ofNat 32 Cause.priv.code := by decide +kernel
/-- R111: the write of s1 at the end of a wait, once by an instruction that issued last, and once after a later one has written s1. -/
theorem test_lost_write :
    (tiny.sPut 1 5).wave.sGet 1 = 5 ∧ ((withPath { path0 with lost := [1] }).sPut 1 5).wave.sGet 1 = 0 ∧
    (let q : Path := { path0 with pid := 1, status := .waiting (.pop 0 (.s 1)) }
     (({ tiny with wave := { wave0 with paths := [q] } } : State).sPut 1 5).wave.paths.map (·.lost)) = [[1]] := by decide +kernel
/-- R407: a load of AB bytes that hold an error, and a store that writes the sector whole. -/
theorem test_ab_flaw :
    (let s : State := { tiny with core := { core0 with flaws := [{ buf := 0, sector := 0 }] } }
     (match (s.reqLane (reqOf .load true) (lane 0x10 0) false true).2 with | .fail f => f.cause | _ => .priv) = .uncorrectable ∧
     (s.core.mend 0 0 32).flaws.length = 1 ∧ ((s.core.mend 0 0 32).mend 0 32 32).flaws = []) := by decide +kernel
/-- A step from reset with a word placed runs the word (R84, R85). -/
theorem test_step_runs : (match step (State.reset.withFetchWord 96 0x1157000600402804_00000000) with
    | .next u => u.path.pc
    | _ => 0) = 0x20000C := by decide +kernel

end Sys2Proof.Tests
end

section
namespace Sys2Proof.Machine

/-! What reset leaves -/

theorem reset_domains : State.reset.dom :: State.reset.doms = (List.range 9).map Dom.reset := rfl

theorem mem_reset_domains {d : Dom} (h : d ∈ State.reset.dom :: State.reset.doms) : ∃ n, d = Dom.reset n := by
  rw [reset_domains] at h
  obtain ⟨n, -, rfl⟩ := List.mem_map.mp h
  exact ⟨n, rfl⟩

theorem reset_cores (n : Nat) : (Dom.reset n).cores = (List.range 96).map Core.reset := rfl

theorem reset_cores_ix (n : Nat) : (Dom.reset n).cores.map (·.ix) = List.range 96 := by
  rw [reset_cores, List.map_map]
  exact List.map_id _

theorem mem_reset_cores {n : Nat} {c : Core} (h : c ∈ (Dom.reset n).cores) : ∃ k, c = Core.reset k := by
  rw [reset_cores] at h
  obtain ⟨k, -, rfl⟩ := List.mem_map.mp h
  exact ⟨k, rfl⟩

/-- Settles O58: each of the nine domains is `Dom.reset` of its number, and each of its cores `Core.reset` of its own. -/
theorem resetState : Obligations.ResetState := by
  unfold Obligations.ResetState
  refine ⟨rfl, rfl, rfl, rfl, rfl, rfl, fun d hd => ?_, fun d hd => ?_⟩
  · obtain ⟨n, rfl⟩ := mem_reset_domains hd
    refine ⟨rfl, rfl, rfl, rfl, rfl, rfl, rfl, reset_cores_ix n, fun c hc => ?_⟩
    obtain ⟨k, rfl⟩ := mem_reset_cores hc
    exact ⟨rfl, rfl, rfl, rfl⟩
  · obtain ⟨n, rfl⟩ := mem_reset_domains hd
    exact mwf_nil

/-! The domain in focus, and all domains -/

/-- With nothing but its domain in focus, a state already has that domain in focus. -/
theorem focusDom_self {s : State} (h : s.kind = .idle) : s.focusDom s.dom.ix = s := by
  simp [State.focusDom, State.unfocus, h]

theorem unfocus_idle {s : State} (h : s.kind = .idle) : s.unfocus = s := by simp [State.unfocus, h]

/-- With nothing but its domain in focus, every core stands in the domain's list. -/
theorem updCore_idle {s : State} (h : s.kind = .idle) (ix : Nat) (f : Core → Core) :
    s.updCore ix f = { s with dom := { s.dom with cores := updIf (fun c => c.ix == ix) f s.dom.cores } } := by
  simp [State.updCore, State.coreHere, h]

/-- The domains of the package, the one in focus first. -/
def State.domains (s : State) : List Dom := s.dom :: s.doms

@[simp] theorem updDoms_domains (s : State) (f : Dom → Dom) : (s.updDoms f).domains = s.domains.map f := rfl

theorem mem_updDoms {s : State} {d : Dom} (f : Dom → Dom) (h : d ∈ s.domains) : f d ∈ (s.updDoms f).domains := by
  rw [updDoms_domains]; exact List.mem_map_of_mem h

/-! Links -/

theorem linkDown_links (s : State) (link : Nat) : (s.linkDown link).links = s.links := by
  simp only [State.linkDown]; split <;> rfl

theorem flitReceive_up {s : State} {link : Nat} {l : Link} (h : s.links[link]? = some l) (hd : l.down = false) (ok : Bool) :
    exec (.flitReceive link ok) s = .next (
      if ok then { s with links := s.links.set link { replays := 0, down := false } }
      else
        let t : State := { s with links := s.links.set link { replays := l.replays + 1, down := decide (8 < l.replays + 1) } }
        if 8 < l.replays + 1 then t.linkDown link else t) := by
  simp [exec, execFlitReceive, h, hd]

/-- R12: a flit that passes; one of the first eight that fail in a row; the next one. -/
theorem flitReceive_outcomes {s : State} {link : Nat} {l : Link} (h : s.links[link]? = some l) (hd : l.down = false) :
    exec (.flitReceive link true) s = .next { s with links := s.links.set link { replays := 0, down := false } } ∧
    (l.replays < 8 → exec (.flitReceive link false) s = .next { s with links := s.links.set link { replays := l.replays + 1, down := false } }) ∧
    (8 ≤ l.replays → ∃ u, exec (.flitReceive link false) s = .next u ∧ (u.links[link]?).map (·.down) = some true) := by
  refine ⟨flitReceive_up h hd true, fun h8 => ?_, fun h8 => ⟨_, flitReceive_up h hd false, ?_⟩⟩
  · rw [flitReceive_up h hd false]
    simp [show ¬ 8 < l.replays + 1 by omega]
  · have hlt : link < s.links.length := (List.getElem?_eq_some_iff.mp h).1
    simp [show 8 < l.replays + 1 by omega, linkDown_links, hlt]

/-! Reset, and starting again -/

/-- R409, R410: what of a domain in reset the statements name. -/
theorem inReset_shape (d : Dom) : d.inReset.ix = d.ix ∧ d.inReset.up = false ∧ d.inReset.launches = [] ∧ d.inReset.blocks = [] ∧
    d.inReset.mem = d.mem ∧ d.inReset.reports = d.reports := ⟨rfl, rfl, rfl, rfl, rfl, rfl⟩

theorem mem_resetDom {s : State} (h : s.kind = .idle) {d : Dom} (hd : d ∈ s.domains) : d.inReset ∈ (s.resetDom d.ix).domains := by
  have := mem_updDoms (fun x : Dom => if x.ix == d.ix then x.inReset else
    { x with monitors := x.monitors.filter (fun m => m.p.dom != d.ix), blocks := x.blocks.map (x.cutBlock d.ix) }) hd
  simpa [State.resetDom, unfocus_idle h, State.domains] using this

/-- R410: THERMAL resets the domain, which keeps its memory, and reports it. -/
theorem thermal_resets {s : State} (h : s.kind = .idle) {d : Dom} (hd : d ∈ s.domains) :
    ∃ u d', exec (.thermal d.ix) s = .next u ∧ d' ∈ u.domains ∧ d'.ix = d.ix ∧ d'.up = false ∧ d'.launches = [] ∧ d'.blocks = [] ∧
      d'.mem = d.mem ∧ d'.reports = d.reports ++ [.thermal] := by
  obtain ⟨hix, hup, hl, hb, hm, hr⟩ := inReset_shape d
  refine ⟨_, { d.inReset with reports := d.inReset.reports ++ [.thermal] }, rfl, ?_, hix, hup, hl, hb, hm, ?_⟩
  · have := mem_updDoms (fun x : Dom => if x.ix = d.ix then { x with reports := x.reports ++ [.thermal] } else x) (mem_resetDom h hd)
    rwa [if_pos hix] at this
  · rw [← hr]

theorem runs_of {x : BootImage} {fuse : Nat} (hs : x.signed = true) (hv : fuse ≤ x.version) : BootImage.runs x fuse = true := by
  simp [BootImage.runs, hs, hv]

theorem verified_of {d : Dom} {x : BootImage} (hs : x.signed = true) (hv : d.fuse ≤ x.version) : d.verified x = true := runs_of hs hv

theorem not_runs_of {x : BootImage} {fuse : Nat} (h : x.signed = false ∨ x.version < fuse) : BootImage.runs x fuse = false := by
  rcases h with h | h <;> simp [BootImage.runs, h]

/-- R405, R409: the domain rejoins with an image that verifies, and stays as it is with another. -/
theorem domainRejoin_domain (s : State) {d : Dom} (hd : d ∈ s.domains) (x : BootImage) :
    ∃ u, exec (.domainRejoin d.ix x) s = .next u ∧ (if d.verified x = true then d.starts x else d) ∈ u.domains := by
  refine ⟨_, rfl, ?_⟩
  have := mem_updDoms (fun y : Dom => if y.ix = d.ix ∧ y.verified x = true then y.starts x else y) hd
  simpa using this

/-- R405, R408: after PACKAGE_RESET every domain is down and empty. -/
theorem packageReset_domains (s : State) {u : State} (h : execPackageReset s = .next u) :
    ∀ d ∈ u.domains, d.up = false ∧ d.launches = [] ∧ d.mem = [] := by
  obtain rfl := Host.Outcome.next.inj h
  intro d hd
  simp only [updDoms_domains] at hd
  obtain ⟨e, he, rfl⟩ := List.mem_map.mp hd
  obtain ⟨n, rfl⟩ := mem_reset_domains he
  exact ⟨rfl, rfl, rfl⟩

/-! BOOT -/

/-- What firmware says of queues leaves the rest of its domain alone. -/
theorem describe_shape (d : Dom) (q : QueueCfg) : d.describe q = { d with queues := (d.describe q).queues } := by
  unfold Dom.describe; split <;> rfl

theorem describe_fold_shape (qs : List QueueCfg) (d : Dom) :
    qs.foldl Dom.describe d = { d with queues := (qs.foldl Dom.describe d).queues } := by
  induction qs generalizing d with
  | nil => rfl
  | cons q qs ih => simp only [List.foldl_cons]; rw [ih, describe_shape]

/-- The queues after that depend on the queues before it alone. -/
theorem describe_queues {d e : Dom} (h : d.queues = e.queues) (q : QueueCfg) : (d.describe q).queues = (e.describe q).queues := by
  unfold Dom.describe; split
  · exact h
  · simp only [Dom.updQueue, Dom.queue, h]

theorem describe_fold_queues (qs : List QueueCfg) {d e : Dom} (h : d.queues = e.queues) :
    (qs.foldl Dom.describe d).queues = (qs.foldl Dom.describe e).queues := by
  induction qs generalizing d e with
  | nil => exact h
  | cons q qs ih => exact ih (describe_queues h q)

theorem boots_verified {d : Dom} {images : BootCfg} {x : BootImage} (hx : images.images[d.ix]? = some x) (hv : d.verified x = true) :
    d.boots images = ((images.queues[d.ix]?).getD []).foldl Dom.describe
      { d.starts x with cfg := ((images.doms[d.ix]?).map DomCfg.bounded).getD d.cfg } := by
  simp only [Dom.boots, hx, hv, if_true]; rfl

theorem boots_down {d : Dom} {images : BootCfg}
    (h : (images.images[d.ix]?).all (fun x => !x.signed || decide (x.version < d.fuse)) = true) : d.boots images = { d with up := false } := by
  unfold Dom.boots
  split
  · rfl
  · next x hx =>
    have hv : d.verified x = false := not_runs_of (by simpa [hx] using h)
    simp [hv]

theorem boots_keeps (d : Dom) (images : BootCfg) : (d.boots images).ix = d.ix ∧ (d.boots images).mem = d.mem := by
  unfold Dom.boots
  split
  · exact ⟨rfl, rfl⟩
  · split
    · rw [describe_fold_shape]; exact ⟨rfl, rfl⟩
    · exact ⟨rfl, rfl⟩

/-- R405, R406, R36: a domain whose image verifies starts with it, with the settings and the queues of its firmware. -/
theorem boots_starts {d : Dom} {images : BootCfg} {x : BootImage} (hx : images.images[d.ix]? = some x) (hs : x.signed = true)
    (hf : d.fuse ≤ x.version) :
    (d.boots images).up = true ∧ (d.boots images).measure = x.image ∧ (d.boots images).version = x.version ∧
      (∀ c, images.doms[d.ix]? = some c → (d.boots images).cfg = DomCfg.bounded c) ∧
      ∀ qs, images.queues[d.ix]? = some qs → (d.boots images).queues = (qs.foldl Dom.describe d).queues := by
  rw [boots_verified hx (verified_of hs hf)]
  refine ⟨?_, ?_, ?_, fun c hc => ?_, fun qs hq => ?_⟩
  · rw [describe_fold_shape]; rfl
  · rw [describe_fold_shape]; rfl
  · rw [describe_fold_shape]; rfl
  · rw [describe_fold_shape]; simp [hc]
  · simp only [hq, Option.getD_some]; exact describe_fold_queues qs rfl

theorem load_measure {l : Loaded} {x : BootImage} (h : BootImage.runs x l.fuse = true) : (l.load x).measure = x.image := by
  simp [Loaded.load, h]

/-- R401: a port after firmware has assigned it. -/
theorem assignPorts_port {s : State} {ports : List Nat} {n k : Nat} {p : Port} (hp : s.ports[n]? = some p) (hk : ports[n]? = some k)
    (h9 : k < 9) : (s.assignPorts ports).ports[n]? = some { p with dom := k } := by
  simp [State.assignPorts, hp, hk, h9]

/-- What BOOT makes of a package of which the images of the IOD and of the FED run. -/
def State.booted (s : State) (images : BootCfg) : State :=
  let t := ({ s with iod := s.iod.load images.iod, fedDie := s.fedDie.load images.fed } : State).updDoms fun d => d.boots images
  ({ t with tier2 := images.tier2, ide := images.ide } : State).assignPorts images.ports

theorem boot_runs {s : State} {images : BootCfg} (hi : BootImage.runs images.iod s.iod.fuse = true)
    (hf : BootImage.runs images.fed s.fedDie.fuse = true) : exec (.boot images) s = .next (s.booted images) := by
  simp [exec, execBoot, hi, hf, State.booted]

theorem mem_booted {s : State} {d : Dom} (images : BootCfg) (h : d ∈ s.domains) : d.boots images ∈ (s.booted images).domains := by
  have h' := mem_updDoms (s := { s with iod := s.iod.load images.iod, fedDie := s.fedDie.load images.fed }) (fun d => d.boots images) h
  exact h'

/-- Log 113: while the image of the IOD or of the FED does not run no domain starts. -/
theorem boot_down {s : State} {images : BootCfg} (h : BootImage.runs images.iod s.iod.fuse = false ∨ BootImage.runs images.fed s.fedDie.fuse = false) :
    ∃ u : State, exec (.boot images) s = .next u ∧ ∀ d ∈ u.domains, d.up = false := by
  have down : ∀ t : State, ∀ d ∈ (t.updDoms fun d => { d with up := false }).domains, d.up = false := by
    intro t d hd
    rw [updDoms_domains] at hd
    obtain ⟨e, -, rfl⟩ := List.mem_map.mp hd
    rfl
  by_cases hi : BootImage.runs images.iod s.iod.fuse = false
  · exact ⟨_, by simp only [exec, execBoot, hi, if_true]; rfl, down _⟩
  · have hf := h.resolve_left hi
    exact ⟨_, by simp only [exec, execBoot, hi, hf, if_true]; rfl, down _⟩

end Sys2Proof.Machine
end

section
namespace Sys2Proof.Machine

/-! Lists kept in order of a key -/

/-- What has been put in stands first of its key. -/
theorem find?_insertBy_same {α : Type} (key : α → Nat) (x : α) (l : List α) :
    (insertBy key x l).find? (fun y => key y == key x) = some x := by
  induction l with
  | nil => simp [insertBy]
  | cons y l ih =>
    unfold insertBy
    split
    · simp
    split
    · simp
    · next hne => simp [Ne.symm hne, ih]

/-! The memory queues (R36 to R38) -/

theorem queue_num (d : Dom) (n : Nat) : (d.queue n).num = n := by
  unfold Dom.queue
  cases h : d.queues.find? (fun q => q.num == n) with
  | none => rfl
  | some q => simpa using List.find?_some h

/-- An update of a queue that keeps its number. -/
theorem queue_updQueue (d : Dom) (n : Nat) (f : MQueue → MQueue) (hf : ∀ q, (f q).num = q.num) :
    (d.updQueue n f).queue n = f (d.queue n) := by
  have hn : (f (d.queue n)).num = n := (hf _).trans (queue_num d n)
  have h := find?_insertBy_same MQueue.num (f (d.queue n)) d.queues
  rw [hn] at h
  simp [Dom.queue, Dom.updQueue] at h ⊢
  simp [h]

/-- R38: the watch of the pending queues sets nothing but since when they stand so. -/
theorem watchSlots_queue (d : Dom) (n : Nat) : ∃ t, d.watchSlots.queue n = { d.queue n with pendSince := t } := by
  let up := fun q : MQueue => { q with pendSince := if d.noSlot && d.pend.contains q.num then some (q.pendSince.getD d.fed) else none }
  have hfind : d.watchSlots.queues.find? (fun q => q.num == n) = (d.queues.find? fun q => q.num == n).map up := List.find?_map
  unfold Dom.queue
  rw [hfind]
  cases d.queues.find? (fun q => q.num == n) with
  | none => exact ⟨none, rfl⟩
  | some q => exact ⟨(up q).pendSince, rfl⟩

theorem watchSlots_cmds (d : Dom) (n : Nat) : (d.watchSlots.queue n).cmds = (d.queue n).cmds := by
  obtain ⟨t, h⟩ := watchSlots_queue d n; rw [h]

theorem watchSlots_slots (d : Dom) : d.watchSlots.slots = d.slots := rfl

theorem mapQueue_cmds (d : Dom) (n : Nat) : ((d.mapQueue n).queue n).cmds = (d.queue n).cmds := by
  have h := queue_updQueue d n (fun q => { q with starved := false, pendSince := none }) fun _ => rfl
  exact congrArg (·.cmds) h

theorem mapQueue_slots (d : Dom) (n : Nat) : n ∈ (d.mapQueue n).slots :=
  List.mem_append_right _ (List.mem_singleton_self n)

theorem tryMap_cmds (d : Dom) (n : Nat) : ((d.tryMap n).queue n).cmds = (d.queue n).cmds := by
  unfold Dom.tryMap
  split
  · exact mapQueue_cmds d n
  split
  · exact mapQueue_cmds _ n
  split
  · split
    · exact mapQueue_cmds _ n
    · rfl
  · rfl

theorem tryMap_slots {d : Dom} (h : d.slots.length < 64) (n : Nat) : n ∈ (d.tryMap n).slots := by
  rw [Dom.tryMap, if_pos h]; exact mapQueue_slots d n

/-- Log 27: a notification stands for one command more, and takes a free slot. -/
theorem hostNotify_counts {s : State} (h : s.kind = .idle) {q : Nat} (hq : q < 4096) :
    ∃ u, exec (.hostNotify s.dom.ix q) s = .next u ∧ (u.dom.queue q).cmds = (s.dom.queue q).cmds + 1 ∧
      (s.dom.slots.length < 64 → q ∈ u.dom.slots) := by
  have hcmds := congrArg MQueue.cmds (queue_updQueue s.dom q (fun q => { q with cmds := q.cmds + 1 }) fun _ => rfl)
  simp only [exec, execHostNotify]
  simp only [focusDom_self h, Nat.not_le.mpr hq, if_false]
  refine ⟨_, rfl, ?_, fun h64 => ?_⟩
  · simp only [watchSlots_cmds]
    split
    · exact hcmds
    · exact (tryMap_cmds _ q).trans hcmds
  · simp only [watchSlots_slots]
    split
    · next hc => exact List.contains_iff_mem.mp hc
    · exact tryMap_slots (d := { s.dom.updQueue q _ with pend := _ }) h64 q

theorem nextPending_nil {d : Dom} (h : d.pend = []) : d.nextPending = none := by simp [Dom.nextPending, h]

theorem length_filter_ne_lt {l : List Nat} {i n : Nat} (h : l[i]? = some n) : (l.filter (· != n)).length < l.length :=
  List.length_filter_lt_length_iff_exists.mpr ⟨n, List.mem_of_getElem? h, by simp⟩

theorem unmapQueue_idle {d : Dom} {n : Nat} (h : d.idleQueue n = true) : d.unmapQueue n = { d with slots := d.slots.filter (· != n) } := by
  simp only [Dom.idleQueue, Bool.and_eq_true, beq_iff_eq] at h
  simp [Dom.unmapQueue, h.1.1]

/-- Log 91: the slot of an idle queue frees; nothing waits for it. -/
theorem slotFreeMap_frees {s : State} (h : s.kind = .idle) {slot n : Nat} (hn : s.dom.slots[slot]? = some n) (h64 : s.dom.slots.length ≤ 64)
    (hi : s.dom.idleQueue n = true) (hp : s.dom.pend = []) :
    exec (.slotFreeMap s.dom.ix slot) s =
      .next { s with dom := ({ s.dom with slots := s.dom.slots.filter (· != n) } : Dom).watchSlots } := by
  have hu := unmapQueue_idle hi
  have hlen : (s.dom.unmapQueue n).slots.length < 64 := by
    rw [hu]; exact Nat.lt_of_lt_of_le (length_filter_ne_lt hn) h64
  have hnone : (s.dom.unmapQueue n).nextPending = none := nextPending_nil (by rw [hu]; exact hp)
  simp only [exec, execSlotFreeMap, focusDom_self h, hn, hi, if_true, hlen, hnone]
  rw [hu]

/-- R38: the interrupt of a starved queue, once an episode. -/
theorem qslotStarved_interrupts {s : State} (h : s.kind = .idle) {q : Nat} (hq : s.dom.starving q = true) :
    ∃ u, exec (.qslotStarved s.dom.ix q) s = .next u ∧ u.dom.interrupts = s.dom.interrupts ++ [.qslotStarved q] ∧
      (u.dom.queue q).starved = true := by
  simp only [exec, execQslotStarved]
  simp only [focusDom_self h, hq, if_true]
  exact ⟨_, rfl, rfl, congrArg MQueue.starved (queue_updQueue s.dom q (fun q => { q with starved := true }) fun _ => rfl)⟩

/-! Gangs and the second tier -/

/-- R305: a signal from another part changes the launches of the domain alone, and tells every package gang that it names. -/
theorem gangArrivalSignal_tells {s : State} (h : s.kind = .idle) (g : GangSig) :
    ∃ u, exec (.gangArrivalSignal s.dom.ix g) s = .next u ∧ u.doms = s.doms ∧
      ∀ (l : Launch) (x : Gang), l ∈ s.dom.launches → l.linked = true → l.tenant = g.tenant → l.linkid = g.link → l.gangs[g.gang]? = some x →
        x.scope = .pkg → x.reg.contains g.block = true →
        ∃ l' ∈ u.dom.launches, l'.id = l.id ∧ l'.gangs[g.gang]? = some (x.member g.block g.ended g.token g.unit) := by
  simp only [exec, execGangArrivalSignal]
  simp only [focusDom_self h]
  refine ⟨_, rfl, rfl, fun l x hl hlink ht hid hx hsc hreg => ⟨_, List.mem_map_of_mem hl, ?_, ?_⟩⟩
  · split <;> rfl
  · rw [if_pos (by simp [hlink, ht, hid])]
    simp only [List.getElem?_map, List.getElem?_zipIdx, hx, Option.map_some]
    rw [if_pos ⟨by simp, hsc, hreg⟩]

/-- R402: a failure stands beside those before it. -/
theorem secondTierPortFailure_adds (s : State) {x : Tier2Fail} (hx : x.port < 8) :
    ∃ u, exec (.secondTierPortFailure x) s = .next u ∧ x ∈ u.tier2down ∧ ∀ y ∈ s.tier2down, y ∈ u.tier2down := by
  simp only [exec, execSecondTierPortFailure]
  refine ⟨_, rfl, ?_⟩
  split
  · next h => exact ⟨List.contains_iff_mem.mp (h.resolve_left (by omega)), fun y hy => hy⟩
  · exact ⟨List.mem_append_right _ (List.mem_singleton_self x), fun y hy => List.mem_append_left _ hy⟩

/-- Settles O53, event by event. -/
theorem packageEvents : Obligations.PackageEvents := by
  unfold Obligations.PackageEvents
  intro s hk dom all
  refine ⟨fun link l hl hd => flitReceive_outcomes hl hd, fun core ns => ?_, fun ns => ?_, fun d hd => thermal_resets hk hd,
    fun d hd x hs hf => ?_, fun d hd x hx => ?_, ⟨_, rfl, packageReset_domains s rfl, rfl, rfl, rfl⟩, fun images his hiv hfs hfv => ?_,
    fun images h => ?_, fun g => gangArrivalSignal_tells hk g, fun x hx => secondTierPortFailure_adds s hx,
    fun q hq => hostNotify_counts hk hq, fun slot n hn h64 hi hp => slotFreeMap_frees hk hn h64 hi hp,
    fun q hq => qslotStarved_interrupts hk hq⟩
  · simp only [exec, execClockChange, dom, focusDom_self hk, updCore_idle hk]; rfl
  · simp only [exec, execAgeingReplan, dom, focusDom_self hk]; rfl
  · obtain ⟨u, hu, hmem⟩ := domainRejoin_domain s hd x
    rw [if_pos (verified_of hs hf)] at hmem
    exact ⟨u, hu, hmem⟩
  · obtain ⟨u, hu, hmem⟩ := domainRejoin_domain s hd x
    have hv : d.verified x = false := not_runs_of hx
    rw [hv, if_neg Bool.false_ne_true] at hmem
    exact ⟨u, hu, hmem⟩
  · have hi := runs_of his hiv
    have hf := runs_of hfs hfv
    refine ⟨_, boot_runs hi hf, fun d hd => ?_, load_measure hi, load_measure hf, rfl, rfl, fun n p k hp hk h9 => assignPorts_port hp hk h9⟩
    obtain ⟨hix, hmem⟩ := boots_keeps d images
    exact ⟨_, mem_booted images hd, hix, hmem, fun x hx hs hf => boots_starts hx hs hf, boots_down⟩
  · refine boot_down ?_
    rcases h with h | h | h | h
    · exact .inl (not_runs_of (.inl h))
    · exact .inl (not_runs_of (.inr h))
    · exact .inr (not_runs_of (.inl h))
    · exact .inr (not_runs_of (.inr h))

end Sys2Proof.Machine
end

section
/-! What the operations of the memory system leave alone: the registers and the Locket of the wave in focus, and of the domain everything
but its memory, its caches and the monitors, lists and counters that go with them. -/

namespace Sys2Proof.Machine

/-- What every step of a fold keeps, the fold keeps. -/
theorem foldl_keeps {α β γ : Type} (g : β → γ) (f : β → α → β) (h : ∀ b a, g (f b a) = g b) (l : List α) (b : β) : g (l.foldl f b) = g b := by
  induction l generalizing b with
  | nil => rfl
  | cons a l ih => rw [List.foldl_cons, ih, h]

/-- A domain without what its memory system changes by itself. -/
def Dom.apart (d : Dom) : Dom :=
  { d with mem := [], poison := [], l1 := [], l2 := [], msc := [], tokCache := [], monitors := [], rmap := [], late := [], cores := [],
           blocks := [] }

/-- The wave in focus, and the domain in focus without its memory system. -/
def State.apart (s : State) : Wave × Dom := (s.wave, s.dom.apart)

/-! Operations of a domain -/

section
variable (d : Dom) (sec : Nat)

theorem markToken_apart (m : TokMark) : (d.markToken sec m).apart = d.apart := by cases m <;> rfl

theorem pull_apart : (d.pull sec).apart = d.apart := by
  simp only [Dom.pull]
  split
  · refine foldl_keeps Dom.apart _ (fun d x => ?_) _ d
    exact markToken_apart d sec x.mark
  · rfl

theorem setBit_apart (a k : Nat) : (d.setBit a k).apart = d.apart := by
  unfold Dom.setBit
  extract_lets e mem f
  have he : e.apart = d.apart := pull_apart d _
  split
  · rfl
  split
  · exact he
  · exact he

theorem setDirty_apart (key : Nat) : (d.setDirty key).apart = d.apart := by
  unfold Dom.setDirty
  extract_lets base set f a own e
  have he : e.apart = d.apart := setBit_apart d _ _
  repeat' split
  · rfl
  · exact (setBit_apart e _ _).trans he
  · exact he

end

/-! Operations of a state -/

section
variable (s : State)

@[simp] theorem updCore_apart (ix : Nat) (f : Core → Core) : (s.updCore ix f).apart = s.apart := by
  unfold State.updCore; split <;> rfl

@[simp] theorem pfGone_apart (xs : List L1Sector) : (s.pfGone xs).apart = s.apart :=
  foldl_keeps State.apart _ (fun t _ => updCore_apart t _ _) _ s

theorem setDom_apart (d : Dom) : (s.setDom d).apart = (s.wave, d.apart) := by
  simp only [State.setDom]; split
  · rfl
  · rw [pfGone_apart]; rfl

@[simp] theorem setDirty_state_apart (key : Nat) : (s.setDom (s.dom.setDirty key)).apart = s.apart := by
  rw [setDom_apart, setDirty_apart]; rfl

@[simp] theorem countPf_apart (y : Option CLine) (ev : PerfEvent) : (s.countPf y ev).apart = s.apart := by
  unfold State.countPf; split
  · rfl
  · exact updCore_apart s _ _

@[simp] theorem l2Access_apart (tn : Option (BitVec 8)) (key p : Nat) (pf : Option Nat) (use : Bool) :
    (s.l2Access tn key p pf use).apart = s.apart := by
  simp only [State.l2Access]
  generalize useLine _ _ _ _ _ = r
  have filled : ∀ d : Dom, d.apart = s.dom.apart → (({ s with dom := d } : State).countPf r.2 .pfUnused).apart = s.apart := by
    intro d hd; rw [countPf_apart]; exact congrArg (Prod.mk s.wave) hd
  split
  · exact (countPf_apart _ _ _).trans (filled _ (by split <;> rfl))
  · exact filled _ (by split <;> rfl)

@[simp] theorem putRaw_apart (key n val : Nat) (m : TokMark) : (s.putRaw key n val m).apart = s.apart := by
  unfold State.putRaw
  extract_lets sec s1 d e mem see clear mem'
  have h1 : s1.apart = s.apart := setDirty_state_apart s key
  have hd : d.apart = s1.dom.apart := markToken_apart _ _ _
  have he : e.apart = s1.dom.apart := by
    show (ite _ _ _ : Dom).apart = _
    split <;> exact hd
  have put : ∀ d : Dom, d.apart = e.apart → (s1.wave, d.apart) = s.apart := fun d h => by rw [h, he]; exact h1
  split
  · exact put (see e) rfl
  · exact put _ rfl

@[simp] theorem homePut_apart (tn : Option (BitVec 8)) (key n val : Nat) (m : TokMark) : (s.homePut tn key n val m).apart = s.apart := by
  rw [State.homePut, putRaw_apart, l2Access_apart]

@[simp] theorem putUnder_apart (tn : BitVec 8) (l : Leaf) (key n val : Nat) (m : TokMark) : (s.putUnder tn l key n val m).apart = s.apart := by
  unfold State.putUnder; split
  · exact putRaw_apart s _ _ _ _
  · exact homePut_apart s _ _ _ _ _

theorem raiseOn_apart (c : Nat) (tn : BitVec 8) : (s.raiseOn c tn).apart = s.apart := by
  simp only [State.raiseOn]
  repeat' split
  all_goals rfl

theorem writeBack_apart (x : L1Sector) : (s.writeBack x).apart = s.apart := by
  unfold State.writeBack
  repeat' split
  · exact raiseOn_apart s _ _
  · exact homePut_apart s _ _ _ _ _
  · rfl

@[simp] theorem flushL1_apart (p : L1Sector → Bool) (keep : Bool) : (s.flushL1 p keep).apart = s.apart := by
  simp only [State.flushL1]
  have ht : ((s.dom.l1.filter p).foldl State.writeBack s).apart = s.apart := foldl_keeps State.apart _ writeBack_apart _ s
  split
  · exact ht
  · rw [pfGone_apart]; exact ht

@[simp] theorem snoop_apart (sec : Nat) (keep : Bool) : (s.snoop sec keep).apart = s.apart := by
  unfold State.snoop
  extract_lets p s1 dirty s2
  have h1 : s1.apart = s.apart := by
    show State.apart (ite _ _ _) = _
    split <;> rfl
  repeat' split
  · rfl
  · refine (foldl_keeps State.apart _ (fun t x => ?_) _ s2).trans h1
    exact homePut_apart t (some x.tenant) (sec * 64) 64 x.data.toNat x.mark
  · exact h1

@[simp] theorem recall_apart (c sec : Nat) (keep : Bool) : (s.recall c sec keep).apart = s.apart := by
  simp only [State.recall]; split
  · rw [flushL1_apart, snoop_apart]
  · exact snoop_apart s _ _

end

/-! What stands apart, field by field -/

section
variable {s t : State} (h : t.apart = s.apart)
include h

theorem wave_of_apart : t.wave = s.wave := congrArg Prod.fst h
theorem dirtyBase0_of_apart : t.dom.dirtyBase0 = s.dom.dirtyBase0 := congrArg (fun x => x.2.dirtyBase0) h
theorem dirtyBase1_of_apart : t.dom.dirtyBase1 = s.dom.dirtyBase1 := congrArg (fun x => x.2.dirtyBase1) h
theorem fqnext_of_apart : t.dom.fqnext = s.dom.fqnext := congrArg (fun x => x.2.fqnext) h
theorem interrupts_of_apart : t.dom.interrupts = s.dom.interrupts := congrArg (fun x => x.2.interrupts) h
theorem completions_of_apart : t.dom.completions = s.dom.completions := congrArg (fun x => x.2.completions) h

end

end Sys2Proof.Machine
end

section
namespace Sys2Proof.Machine

/-- A condition guards one operation. -/
theorem apart_ite {s t u : State} {c : Prop} [Decidable c] (ht : t.apart = s.apart) (hu : u.apart = s.apart) :
    (if c then t else u).apart = s.apart := by
  split <;> assumption

/-! The caches of a core -/

section
variable (s : State)

@[simp] theorem rmapFill_apart (cl sec : Nat) : (s.rmapFill cl sec).apart = s.apart := by
  simp only [State.rmapFill]
  repeat' split
  · rfl
  · rfl
  · exact flushL1_apart s _ _

@[simp] theorem evictL1_apart (core : Nat) (tn : BitVec 8) (va : W64) : (s.evictL1 core tn va).apart = s.apart := by
  simp only [State.evictL1]
  split
  · rfl
  split
  · rfl
  · exact flushL1_apart s _ _

@[simp] theorem dropAlias_apart (core sec : Nat) : (s.dropAlias core sec).apart = s.apart :=
  apart_ite (flushL1_apart s _ _) rfl

@[simp] theorem fill_apart (core : Nat) (tn : BitVec 8) (va : W64) (l : Leaf) (h : Nat) (pf : Bool) : (s.fill core tn va l h pf).apart = s.apart := by
  unfold State.fill
  extract_lets sec s1 s2 s3 x new
  have h1 : s1.apart = s.apart := apart_ite (flushL1_apart s _ _) rfl
  have h2 : s2.apart = s.apart := apart_ite ((recall_apart s1 _ _ _).trans h1) h1
  have h3 : s3.apart = s.apart := by rw [← h2]; exact (rmapFill_apart _ _ _).trans (evictL1_apart s2 _ _ _)
  clear_value s3
  split
  · rfl
  · exact h3

@[simp] theorem pfHit_apart (core key : Nat) : (s.pfHit core key).apart = s.apart := by
  simp only [State.pfHit]
  split
  · rfl
  · exact updCore_apart _ _ _

@[simp] theorem homeUse_apart (tn : BitVec 8) (va : W64) (l : Leaf) (h : Hint) : (s.homeUse tn va l h).apart = s.apart :=
  apart_ite rfl (l2Access_apart s _ _ _ _ _)

@[simp] theorem demand_apart (core : Nat) (tn : BitVec 8) (va : W64) (h : Hint) (l : Leaf) (home : Bool) :
    (s.demand core tn va h l home).apart = s.apart := by
  unfold State.demand
  extract_lets hit s1
  have h1 : s1.apart = s.apart := apart_ite (pfHit_apart s _ _) rfl
  exact apart_ite rfl (apart_ite h1 ((homeUse_apart s1 _ _ _ _).trans h1))

@[simp] theorem readAt_apart (core : Nat) (tn : BitVec 8) (va : W64) (l : Leaf) (h : Hint) (n : Nat) : (s.readAt core tn va l h n).1.apart = s.apart := by
  unfold State.readAt
  extract_lets key hh s1 s2 s3
  have h1 : s1.apart = s.apart := dropAlias_apart s _ _
  have h2 : s2.apart = s.apart := apart_ite ((recall_apart s1 _ _ _).trans h1) h1
  have h3 : s3.apart = s.apart := fill_apart s _ _ _ _ _ _
  split
  · rfl
  split
  · exact h2
  split
  · exact h3
  · exact h3

theorem seeCopy_apart (core sec : Nat) : (s.seeCopy core sec).apart = s.apart := by
  unfold State.seeCopy
  split
  · split <;> rfl
  · rfl

@[simp] theorem writeCopy_apart (core sec off n val : Nat) (d : Bool) (m : TokMark) : (s.writeCopy core sec off n val d m).apart = s.apart :=
  apart_ite (seeCopy_apart _ _ _) rfl

theorem retok_apart (core sec : Nat) : (s.retok core sec).apart = s.apart := rfl

@[simp] theorem writeAt_apart (core : Nat) (t : BitVec 8) (va : W64) (l : Leaf) (h : Hint) (n val : Nat) (m : TokMark) :
    (s.writeAt core t va l h n val m).apart = s.apart := by
  unfold State.writeAt
  extract_lets key sec hh d s2
  have hd : d.apart = s.dom.apart := by
    show (match s.dom.copyOf core sec with | some x => s.dom.useL1 x hh | none => s.dom : Dom).apart = _
    split <;> rfl
  have h2 : s2.apart = s.apart := apart_ite (recall_apart _ _ _ _) rfl
  split
  · exact putRaw_apart s _ _ _ _
  split
  · rw [retok_apart, homePut_apart, writeCopy_apart]; exact congrArg (Prod.mk s.wave) hd
  split
  · rw [homePut_apart, flushL1_apart, h2]
  · rw [writeCopy_apart, fill_apart, h2]

@[simp] theorem rmwAt_apart (core : Nat) (tn : BitVec 8) (va : W64) (l : Leaf) (h : Hint) (n : Nat) (ret : Bool) (f : Nat → Option Nat)
    (m : TokMark) : (s.rmwAt core tn va l h n ret f m).1.apart = s.apart := by
  unfold State.rmwAt
  extract_lets key sec s1 hh s2 old s3 s4 old'
  have h1 : s1.apart = s.apart := apart_ite (recall_apart s _ _ _) rfl
  have h2 : s2.apart = s.apart := (fill_apart s1 _ _ _ _ _ _).trans h1
  have h3 : s3.apart = s.apart := apart_ite (recall_apart s _ _ _) rfl
  have h4 : s4.apart = s.apart := apart_ite ((flushL1_apart s3 _ _).trans h3) h3
  split
  · cases f old with
    | none => exact h2
    | some x => exact (writeCopy_apart _ _ _ _ _ _ _ _).trans (apart_ite h2 h2)
  · cases f old' with
    | none => exact (setDirty_state_apart s4 key).trans h4
    | some x => exact (putUnder_apart s4 _ _ _ _ _ _).trans h4

@[simp] theorem acquire_apart (core : Nat) (sc : Scope) : (s.acquire core sc).apart = s.apart :=
  apart_ite (pfGone_apart _ _) rfl

@[simp] theorem homeRead_apart (va : W64) (l : Leaf) (n : Nat) : (s.homeRead va l n).1.apart = s.apart :=
  apart_ite (recall_apart s _ _ _) rfl

@[simp] theorem homeWrite_apart (tn : BitVec 8) (va : W64) (l : Leaf) (n val : Nat) (m : TokMark) : (s.homeWrite tn va l n val m).apart = s.apart :=
  (putUnder_apart _ _ _ _ _ _ _).trans (apart_ite (recall_apart s _ _ _) rfl)

end

/-! An access keeps the wave in focus, whatever domain it goes to -/

section
variable (s : State)

theorem setDom_wave (d : Dom) : (s.setDom d).wave = s.wave := congrArg Prod.fst (setDom_apart s d)

theorem updCore_wave (ix : Nat) (f : Core → Core) : (s.updCore ix f).wave = s.wave := wave_of_apart (updCore_apart s ix f)

theorem markD_wave (tn : BitVec 8) (va : W64) : (s.markD tn va).wave = s.wave := by
  unfold State.markD; split
  · exact setDom_wave s _
  · rfl

theorem withDom_wave {α : Type} (n : Nat) (a : α) {f : State → State × α} (hf : ∀ t, (f t).1.wave = t.wave) :
    (s.withDom n a f).1.wave = s.wave := by
  unfold State.withDom
  split
  · exact hf s
  split
  · rfl
  · next d rest _ =>
    have h := hf { s with kind := .idle, dom := d, doms := insertBy Dom.ix s.dom rest }
    generalize f { s with kind := .idle, dom := d, doms := insertBy Dom.ix s.dom rest } = r at h
    obtain ⟨t, b⟩ := r
    simp only
    split <;> exact h

theorem atTarget_wave {α : Type} (t : Target) (a : α) {f : State → State × α} (hf : ∀ t, (f t).1.wave = t.wave) :
    (s.atTarget t a f).1.wave = s.wave := by
  unfold State.atTarget; split
  · exact withDom_wave s _ _ hf
  · exact hf s

theorem firstWrite_wave (who : Who) (t : Target) : (s.firstWrite who t).1.wave = s.wave := by
  have own : ∀ o : Option W64, (o.elim s fun a => (s.setD (who.core / 8) who.tenant a).1).wave = s.wave := by
    intro o; cases o with
    | none => rfl
    | some a => exact setDom_wave s _
  cases t with
  | loc va l =>
    unfold State.firstWrite; simp only
    split
    · rfl
    · exact setDom_wave s _
  | peer dom tn va l o =>
    unfold State.firstWrite; simp only
    split
    · exact own o
    · exact (withDom_wave _ _ _ fun t => markD_wave t _ _).trans (own o)
  | fabric p key o => exact own o

theorem doRead_wave (who : Who) (t : Target) (h : Hint) (n : Nat) : (s.doRead who t h n).1.wave = s.wave := by
  cases t with
  | loc va l => exact wave_of_apart (by rw [State.doRead, readAt_apart, demand_apart])
  | peer dom tn va l o => exact withDom_wave s _ _ fun t => wave_of_apart (by rw [homeRead_apart, homeUse_apart])
  | fabric p key o => rfl

theorem doWrite_wave (who : Who) (t : Target) (h : Hint) (n val : Nat) (m : TokMark) : (s.doWrite who t h n val m).wave = s.wave := by
  have h1 := firstWrite_wave s who t
  unfold State.doWrite
  generalize s.firstWrite who t = r at h1
  obtain ⟨s', t'⟩ := r
  rw [← h1]
  cases t' with
  | loc va l => exact wave_of_apart (by simp only [writeAt_apart, demand_apart])
  | peer dom tn va l o => exact withDom_wave s' _ _ fun t => wave_of_apart (by rw [homeWrite_apart, homeUse_apart])
  | fabric p key o => rfl

theorem doRmw_wave (who : Who) (t : Target) (h : Hint) (n : Nat) (ret : Bool) (f : Nat → Option Nat) (m : TokMark) :
    (s.doRmw who t h n ret f m).1.wave = s.wave := by
  have h1 := firstWrite_wave s who t
  unfold State.doRmw
  generalize s.firstWrite who t = r at h1
  obtain ⟨s', t'⟩ := r
  rw [← h1]
  cases t' with
  | loc va l => exact wave_of_apart (by simp only [rmwAt_apart, demand_apart])
  | peer dom tn va l o =>
    refine withDom_wave s' _ _ fun t => ?_
    have h2 : ((t.homeUse tn va l h).homeRead va l n).1.apart = t.apart := by rw [homeRead_apart, homeUse_apart]
    generalize (t.homeUse tn va l h).homeRead va l n = r at h2
    obtain ⟨t', old⟩ := r
    simp only
    split
    · exact wave_of_apart ((setDirty_state_apart t' _).trans h2)
    · exact wave_of_apart ((homeWrite_apart t' _ _ _ _ _ _).trans h2)
  | fabric p key o =>
    simp only
    split <;> rfl

/-! The checks -/

theorem leafFor_wave (who : Who) (va : W64) (w : Want) : (s.leafFor who va w).1.wave = s.wave := setDom_wave s _

theorem exportCheck_wave (gen : BitVec 12) (slot page off tag : Nat) (user : Bool) (w : Want) :
    (s.exportCheck gen slot page off tag user w).1.wave = s.wave := by
  simp only [State.exportCheck]
  split
  · rfl
  · exact setDom_wave s _
  · rfl

theorem peerCheck_wave (user : Bool) (va : W64) (l : Leaf) (w : Want) : (s.peerCheck user va l w).1.wave = s.wave := by
  simp only [State.peerCheck]
  split
  · rfl
  split
  · split
    · repeat' split
      all_goals rfl
    · split <;> rfl
  · refine withDom_wave s _ _ fun t => ?_
    split
    · rfl
    · have h := fun g sl p o tg => exportCheck_wave t g sl p o tg user w
      split
      · next hq => rw [← h, hq]
      · next hq => rw [← h, hq]

theorem check_wave (who : Who) (va : W64) (w : Want) : (s.check who va w).1.wave = s.wave := by
  unfold State.check
  split
  · rfl
  split
  · rfl
  have h := leafFor_wave s who va w
  generalize s.leafFor who va w = r at h
  obtain ⟨s', l⟩ := r
  rw [← h]
  cases l with
  | error f => rfl
  | ok l =>
    simp only
    split
    · exact peerCheck_wave s' _ _ _ _
    · split <;> rfl

/-! A request -/

theorem reqAct_wave (q : Req) (r : LaneReq) (t : Target) : (s.reqAct q r t).1.wave = s.wave := by
  unfold State.reqAct
  extract_lets n
  split
  · exact doRead_wave s _ _ _ _
  · exact doWrite_wave s _ _ _ _ _ _
  · rfl
  · exact doRmw_wave s _ _ _ _ _ _ _

end

end Sys2Proof.Machine
end

section
namespace Sys2Proof.Machine

/-! A request keeps the wave in focus -/

section
variable (s : State)

theorem appliedFree_wave (t : Target) (tag : BitVec 112) : (s.appliedFree t tag).wave = s.wave :=
  atTarget_wave s t () fun _ => rfl

theorem appliedAdd_wave (t : Target) (tag : BitVec 112) (v : BitVec 128) : (s.appliedAdd t tag v).wave = s.wave :=
  atTarget_wave s t () fun _ => rfl

theorem reqGlobal_wave (q : Req) (r : LaneReq) (inj fresh : Bool) : (s.reqGlobal q r inj fresh).1.wave = s.wave := by
  have h : (if r.cut then (s, .error ⟨9, .remoteError, 0, true⟩) else s.check (s.reqWho q) r.va q.want : State × Except Fail Target).1.wave = s.wave := by
    split
    · rfl
    · exact check_wave s _ _ _
  unfold State.reqGlobal
  generalize (if r.cut then _ else _ : State × Except Fail Target) = c at h
  obtain ⟨s', res⟩ := c
  rw [← h]
  have hact := fun t => reqAct_wave s' q r t
  cases res with
  | error f =>
    simp only
    repeat' split
    all_goals rfl
  | ok t =>
    simp only
    split
    · rfl
    split
    · rfl
    split
    · split
      · exact appliedFree_wave s' _ _
      split
      · rfl
      split
      · exact (appliedAdd_wave _ _ _ _).trans (hact t)
      · exact hact t
    split
    · rfl
    · exact hact t

theorem reqAb_wave (q : Req) (r : LaneReq) (inj fresh : Bool) : (s.reqAb q r inj fresh).1.wave = s.wave := by
  unfold State.reqAb
  extract_lets n tag
  split
  · rfl
  · next core byte win _ =>
    extract_lets sec old new act table
    have hact : (act s).wave = s.wave := by
      cases hn : new with
      | some x => simp only [act, hn]; exact updCore_wave s _ _
      | none => simp only [act, hn]
    clear_value act
    split
    · rfl
    split
    · rfl
    split
    · split
      · exact updCore_wave s _ _
      split
      · rfl
      split
      · rfl
      split
      · exact (updCore_wave _ _ _).trans hact
      · exact hact
    split
    · rfl
    split
    · rfl
    · exact hact

theorem laneSeq_wave {f : State → LaneReq → State × LaneRes} (hf : ∀ s r, (f s r).1.wave = s.wave) (rs : List LaneReq) :
    (laneSeq f s rs).1.wave = s.wave := by
  induction rs generalizing s with
  | nil => rfl
  | cons r rs ih => exact (ih (f s r).1).trans (hf s r)

theorem reqLanes_wave (q : Req) (inj fresh : Bool) (rs : List LaneReq) : (s.reqLanes q inj fresh rs).1.wave = s.wave := by
  refine laneSeq_wave s (fun t r => ?_) rs
  unfold State.reqLane
  split
  · exact reqAb_wave t _ _ _ _
  · exact reqGlobal_wave t _ _ _ _

end
end Sys2Proof.Machine
end

section
/-! A Locket entry that is reissued and performs whole (R221). -/

namespace Sys2Proof.Machine

/-! Which path an entry is reissued in -/

theorem freeEntries_subset (before es : List Entry) : freeEntries before es ⊆ es := by
  induction es generalizing before with
  | nil => exact List.Subset.refl _
  | cons e es ih =>
    have h := List.subset_cons_of_subset e (ih (e :: before))
    simp only [freeEntries]
    split
    · exact List.cons_subset.mpr ⟨List.mem_cons_self, h⟩
    · exact h

theorem nextEntry_mem {s : State} {e : Entry} (h : s.nextEntry = some e) : e ∈ s.wave.locket := by
  refine freeEntries_subset [] _ ?_
  simp only [State.nextEntry] at h
  cases hf : (freeEntries [] s.wave.locket).find? fun e => s.entryRoom e && (!e.inj || s.boundPassed e) with
  | some x =>
    rw [hf] at h
    obtain rfl := Option.some.inj h
    exact List.mem_of_find?_eq_some hf
  | none =>
    rw [hf] at h
    exact List.mem_of_find?_eq_some h

/-- Where the path in focus is the only one of its wave and the entry binds it, the entry is reissued in it. -/
theorem atEntry_alone {s : State} {e : Entry} (hp : s.wave.paths = []) (he : e.paths.contains s.path.pid = true) (f : State → State) :
    s.atEntry e f = f s := by
  have found : ∀ r : Option Path, r = some s.path ∨ r = none →
      (match r with | some p => s.withPid p.pid f | none => f s) = f s := by
    rintro r (rfl | rfl)
    · exact if_pos rfl
    · rfl
  refine found _ ?_
  by_cases hm : s.path.mask = 0
  · right; simp [State.wavePaths, Wave.withPath, hm, hp]
  · left
    simp only [State.wavePaths, Wave.withPath, if_neg hm, hp, insertBy, List.find?_cons, he]
    split <;> rfl

/-! An entry whose lanes have all performed -/

section
variable {xs : List (LaneReq × LaneRes)} (h : ∀ y ∈ xs, ∃ n, y.2 = .done n)
include h

/-- What looks for other results than answers finds nothing. -/
theorem filterMap_done {β : Type} {f : LaneReq × LaneRes → Option β} (hf : ∀ r n, f (r, .done n) = none) : xs.filterMap f = [] :=
  List.filterMap_eq_nil_iff.mpr fun y hy => by
    obtain ⟨n, hn⟩ := h y hy
    rw [← hf y.1 n, ← hn]

theorem bouncedOf_done : bouncedOf xs = [] := filterMap_done h fun _ _ => rfl

theorem postedOf_done (q : Req) : postedOf q xs = [] := by
  unfold postedOf
  induction xs with
  | nil => rfl
  | cons x xs ih =>
    obtain ⟨n, hn⟩ := h x List.mem_cons_self
    rw [List.foldl_cons, hn]
    exact ih fun y hy => h y (List.mem_cons_of_mem _ hy)

end

theorem addPosted_nil (s : State) (ps : List Nat) : s.addPosted ps [] = s := by
  have up : ∀ p : Path, (if ps.contains p.pid then { p with posted := p.posted ++ postedFor p.mask [] } else p) = p := fun p => by
    split
    · rw [show postedFor p.mask [] = [] from rfl, List.append_nil]
    · rfl
  simp only [State.addPosted, up, List.map_id', show ∀ m, postedBut m [] = [] from fun _ => rfl, List.append_nil]

/-- The registers of an entry whose lanes have performed take the answers. -/
def State.answered (s : State) (q : Req) (xs : List (LaneReq × LaneRes)) : State :=
  if q.kind.returns then (s.putLoads q.sz q.d (doneOf xs)).fbTouch (maskOf ((doneOf xs).map (·.1))) (Opnd.regs q.d (szV q.sz) (szS q.sz)) else s

theorem reissueReq_done {s s1 : State} {e : Entry} {xs : List (LaneReq × LaneRes)}
    (hr : (if e.req.ord.isAcq then s.acquire s.core.ix e.req.orderScope else s).reqLanes e.req false false e.req.lanes = (s1, xs))
    (hd : ∀ y ∈ xs, ∃ n, y.2 = .done n) : s.reissueReq e = (s1.answered e.req xs).dropEntry e.tag := by
  simp only [State.reissueReq, hr, postedOf_done hd, bouncedOf_done hd, filterMap_done hd, implies_true, State.named, List.map_nil, addPosted_nil,
    List.append_nil, List.foldl_nil, if_true]
  rfl

/-! What stays as it is -/

theorem touch_shape (p : Path) (m : W64) (ws : List Reg) : p.touch m ws = { p with fb := (p.touch m ws).fb } := by
  unfold Path.touch; split <;> rfl

theorem sPuts_shape (s : State) (n : Nat) (xs : List W64) :
    s.sPuts n xs = { s with wave := { s.wave with s := (s.sPuts n xs).wave.s, paths := (s.sPuts n xs).wave.paths } } := by
  induction xs generalizing s n with
  | nil => rfl
  | cons x xs ih =>
    obtain ⟨r, ps, h, -⟩ := sPut_shape s n x
    rw [State.sPuts, ih, h]

theorem putLoad_shape (w : Wave) (sz : Size) (l : Nat) (d : Opnd) (x : Nat) :
    w.putLoad sz l d x = { w with v := (w.putLoad sz l d x).v, q := (w.putLoad sz l d x).q } := by
  unfold Wave.putLoad
  split
  · rfl
  · exact putLane_shape _ _ _ _ _
  · exact putLane_shape _ _ _ _ _

theorem putLoad_fold_shape (sz : Size) (d : Opnd) (vs : List (Nat × Nat)) (w : Wave) :
    ∃ v q, vs.foldl (fun w x => w.putLoad sz x.1 d x.2) w = { w with v := v, q := q } := by
  induction vs generalizing w with
  | nil => exact ⟨w.v, w.q, rfl⟩
  | cons x vs ih =>
    obtain ⟨v, q, h⟩ := ih (w.putLoad sz x.1 d x.2)
    exact ⟨v, q, by rw [List.foldl_cons, h, putLoad_shape]⟩

/-- All that loaded values change. -/
theorem putLoads_shape (s : State) (sz : Size) (d : Opnd) (vs : List (Nat × Nat)) :
    ∃ v r q ps, s.putLoads sz d vs = { s with wave := { s.wave with v := v, s := r, q := q, paths := ps } } := by
  unfold State.putLoads
  split
  · split
    · exact ⟨_, _, _, _, sPuts_shape s _ _⟩
    · obtain ⟨r, ps, h, -⟩ := sPut_shape s _ _
      exact ⟨_, _, _, _, h⟩
  · exact ⟨_, _, _, _, rfl⟩
  · obtain ⟨v, q, h⟩ := putLoad_fold_shape sz d vs s.wave
    exact ⟨v, _, q, _, by rw [h]⟩

/-- What answers leave alone, and the v registers as the loads have left them. -/
theorem answered_keeps (s : State) (q : Req) (xs : List (LaneReq × LaneRes)) :
    (s.answered q xs).wave.locket = s.wave.locket ∧ (s.answered q xs).block = s.block ∧ (s.answered q xs).dom = s.dom ∧
      (s.answered q xs).path = { s.path with fb := (s.answered q xs).path.fb } ∧
      (s.answered q xs).wave.v = (if q.kind.returns then s.putLoads q.sz q.d (doneOf xs) else s).wave.v := by
  obtain ⟨v, r, qs, ps, h⟩ := putLoads_shape s q.sz q.d (doneOf xs)
  unfold State.answered
  split
  · rw [h]; exact ⟨rfl, rfl, rfl, touch_shape _ _ _, rfl⟩
  · exact ⟨rfl, rfl, rfl, rfl, rfl⟩

/-! An entry leaves a Locket that stands on its core -/

section
variable {s : State} (hl : ∀ x ∈ s.wave.locket, x.slot = none ∧ x.sample = none)
include hl

theorem sampleEnd_none (tag : Nat) : s.sampleEnd tag = s := by
  have h : ((s.wave.locket.find? fun e => e.tag == tag).bind fun e => e.sample.map fun ps => (ps, e.bounces)) = none := by
    cases hf : s.wave.locket.find? fun e => e.tag == tag with
    | none => rfl
    | some e => simp [(hl e (List.mem_of_find?_eq_some hf)).2]
  simp only [State.sampleEnd, h]

theorem lowestSpilled_none (he : ∀ x ∈ s.block.copy.elems, x.place.bind (·.slot) = none) : s.lowestSpilled s.wave = none := by
  have h1 : (s.wave.locket.filterMap fun e => e.slot.map fun k => (e.tag, k)) = [] :=
    List.filterMap_eq_nil_iff.mpr fun e h => by rw [(hl e h).1]; rfl
  have h2 : ((s.parkedPlaces s.wave.wid).filterMap fun l => l.slot.map fun k => (l.tag, k)) = [] := by
    refine List.filterMap_eq_nil_iff.mpr fun l h => ?_
    obtain ⟨x, hx, hp⟩ := List.mem_filterMap.mp h
    have := he x (List.mem_filter.mp hx).1
    rw [hp] at this
    simp only [Option.bind_some] at this
    rw [this]; rfl
  simp only [State.lowestSpilled, h1, h2, List.append_nil, List.foldl_nil]

end

theorem fillBack_none {s : State} (h : s.lowestSpilled s.wave = none) : s.fillBack = s := by
  unfold State.fillBack; split
  · rfl
  · rw [h]

theorem dropEntry_onCore {s : State} (hl : ∀ x ∈ s.wave.locket, x.slot = none ∧ x.sample = none)
    (he : ∀ x ∈ s.block.copy.elems, x.place.bind (·.slot) = none) (tag : Nat) :
    s.dropEntry tag = { s with wave := { s.wave with locket := s.wave.locket.filter fun e => e.tag != tag } } := by
  simp only [State.dropEntry, sampleEnd_none hl]
  exact fillBack_none (lowestSpilled_none (fun x hx => hl x (List.mem_filter.mp hx).1) he)

/-- R221: the entry's lanes all perform: its registers take the answers and it leaves the Locket. -/
theorem locketReissue_performs {s t v s1 : State} {b : BRef} {wave : Nat} {e : Entry} {xs : List (LaneReq × LaneRes)}
    (hb : s.focusBlock b = some t) (hres : t.block.res = .resident) (hw : t.openWave wave = some v) (hn : v.nextEntry = some e)
    (hagain : e.req.kind.isAgain = false) (hl : ∀ x ∈ v.wave.locket, x.slot = none ∧ x.sample = none)
    (hel : ∀ x ∈ s1.block.copy.elems, x.place.bind (·.slot) = none) (hp : v.wave.paths = []) (hpid : e.paths.contains v.path.pid = true)
    (hr : (if e.req.ord.isAcq then v.acquire v.core.ix e.req.orderScope else v).reqLanes e.req false false e.req.lanes = (s1, xs))
    (hd : ∀ y ∈ xs, ∃ n, y.2 = .done n) :
    ∃ u, exec (.locketReissue b wave) s = .next u ∧ (∀ x ∈ u.wave.locket, x.tag ≠ e.tag) ∧
      u.wave.v = (if e.req.kind.returns then s1.putLoads e.req.sz e.req.d (doneOf xs) else s1).wave.v ∧
      u.path = { s1.path with fb := u.path.fb } ∧ u.dom = s1.dom := by
  have hslot : e.slot = none := (hl e (nextEntry_mem hn)).1
  have hrun : exec (.locketReissue b wave) s = .next ((s1.answered e.req xs).dropEntry e.tag) := by
    simp [exec, execLocketReissue, State.atBlock, hb, hres, hw, hn, atEntry_alone hp hpid, State.reissueStored, hslot, State.reissue,
      hagain, reissueReq_done hr hd]
  have hwave : s1.wave = v.wave := by
    have h := reqLanes_wave (if e.req.ord.isAcq then v.acquire v.core.ix e.req.orderScope else v) e.req false false e.req.lanes
    rw [hr] at h
    rw [h]; split
    · exact wave_of_apart (acquire_apart v _ _)
    · rfl
  obtain ⟨klocket, kblock, kdom, kpath, kv⟩ := answered_keeps s1 e.req xs
  refine ⟨_, hrun, ?_⟩
  rw [dropEntry_onCore (by rw [klocket, hwave]; exact hl) (by rw [kblock]; exact hel)]
  exact ⟨fun x hx => by simpa using (List.mem_filter.mp hx).2, kv, kpath, kdom⟩

end Sys2Proof.Machine
end

section
/-! What stands in a domain's memory after a write at a home slice, and the events that make one. -/

namespace Sys2Proof.Machine

/-! Writes at a home slice -/

theorem rdN_lt (m : SMap 8) (k n : Nat) : rdN m k n < 256 ^ n := by
  induction n generalizing k with
  | zero => exact Nat.one_pos
  | succ n ih =>
    have hb := (mget m k).isLt
    have hr := ih (k + 1)
    simp only [rdN, pow_succ]
    omega

/-- R382: the count of unused prefetches changes nothing but the cores. -/
theorem pfGone_dom (s : State) (xs : List L1Sector) : ∃ cs, (s.pfGone xs).dom = { s.dom with cores := cs } := by
  have h : ({ (s.pfGone xs).dom with cores := [] } : Dom) = { s.dom with cores := [] } := by
    refine foldl_keeps (fun t : State => ({ t.dom with cores := [] } : Dom)) _ (fun t x => ?_) _ s
    unfold State.updCore; split <;> rfl
  exact ⟨_, congrArg (fun d : Dom => { d with cores := (s.pfGone xs).dom.cores }) h⟩

theorem setDom_dom (s : State) (d : Dom) : ∃ cs, (s.setDom d).dom = { d with cores := cs } := by
  simp only [State.setDom]; split
  · exact ⟨d.cores, rfl⟩
  · exact pfGone_dom _ _

theorem setDom_mem (s : State) (d : Dom) : (s.setDom d).dom.mem = d.mem := by
  obtain ⟨cs, h⟩ := setDom_dom s d; rw [h]

/-- R291, log 4: without a base no buffer takes a bit. -/
theorem setDirty_unset {d : Dom} (h0 : d.dirtyBase0 = 0) (h1 : d.dirtyBase1 = 0) (key : Nat) : d.setDirty key = d := by
  have hb : (if d.dirtySel then d.dirtyBase1 else d.dirtyBase0).toNat = 0 := by
    rw [h0, h1, ite_self]; rfl
  simp only [Dom.setDirty, hb, true_or, if_true]

theorem putRaw_mem (s : State) {key : Nat} (h : tierOf key ≠ 3) (n val : Nat) (m : TokMark) :
    ∃ mem, (s.putRaw key n val m).dom.mem = wrN mem key n val := by
  simp only [State.putRaw, if_neg h]
  exact ⟨_, rfl⟩

theorem homePut_mem (s : State) {key : Nat} (h : tierOf key ≠ 3) (tn : Option (BitVec 8)) (n val : Nat) (m : TokMark) :
    ∃ mem, (s.homePut tn key n val m).dom.mem = wrN mem key n val := putRaw_mem _ h _ _ _

theorem homePut_read (s : State) {key : Nat} (h : tierOf key ≠ 3) (tn : Option (BitVec 8)) (n val : Nat) (m : TokMark) :
    rdN (s.homePut tn key n val m).dom.mem key n = val % 256 ^ n := by
  obtain ⟨mem, hm⟩ := homePut_mem s h tn n val m
  rw [hm, rdN_wrN]

theorem homeWrite_read (s : State) (tn : BitVec 8) (va : W64) (l : Leaf) (h : tierOf (l.key va) ≠ 3) (n val : Nat) (m : TokMark) :
    rdN (s.homeWrite tn va l n val m).dom.mem (l.key va) n = val % 256 ^ n := by
  unfold State.homeWrite State.putUnder
  extract_lets s1
  split
  · obtain ⟨mem, hm⟩ := putRaw_mem s1 h n val m
    rw [hm, rdN_wrN]
  · exact homePut_read s1 h _ _ _ _

theorem home_read (s : State) {key : Nat} (h : tierOf key ≠ 3) (n : Nat) : s.home key n = rdN s.dom.mem key n := if_neg h

/-! Atomics at a home slice (R224) -/

/-- What an atomic leaves where `old` stood. -/
def atomResult (r : AtomReq) (old : Nat) : Nat :=
  match r.cmp with
  | none => atomNew r.op (8 * r.bytes) old (r.val.toNat % 2 ^ (8 * r.bytes))
  | some c => if old = c.toNat % 2 ^ (8 * r.bytes) then r.val.toNat % 2 ^ (8 * r.bytes) else old

/-- The state after an atomic has performed, but for its record. -/
def State.atomicDone (s : State) (r : AtomReq) (old : Nat) : State :=
  match (match r.cmp with
    | some c => if old = c.toNat % 2 ^ (8 * r.bytes) then some (r.val.toNat % 2 ^ (8 * r.bytes)) else none
    | none => some (atomNew r.op (8 * r.bytes) old (r.val.toNat % 2 ^ (8 * r.bytes)))) with
  | some x => s.homePut none r.key r.bytes x .plain
  | none => s.setDom (s.dom.setDirty r.key)

theorem atomicDone_read {s : State} {r : AtomReq} (ht : tierOf r.key ≠ 3) (hd : r.cmp ≠ none → s.dom.dirtyBase0 = 0 ∧ s.dom.dirtyBase1 = 0) :
    rdN (s.atomicDone r (s.home r.key r.bytes)).dom.mem r.key r.bytes = atomResult r (s.home r.key r.bytes) % 256 ^ r.bytes := by
  unfold State.atomicDone atomResult
  cases hc : r.cmp with
  | none => exact homePut_read s ht none _ _ _
  | some c =>
    by_cases ho : s.home r.key r.bytes = c.toNat % 2 ^ (8 * r.bytes)
    · simp only [if_pos ho]
      exact homePut_read s ht none _ _ _
    · obtain ⟨h0, h1⟩ := hd (by rw [hc]; exact Option.some_ne_none c)
      simp only [if_neg ho]
      rw [setDom_mem, setDirty_unset h0 h1, home_read s ht]
      exact (Nat.mod_eq_of_lt (rdN_lt _ _ _)).symm

theorem atomicApply_performs {s : State} (hk : s.kind = .idle) {unit : Nat} {tag : BitVec 112} {r : AtomReq} (hu : unit < 48)
    (ha : ∀ a ∈ s.dom.applied, ¬ (a.unit = unit ∧ a.tag = tag)) (hroom : (s.dom.applied.filter fun a => a.unit == unit).length < 512)
    (hsl : sliceOf r.key = unit) (ht : tierOf r.key ≠ 3) (hlock : s.dom.lockedAt (r.key / 64) true = false)
    (hf : s.tier2Failed r.key = false) (hd : r.cmp ≠ none → s.dom.dirtyBase0 = 0 ∧ s.dom.dirtyBase1 = 0) :
    ∃ u, exec (.atomicApply s.dom.ix unit tag r) s = .next u ∧
      (let old := (s.recall 96 (r.key / 64) false).home r.key r.bytes
       rdN u.dom.mem r.key r.bytes = atomResult r old % 256 ^ r.bytes ∧ { unit := unit, tag := tag, val := BitVec.ofNat 128 old } ∈ u.dom.applied) := by
  have hany : (s.dom.applied.any fun a => a.unit == unit && a.tag == tag) = false := by
    simpa using ha
  have hap := recall_apart s 96 (r.key / 64) false
  have hbase : r.cmp ≠ none → (s.recall 96 (r.key / 64) false).dom.dirtyBase0 = 0 ∧ (s.recall 96 (r.key / 64) false).dom.dirtyBase1 = 0 :=
    fun hc => ⟨(dirtyBase0_of_apart hap).trans (hd hc).1, (dirtyBase1_of_apart hap).trans (hd hc).2⟩
  have hread := atomicDone_read ht hbase
  have hgo : ¬ (512 ≤ (s.dom.applied.filter fun a => a.unit == unit).length ∨ sliceOf r.key ≠ unit
      ∨ s.dom.lockedAt (r.key / 64) true = true ∨ s.tier2Failed r.key = true) := by
    simp [hsl, hlock, hf, hroom]
  simp only [exec, execAtomicApply, focusDom_self hk, if_pos hu, hany, if_neg hgo, Bool.false_eq_true, if_false]
  exact ⟨_, rfl, hread, List.mem_cons_self⟩

theorem atomicAck_frees {s : State} (hk : s.kind = .idle) {unit : Nat} (tag : BitVec 112) (hu : unit < 48) :
    exec (.atomicAck s.dom.ix unit tag) s =
      .next { s with dom := { s.dom with applied := s.dom.applied.filter fun a => !(a.unit == unit && a.tag == tag) } } := by
  simp only [exec, execAtomicAck, focusDom_self hk, if_pos hu]

/-! Requests from outside (R9, R401) -/

theorem remoteAccess_writes {s s1 : State} (hk : s.kind = .idle) {r : RemoteReq} {x : BitVec 128} {va : W64} {l : Leaf}
    (hup : s.dom.up = true) (hx : r.store = some x) (ht : tierOf (l.key va) ≠ 3)
    (hp : ∀ p, r.port = some p → ∃ y, s.ports[p]? = some y ∧ y.up = true ∧ y.dom = s.dom.ix)
    (hc : s.exportCheck r.gen r.slot r.page r.off r.tag.toNat r.user { n := r.bytes, write := true, atomic := r.op.isSome, tags := true, sc := none } =
      (s1, .ok (va, l))) (hlock : s1.dom.lockedAt (l.key va / 64) true = false) :
    ∃ u, exec (.remoteAccess s.dom.ix r) s = .next u ∧ rdN u.dom.mem (l.key va) r.bytes = x.toNat % 256 ^ r.bytes := by
  have hport : (r.port.any fun p => !((s.ports[p]?).any fun x => x.up && x.dom == s.dom.ix)) = false := by
    cases h : r.port with
    | none => rfl
    | some p =>
      obtain ⟨y, hy, hyup, hydom⟩ := hp p h
      simp [hy, hyup, hydom]
  simp only [exec, execRemoteAccess, focusDom_self hk, hup, hport, hx, Option.isSome_some, Bool.true_or, hc, hlock, Bool.not_true, Bool.or_false,
    Bool.false_eq_true, if_false, if_true]
  exact ⟨_, rfl, homeWrite_read _ _ _ _ ht _ _ _⟩

/-! Invalidations (R288) -/

theorem doInval_completions (s : State) (r : InvalRange) : (s.doInval r).dom.completions = s.dom.completions := by
  have h := completions_of_apart (flushL1_apart s (fun x => rangeMeets r x.tenant (x.va.toNat * 64) 0) false)
  exact h

theorem doInval_tlb (s : State) (r : InvalRange) : ∀ e ∈ (s.doInval r).dom.tlb,
    rangeMeets r e.tenant (e.vpage / 4 * 2 ^ pageBits e.leaf.level) (pageBits e.leaf.level) = false := by
  intro e he
  simpa using (List.mem_filter.mp he).2

/-- R288: the oldest invalidation purges, and completes unless a lane log holds it up. -/
theorem invalidationComplete_outcomes {s : State} (hk : s.kind = .idle) {x : Inval} {rest : List Inval} (hx : s.dom.invals = x :: rest) :
    ((s.doInval x.r).invalHeld x.r = true → exec (.invalidationComplete s.dom.ix) s = .next (s.doInval x.r)) ∧
    ((s.doInval x.r).invalHeld x.r = false → ∃ u, exec (.invalidationComplete s.dom.ix) s = .next u ∧ u.dom.invals = rest ∧
      (∀ e ∈ u.dom.tlb, rangeMeets x.r e.tenant (e.vpage / 4 * 2 ^ pageBits e.leaf.level) (pageBits e.leaf.level) = false) ∧
      u.dom.completions = s.dom.completions ++ (match x.cmd with
        | some (q, n) => [{ queue := q, seq := n, status := .ok, data := [] }]
        | none => [])) := by
  have hcomp := doInval_completions s x.r
  have htlb := doInval_tlb s x.r
  simp only [exec, execInvalidationComplete, focusDom_self hk, hx]
  refine ⟨fun h => by rw [if_pos h], fun h => ?_⟩
  rw [h, if_neg Bool.false_ne_true]
  refine ⟨_, rfl, ?_⟩
  cases x.cmd with
  | none => exact ⟨rfl, htlb, by rw [List.append_nil]; exact hcomp⟩
  | some c => exact ⟨rfl, htlb, congrArg (· ++ _) hcomp⟩

/-! The L1s and the memory controllers -/

/-- R367: the core has no dirty copy of the sector any more. -/
theorem flushL1_cleans (s : State) (core key : Nat) : ∀ x ∈ (s.flushL1 (fun y => y.is core key && y.dirty) true).dom.l1,
    x.core = core → x.key = key → x.dirty = false := by
  intro x hx hc hkey
  obtain ⟨y, -, rfl⟩ := List.mem_map.mp hx
  split at hc
  · next hp => rw [if_pos hp]; rfl
  · next hp =>
    rw [if_neg hp] at hkey ⊢
    simpa [L1Sector.is, hc, hkey] using hp

theorem l1WriteBack_cleans {s : State} (hk : s.kind = .idle) (core key : Nat) :
    ∃ u, exec (.l1WriteBack s.dom.ix core { key := key, ecc := .clean }) s = .next u ∧
      ∀ x ∈ u.dom.l1, x.core = core → x.key = key → x.dirty = false := by
  simp only [exec, execL1WriteBack, focusDom_self hk, List.foldl_nil]
  refine ⟨_, rfl, ?_⟩
  split
  · exact flushL1_cleans s core key
  · next h =>
    intro x hx hc hkey
    by_contra hd
    exact h (List.any_eq_true.mpr ⟨x, hx, by simp [L1Sector.is, hc, hkey, hd]⟩)

theorem memoryTableCycle_adopts {s : State} (hk : s.kind = .idle) :
    exec (.memoryTableCycle s.dom.ix false) s = .next { s with dom := { s.dom with ctl0 := { table := s.dom.ctl0.new.getD s.dom.ctl0.table, new := none } } } ∧
    exec (.memoryTableCycle s.dom.ix true) s = .next { s with dom := { s.dom with ctl1 := { table := s.dom.ctl1.new.getD s.dom.ctl1.table, new := none } } } := by
  simp only [exec, execMemoryTableCycle, focusDom_self hk]
  exact ⟨rfl, rfl⟩

/-! The host (R186, R397) -/

theorem tierOf_hbm {addr : Nat} (h : addr < 2 ^ 36 + 2 ^ 35) : tierOf addr = 0 := Nat.div_eq_of_lt (by omega)

theorem hostMemoryAccess_writes {s : State} (hk : s.kind = .idle) {addr : Nat} (b : Byte) (hup : s.dom.up = true) (ha : addr < 2 ^ 36 + 2 ^ 35)
    (hlock : s.dom.lockedAt (addr / 64) true = false) :
    ∃ u, exec (.hostMemoryAccess s.dom.ix addr { data := some [b], ecc := .clean }) s = .next u ∧ mget u.dom.mem addr = b := by
  have ht : tierOf addr ≠ 3 := by rw [tierOf_hbm ha]; decide
  have hrec : dequeRecord addr = none := by rw [dequeRecord, tierOf_hbm ha]; rfl
  have hgo : (s.dom.up && decide (addr + [b].length ≤ 2 ^ 36 + 2 ^ 35) && !s.dom.lockedBytes addr [b].length) = true := by
    have hle : decide (addr + 1 ≤ 2 ^ 36 + 2 ^ 35) = true := decide_eq_true ha
    simp only [hup, List.length_singleton, hle, Dom.lockedBytes, List.range_one, List.any_cons, List.any_nil, Nat.add_zero, hlock]
    rfl
  obtain ⟨mem, hm⟩ := homePut_mem (s.recall 96 (addr / 64) false) ht none 1 b.toNat .plain
  have hb : mget (wrN mem addr 1 b.toNat) addr = b := by
    have := mget_wrN_in mem addr 1 b.toNat Nat.one_pos
    simpa using this
  simp only [exec, execHostMemoryAccess, focusDom_self hk, hrec, hgo, if_true]
  refine ⟨_, rfl, ?_⟩
  rw [if_neg (by simp)]
  exact (congrArg (mget · addr) hm).trans hb

/-- The bytes of a line stand where they were written. -/
theorem mget_wrBytes_other (m : SMap 8) (addr : Nat) (bs : List Byte) {a : Nat} (h : a < addr) : mget (wrBytes m addr bs) a = mget m a := by
  induction bs generalizing m addr with
  | nil => rfl
  | cons b bs ih => rw [wrBytes, ih _ _ (by omega), mget_mset_other _ _ (by omega)]

theorem mget_wrBytes_in (m : SMap 8) (addr : Nat) (bs : List Byte) {k : Nat} {b : Byte} (h : bs[k]? = some b) :
    mget (wrBytes m addr bs) (addr + k) = b := by
  induction bs generalizing m addr k with
  | nil => simp at h
  | cons c bs ih =>
    cases k with
    | zero =>
      obtain rfl : c = b := by simpa using h
      rw [wrBytes, mget_wrBytes_other _ _ _ (by omega)]
      exact mget_mset_same _ _ _
    | succ k =>
      have := ih (mset m addr c) (addr + 1) (k := k) (by simpa using h)
      rwa [show addr + 1 + k = addr + (k + 1) by omega] at this

theorem markToken_monitors (d : Dom) (sec : Nat) (m : TokMark) : (d.markToken sec m).monitors = d.monitors := by cases m <;> rfl

theorem snoopL2_monitors (d : Dom) (sec : Nat) : (d.snoopL2 sec).monitors = d.monitors := by
  refine foldl_keeps Dom.monitors _ (fun d x => ?_) _ _
  rfl

theorem hitMonitors_hit (d : Dom) (sec : Nat) : ∀ m ∈ (d.hitMonitors sec).monitors, m.sector = sec → m.hit = true := by
  intro m hm hs
  obtain ⟨y, -, rfl⟩ := List.mem_map.mp hm
  split at hs
  · next hp => rw [if_pos hp]
  · next hp => exact absurd hs (by simpa using hp)

theorem see_keeps (m : Monitor) (f : Nat → Nat → Nat) : (m.see f).sector = m.sector ∧ (m.see f).hit = m.hit := by
  unfold Monitor.see; split <;> exact ⟨rfl, rfl⟩

theorem seeWrite_hit {d : Dom} {sec : Nat} (f : Nat → Nat → Nat) (h : ∀ m ∈ d.monitors, m.sector = sec → m.hit = true) :
    ∀ m ∈ (d.seeWrite sec f).monitors, m.sector = sec → m.hit = true := by
  intro m hm hs
  obtain ⟨y, hy, rfl⟩ := List.mem_map.mp hm
  obtain ⟨hsec, hhit⟩ := see_keeps y f
  split at hs
  · next hp => rw [if_pos hp, hhit]; exact h y hy (by rwa [hsec] at hs)
  · next hp => rw [if_neg hp]; exact h y hy hs

/-- R186, R397: monitors on the line are hit, and the host's bytes stand in it. -/
theorem hostSnoopInvalidate_writes {s : State} (hk : s.kind = .idle) (x : HostLine) :
    ∃ u, exec (.hostSnoopInvalidate s.dom.ix x) s = .next u ∧ (∀ m ∈ u.dom.monitors, m.sector = pkey 3 x.addr / 64 → m.hit = true) ∧
      ∀ k b, x.data[k]? = some b → x.addr % 64 + k < 64 → mget u.hostMem (x.addr + k) = b := by
  simp only [exec, execHostSnoopInvalidate, focusDom_self hk]
  refine ⟨_, rfl, seeWrite_hit _ ?_, fun k b hb hlt => mget_wrBytes_in _ _ _ ?_⟩
  · simp only [State.updDoms, snoopL2_monitors, markToken_monitors]
    exact hitMonitors_hit _ _
  · rw [List.getElem?_take_of_lt (by omega)]; exact hb

/-! The fault queue (R386) -/

theorem faultQueueWrite_writes {s : State} (hk : s.kind = .idle) {k : Park} (hp : s.dom.parks.find? (fun k => k.slot == none) = some k)
    (hn : s.dom.fqsize ≠ 0) (hb : s.dom.faultqBase.toNat + 32 * s.dom.fqsize ≤ 2 ^ 50)
    (hfree : ∀ x ∈ s.dom.parks, x.slot ≠ some (s.dom.fqnext % s.dom.fqsize)) (hlock : s.dom.lockedAt (s.dom.faultKey / 64) true = false) :
    ∃ u, exec (.faultQueueWrite s.dom.ix) s = .next u ∧ u.dom.fqnext = s.dom.fqnext + 1 ∧
      u.dom.interrupts = s.dom.interrupts ++ [.faultPending] ∧
      rdN u.dom.mem (s.dom.faultqBase.toNat + 32 * (s.dom.fqnext % s.dom.fqsize)) 32 = k.record % 256 ^ 32 := by
  have hslot : s.dom.fqnext % s.dom.fqsize < s.dom.fqsize := Nat.mod_lt _ (Nat.pos_of_ne_zero hn)
  have hkey : s.dom.faultKey = s.dom.faultqBase.toNat + 32 * (s.dom.fqnext % s.dom.fqsize) := by simp [Dom.faultKey, pkey]
  have ht : tierOf s.dom.faultKey ≠ 3 := by
    rw [hkey, tierOf, Nat.div_eq_of_lt (by omega)]; decide
  have hany : (s.dom.parks.any fun x => x.slot == some (s.dom.fqnext % s.dom.fqsize)) = false := by simpa using hfree
  have hgo : ¬ (s.dom.fqsize = 0 ∨ (s.dom.parks.any fun x => x.slot == some (s.dom.fqnext % s.dom.fqsize)) = true ∨
      s.dom.lockedAt (s.dom.faultKey / 64) true = true) := by simp [hn, hany, hlock]
  have hap : ((s.recall 96 (s.dom.faultKey / 64) false).homePut none s.dom.faultKey 32 k.record .plain).apart = s.apart :=
    by rw [homePut_apart, recall_apart]
  have hread := homePut_read (s.recall 96 (s.dom.faultKey / 64) false) ht none 32 k.record .plain
  simp only [exec, execFaultQueueWrite, focusDom_self hk, hp, if_neg hgo]
  refine ⟨_, rfl, congrArg (· + 1) (fqnext_of_apart hap), congrArg (· ++ [Intr.faultPending]) (interrupts_of_apart hap), ?_⟩
  rw [← hkey]; exact hread

end Sys2Proof.Machine
end

section
/-! The memory deque (R239). -/

namespace Sys2Proof.Machine

/-! Little-endian bytes -/

theorem leBytes_length (n x : Nat) : (leBytes n x).length = n := by
  induction n generalizing x with
  | zero => rfl
  | succ n ih => rw [leBytes, List.length_cons, ih]

theorem leBytes_getElem? {n k : Nat} (x : Nat) (h : k < n) : (leBytes n x)[k]? = some (BitVec.ofNat 8 (x / 256 ^ k)) := by
  induction n generalizing x k with
  | zero => omega
  | succ n ih =>
    cases k with
    | zero => simp [leBytes]
    | succ k => rw [leBytes, List.getElem?_cons_succ, ih _ (by omega), Nat.div_div_eq_div_mul, pow_succ, Nat.mul_comm]

/-- Byte `k` of the number that bytes make. -/
theorem leNat_byte (l : List Byte) (k : Nat) : BitVec.ofNat 8 (leNat l / 256 ^ k) = (l[k]?).getD 0 := by
  induction l generalizing k with
  | nil => simp [leNat]
  | cons b l ih =>
    cases k with
    | zero =>
      refine BitVec.eq_of_toNat_eq ?_
      have := b.isLt
      simp [leNat]
      omega
    | succ k =>
      have hb : (b.toNat + 256 * leNat l) / 256 = leNat l := by have := b.isLt; omega
      rw [leNat, pow_succ', ← Nat.div_div_eq_div_mul, hb, ih, List.getElem?_cons_succ]

theorem extract_byte {w : Nat} (x : BitVec w) (k : Nat) : x.extractLsb' (8 * k) 8 = BitVec.ofNat 8 (x.toNat / 256 ^ k) := by
  rw [BitVec.extractLsb', Nat.shiftRight_eq_div_pow, pow_mul]
  rfl

theorem extract_byte_ofNat (x : Nat) {k : Nat} (h : k < 64) : (BitVec.ofNat 512 x).extractLsb' (8 * k) 8 = BitVec.ofNat 8 (x / 256 ^ k) := by
  have hx : (256 : Nat) ^ k = 2 ^ (8 * k) := (pow_mul 2 8 k).symm
  rw [hx]
  ext j hj
  have hlt : 8 * k + j < 512 := by omega
  rw [BitVec.getElem_extractLsb', BitVec.getLsbD_ofNat, ← BitVec.getLsbD_eq_getElem, BitVec.getLsbD_ofNat, Nat.testBit_div_two_pow,
    decide_eq_true hlt, decide_eq_true hj, Nat.add_comm]

/-- The bytes of a record into which others have been written. -/
def spliced (old off : Nat) (bs : List Byte) : List Byte :=
  ((leBytes 64 old).take off ++ bs ++ (leBytes 64 old).drop (off + bs.length)).take 64

theorem spliced_getElem? {old : Nat} {off k : Nat} {bs : List Byte} (ho : off + bs.length ≤ 64) (hk : k < 64) :
    (spliced old off bs)[k]? =
      if off ≤ k ∧ k < off + bs.length then bs[k - off]? else some (BitVec.ofNat 8 (old / 256 ^ k)) := by
  have hlen : ((leBytes 64 old).take off).length = off := by rw [List.length_take, leBytes_length]; omega
  rw [spliced, List.getElem?_take_of_lt hk, List.append_assoc]
  by_cases h1 : k < off
  · rw [List.getElem?_append_left (by omega), List.getElem?_take_of_lt h1, leBytes_getElem? _ hk, if_neg (by omega)]
  · rw [List.getElem?_append_right (by omega), hlen]
    by_cases h2 : k < off + bs.length
    · rw [List.getElem?_append_left (by omega), if_pos (by omega)]
    · rw [List.getElem?_append_right (by omega), List.getElem?_drop, show off + bs.length + (k - off - bs.length) = k by omega,
        leBytes_getElem? _ hk, if_neg (by omega)]

/-- R239: what stands in a record after bytes have been written into it. -/
theorem putRecord_writes {d : Dom} {i off : Nat} {bs : List Byte} {old : BitVec 512} (hi : d.memDeque[i]? = some old)
    (ho : off + bs.length ≤ 64) : ∃ new : BitVec 512, d.putRecord i off bs = { d with memDeque := d.memDeque.set i new } ∧
      ∀ k, k < 64 → new.extractLsb' (8 * k) 8 = if off ≤ k ∧ k < off + bs.length then (bs[k - off]?).getD 0 else old.extractLsb' (8 * k) 8 := by
  have hlt : i < d.memDeque.length := (List.getElem?_eq_some_iff.mp hi).1
  refine ⟨BitVec.ofNat 512 (leNat (spliced old.toNat off bs)), ?_, fun k hk => ?_⟩
  · simp only [Dom.putRecord, hi, Option.getD_some, if_pos hlt, spliced]
  · rw [extract_byte_ofNat _ hk, leNat_byte, spliced_getElem? ho hk, extract_byte]
    split <;> rfl

theorem dequeRecord_at {i off : Nat} (hi : i < 2 ^ 26) (ho : off < 64) :
    dequeRecord (2 ^ 51 + 64 * i + off) = some i ∧ (2 ^ 51 + 64 * i + off) % 64 = off := by
  have ht : tierOf (2 ^ 51 + 64 * i + off) = 2 := by unfold tierOf; omega
  exact ⟨by rw [dequeRecord, if_pos ht]; congr 1; omega, by omega⟩

theorem hostMemoryAccess_record {s : State} (hk : s.kind = .idle) {i off : Nat} {bs : List Byte} {old : BitVec 512} (hi : i < 2 ^ 26)
    (ho : off < 64) (hlen : off + bs.length ≤ 64) (hold : s.dom.memDeque[i]? = some old) (hup : s.dom.up = true) (hl : s.dom.launches = [])
    (hb : s.dom.blocks = []) :
    ∃ (u : State) (new : BitVec 512), exec (.hostMemoryAccess s.dom.ix (2 ^ 51 + 64 * i + off) { data := some bs, ecc := .clean }) s = .next u ∧
      u.dom.memDeque = s.dom.memDeque.set i new ∧ u.dom.mem = s.dom.mem ∧
      ∀ k, k < 64 → new.extractLsb' (8 * k) 8 = if off ≤ k ∧ k < off + bs.length then (bs[k - off]?).getD 0 else old.extractLsb' (8 * k) 8 := by
  obtain ⟨hrec, hoff⟩ := dequeRecord_at hi ho
  obtain ⟨new, hput, hbytes⟩ := putRecord_writes hold hlen
  have hgo : (s.dom.up && s.dom.quiet) = true := by simp [Dom.quiet, hup, hl, hb]
  refine ⟨{ s with dom := { s.dom with memDeque := s.dom.memDeque.set i new } }, new, ?_, rfl, rfl, hbytes⟩
  simp only [exec, execHostMemoryAccess, focusDom_self hk, hrec, hoff, hgo, if_true, State.updDom, hput]

end Sys2Proof.Machine
end

section
/-! The table walk (R284, R285). -/

namespace Sys2Proof.Machine

/-! The bits of an entry whose bit A is set -/

/-- A field that does not hold bit `j` is as it was before that bit was set. -/
theorem bitsOf_or_two_pow {m j lo n : Nat} (h : j < lo ∨ lo + n ≤ j) : bitsOf (m ||| 2 ^ j) lo n = bitsOf m lo n := by
  refine Nat.eq_of_testBit_eq fun i => ?_
  simp only [bitsOf, Nat.testBit_mod_two_pow, Nat.testBit_shiftRight, Nat.testBit_or, Nat.testBit_two_pow]
  by_cases hi : i < n
  · have hne : ¬ j = lo + i := by omega
    simp [hne]
  · simp [hi]

theorem bitOf_or_two_pow {m j lo : Nat} (h : j ≠ lo) : bitOf (m ||| 2 ^ j) lo = bitOf m lo := by
  rw [bitOf, bitsOf_or_two_pow (by omega), bitOf]

theorem bitOf_eq_testBit (m i : Nat) : bitOf m i = m.testBit i := by
  rw [bitOf, bitsOf, Nat.shiftRight_eq_div_pow, Nat.testBit_eq_decide_div_mod_eq, pow_one]
  exact beq_eq_decide _ _

/-! Bit A is bit 7 -/

theorem bitsOf_accessed {e lo n : Nat} (h : 7 < lo ∨ lo + n ≤ 7) : bitsOf (e ||| 128) lo n = bitsOf e lo n := bitsOf_or_two_pow (j := 7) h

theorem bitOf_accessed {e lo : Nat} (h : 7 ≠ lo) : bitOf (e ||| 128) lo = bitOf e lo := bitOf_or_two_pow (j := 7) h

/-- R284: A is no field of the leaf. -/
theorem ofEntry_accessed (e level : Nat) : Leaf.ofEntry (e ||| 128) level = Leaf.ofEntry e level := by
  simp [Leaf.ofEntry, bitsOf_accessed, bitOf_accessed]

/-! One level of the walk -/

/-- R284: what the walker makes of an entry `e` that stands at `addr`; it reads the next table with `next`. -/
def entryStep (poisoned : Bool) (e addr level : Nat) (next : Nat → Walk) : Walk :=
  if poisoned then .fail ⟨3, .uncorrectable, 0, false⟩
  else if !bitOf e 0 then .fail ⟨3, .pageFault, 0, false⟩
  else if bitOf e 1 then
    if level = 0 ∨ bitsOf e 56 8 ≠ 0 then .fail ⟨5, .protection, BitVec.ofNat 64 level, false⟩
    else if (level = 2 ∧ bitsOf e 17 34 % 2 ^ 10 ≠ 0) ∨ (level = 1 ∧ bitsOf e 17 34 % 2 ^ 20 ≠ 0) then
      .fail ⟨5, .protection, BitVec.ofNat 64 level, false⟩
    else .leaf addr (Leaf.ofEntry e level)
  else if level = 3 ∨ bitsOf e 50 14 ≠ 0 ∨ bitsOf e 2 11 ≠ 0 then .fail ⟨5, .protection, BitVec.ofNat 64 level, false⟩
  else next (bitsOf e 13 37 * 8192)

theorem walkFrom_succ (d : Dom) (va : W64) (table k level : Nat) :
    walkFrom d va table (k + 1) level = entryStep (d.poison.contains ((table + 8 * bitsOf va.toNat (46 - 10 * level) 10) / 64))
      (d.entryAt (table + 8 * bitsOf va.toNat (46 - 10 * level) 10)) (table + 8 * bitsOf va.toNat (46 - 10 * level) 10) level
      fun t => walkFrom d va t k (level + 1) := rfl

/-- A walk that finds a leaf finds it in this entry, or reads the next table. -/
theorem entryStep_leaf {p : Bool} {e a level addr : Nat} {next : Nat → Walk} {l : Leaf} (h : entryStep p e a level next = .leaf addr l) :
    (bitOf e 1 = true ∧ a = addr) ∨
      (bitOf e 1 = false ∧ ∀ next', entryStep p e a level next' = next' (bitsOf e 13 37 * 8192)) := by
  unfold entryStep at h
  split at h
  · cases h
  next hp =>
  split at h
  · cases h
  next h0 =>
  split at h
  · next h1 =>
    left
    split at h
    · cases h
    split at h
    · cases h
    · exact ⟨h1, (Walk.leaf.inj h).1⟩
  · next h1 =>
    split at h
    · cases h
    · next h2 =>
      right
      exact ⟨Bool.eq_false_of_not_eq_true h1, fun next' => by rw [entryStep, if_neg hp, if_neg h0, if_neg h1, if_neg h2]⟩

/-- A leaf entry reads the same once A is set in it. -/
theorem entryStep_accessed {p : Bool} {e a level : Nat} (next next' : Nat → Walk) (h : bitOf e 1 = true) :
    entryStep p (e ||| 128) a level next = entryStep p e a level next' := by
  have h1 : bitOf (e ||| 128) 1 = true := (bitOf_accessed (by decide)).trans h
  simp [entryStep, h, h1, bitOf_accessed, bitsOf_accessed, ofEntry_accessed]

/-! The walk while A is set in its leaf entry -/

theorem walkFrom_leaf_bit {d : Dom} {va : W64} {table k level addr : Nat} {l : Leaf} (h : walkFrom d va table k level = .leaf addr l) :
    bitOf (d.entryAt addr) 1 = true := by
  induction k generalizing table level with
  | zero => cases h
  | succ k ih =>
    rw [walkFrom_succ] at h
    rcases entryStep_leaf h with ⟨h1, ha⟩ | ⟨-, hnext⟩
    · rw [← ha]; exact h1
    · rw [hnext] at h; exact ih h

/-- Where A has been set in the leaf entry, and every other entry is as it was, the walk finds the same leaf. -/
theorem walkFrom_accessed {d d' : Dom} {va : W64} {table k level addr : Nat} {l : Leaf} (hp : d'.poison = d.poison)
    (hother : ∀ a, a % 8 = 0 → a ≠ addr → d'.entryAt a = d.entryAt a) (hleaf : d'.entryAt addr = d.entryAt addr ||| 128)
    (ht : table % 8 = 0) (h : walkFrom d va table k level = .leaf addr l) : walkFrom d' va table k level = .leaf addr l := by
  have hbit := walkFrom_leaf_bit h
  induction k generalizing table level with
  | zero => cases h
  | succ k ih =>
    rw [walkFrom_succ] at h ⊢
    rw [hp]
    generalize ha : table + 8 * bitsOf va.toNat (46 - 10 * level) 10 = a at h ⊢
    rcases entryStep_leaf h with ⟨h1, rfl⟩ | ⟨h1, hnext⟩
    · rw [hleaf, entryStep_accessed _ (fun t => walkFrom d va t k (level + 1)) h1]; exact h
    · have hne : a ≠ addr := by
        rintro rfl
        rw [h1] at hbit
        cases hbit
      rw [hnext] at h
      rw [hother a (by omega) hne, hnext]
      exact ih (by omega) h

theorem walkFrom_aligned {d : Dom} {va : W64} {table k level addr : Nat} {l : Leaf} (ht : table % 8 = 0)
    (h : walkFrom d va table k level = .leaf addr l) : addr % 8 = 0 := by
  induction k generalizing table level with
  | zero => cases h
  | succ k ih =>
    rw [walkFrom_succ] at h
    rcases entryStep_leaf h with ⟨-, ha⟩ | ⟨-, hnext⟩
    · omega
    · rw [hnext] at h; exact ih (by omega) h

theorem walk_accessed {d d' : Dom} {tn : BitVec 8} {va : W64} {addr : Nat} {l : Leaf} (hr : d'.ptroot = d.ptroot) (hp : d'.poison = d.poison)
    (hother : ∀ a, a % 8 = 0 → a ≠ addr → d'.entryAt a = d.entryAt a) (hleaf : d'.entryAt addr = d.entryAt addr ||| 128)
    (h : d.walk tn va = .leaf addr l) : d'.walk tn va = .leaf addr l := by
  unfold Dom.walk at h ⊢
  rw [hr]
  cases hroot : d.ptroot.find? fun r => r.1 == tn with
  | none => rw [hroot] at h; cases h
  | some r =>
    rw [hroot] at h
    exact walkFrom_accessed hp hother hleaf (by omega) h

theorem walk_aligned {d : Dom} {tn : BitVec 8} {va : W64} {addr : Nat} {l : Leaf} (h : d.walk tn va = .leaf addr l) : addr % 8 = 0 := by
  unfold Dom.walk at h
  split at h
  · cases h
  · exact walkFrom_aligned (by omega) h

/-! An entry at its home slice -/

/-- The walker's swap performs at once in the entry at `addr`, and nothing else changes memory: no L1 holds a dirty copy, no lock holds
the sector, the serial lane has not written the entry, and no dirty-page buffer has a base (log 4). -/
structure Dom.Settable (d : Dom) (addr : Nat) : Prop where
  clean : ∀ x ∈ d.l1, x.key = addr / 64 → x.leaf.reg = 2 → x.dirty = false
  free : d.lockedAt (addr / 64) true = false
  settled : d.settledAt addr = none
  base0 : d.dirtyBase0 = 0
  base1 : d.dirtyBase1 = 0

theorem pull_l1 (d : Dom) (sec : Nat) : (d.pull sec).l1 = d.l1.filter fun x => !(x.key == sec && x.leaf.reg == 2) := by
  simp only [Dom.pull]
  split
  · refine congrArg (List.filter _) (foldl_keeps Dom.l1 _ (fun d x => ?_) _ d)
    cases x.mark <;> rfl
  · next h =>
    refine (List.filter_eq_self.mpr fun x hx => ?_).symm
    by_contra hp
    exact h (List.any_eq_true.mpr ⟨x, hx, by simpa using hp⟩)

theorem pull_poison (d : Dom) (sec : Nat) : (d.pull sec).poison = d.poison := by
  simp only [Dom.pull]
  split
  · refine foldl_keeps Dom.poison _ (fun d x => ?_) _ d
    cases x.mark <;> rfl
  · rfl

theorem pull_mem_clean {d : Dom} {sec : Nat} (h : ∀ x ∈ d.l1, x.key = sec → x.leaf.reg = 2 → x.dirty = false) : (d.pull sec).mem = d.mem := by
  have hnil : (d.l1.filter fun x => (x.key == sec && x.leaf.reg == 2) && x.dirty) = [] :=
    List.filter_eq_nil_iff.mpr fun x hx => by
      simp only [Bool.and_eq_true, beq_iff_eq, not_and, Bool.not_eq_true]
      exact fun hkr => h x hx hkr.1 hkr.2
  simp only [Dom.pull, hnil]
  split <;> rfl

/-- The walker finds no dirty copy of a sector where there is none. -/
theorem l1_find_dirty_none {l1 : List L1Sector} {sec : Nat} (h : ∀ x ∈ l1, x.key = sec → x.leaf.reg = 2 → x.dirty = false) :
    (l1.find? fun x => x.key == sec && x.leaf.reg == 2 && x.dirty) = none :=
  List.find?_eq_none.mpr fun x hx => by
    simp only [Bool.and_eq_true, beq_iff_eq, not_and, Bool.not_eq_true]
    exact fun hkr => h x hx hkr.1 hkr.2

theorem entryAt_settable {d : Dom} {addr : Nat} (h : d.Settable addr) : d.entryAt addr = rdN d.mem addr 8 := by
  simp only [Dom.entryAt, h.settled, l1_find_dirty_none h.clean]

theorem markToken_shape (d : Dom) (sec : Nat) (m : TokMark) : d.markToken sec m = { d with tokCache := (d.markToken sec m).tokCache } := by
  cases m <;> rfl

/-- R285: the entry holds A, and D at a first write, already; or it is written at its home slice. -/
theorem setAD_cases {d : Dom} {addr : Nat} (h : d.Settable addr) (w : Bool) :
    (rdN d.mem addr 8 ||| 128 ||| (if w then 256 else 0) = rdN d.mem addr 8 ∧ d.setAD addr w = d) ∨
    ∃ toks mons, d.setAD addr w = { d.pull (addr / 64) with
      tokCache := toks, monitors := mons, mem := wrN d.mem addr 8 (rdN d.mem addr 8 ||| 128 ||| (if w then 256 else 0)) } := by
  have hap := pull_apart d (addr / 64)
  have h0 : (d.pull (addr / 64)).dirtyBase0 = 0 := (congrArg Dom.dirtyBase0 hap : _).trans h.base0
  have h1 : (d.pull (addr / 64)).dirtyBase1 = 0 := (congrArg Dom.dirtyBase1 hap : _).trans h.base1
  by_cases hx : rdN d.mem addr 8 ||| 128 ||| (if w then 256 else 0) = rdN d.mem addr 8
  · left
    refine ⟨hx, ?_⟩
    simp only [Dom.setAD, entryAt_settable h, if_pos hx]
  · right
    simp only [Dom.setAD, entryAt_settable h, if_neg hx, h.free, setDirty_unset h0 h1, Bool.false_eq_true, if_false]
    rw [markToken_shape]
    simp only [Dom.hitMonitors, Dom.seeWrite, pull_mem_clean h.clean]
    exact ⟨_, _, rfl⟩

section
variable {d : Dom} {addr : Nat} (h : d.Settable addr) (w : Bool)
include h

theorem setAD_apart : (d.setAD addr w).apart = d.apart := by
  rcases setAD_cases h w with ⟨-, he⟩ | ⟨toks, mons, he⟩
  · rw [he]
  · rw [he]; exact pull_apart d (addr / 64)

theorem setAD_poison : (d.setAD addr w).poison = d.poison := by
  rcases setAD_cases h w with ⟨-, he⟩ | ⟨toks, mons, he⟩
  · rw [he]
  · rw [he]; exact pull_poison d (addr / 64)

theorem setAD_entry : rdN (d.setAD addr w).mem addr 8 = rdN d.mem addr 8 ||| 128 ||| (if w then 256 else 0) := by
  rcases setAD_cases h w with ⟨hx, he⟩ | ⟨toks, mons, he⟩
  · rw [he, hx]
  · have hlt : rdN d.mem addr 8 < 2 ^ 64 := rdN_lt d.mem addr 8
    rw [he, rdN_wrN]
    refine Nat.mod_eq_of_lt (Nat.or_lt_two_pow (n := 64) (Nat.or_lt_two_pow hlt (by decide)) ?_)
    split <;> decide

theorem setAD_frame {a : Nat} (ha : a < addr ∨ addr + 8 ≤ a) : mget (d.setAD addr w).mem a = mget d.mem a := by
  rcases setAD_cases h w with ⟨-, he⟩ | ⟨toks, mons, he⟩
  · rw [he]
  · rw [he]; exact mget_wrN_other _ _ _ _ ha

theorem setAD_l1 : (d.setAD addr w).l1 = d.l1 ∨ (d.setAD addr w).l1 = d.l1.filter fun x => !(x.key == addr / 64 && x.leaf.reg == 2) := by
  rcases setAD_cases h w with ⟨-, he⟩ | ⟨toks, mons, he⟩
  · left; rw [he]
  · right; rw [he]; exact pull_l1 d (addr / 64)

end

/-! The walk of a miss (R285) -/

section
variable {d d' : Dom} (h : d'.apart = d.apart)
include h

theorem serial_of_apart : d'.serial = d.serial := (congrArg Dom.serial h :)
theorem locks_of_apart : d'.locks = d.locks := (congrArg Dom.locks h :)
theorem ptroot_of_apart : d'.ptroot = d.ptroot := (congrArg Dom.ptroot h :)
theorem base0_of_apart : d'.dirtyBase0 = d.dirtyBase0 := (congrArg Dom.dirtyBase0 h :)
theorem base1_of_apart : d'.dirtyBase1 = d.dirtyBase1 := (congrArg Dom.dirtyBase1 h :)

end

theorem settledAt_congr {d d' : Dom} (h : d'.apart = d.apart) (a : Nat) : d'.settledAt a = d.settledAt a := by
  simp only [Dom.settledAt, serial_of_apart h]

/-- The entry can be set again. -/
theorem settable_of {d d' : Dom} {addr : Nat} (h : d.Settable addr) (hap : d'.apart = d.apart) (hl1 : d'.l1 ⊆ d.l1) : d'.Settable addr := by
  refine ⟨fun x hx => h.clean x (hl1 hx), ?_, (settledAt_congr hap addr).trans h.settled, (base0_of_apart hap).trans h.base0,
    (base1_of_apart hap).trans h.base1⟩
  rw [Dom.lockedAt, locks_of_apart hap]; exact h.free

theorem setAD_settable {d : Dom} {addr : Nat} (h : d.Settable addr) (w : Bool) : (d.setAD addr w).Settable addr := by
  refine settable_of h (setAD_apart h w) ?_
  rcases setAD_l1 h w with he | he
  · rw [he]; exact List.Subset.refl _
  · rw [he]; exact List.filter_subset_self _

/-- What the walker reads of other entries is as it was. -/
theorem setAD_other {d : Dom} {addr a : Nat} (h : d.Settable addr) (w : Bool) (h8 : addr % 8 = 0) (ha : a % 8 = 0) (hne : a ≠ addr) :
    (d.setAD addr w).entryAt a = d.entryAt a := by
  have hmem : rdN (d.setAD addr w).mem a 8 = rdN d.mem a 8 := rdN_congr a 8 fun x h1 h2 => setAD_frame h w (by omega)
  have hfind : ((d.setAD addr w).l1.find? fun x => x.key == a / 64 && x.leaf.reg == 2 && x.dirty) =
      d.l1.find? fun x => x.key == a / 64 && x.leaf.reg == 2 && x.dirty := by
    by_cases hs : a / 64 = addr / 64
    · rw [hs, l1_find_dirty_none (setAD_settable h w).clean, l1_find_dirty_none h.clean]
    · rcases setAD_l1 h w with he | he
      · rw [he]
      · rw [he, List.find?_filter]
        congr 1
        funext x
        by_cases hx : x.key = a / 64
        · have hk : (x.key == addr / 64) = false := beq_eq_false_iff_ne.mpr (hx ▸ hs)
          simp only [hk, Bool.false_and, Bool.not_false, true_and, Bool.decide_eq_true]
        · simp [hx]
  simp only [Dom.entryAt, settledAt_congr (setAD_apart h w) a, hfind, hmem]

theorem tlbFind_tlbFill (d : Dom) (cl : Nat) (tn : BitVec 8) (va : W64) (l : Leaf) : (d.tlbFill cl tn va l).tlbFind cl tn va = some l := by
  simp [Dom.tlbFind, Dom.tlbFill]

theorem tlbFill_settable {d : Dom} {addr : Nat} (h : d.Settable addr) (cl : Nat) (tn : BitVec 8) (va : W64) (l : Leaf) :
    (d.tlbFill cl tn va l).Settable addr := ⟨h.clean, h.free, h.settled, h.base0, h.base1⟩

/-- A miss that sets A alone: the walk of the entry, and the translation in the TLB. -/
theorem translate_miss {d : Dom} {cl : Nat} {tn : BitVec 8} {va : W64} {addr : Nat} {l : Leaf} (hmiss : d.tlbFind cl tn va = none)
    (hw : d.walk tn va = .leaf addr l) (hk : d.keysMatch l = true) (w : Bool) :
    d.translate none cl tn va w = ((d.setAD addr false).tlbFill cl tn va l, .ok l) := by
  simp [Dom.translate, hmiss, Dom.rewalk, hw, hk]

/-- R285: the walker sets D at a first write, after it has set A. -/
theorem setD_after {d : Dom} {cl : Nat} {tn : BitVec 8} {va : W64} {addr : Nat} {l : Leaf} (h : d.Settable addr)
    (hw : d.walk tn va = .leaf addr l) :
    let d2 := (d.setAD addr false).tlbFill cl tn va l
    (d2.setD cl tn va).1 = ((d2.setAD addr true).tlbFill cl tn va { l with dirty := true }).linesDirty cl tn va l ∧ d2.Settable addr ∧
      rdN d2.mem addr 8 = rdN d.mem addr 8 ||| 128 := by
  intro d2
  have hA : rdN d2.mem addr 8 = rdN d.mem addr 8 ||| 128 := by
    have := setAD_entry h false
    simp only [Bool.false_eq_true, if_false, Nat.or_zero] at this
    exact this
  have h2 : d2.Settable addr := tlbFill_settable (setAD_settable h false) cl tn va l
  have hap := setAD_apart h false
  have hwalk : d2.walk tn va = .leaf addr l := by
    refine walk_accessed (d := d) (ptroot_of_apart (d := d) (d' := d.setAD addr false) hap :) (setAD_poison h false) (fun a ha hne => ?_) ?_ hw
    · exact setAD_other h false (walk_aligned hw) ha hne
    · rw [entryAt_settable h2, entryAt_settable h, hA]
  have hD : bitOf ((d2.setAD addr true).entryAt addr) 8 = true := by
    rw [entryAt_settable (setAD_settable h2 true), setAD_entry h2 true, bitOf_eq_testBit]
    have h256 : (if true then 256 else 0 : Nat).testBit 8 = true := by decide
    rw [Nat.testBit_or, h256, Bool.or_true]
  refine ⟨?_, h2, hA⟩
  simp only [Dom.setD, hwalk, hD, if_true]

theorem tlbWalk_fills {s : State} (hk : s.kind = .idle) {cl : Nat} {tn : BitVec 8} {va : W64} (write : Bool) {addr : Nat} {l : Leaf}
    (hmiss : s.dom.tlbFind cl tn va = none) (hw : s.dom.walk tn va = .leaf addr l) (hkeys : s.dom.keysMatch l = true)
    (h : s.dom.Settable addr) :
    ∃ u, exec (.tlbWalk s.dom.ix cl tn va write) s = .next u ∧
      u.dom.tlbFind cl tn va = some { l with dirty := l.dirty || (write && l.w) } ∧
      rdN u.dom.mem addr 8 = rdN s.dom.mem addr 8 ||| 128 ||| (if write && l.w then 256 else 0) ∧
      ∀ a, (a < addr ∨ addr + 8 ≤ a) → mget u.dom.mem a = mget s.dom.mem a := by
  obtain ⟨hset, h2, hA⟩ := setD_after (cl := cl) h hw
  simp only [exec, execTlbWalk, focusDom_self hk, translate_miss hmiss hw hkeys]
  refine ⟨_, rfl, ?_⟩
  cases hwl : write && l.w with
  | false =>
    simp only [Bool.false_eq_true, if_false]
    obtain ⟨cs, hd⟩ := setDom_dom s ((s.dom.setAD addr false).tlbFill cl tn va l)
    rw [hd]
    refine ⟨?_, ?_, fun a ha => setAD_frame h false ha⟩
    · rw [Bool.or_false]
      exact tlbFind_tlbFill (s.dom.setAD addr false) cl tn va l
    · rw [Nat.or_zero]
      exact hA
  | true =>
    simp only [if_true]
    rw [hset]
    obtain ⟨cs, hd⟩ := setDom_dom s
      (((((s.dom.setAD addr false).tlbFill cl tn va l).setAD addr true).tlbFill cl tn va { l with dirty := true }).linesDirty cl tn va l)
    rw [hd]
    refine ⟨?_, ?_, fun a ha => ?_⟩
    · rw [Bool.or_true]
      exact tlbFind_tlbFill (((s.dom.setAD addr false).tlbFill cl tn va l).setAD addr true) cl tn va { l with dirty := true }
    · have := setAD_entry h2 true
      rw [hA, Nat.or_assoc (rdN s.dom.mem addr 8), Nat.or_self] at this
      exact this
    · exact (setAD_frame h2 true ha).trans (setAD_frame h false ha)

end Sys2Proof.Machine
end

section
/-! The memory system of a domain, settled. -/

namespace Sys2Proof.Machine

/-- Settles O50, event by event. -/
theorem memoryEvents : Obligations.MemoryEvents := by
  unfold Obligations.MemoryEvents
  intro s hk dom
  obtain ⟨hctl0, hctl1⟩ := memoryTableCycle_adopts hk
  refine ⟨?atomicApply, fun unit tag hu => atomicAck_frees hk tag hu, ?remoteAccess, ?tlbWalk, ?invalidation,
    fun core key => l1WriteBack_cleans hk core key, hctl0, hctl1, fun addr b hup ha hlock => hostMemoryAccess_writes hk b hup ha hlock,
    fun i off bs old hi ho hlen hold hup hl hb => hostMemoryAccess_record hk hi ho hlen hold hup hl hb,
    fun x => hostSnoopInvalidate_writes hk x, ?faultQueue, ?reissue⟩
  case atomicApply =>
    intro unit tag r hu ha hroom hsl ht hlock hf hd
    exact atomicApply_performs hk hu ha hroom hsl ht hlock hf hd
  case remoteAccess =>
    intro r x s1 va l hup hx ht hp hc hlock
    exact remoteAccess_writes hk hup hx ht hp hc hlock
  case tlbWalk =>
    intro cl tn va write addr l hmiss hw hkeys hclean hfree hsettled h0 h1
    exact tlbWalk_fills hk write hmiss hw hkeys ⟨hclean, hfree, hsettled, h0, h1⟩
  case invalidation =>
    intro x rest hx
    exact invalidationComplete_outcomes hk hx
  case faultQueue =>
    intro k hp hn hb slot hfree hlock
    exact faultQueueWrite_writes hk hp hn hb hfree hlock
  case reissue =>
    intro b t v wave e s1 xs hb hres hw hn hagain hl hel hp hpid hr hd
    exact locketReissue_performs hb hres hw hn hagain hl hel hp hpid hr hd

end Sys2Proof.Machine
end

section
/-! The sample of a path whose access stands in the Locket (R381). -/

namespace Sys2Proof.Machine

/-- R381: while an entry of the Locket is not one of the sampled path's, the sample waits with it: the domain, and its count of records,
are as they were. -/
theorem sampled_dom_of_entry {s old : State} {c : TraceCfg} {x : Entry} (hc : s.dom.trace = some c) (ht : old.traced c 4 = true)
    (hx : (s.wave.locket.find? fun e => !old.wave.locket.any fun y => y.tag == e.tag) = some x) : (s.sampled old).dom = s.dom := by
  simp only [State.sampled, hc, Option.map_some, Option.getD_some, ht, if_true, hx]

/-! A package of which the sampled path's wave has given out one tag -/

def sampleCfg : TraceCfg :=
  { base := 0, size := 4096, events := 16, launch := none, tenant := none, pcLo := 0, pcHi := 64, label := 0, mask := 0, interval := 256 }

/-- A path of a resident block that matches the trace configuration; its wave has given out tag 0, whose entry has left the Locket. -/
def sampledPath : State :=
  { State.reset with kind := .path, path := Path.start 0 1, wave := { Wave.idle with nextTag := 1 },
                     block := { Block.idle with res := .resident }, dom := { Dom.reset 0 with trace := some sampleCfg } }

/-- The entry of tag 0. -/
def entryZero : Entry :=
  { tag := 0, sector := 0, paths := [0], parked := none, slot := none,
    req := { kind := .load, sz := .n32, ord := .plain, sc := .die, hint := .normal, ab := false, user := true, unit := 0, token := 0, pc := 0,
             d := .absent, share := none, lanes := [] } }

/-- The same package with the entry in the Locket. -/
def sampledBeside : State := { sampledPath with wave := { sampledPath.wave with locket := [entryZero] } }

/-- Refutes O49: its clause on samples bounds the tags in the Locket of `v` by the next tag of the wave, which does not say that their
entries stand in the Locket of `t` too. Of `sampledPath`, whose Locket is empty, and `sampledBeside`, which holds an entry of tag 0, the
sample waits with that entry, and the count of records stays 0. -/
theorem not_pathEvents : ¬ Obligations.PathEvents := by
  unfold Obligations.PathEvents
  intro h
  have hfocus : sampledPath.focusPath sampledPath.pref = some sampledPath := rfl
  have hlegal : legalPc (nextPc sampledPath.path.pc) = true := by decide
  obtain ⟨-, -, -, -, -, -, -, -, -, -, -, -, -, hsample, -⟩ := h sampledPath sampledPath sampledPath.pref hfocus rfl hlegal
  have htraced : sampledPath.traced sampleCfg 4 = true := by decide
  have htags : ∀ e ∈ sampledBeside.wave.locket, e.tag < sampledPath.wave.nextTag := by
    intro e he
    obtain rfl := List.mem_singleton.mp he
    exact Nat.one_pos
  obtain ⟨hcount, -⟩ := hsample sampledBeside sampleCfg rfl rfl htraced htags
  rw [sampled_dom_of_entry (c := sampleCfg) (x := entryZero) rfl htraced rfl] at hcount
  exact absurd hcount (by decide)

end Sys2Proof.Machine
end

section
/-! What an access leaves in focus: the path, its wave, its block and its core, but for the counters of events (R313) and the UNCORRECTABLE that
a unit owes to a path (R402). -/

namespace Sys2Proof.Machine

def Path.calm (p : Path) : Path := { p with uncorr := false }

def Block.calm (b : Block) : Block := { b with waves := b.waves.map fun w => { w with paths := w.paths.map Path.calm } }

def Core.calm (c : Core) : Core := { c with perf := [] }

/-- What is in focus, and which domain is. -/
structure Seat where
  kind : Kind
  path : Path
  wave : Wave
  block : Block
  core : Core
  dom : Nat

def State.seat (s : State) : Seat :=
  { kind := s.kind, path := s.path.calm, wave := s.wave, block := s.block.calm, core := s.core.calm, dom := s.dom.ix }

/-- The same, with the numbers of the domains beside. -/
def State.seats (s : State) : Seat × List Nat := (s.seat, s.doms.map Dom.ix)

theorem seat_of_seats {s t : State} (h : t.seats = s.seats) : t.seat = s.seat := congrArg Prod.fst h

/-! Field by field -/

section
variable {s t : State} (h : t.seat = s.seat)
include h

theorem kind_of_seat : t.kind = s.kind := congrArg Seat.kind h
theorem calmPath_of_seat : t.path.calm = s.path.calm := congrArg Seat.path h
theorem wave_of_seat : t.wave = s.wave := congrArg Seat.wave h
theorem calmBlock_of_seat : t.block.calm = s.block.calm := congrArg Seat.block h
theorem calmCore_of_seat : t.core.calm = s.core.calm := congrArg Seat.core h
theorem domIx_of_seat : t.dom.ix = s.dom.ix := congrArg Seat.dom h
theorem blockId_of_seat : t.block.id = s.block.id := (congrArg Block.id (calmBlock_of_seat h) :)

end

theorem raise_calm (b : Block) : b.raise.calm = b.calm := by
  unfold Block.raise Block.calm
  cases hw : b.waves with
  | nil => rfl
  | cons w ws => cases hp : w.paths <;> simp [Path.calm, hp]

/-! The number of a domain -/

theorem ix_of_apart {d d' : Dom} (h : d'.apart = d.apart) : d'.ix = d.ix := (congrArg Dom.ix h :)

theorem ix_ite {d e : Dom} {n : Nat} {c : Prop} [Decidable c] (hd : d.ix = n) (he : e.ix = n) : (if c then d else e).ix = n := by
  split <;> assumption

theorem setAD_ix (d : Dom) (addr : Nat) (w : Bool) : (d.setAD addr w).ix = d.ix := by
  have h := ix_of_apart ((markToken_apart _ (addr / 64) .plain).trans ((setDirty_apart _ addr).trans (pull_apart d (addr / 64))))
  unfold Dom.setAD
  exact ix_ite rfl (ix_ite rfl h)

theorem rewalk_ix (d : Dom) (cl : Nat) (tn : BitVec 8) (va : W64) : (d.rewalk cl tn va).1.ix = d.ix := by
  unfold Dom.rewalk
  split
  · rfl
  split
  · exact setAD_ix d _ false
  · rfl

theorem translate_ix (d : Dom) (cached : Option Leaf) (cl : Nat) (tn : BitVec 8) (va : W64) (w : Bool) :
    (d.translate cached cl tn va w).1.ix = d.ix := by
  have h := rewalk_ix d cl tn va
  unfold Dom.translate
  split
  · split
    · generalize d.rewalk cl tn va = r at h
      obtain ⟨d', x⟩ := r
      cases x with
      | error f => exact h
      | ok l => exact ix_ite h h
    · rfl
  · exact h

theorem setD_ix (d : Dom) (cl : Nat) (tn : BitVec 8) (va : W64) : (d.setD cl tn va).1.ix = d.ix := by
  unfold Dom.setD
  split
  · rfl
  · simp only
    split <;> exact setAD_ix d _ true

/-! Operations of a domain's memory -/

theorem seats_ite {s t u : State} {c : Prop} [Decidable c] (ht : t.seats = s.seats) (hu : u.seats = s.seats) :
    (if c then t else u).seats = s.seats := by
  split <;> assumption

theorem seats_dom {s : State} {d : Dom} (h : d.ix = s.dom.ix) : ({ s with dom := d } : State).seats = s.seats := by
  simp only [State.seats, State.seat, h]

theorem snoopL2_ix (d : Dom) (sec : Nat) : (d.snoopL2 sec).ix = d.ix := by
  refine foldl_keeps Dom.ix _ (fun d x => ?_) _ _
  rfl

theorem pfGone_ix (d : Dom) (xs : List L1Sector) : (d.pfGone xs).ix = d.ix := by
  refine foldl_keeps Dom.ix _ (fun d x => ?_) _ _
  rfl

section
variable (s : State)

@[simp] theorem updCore_count_seats (ix : Nat) (iso : Bool) (tn : BitVec 8) (ev : PerfEvent) :
    (s.updCore ix fun c => c.count iso tn ev).seats = s.seats := by
  unfold State.updCore; split <;> rfl

@[simp] theorem pfGone_seats (xs : List L1Sector) : (s.pfGone xs).seats = s.seats :=
  foldl_keeps State.seats _ (fun t _ => updCore_count_seats t _ _ _ _) _ s

theorem setDom_seats {d : Dom} (h : d.ix = s.dom.ix) : (s.setDom d).seats = s.seats :=
  seats_ite (seats_dom h) ((pfGone_seats _ _).trans (seats_dom h))

theorem setDirty_seats (key : Nat) : (s.setDom (s.dom.setDirty key)).seats = s.seats := setDom_seats s (ix_of_apart (setDirty_apart _ key))

@[simp] theorem countPf_seats (y : Option CLine) (ev : PerfEvent) : (s.countPf y ev).seats = s.seats := by
  unfold State.countPf; split
  · rfl
  · exact updCore_count_seats s _ _ _ _

@[simp] theorem l2Access_seats (tn : Option (BitVec 8)) (key p : Nat) (pf : Option Nat) (use : Bool) : (s.l2Access tn key p pf use).seats = s.seats := by
  simp only [State.l2Access]
  generalize useLine _ _ _ _ _ = r
  have filled : ∀ d : Dom, d.ix = s.dom.ix → (({ s with dom := d } : State).countPf r.2 .pfUnused).seats = s.seats :=
    fun d hd => (countPf_seats _ _ _).trans (seats_dom hd)
  split
  · exact (countPf_seats _ _ _).trans (filled _ (by split <;> rfl))
  · exact filled _ (by split <;> rfl)

theorem map_ix {f : Dom → Dom} (hf : ∀ d, (f d).ix = d.ix) (ds : List Dom) : (ds.map f).map Dom.ix = ds.map Dom.ix := by
  rw [List.map_map]; exact List.map_congr_left fun d _ => hf d

theorem seats_doms {f : Dom → Dom} (hf : ∀ d, (f d).ix = d.ix) : ({ s with doms := s.doms.map f } : State).seats = s.seats := by
  simp only [State.seats, State.seat, map_ix hf]

@[simp] theorem putRaw_seats (key n val : Nat) (m : TokMark) : (s.putRaw key n val m).seats = s.seats := by
  unfold State.putRaw
  extract_lets sec s1 d e mem see clear mem'
  have h1 : s1.seats = s.seats := setDirty_seats s key
  have hd : d.ix = s1.dom.ix := ix_of_apart (markToken_apart _ _ _)
  have he : e.ix = s1.dom.ix := (apply_ite Dom.ix _ _ _).trans (by rw [ite_eq_right_iff.mpr fun _ => rfl]; exact hd)
  have hclear : ∀ o, (clear o).ix = o.ix := fun o => by
    show (ite _ _ _ : Dom).ix = _
    split
    · rfl
    · exact ix_of_apart (markToken_apart _ _ _)
  split
  · exact (seats_doms { s1 with dom := see e } (f := fun o => see ((clear o).hitMonitors sec)) hclear).trans ((seats_dom he).trans h1)
  · exact (seats_dom he).trans h1

@[simp] theorem homePut_seats (tn : Option (BitVec 8)) (key n val : Nat) (m : TokMark) : (s.homePut tn key n val m).seats = s.seats := by
  rw [State.homePut, putRaw_seats, l2Access_seats]

@[simp] theorem putUnder_seats (tn : BitVec 8) (l : Leaf) (key n val : Nat) (m : TokMark) : (s.putUnder tn l key n val m).seats = s.seats :=
  seats_ite (putRaw_seats s _ _ _ _) (homePut_seats s _ _ _ _ _)

/-- R402: what a unit owes a path is all that a failed write-back leaves. -/
@[simp] theorem raiseOn_seats (c : Nat) (tn : BitVec 8) : (s.raiseOn c tn).seats = s.seats := by
  unfold State.raiseOn
  split
  · rfl
  split
  · simp only [State.seats, State.seat, raise_calm]
  · simp only
    split <;> rfl

theorem writeBack_seats (x : L1Sector) : (s.writeBack x).seats = s.seats :=
  seats_ite (seats_ite (raiseOn_seats s _ _) (homePut_seats s _ _ _ _ _)) rfl

@[simp] theorem flushL1_seats (p : L1Sector → Bool) (keep : Bool) : (s.flushL1 p keep).seats = s.seats := by
  have ht : ((s.dom.l1.filter p).foldl State.writeBack s).seats = s.seats := foldl_keeps State.seats _ writeBack_seats _ s
  exact seats_ite ht ((pfGone_seats _ _).trans ht)

@[simp] theorem snoop_seats (sec : Nat) (keep : Bool) : (s.snoop sec keep).seats = s.seats := by
  unfold State.snoop
  extract_lets p s1 dirty s2
  have h1 : s1.seats = s.seats := seats_ite rfl (seats_doms s fun d => snoopL2_ix _ sec)
  have h2 : s2.seats = s1.seats := seats_doms s1 fun d => by
    split
    · rfl
    · exact pfGone_ix _ _
  refine seats_ite rfl (seats_ite ?_ h1)
  refine (foldl_keeps State.seats _ (fun t x => ?_) _ s2).trans (h2.trans h1)
  exact homePut_seats _ _ _ _ _ _

@[simp] theorem recall_seats (c sec : Nat) (keep : Bool) : (s.recall c sec keep).seats = s.seats :=
  seats_ite ((flushL1_seats _ _ _).trans (snoop_seats s sec keep)) (snoop_seats s sec keep)

@[simp] theorem rmapFill_seats (cl sec : Nat) : (s.rmapFill cl sec).seats = s.seats := by
  unfold State.rmapFill
  extract_lets page rest mine
  refine seats_ite rfl ?_
  split
  · rfl
  · exact flushL1_seats s _ _

@[simp] theorem evictL1_seats (core : Nat) (tn : BitVec 8) (va : W64) : (s.evictL1 core tn va).seats = s.seats := by
  unfold State.evictL1
  extract_lets set
  refine seats_ite rfl ?_
  split
  · rfl
  · exact flushL1_seats s _ _

@[simp] theorem dropAlias_seats (core sec : Nat) : (s.dropAlias core sec).seats = s.seats := seats_ite (flushL1_seats s _ _) rfl

@[simp] theorem fill_seats (core : Nat) (tn : BitVec 8) (va : W64) (l : Leaf) (h : Nat) (pf : Bool) : (s.fill core tn va l h pf).seats = s.seats := by
  unfold State.fill
  extract_lets sec s1 s2 s3 x
  have h1 : s1.seats = s.seats := seats_ite (flushL1_seats s _ _) rfl
  have h2 : s2.seats = s.seats := seats_ite ((recall_seats s1 _ _ _).trans h1) h1
  have h3 : s3.seats = s.seats := (rmapFill_seats _ _ _).trans ((evictL1_seats s2 _ _ _).trans h2)
  clear_value s3
  split
  · rfl
  · exact h3

@[simp] theorem pfHit_seats (core key : Nat) : (s.pfHit core key).seats = s.seats := by
  unfold State.pfHit
  extract_lets p
  split
  · rfl
  · exact updCore_count_seats _ _ _ _ _

@[simp] theorem homeUse_seats (tn : BitVec 8) (va : W64) (l : Leaf) (h : Hint) : (s.homeUse tn va l h).seats = s.seats :=
  seats_ite rfl (l2Access_seats s _ _ _ _ _)

@[simp] theorem demand_seats (core : Nat) (tn : BitVec 8) (va : W64) (h : Hint) (l : Leaf) (home : Bool) : (s.demand core tn va h l home).seats = s.seats := by
  unfold State.demand
  extract_lets hit s1
  have h1 : s1.seats = s.seats := seats_ite (pfHit_seats s _ _) rfl
  exact seats_ite rfl (seats_ite h1 ((homeUse_seats s1 _ _ _ _).trans h1))

@[simp] theorem readAt_seats (core : Nat) (tn : BitVec 8) (va : W64) (l : Leaf) (h : Hint) (n : Nat) : (s.readAt core tn va l h n).1.seats = s.seats := by
  unfold State.readAt
  extract_lets key hh s1 s2 s3
  have h1 : s1.seats = s.seats := dropAlias_seats s _ _
  have h2 : s2.seats = s.seats := seats_ite ((recall_seats s1 _ _ _).trans h1) h1
  have h3 : s3.seats = s.seats := fill_seats s _ _ _ _ _ _
  split
  · rfl
  split
  · exact h2
  split <;> exact h3

theorem seeCopy_seats (core sec : Nat) : (s.seeCopy core sec).seats = s.seats := by
  unfold State.seeCopy
  split
  · refine seats_ite ?_ rfl
    split
    · exact seats_doms _ fun _ => rfl
    · rfl
  · rfl

@[simp] theorem writeCopy_seats (core sec off n val : Nat) (d : Bool) (m : TokMark) : (s.writeCopy core sec off n val d m).seats = s.seats :=
  seats_ite (seeCopy_seats _ _ _) rfl

theorem retok_seats (core sec : Nat) : (s.retok core sec).seats = s.seats := rfl

@[simp] theorem writeAt_seats (core : Nat) (t : BitVec 8) (va : W64) (l : Leaf) (h : Hint) (n val : Nat) (m : TokMark) :
    (s.writeAt core t va l h n val m).seats = s.seats := by
  unfold State.writeAt
  extract_lets key sec hh d s2
  have hd : d.ix = s.dom.ix := by
    show (match s.dom.copyOf core sec with | some x => s.dom.useL1 x hh | none => s.dom : Dom).ix = _
    split <;> rfl
  have h2 : s2.seats = s.seats := seats_ite (recall_seats _ _ _ _) rfl
  split
  · exact putRaw_seats s _ _ _ _
  split
  · rw [retok_seats, homePut_seats, writeCopy_seats]; exact seats_dom hd
  split
  · rw [homePut_seats, flushL1_seats, h2]
  · rw [writeCopy_seats, fill_seats, h2]

@[simp] theorem rmwAt_seats (core : Nat) (tn : BitVec 8) (va : W64) (l : Leaf) (h : Hint) (n : Nat) (ret : Bool) (f : Nat → Option Nat)
    (m : TokMark) : (s.rmwAt core tn va l h n ret f m).1.seats = s.seats := by
  unfold State.rmwAt
  extract_lets key sec s1 hh s2 old s3 s4 old'
  have h1 : s1.seats = s.seats := seats_ite (recall_seats s _ _ _) rfl
  have h2 : s2.seats = s.seats := (fill_seats s1 _ _ _ _ _ _).trans h1
  have h3 : s3.seats = s.seats := seats_ite (recall_seats s _ _ _) rfl
  have h4 : s4.seats = s.seats := seats_ite ((flushL1_seats s3 _ _).trans h3) h3
  split
  · cases f old with
    | none => exact h2
    | some x => exact (writeCopy_seats _ _ _ _ _ _ _ _).trans (seats_ite h2 h2)
  · cases f old' with
    | none => exact (setDirty_seats s4 key).trans h4
    | some x => exact (putUnder_seats s4 _ _ _ _ _ _).trans h4

@[simp] theorem release_seats (core : Nat) (sc : Scope) : (s.release core sc).seats = s.seats := seats_ite (flushL1_seats s _ _) rfl

@[simp] theorem homeRead_seats (va : W64) (l : Leaf) (n : Nat) : (s.homeRead va l n).1.seats = s.seats := seats_ite (recall_seats s _ _ _) rfl

@[simp] theorem homeWrite_seats (tn : BitVec 8) (va : W64) (l : Leaf) (n val : Nat) (m : TokMark) : (s.homeWrite tn va l n val m).seats = s.seats :=
  (putUnder_seats _ _ _ _ _ _ _).trans (seats_ite (recall_seats s _ _ _) rfl)

theorem markD_seats (tn : BitVec 8) (va : W64) : (s.markD tn va).seats = s.seats := by
  unfold State.markD; split
  · exact setDom_seats s (setAD_ix _ _ true)
  · rfl

theorem fabricPut_seats (key n val : Nat) (m : TokMark) : (s.fabricPut key n val m).seats = s.seats := by
  have h := seats_doms s (f := fun d : Dom => (d.hitMonitors (fabricSector key)).seeWrite (fabricSector key) fun off k =>
    rdN (wrN s.fabricMem key n val) (key / 64 * 64 + off) k) fun _ => rfl
  exact h

theorem exportCheck_seats (gen : BitVec 12) (slot page off tag : Nat) (user : Bool) (w : Want) :
    (s.exportCheck gen slot page off tag user w).1.seats = s.seats := by
  unfold State.exportCheck
  extract_lets x va walk
  split
  · rfl
  · exact setDom_seats s (setAD_ix _ _ false)
  · rfl

end

end Sys2Proof.Machine
end

section
namespace Sys2Proof.Machine

/-! The accesses of a path or a unit, behind a window too -/

theorem takeFirst_isSome {α : Type} (p : α → Bool) {l : List α} {x : α} (hx : x ∈ l) (hp : p x = true) : ∃ y rest, takeFirst p l = some (y, rest) ∧ p y = true := by
  induction l with
  | nil => cases hx
  | cons z l ih =>
    unfold takeFirst
    split
    · exact ⟨z, l, rfl, ‹_›⟩
    · next hz =>
      obtain rfl | hx := List.mem_cons.mp hx
      · exact absurd hp hz
      · obtain ⟨y, rest, h, hy⟩ := ih hx
        exact ⟨y, z :: rest, by rw [h]; rfl, hy⟩

theorem mem_insertBy {α : Type} (key : α → Nat) (x : α) (l : List α) : x ∈ insertBy key x l := by
  induction l with
  | nil => exact List.mem_singleton_self x
  | cons y l ih =>
    unfold insertBy
    split
    · exact List.mem_cons_self
    split
    · exact List.mem_cons_self
    · exact List.mem_cons_of_mem y ih

section
variable (s : State)

theorem withDom_seat {α : Type} (n : Nat) (a : α) {f : State → State × α} (hf : ∀ t, (f t).1.seats = t.seats) : (s.withDom n a f).1.seat = s.seat := by
  unfold State.withDom
  split
  · exact seat_of_seats (hf s)
  split
  · rfl
  · next d rest _ =>
    have h := hf { s with kind := .idle, dom := d, doms := insertBy Dom.ix s.dom rest }
    generalize f { s with kind := .idle, dom := d, doms := insertBy Dom.ix s.dom rest } = r at h
    obtain ⟨t, b⟩ := r
    have hseat : t.seat = { s with kind := .idle, dom := d, doms := insertBy Dom.ix s.dom rest : State }.seat := seat_of_seats h
    have hix : s.dom.ix ∈ t.doms.map Dom.ix := by
      have hm : t.doms.map Dom.ix = (insertBy Dom.ix s.dom rest).map Dom.ix := congrArg Prod.snd h
      rw [hm]; exact List.mem_map_of_mem (mem_insertBy Dom.ix s.dom rest)
    obtain ⟨o, ho, hoix⟩ := List.mem_map.mp hix
    obtain ⟨o', rest', htake, ho'⟩ := takeFirst_isSome (fun d : Dom => d.ix == s.dom.ix) ho (beq_iff_eq.mpr hoix)
    have hwave : t.wave = s.wave := congrArg Seat.wave hseat
    simp only [htake, State.seat, calmPath_of_seat hseat, hwave, calmBlock_of_seat hseat, calmCore_of_seat hseat, beq_iff_eq.mp ho']

theorem setDom_seat {d : Dom} (h : d.ix = s.dom.ix) : (s.setDom d).seat = s.seat := seat_of_seats (setDom_seats s h)

theorem ownD_seat (c : Nat) (tn : BitVec 8) (own : Option W64) : (own.elim s fun a => (s.setD c tn a).1).seat = s.seat := by
  cases own with
  | none => rfl
  | some a => exact setDom_seat s (setD_ix _ _ _ _)

theorem firstWrite_seat (who : Who) (t : Target) : (s.firstWrite who t).1.seat = s.seat := by
  cases t with
  | loc va l =>
    simp only [State.firstWrite]
    split
    · rfl
    · exact setDom_seat s (setD_ix _ _ _ _)
  | peer dom tn va l own =>
    simp only [State.firstWrite]
    split
    · exact ownD_seat s _ _ own
    · exact (withDom_seat _ _ _ fun t => markD_seats t _ _).trans (ownD_seat s _ _ own)
  | fabric p key own => exact ownD_seat s _ _ own

theorem doWrite_seat (who : Who) (t : Target) (h : Hint) (n val : Nat) (m : TokMark) : (s.doWrite who t h n val m).seat = s.seat := by
  have h1 := firstWrite_seat s who t
  unfold State.doWrite
  generalize s.firstWrite who t = r at h1
  obtain ⟨s', t'⟩ := r
  rw [← h1]
  cases t' with
  | loc va l => exact seat_of_seats (by simp only [writeAt_seats, demand_seats])
  | peer dom tn va l o => exact withDom_seat s' _ _ fun t => by rw [homeWrite_seats, homeUse_seats]
  | fabric p key o => exact seat_of_seats (fabricPut_seats s' _ _ _ _)

theorem doRmw_seat (who : Who) (t : Target) (h : Hint) (n : Nat) (ret : Bool) (f : Nat → Option Nat) (m : TokMark) :
    (s.doRmw who t h n ret f m).1.seat = s.seat := by
  have h1 := firstWrite_seat s who t
  unfold State.doRmw
  generalize s.firstWrite who t = r at h1
  obtain ⟨s', t'⟩ := r
  rw [← h1]
  cases t' with
  | loc va l => exact seat_of_seats (by simp only [rmwAt_seats, demand_seats])
  | peer dom tn va l o =>
    refine withDom_seat s' _ _ fun t => ?_
    have h2 : ((t.homeUse tn va l h).homeRead va l n).1.seats = t.seats := by rw [homeRead_seats, homeUse_seats]
    generalize (t.homeUse tn va l h).homeRead va l n = r at h2
    obtain ⟨t', old⟩ := r
    simp only
    split
    · exact (setDirty_seats t' _).trans h2
    · exact (homeWrite_seats t' _ _ _ _ _ _).trans h2
  | fabric p key o =>
    simp only
    split
    · rfl
    · exact seat_of_seats (fabricPut_seats s' _ _ _ _)

/-! The checks -/

theorem leafFor_seat (who : Who) (va : W64) (w : Want) : (s.leafFor who va w).1.seat = s.seat := setDom_seat s (translate_ix _ _ _ _ _ _)

theorem peerCheck_seat (user : Bool) (va : W64) (l : Leaf) (w : Want) : (s.peerCheck user va l w).1.seat = s.seat := by
  simp only [State.peerCheck]
  split
  · rfl
  split
  · split
    · repeat' split
      all_goals rfl
    · split <;> rfl
  · refine withDom_seat s _ _ fun t => ?_
    split
    · rfl
    · have h := fun g sl p o tg => exportCheck_seats t g sl p o tg user w
      split
      · next hq => rw [← h, hq]
      · next hq => rw [← h, hq]

theorem check_seat (who : Who) (va : W64) (w : Want) : (s.check who va w).1.seat = s.seat := by
  unfold State.check
  split
  · rfl
  split
  · rfl
  have h := leafFor_seat s who va w
  generalize s.leafFor who va w = r at h
  obtain ⟨s', l⟩ := r
  rw [← h]
  cases l with
  | error f => rfl
  | ok l =>
    simp only
    split
    · exact peerCheck_seat s' _ _ _ _
    · split <;> rfl

theorem spawnTargets_seat (o : Args) (ls : List Nat) : (s.spawnTargets o ls).1.seat = s.seat := by
  induction ls generalizing s with
  | nil => rfl
  | cons l ls ih =>
    unfold State.spawnTargets
    extract_lets va
    have h := check_seat s s.who va { n := 4, write := true, atomic := true, tags := true, sc := some .die }
    generalize s.check s.who va { n := 4, write := true, atomic := true, tags := true, sc := some .die } = r at h
    obtain ⟨s', t⟩ := r
    cases t <;> exact (ih s').trans h

end

end Sys2Proof.Machine
end

section
namespace Sys2Proof.Machine

/-! The tasks of a spawn -/

/-- R41: pushes that find room move no record. -/
theorem dequePushAll_room (ts : List Task) : ∀ q : List Task, q.length + ts.length ≤ 256 → dequePushAll q ts = (ts.reverse ++ q, []) := by
  induction ts with
  | nil => intro q _; rfl
  | cons t ts ih =>
    intro q h
    rw [List.length_cons] at h
    have hroom : q.length < 256 := by omega
    simp [dequePushAll, dequePush, hroom, ih (t :: q) (by rw [List.length_cons]; omega)]

section
variable {s t : State} (h : t.seat = s.seat)
include h

theorem sVal_of_seat (n : Nat) : t.sVal n = s.sVal n := by
  have hk : t.path.kept = s.path.kept := (congrArg Path.kept (calmPath_of_seat h) :)
  have hs : t.path.seen = s.path.seen := (congrArg Path.seen (calmPath_of_seat h) :)
  unfold State.sVal
  rw [hk, hs, wave_of_seat h]

/-- An operand that is no special register is read from the path and its wave. -/
theorem rd_of_seat (wide : Bool) (l : Nat) {o : Opnd} (ho : o.isSr = false) : t.rd wide l o = s.rd wide l o := by
  cases o <;> simp [State.rd, sVal_of_seat h, wave_of_seat h, Opnd.isSr] at ho ⊢

theorem carry_of_seat : t.carry = s.carry := by
  have hk : t.path.kept = s.path.kept := (congrArg Path.kept (calmPath_of_seat h) :)
  have ht : t.path.token = s.path.token := (congrArg Path.token (calmPath_of_seat h) :)
  have he : t.path.e = s.path.e := (congrArg Path.e (calmPath_of_seat h) :)
  unfold State.carry
  rw [hk, ht, he]

end

section
variable (s : State) (i : Instr)

theorem begin_carry : (s.begin i).carry = s.carry := by obtain ⟨_, _, _, h⟩ := begin_shape s i; rw [h]; rfl
theorem begin_deque : (s.begin i).core.deque = s.core.deque := by obtain ⟨_, _, _, h⟩ := begin_shape s i; rw [h]
theorem begin_stepped : (s.begin i).path.stepped = (s.begin i).path.stepBit := by obtain ⟨_, _, _, h⟩ := begin_shape s i; rw [h]
theorem begin_under : (s.begin i).path.under = [] := by obtain ⟨_, _, _, h⟩ := begin_shape s i; rw [h]
theorem begin_inRegion : (s.begin i).path.inRegion = s.path.inRegion := by obtain ⟨_, _, _, h⟩ := begin_shape s i; rw [h]; rfl
theorem begin_posted : (s.begin i).path.posted = s.path.posted := by obtain ⟨_, _, _, h⟩ := begin_shape s i; rw [h]

end

/-- R183: with nothing posted, a remote-error point lets the path go on. -/
theorem remotePoint_nothing_posted {s : State} (hl : s.wave.locket = []) (hp : s.path.posted = []) (k : State → State) : s.remotePoint k = k s := by
  have ht : s.postedTags = [] := by simp [State.postedTags, hl]
  have hs : ({ s with path := { s.path with posted := [] } } : State) = s := by rw [← hp]
  simp [State.remotePoint, ht, hp, hs]

theorem takeSeqs_fold (ls : List LaneReq) (w : Wave) :
    ls.foldl (fun (w : Wave) r => { w with seq := mset w.seq r.lane (mget w.seq r.lane + 1) }) w =
    { w with seq := (ls.map LaneReq.lane).foldl (fun m l => mset m l (mget m l + 1)) w.seq } := by
  induction ls generalizing w with
  | nil => rfl
  | cons r ls ih => exact ih _

end Sys2Proof.Machine
end

section
namespace Sys2Proof.Machine

/-- What an instruction does that goes on in sequence, as the statements count it. -/
theorem advance_onlyPath {t : State} (hpc : legalPc (nextPc t.path.pc) = true) (hstep : t.path.stepped = t.path.stepBit) (hu : t.path.under = []) :
    t.OnlyPath t.advance { t.path with pc := nextPc t.path.pc } := by
  obtain ⟨ws, h⟩ := goto_shape t.path (nextPc t.path.pc)
  rw [advance_legal hpc, h]
  refine ⟨rfl, ?_, rfl⟩
  rw [← hstep, ← hu]

/-- The counters of the participants, incremented with release. -/
def State.countUp (s : State) (ts : List Target) : State :=
  ts.foldl (fun s t => (s.doRmw s.who t .normal 4 false (fun x => some ((x + 1) % 2 ^ 32)) .plain).1) (s.release s.core.ix .die)

theorem countUp_seat (s : State) (ts : List Target) : (s.countUp ts).seat = s.seat :=
  (foldl_keeps State.seat _ (fun t _ => doRmw_seat t _ _ _ _ _ _ _) ts _).trans (seat_of_seats (release_seats s _ _))

/-- The sequence numbers that the participants take, and their counters. -/
def State.spawned (s : State) (lanes : List Nat) (ts : List Target) : State :=
  ({ s with wave := { s.wave with seq := lanes.foldl (fun m l => mset m l (mget m l + 1)) s.wave.seq } } : State).countUp ts

/-- The tasks and their numbers. -/
def State.pushTasks (s : State) (q : List Task) (n : Nat) : State :=
  { s with core := { s.core with deque := q }, dom := { s.dom with nextTask := s.dom.nextTask + BitVec.ofNat 32 n } }

theorem spawnTask_of_seat {s t : State} (h : t.seat = s.seat) (rb : BitVec 4) (ac : BitVec 3) (off : BitVec 24) {o : Args} (l k : Nat)
    (ha : o.a.isSr = false) (hb : o.b.isSr = false) :
    t.spawnTask rb ac off o l k =
      { entry := branchPc s.path.pc off, arg := s.rd false l o.a, cnt := s.rd true l o.b &&& BitVec.ofNat 64 (2 ^ 56 - 1),
        launch := s.block.launch, depth := s.wave.spawndepth + 1, regblk := rb, abclass := ac,
        serial := t.dom.nextTask + BitVec.ofNat 32 k, token := s.carry } := by
  have hpc : t.path.pc = s.path.pc := (congrArg Path.pc (calmPath_of_seat h) :)
  have hla : t.block.launch = s.block.launch := (congrArg Block.launch (calmBlock_of_seat h) :)
  rw [State.spawnTask, hpc, hla, rd_of_seat h _ _ ha, rd_of_seat h _ _ hb, wave_of_seat h, carry_of_seat h]

/-- R258: a spawn whose counters pass and whose records find room. -/
theorem execSpawn_room {s s1 : State} {rb : BitVec 4} {ac : BitVec 3} {off : BitVec 24} {o : Args} {ts : List Target} {lanes : List Nat}
    (hr : s.runs (.spawn rb ac off o) = true) (hlanes : lanes = lanesOf (execLanes o.h (s.guard o.h)))
    (hreg : s.path.inRegion = false) (hl : s.wave.locket = []) (hp : s.path.posted = [])
    (hg : s.guard o.h ≠ 0) (hd : s.wave.spawndepth < 8)
    (ht : (s.begin (.spawn rb ac off o)).spawnTargets o lanes = (s1, ts, []))
    (hlock : ∀ t ∈ ts, s1.lockedFor s1.who t true = false) (happ : ts.any s1.appliedFull = false)
    (hroom : s1.core.deque.length + lanes.length ≤ 256) (hmem : s1.dom.memDeque.length ≤ 2 ^ s1.dom.cfg.dequeLog) :
    exec (.spawn rb ac off o) s = .next ((s1.spawned lanes ts).pushTasks
      ((lanes.zipIdx.map fun x => s1.spawnTask rb ac off o x.1 x.2).reverse ++ s1.core.deque) lanes.length).advance := by
  have hseat : s1.seat = (s.begin (.spawn rb ac off o)).seat := by
    rw [← spawnTargets_seat (s.begin (.spawn rb ac off o)) o lanes, ht]
  have hw : s1.wave = s.wave := (wave_of_seat hseat).trans (begin_wave s _)
  have hl1 : s1.wave.locket = [] := by rw [hw, hl]
  have hp1 : s1.path.posted = [] := ((congrArg Path.posted (calmPath_of_seat hseat) :)).trans ((begin_posted s _).trans hp)
  have hany : ts.any (fun t => s1.lockedFor s1.who t true) = false := List.any_eq_false.mpr fun t h => by rw [hlock t h]; decide
  show execSpawn rb ac off o s = _
  unfold execSpawn
  rw [vec_runs _ hr, State.once, begin_guard, if_neg hg, begin_inRegion, hreg]
  simp only [Bool.false_eq_true, if_false, begin_wave, Nat.not_le.mpr hd, ← hlanes, ht]
  have hold : s1.hasOlder = false := by simp [State.hasOlder, hl1]
  have hbusy : ∀ q : Req, s1.seqBusy q = false := fun q => by simp [State.seqBusy, hl1]
  rw [dequePushAll_room _ _ (by simpa using hroom)]
  simp only [hold, hbusy, hany, happ, Bool.or_self, Bool.false_eq_true, if_false, List.length_nil, Nat.add_zero, Nat.not_lt.mpr hmem,
    remotePoint_nothing_posted hl1 hp1]
  simp only [State.takeSeqs, RKind.atomic, if_true, takeSeqs_fold, List.map_map, List.map_nil, List.append_nil]
  rw [show (LaneReq.lane ∘ fun l => ({ lane := l, va := s1.rd true l o.b, val := 1, cmp := 0, seq := mget s1.wave.seq l, applied := false } : LaneReq)) = id
    from rfl, List.map_id]
  rfl

/-- Settles O39: neither the checks nor the counters touch the path, its wave or its block, so the tasks are those of the operands as they stood. -/
theorem spawnedTasks : Obligations.SpawnedTasks := by
  unfold Obligations.SpawnedTasks
  intro s s1 rb ac off o ts i hr hc hg hd lanes ht hlock tasks hroom happ hmem counted a
  obtain ⟨⟨⟨⟨hreg, hl⟩, hp⟩, -⟩, -⟩ : (((s.path.inRegion = false ∧ s.wave.locket = []) ∧ s.path.posted = []) ∧ _) ∧ _ := by
    simpa [State.clear] using hc
  have hseat : s1.seat = (s.begin i).seat := by rw [← spawnTargets_seat (s.begin i) o lanes, ht]
  have hdeque : s1.core.deque = s.core.deque := ((congrArg Core.deque (calmCore_of_seat hseat) :)).trans (begin_deque s i)
  have hwf : o.a.spawnArg = true ∧ o.b.sOrW = true := by
    have h := runs_wf hr
    simp only [i, Instr.wf, okArgs, Bool.and_eq_true] at h
    exact ⟨h.1.1.2, h.1.2⟩
  have ha : o.a.isSr = false := by cases h : o.a <;> simp [h, Opnd.spawnArg, Opnd.isSr] at hwf ⊢
  have hb' : o.b.isSr = false := by cases h : o.b <;> simp [h, Opnd.sOrW, Opnd.isSr] at hwf ⊢
  have htasks : (lanes.zipIdx.map fun x => s1.spawnTask rb ac off o x.1 x.2) = tasks :=
    List.map_congr_left fun x _ => by
      rw [spawnTask_of_seat hseat rb ac off x.1 x.2 ha hb', begin_pc, begin_rd, begin_rd, begin_block, begin_wave, begin_carry]
  have hpath : a.path.calm = (s.begin i).path.calm :=
    (calmPath_of_seat (countUp_seat counted ts)).trans (calmPath_of_seat hseat : s1.path.calm = _)
  have hpc : a.path.pc = s.path.pc := ((congrArg Path.pc hpath :)).trans (begin_pc s i)
  have hstep : a.path.stepped = a.path.stepBit := ((congrArg Path.stepped hpath :)).trans
    ((begin_stepped s i).trans ((congrArg Path.stepBit hpath :)).symm)
  have hunder : a.path.under = [] := ((congrArg Path.under hpath :)).trans (begin_under s i)
  have hexec := execSpawn_room hr rfl hreg hl hp hg hd ht hlock happ (by rw [hdeque]; exact hroom) hmem
  rw [htasks, hdeque] at hexec
  refine ⟨_, hexec, ?_⟩
  have hlegal : legalPc (nextPc a.path.pc) = true := by rw [hpc]; exact ((runs_iff s i).mp hr).2.2.2.2
  rw [← hpc]
  exact advance_onlyPath hlegal hstep hunder

end Sys2Proof.Machine
end

section
namespace Sys2Proof.Machine

/-! The accesses of a unit, and the Locket area -/

section
variable (s : State)

theorem unitRead_seat (who : Who) (t : Target) (h : Hint) (n : Nat) : (s.unitRead who t h n).1.seat = s.seat := by
  cases t with
  | loc va l => exact seat_of_seats (by rw [State.unitRead, homeRead_seats, homeUse_seats, flushL1_seats])
  | peer dom tn va l o => exact withDom_seat s _ _ fun t => by rw [homeRead_seats, homeUse_seats]
  | fabric p key o => rfl

theorem unitWrite_seat (who : Who) (t : Target) (h : Hint) (n val : Nat) (m : TokMark) : (s.unitWrite who t h n val m).seat = s.seat := by
  have h1 := firstWrite_seat s who t
  unfold State.unitWrite
  generalize s.firstWrite who t = r at h1
  obtain ⟨s', t'⟩ := r
  rw [← h1]
  cases t' with
  | loc va l => exact seat_of_seats (by simp only [homeWrite_seats, homeUse_seats, flushL1_seats])
  | peer dom tn va l o => exact withDom_seat s' _ _ fun t => by rw [homeWrite_seats, homeUse_seats]
  | fabric p key o => exact seat_of_seats (fabricPut_seats s' _ _ _ _)

theorem unitPut_seat (who : Who) (t : Target) (n val : Nat) : (s.unitPut who t n val).seat = s.seat := by
  cases t with
  | loc va l =>
    simp only [State.unitPut]
    split
    · rfl
    · exact unitWrite_seat s _ _ _ _ _ _
  | peer dom tn va l own =>
    simp only [State.unitPut]
    split
    · exact withDom_seat s _ _ fun _ => rfl
    · exact unitWrite_seat s _ _ _ _ _ _
  | fabric p key own => exact unitWrite_seat s _ _ _ _ _ _

theorem unitGet_seat (who : Who) (t : Target) (n : Nat) : (s.unitGet who t n).1.seat = s.seat := by
  cases t with
  | loc va l =>
    simp only [State.unitGet]
    split
    · rfl
    · exact unitRead_seat s _ _ _ _
  | peer dom tn va l own =>
    simp only [State.unitGet]
    split
    · exact withDom_seat s _ _ fun _ => rfl
    · exact unitRead_seat s _ _ _ _
  | fabric p key own => exact unitRead_seat s _ _ _ _

theorem areaFill_seat (n : Nat) (off : Nat) (f : Nat → Nat) : (State.areaFill n s off f).1.seat = s.seat := by
  induction n generalizing s off f with
  | zero => rfl
  | succ n ih =>
    unfold State.areaFill
    extract_lets who
    have h := check_seat s who (s.areaVa off) { n := 64, write := true, atomic := false, tags := true, sc := none }
    generalize s.check who (s.areaVa off) { n := 64, write := true, atomic := false, tags := true, sc := none } = r at h
    obtain ⟨s', t⟩ := r
    cases t with
    | error e => exact h
    | ok t => exact (ih _ _ _).trans ((unitPut_seat s' _ _ _ _).trans h)

theorem areaGet_seat (n : Nat) (off : Nat) : (State.areaGet n s off).1.seat = s.seat := by
  induction n generalizing s off with
  | zero => rfl
  | succ n ih =>
    unfold State.areaGet
    extract_lets who
    have h := check_seat s who (s.areaVa off) { n := 64, write := false, atomic := false, tags := true, sc := none }
    generalize s.check who (s.areaVa off) { n := 64, write := false, atomic := false, tags := true, sc := none } = r at h
    obtain ⟨s', t⟩ := r
    cases t with
    | error e => exact h
    | ok t =>
      have hnext := (ih (s'.unitGet who t 64).1 (off + 64)).trans ((unitGet_seat s' who t 64).trans h)
      simp only
      generalize State.areaGet n (s'.unitGet who t 64).1 (off + 64) = r at hnext
      obtain ⟨s'', x⟩ := r
      cases x <;> exact hnext

theorem slotOk_seat (off : Nat) : (s.slotOk off).1.seat = s.seat := by
  have h := areaGet_seat s 2 off
  unfold State.slotOk
  generalize State.areaGet 2 s off = r at h
  obtain ⟨s', x⟩ := r
  cases x <;> exact h

end

end Sys2Proof.Machine
end

section
/-! What leaving a wait keeps: which path is in focus, where it trapped, and the registers of its wave. -/

namespace Sys2Proof.Machine

structure Stance where
  kind : Kind
  blk : Nat
  dom : Nat
  trappc : W64
  v : SMap 32
  s : SMap 64
  q : SMap 1

def State.stance (s : State) : Stance :=
  { kind := s.kind, blk := s.block.id, dom := s.dom.ix, trappc := s.path.trappc, v := s.wave.v, s := s.wave.s, q := s.wave.q }

theorem stance_of_seat {s t : State} (h : t.seat = s.seat) : t.stance = s.stance := by
  have htr : t.path.trappc = s.path.trappc := (congrArg Path.trappc (calmPath_of_seat h) :)
  simp only [State.stance, kind_of_seat h, blockId_of_seat h, domIx_of_seat h, htr, wave_of_seat h]

theorem covered_trappc (p : Path) (batch : Bool) (lo hi : Nat) (tok : Option W64) : (p.covered batch lo hi tok).trappc = p.trappc := by
  unfold Path.covered
  extract_lets takes
  split
  · split <;> rfl
  · split <;> rfl
  · rfl

section
variable (s : State)

theorem endElem_stance (e : Elem) (f : Option (Cause × W64)) : (s.endElem e f).stance = s.stance := by
  unfold State.endElem
  extract_lets c els fails tok up b s1
  split
  · simp only [State.stance, covered_trappc]; rfl
  · rfl

theorem uncorrFor_stance (e : Entry) : (s.uncorrFor e).stance = s.stance := by
  have h : (if e.paths.contains s.path.pid then { s.path with uncorr := true } else s.path).trappc = s.path.trappc := by split <;> rfl
  simp only [State.uncorrFor, State.stance, h]

theorem fillBack_stance : s.fillBack.stance = s.stance := by
  unfold State.fillBack
  split
  · rfl
  split
  · rfl
  · next tag k _ =>
    have h := stance_of_seat (slotOk_seat s (s.spillOff k))
    extract_lets r s1 w c
    have h1 : s1.stance = s.stance := h
    rw [← h1]
    split
    · split
      · rfl
      · exact uncorrFor_stance _ _
    · split
      · rfl
      split
      · exact endElem_stance s1 _ _
      · rfl

theorem fillBacks_stance (n : Nat) : (State.fillBacks n s).stance = s.stance := by
  induction n generalizing s with
  | zero => rfl
  | succ n ih => exact (ih s.fillBack).trans (fillBack_stance s)

theorem dropAgain_stance : s.dropAgain.stance = s.stance := fillBacks_stance _ _

theorem leaveJoin_stance : s.leaveJoin.stance = s.stance := by
  unfold State.leaveJoin
  split <;> rfl

theorem leaveWait_stance : s.leaveWait.stance = s.stance := by
  unfold State.leaveWait
  split
  · exact (dropAgain_stance _).trans (leaveJoin_stance _)
  · rfl

end

end Sys2Proof.Machine
end

section
namespace Sys2Proof.Machine

/-! Commands that are served -/

/-- What `serves` says, part by part. -/
theorem serves_iff (s : State) (c : CmdHdr) (sup : Bool) : s.serves c sup = true ↔
    s.kind = .idle ∧ s.dom.ix = c.dom ∧ s.dom.serves c = true ∧ (s.dom.queue c.queue).tenant = c.tenant ∧ (sup = true → (s.dom.queue c.queue).superv = true) := by
  cases sup <;> simp [State.serves, and_assoc]

section
variable {s : State} {c : CmdHdr} (h : s.serves c false = true)
include h

theorem focusDom_served : s.focusDom c.dom = s := by
  obtain ⟨hk, hix, -⟩ := (serves_iff s c false).mp h
  rw [← hix, focusDom_self hk]

/-- A command that its queue may give does its work on the state without it. -/
theorem command_served {sup : Bool} (hsup : sup = true → (s.dom.queue c.queue).superv = true) (f : State → State) : command c sup f s = .next (f (s.taken c)) := by
  obtain ⟨-, -, hs, ht, -⟩ := (serves_iff s c false).mp h
  have hpriv : (sup && !(s.dom.queue c.queue).superv) = false := by cases sup <;> simp_all
  simp [command, focusDom_served h, hs, ht, hpriv, State.taken]

theorem taken_kind : (s.taken c).kind = .idle := ((serves_iff s c false).mp h).1

theorem taken_ix : (s.taken c).dom.ix = c.dom := ((serves_iff s c false).mp h).2.1

/-- A command whose arguments are in range answers OK once it has acted. -/
theorem command_accepted {good sup : Bool} (hg : good = true) (hsup : sup = true → (s.dom.queue c.queue).superv = true) (f : State → State) :
    command c sup (fun s => s.accept c good f) s = .next ((f (s.taken c)).complete c.queue c.seq .ok []) := by
  rw [command_served h hsup]
  simp [State.accept, hg, State.reply]

omit h in
/-- What acts on the domain alone, and leaves its completions to the command's own. -/
theorem answers_of_updDom {i : Instr} {f : Dom → Dom} {data : List Nat} (hf : (f (s.taken c).dom).completions = s.dom.completions)
    (he : exec i s = .next (((s.taken c).updDom f).complete c.queue c.seq .ok data)) : s.Answers i c f data := by
  unfold State.Answers
  rw [he]
  simp only [State.complete, State.updDom, hf]
  rfl

omit h in
theorem queue_taken : (s.taken c).dom.queue c.queue = { s.dom.queue c.queue with cmds := (s.dom.queue c.queue).cmds - 1 } :=
  queue_updQueue s.dom c.queue (fun q => { q with cmds := q.cmds - 1 }) fun _ => rfl

/-! LAUNCH, INVAL, ATTEST and the counters -/

/-- R33, R85: a launch of one domain. -/
theorem launch_unlinked (addr : W64) {s1 : State} {l : Launch} (hread : (s.taken c).readLaunch c addr = (s1, .ok l)) (hl : l.linked = false) :
    exec (.launch c addr) s =
      .next { s1 with dom := { s1.dom with launches := s1.dom.launches ++ [l], nextLaunch := s1.dom.nextLaunch + 1, ccache := [], icache := [] } } := by
  show execLaunch c addr s = _
  rw [execLaunch, command_served h (by simp)]
  simp [State.launchNow, hread, State.acceptLaunch, hl]

/-- R313: the counter that a queue selects. -/
def State.selected (s : State) (c : CmdHdr) (ev : PerfEvent) (tn : Option (BitVec 8)) : Counter :=
  { ev := ev, tenant := tn, val := 0, ovf := false, owner := if (s.dom.queue c.queue).superv then none else some c.tenant }

theorem perfCfg_core (ix : Nat) (ev : PerfEvent) (tn : Option (BitVec 8)) {core : Nat} (hc : core < 96) (hi : ix < 16) :
    s.Answers (.perfCfg c (.core core) ix ev tn) c
      (fun d => { d with cores := updIf (fun k => k.ix == core) (fun k => { k with perf := k.perf.set ix (s.selected c ev tn) }) d.cores }) [] := by
  refine answers_of_updDom rfl ?_
  show execPerfCfg c (.core core) ix ev tn s = _
  rw [execPerfCfg, command_accepted h (by simp [perfOk, hc, hi]) (by simp)]
  simp only [updCore_idle (taken_kind h), queue_taken]
  rfl

theorem perfCfg_slice (ix : Nat) (ev : PerfEvent) (tn : Option (BitVec 8)) {slice : Nat} (hc : slice < 48) (hi : ix < 8) :
    s.Answers (.perfCfg c (.slice slice) ix ev tn) c
      (fun d => { d with slicePerf := insertBy (·.1) (8 * slice + ix, s.selected c ev tn) d.slicePerf }) [] := by
  refine answers_of_updDom rfl ?_
  show execPerfCfg c (.slice slice) ix ev tn s = _
  rw [execPerfCfg, command_accepted h (by simp [perfOk, hc, hi]) (by simp)]
  simp only [queue_taken, State.selected]

theorem perfRead_core {core ix : Nat} {k : Core} {x : Counter} (hc : core < 96) (hi : ix < 16)
    (hk : s.dom.cores.find? (fun k => k.ix == core) = some k) (hx : k.perf[ix]? = some x) :
    s.Answers (.perfRead c (.core core) ix) c id [x.val.toNat, if x.ovf then 1 else 0] := by
  have hok : perfOk (.core core) ix = true := by simp [perfOk, hc, hi]
  have hat : (s.taken c).perfAt (.core core) ix = x := by
    have hcore : (s.taken c).coreAt core = k := by
      have hfind : (s.taken c).dom.cores.find? (fun k => k.ix == core) = some k := hk
      simp [State.coreAt, State.coreHere, taken_kind h, hfind]
    simp [State.perfAt, hcore, hx]
  show execPerfRead c (.core core) ix s = _
  rw [execPerfRead, command_served h (by simp)]
  simp only [hok, if_true, hat, b2n]
  rfl

theorem attest_answers {nonce : List Byte} (hn : nonce.length = 32) :
    ∃ report sig, exec (.attest c nonce) s = .next ((s.taken c).complete c.queue c.seq .ok (report ++ nonce.map BitVec.toNat ++ [sig])) := by
  show ∃ report sig, execAttest c nonce s = _
  rw [execAttest, command_served h (by simp)]
  simp only [hn, ne_eq, not_true_eq_false, if_false]
  exact ⟨_, _, rfl⟩

/-! RESET_DOMAIN -/

omit h in
theorem mem_complete {t : State} {d : Dom} (hd : d ∈ t.domains) (queue : Nat) (seq : W32) (st : Status) (data : List Nat) :
    ∃ xs, { d with completions := xs } ∈ (t.complete queue seq st data).domains := by
  rcases List.mem_cons.mp hd with rfl | hd
  · exact ⟨_, List.mem_cons_self⟩
  · exact ⟨d.completions, List.mem_cons_of_mem _ hd⟩

omit h in
/-- What a domain is before a command of it is taken, or another domain. -/
theorem mem_taken {d : Dom} (hd : d ∈ s.domains) : ∃ e ∈ (s.taken c).domains, e.ix = d.ix ∧ e.mem = d.mem ∧ e.tags = d.tags := by
  rcases List.mem_cons.mp hd with rfl | hd
  · exact ⟨_, List.mem_cons_self, rfl, rfl, rfl⟩
  · exact ⟨d, List.mem_cons_of_mem _ hd, rfl, rfl, rfl⟩

/-- R409: the domain loses what it runs, and keeps its memory and its tags. -/
theorem resetDomain_resets (hsup : (s.dom.queue c.queue).superv = true) {d : Dom} (hd : d ∈ s.dom :: s.doms) (hn : d.ix < 9) :
    ∃ u d', exec (.resetDomain c d.ix) s = .next u ∧ d' ∈ u.dom :: u.doms ∧ d'.ix = d.ix ∧
      d'.up = false ∧ d'.launches = [] ∧ d'.blocks = [] ∧ d'.mem = d.mem ∧ d'.tags = d.tags := by
  have hexec : exec (.resetDomain c d.ix) s = .next ((((s.taken c).resetDom d.ix).focusDom c.dom).complete c.queue c.seq .ok []) := by
    show execResetDomain c d.ix s = _
    rw [execResetDomain, command_accepted h (by simpa using hn) fun _ => hsup]
  have hk := taken_kind h
  have hkind : ((s.taken c).resetDom d.ix).kind = .idle := by
    simp only [State.resetDom, unfocus_idle hk]; exact hk
  have hix : ((s.taken c).resetDom d.ix).dom.ix = c.dom := by
    simp only [State.resetDom, unfocus_idle hk, State.updDoms]
    have hc := taken_ix h
    split <;> exact hc
  rw [← hix, focusDom_self hkind] at hexec
  obtain ⟨e, he, heix, hmem, htags⟩ := mem_taken (c := c) hd
  obtain ⟨xs, hx⟩ := mem_complete (heix ▸ mem_resetDom hk he) c.queue c.seq .ok []
  exact ⟨_, _, hexec, hx, heix, rfl, rfl, rfl, hmem, htags⟩

end

end Sys2Proof.Machine
end

section
namespace Sys2Proof.Machine

/-! KEY_ASSIGN -/

/-- What is cleared reads 0. -/
theorem mget_mclear {w : Nat} (m : SMap w) {lo hi x : Nat} (hlo : lo ≤ x) (hhi : x < hi) : mget (mclear m lo hi) x = 0 := by
  induction m with
  | nil => rfl
  | cons e m ih =>
    obtain ⟨k, v⟩ := e
    unfold mclear at ih ⊢
    rw [List.filter_cons]
    split
    · next hk =>
      have hne : x ≠ k := by rintro rfl; simp at hk; omega
      simp only [mget, hne, if_false]
      exact ih
    · exact ih

section
variable (s : State) (frame : Nat) (key : BitVec 7)

theorem assignKey_keys : ∃ m, (s.assignKey frame key).dom.keys = mset m frame key := ⟨_, rfl⟩

theorem assignKey_mem : ∃ m, (s.assignKey frame key).dom.mem = mclear m (frameKey frame) (frameKey frame + 65536) := by
  unfold State.assignKey
  extract_lets base inside s1 inLine s2 s3 d1 d2 d3
  exact ⟨d2.mem, by simp only [d3, base]⟩

theorem assignKey_tags : ∃ m, (s.assignKey frame key).dom.tags = mclear m (frameKey frame / 32) (frameKey frame / 32 + 2048) := by
  unfold State.assignKey
  extract_lets base inside s1 inLine s2 s3 d1 d2 d3
  exact ⟨d2.tags, by simp only [d3, base]⟩

omit s key in
/-- A frame begins at a granule. -/
theorem frameKey_granule : frameKey frame % 32 = 0 := by
  unfold frameKey pkey
  omega

/-- R168, R169: the frame stands under its new key, with zeros and no tag. -/
theorem assignKey_clears : mget (s.assignKey frame key).dom.keys frame = key ∧ ∀ a, frameKey frame ≤ a → a < frameKey frame + 65536 →
    mget (s.assignKey frame key).dom.mem a = 0 ∧ mget (s.assignKey frame key).dom.tags (a / 32) = 0 := by
  obtain ⟨ks, hkeys⟩ := assignKey_keys s frame key
  obtain ⟨ms, hmem⟩ := assignKey_mem s frame key
  obtain ⟨ts, htags⟩ := assignKey_tags s frame key
  rw [hkeys, hmem, htags]
  refine ⟨mget_mset_same _ _ _, fun a hlo hhi => ⟨mget_mclear _ hlo hhi, mget_mclear _ (Nat.div_le_div_right hlo) ?_⟩⟩
  have hbase := frameKey_granule frame
  omega

end

section
variable (s : State) (queue : Nat) (seq : W32) (st : Status) (data : List Nat)

theorem complete_keys : (s.complete queue seq st data).dom.keys = s.dom.keys := rfl
theorem complete_mem : (s.complete queue seq st data).dom.mem = s.dom.mem := rfl
theorem complete_tags : (s.complete queue seq st data).dom.tags = s.dom.tags := rfl

end

section
variable {s : State} {c : CmdHdr} (h : s.serves c false = true) (hsup : (s.dom.queue c.queue).superv = true)
  {frame : Nat} (hframe : frame < 1572864 ∨ (2 ^ 34 ≤ frame ∧ frame < 2 ^ 35)) (hheld : s.dom.frameHeld frame = false)
include h hsup hframe hheld

theorem keyAssign_served (key : BitVec 7) : exec (.keyAssign c frame key) s = .next (
    if s.frameFailed frame then (s.taken c).complete c.queue c.seq .faulted [] else ((s.taken c).assignKey frame key).complete c.queue c.seq .ok []) := by
  have hf : (s.taken c).frameFailed frame = s.frameFailed frame := rfl
  have hk : keyFrame frame = true := decide_eq_true hframe
  show execKeyAssign c frame key s = _
  rw [execKeyAssign, focusDom_served h, hheld, if_neg Bool.false_ne_true, command_served h fun _ => hsup]
  simp only [hf, hk, Bool.true_and, State.accept, if_true, State.reply]

theorem keyAssign_assigns (key : BitVec 7) (hfail : s.frameFailed frame = false) :
    ∃ u, exec (.keyAssign c frame key) s = .next u ∧ mget u.dom.keys frame = key ∧
      ∀ a, frameKey frame ≤ a → a < frameKey frame + 65536 → mget u.dom.mem a = 0 ∧ mget u.dom.tags (a / 32) = 0 := by
  have hexec := keyAssign_served h hsup hframe hheld key
  rw [hfail, if_neg Bool.false_ne_true] at hexec
  refine ⟨_, hexec, ?_⟩
  simp only [complete_keys, complete_mem, complete_tags]
  exact assignKey_clears (s.taken c) frame key

end

end Sys2Proof.Machine
end

section
namespace Sys2Proof.Machine

/-! Paths that a command brings into focus -/

theorem takeFirst_spec {α : Type} {p : α → Bool} {l rest : List α} {x : α} (h : takeFirst p l = some (x, rest)) : x ∈ l ∧ p x = true := by
  have hx := takeFirst_mem p l rest x h x List.mem_cons_self
  refine ⟨hx, ?_⟩
  by_contra hp
  induction l generalizing x rest with
  | nil => cases hx
  | cons y l ih =>
    unfold takeFirst at h
    split at h
    · next hy =>
      simp only [Option.some.injEq, Prod.mk.injEq] at h
      exact hp (h.1 ▸ hy)
    · cases hr : takeFirst p l with
      | none => simp [hr] at h
      | some r =>
        obtain ⟨z, rest'⟩ := r
        simp only [hr, Option.map_some, Option.some.injEq, Prod.mk.injEq] at h
        obtain ⟨rfl, -⟩ := h
        exact ih hr (takeFirst_mem p l rest' z hr z List.mem_cons_self) hp

theorem unfocus_ix (s : State) : s.unfocus.dom.ix = s.dom.ix := by
  unfold State.unfocus State.closePath
  cases h : s.kind <;> rfl

/-- The domain in focus comes into focus by the closing of what stands in it. -/
theorem focusDom_ix {s : State} {n : Nat} (h : s.dom.ix = n) : s.focusDom n = s.unfocus := by
  simp [State.focusDom, unfocus_ix, h]

theorem openPath_keeps {s t : State} {wave pid : Nat} (h : s.openPath wave pid = some t) :
    t.dom = s.dom ∧ t.block.id = s.block.id ∧ t.block.res = s.block.res ∧ t.kind = .path := by
  unfold State.openPath at h
  split at h
  · cases h
  split at h
  · cases h
  · cases h; exact ⟨rfl, rfl, rfl, rfl⟩

theorem focusBlock_stream {s t : State} {b : BRef} (h : s.focusBlock b = some t) : t.kind = .stream ∧ t.block.id = b.blk := by
  unfold State.focusBlock at h
  simp only at h
  split at h
  · cases h
  next x rest hx =>
  have hid : x.id = b.blk := by simpa using (takeFirst_spec hx).2
  split at h
  · split at h
    · cases h
    · cases h; exact ⟨rfl, hid⟩
  · cases h; exact ⟨rfl, hid⟩

/-- A block of the domain in focus comes out of that domain's list. -/
theorem focusBlock_idle {s t : State} {b : BRef} (hk : s.kind = .idle) (hd : s.dom.ix = b.dom) (h : s.focusBlock b = some t) :
    t.dom.ix = b.dom ∧ t.block ∈ s.dom.blocks := by
  unfold State.focusBlock at h
  rw [focusDom_ix hd, unfocus_idle hk] at h
  simp only at h
  split at h
  · cases h
  next x rest hx =>
  have hmem := (takeFirst_spec hx).1
  split at h
  · split at h
    · cases h
    · cases h; exact ⟨hd, hmem⟩
  · cases h; exact ⟨hd, hmem⟩

theorem focusPath_idle {s t : State} {p : PRef} (hk : s.kind = .idle) (hd : s.dom.ix = p.dom) (h : s.focusPath p = some t) :
    t.dom.ix = p.dom ∧ ∃ x ∈ s.dom.blocks, x.id = p.blk ∧ t.block.res = x.res := by
  unfold State.focusPath at h
  simp only [hk, reduceCtorEq, false_and, if_false] at h
  cases hb : s.focusBlock { dom := p.dom, blk := p.blk } with
  | none => simp [hb] at h
  | some u =>
    obtain ⟨hix, hmem⟩ := focusBlock_idle hk hd hb
    simp only [hb] at h
    obtain ⟨hdom, -, hres, -⟩ := openPath_keeps h
    exact ⟨hdom ▸ hix, u.block, hmem, (focusBlock_stream hb).2, hres⟩

/-- R353: no region is open, and the path waits for none. -/
theorem leaveRegion_outside {u : State} (hr : u.path.inRegion = false) (hl : u.path.waitsLog = false) (ht : u.path.waitsToken = false) : u.leaveRegion = u := by
  simp [State.leaveRegion, Path.speculative, hr, hl, ht]

@[simp] theorem resumed_ix (s : State) : s.resumed.dom.ix = s.dom.ix := by
  unfold State.resumed
  split <;> rfl

section
variable {s : State} {c : CmdHdr} (h : s.serves c false = true)
include h

/-! Parks -/

section
variable {id : W32} {k : Park} {p : PRef} {t : State} (hk : (s.taken c).dom.parkOf id = some k) (hwhat : k.what = .path p)
  (hf : ((s.taken c).dropPark id).focusPath p = some t) (hst : t.path.status = .parked k.id)
include hk hwhat hf hst

theorem faultReplay_path : exec (.faultReplay c id) s = .next (State.complete
    (((({ t with path := { t.path with windows := [] } } : State).stay).wakeBlock { dom := p.dom, blk := p.blk }).focusDom c.dom) c.queue c.seq .ok []) := by
  show execFaultReplay c id s = _
  rw [execFaultReplay, command_served h (by simp)]
  simp only [hk, State.replayPark, hwhat, State.atParked, State.atPath, hf, hst, if_true, Parked.block, State.reply]

theorem faultFail_path (hres : t.block.res = .resident) (hdom : p.dom = c.dom) : exec (.faultFail c id) s = .next (State.complete
    ((t.trapFull .pageFault false k.kind.toNat (fun l => ((k.addrs.find? fun x => x.1 == l).map (·.2)).getD k.va) (fun _ => 1)).focusDom c.dom)
    c.queue c.seq .ok []) := by
  have hkind := taken_kind h
  have hix := (taken_ix h).trans hdom.symm
  obtain ⟨-, x, hx, hxid, hxres⟩ := focusPath_idle (s := (s.taken c).dropPark id) hkind hix hf
  have hon : (s.taken c).onCore { dom := p.dom, blk := p.blk } = true :=
    List.any_eq_true.mpr ⟨x, hx, by simp [hxid, ← hxres, hres]⟩
  show execFaultFail c id s = _
  rw [execFaultFail, command_served h (by simp)]
  simp only [hk, hwhat, Parked.block, hon, if_true, State.failPark, State.atParked, State.atPath, hf, hst, State.reply]

end

/-! The debugger -/

section
variable {p : PRef} {t : State} (hdbg : s.dom.dbg = true) (hdom : p.dom = c.dom) (hf : (s.taken c).focusPath p = some t)
include hdbg hdom hf

theorem dbgOk_taken : (s.taken c).dbgOk p = true := by
  have hd : (s.taken c).dom.dbg = true := hdbg
  simp [State.dbgOk, hd, hdom, taken_ix h, hf]

/-- What a debugger does with a path, with the path in focus. -/
theorem dbgForm_acts {need : State → Bool} (hneed : need (s.taken c) = true) {f : State → State} (hix : (f t).dom.ix = t.dom.ix) :
    dbgForm c p need f s = .next ((f t).unfocus.complete c.queue c.seq .ok []) := by
  have ht : t.dom.ix = c.dom := (focusPath_idle (taken_kind h) ((taken_ix h).trans hdom.symm) hf).1.trans hdom
  have hgood : ((s.taken c).dbgOk p && need (s.taken c)) = true := by rw [dbgOk_taken h hdbg hdom hf, hneed]; rfl
  rw [dbgForm, command_served h (by simp), State.accept, if_pos hgood, State.atPath, hf]
  simp only [focusDom_ix (hix.trans ht), State.reply]

theorem dbgHalt_outside (hr : t.path.inRegion = false) (hl : t.path.waitsLog = false) (ht : t.path.waitsToken = false) :
    exec (.dbgHalt c p) s = .next (({ t with path := { t.path with halted := true } } : State).unfocus.complete c.queue c.seq .ok []) := by
  have hleave : (if t.block.res == .resident then t.leaveRegion else t) = t := by rw [leaveRegion_outside hr hl ht, ite_self]
  show execDbgHalt c p s = _
  rw [execDbgHalt, dbgForm_acts h hdbg hdom hf rfl (by simp only [hleave])]
  simp only [hleave]

theorem dbgStep_steps :
    exec (.dbgStep c p) s = .next (({ t with path := { t.path with halted := false, stepBit := true } } : State).resumed.unfocus.complete c.queue c.seq .ok []) := by
  show execDbgStep c p s = _
  rw [execDbgStep, dbgForm_acts h hdbg hdom hf rfl (by simp)]

section
variable (hh : t.path.halted = true)
include hh

omit h hdbg hdom in
theorem pathHalted_taken : (s.taken c).pathHalted p = true := by simp [State.pathHalted, hf, hh]

theorem dbgExec_takes {words : List IWord} (hb : s.dom.dbgBuffer = []) (hw : words.length ≤ 16) :
    s.Answers (.dbgExec c p words) c (fun d => { d with dbgBuffer := words, dbgPath := some p, dbgIx := 0 }) [] := by
  have hb' : (s.taken c).dom.dbgBuffer = [] := hb
  refine answers_of_updDom rfl ?_
  show execDbgExec c p words s = _
  rw [execDbgExec, command_served h (by simp)]
  simp [hb', State.accept, dbgOk_taken h hdbg hdom hf, pathHalted_taken hf hh, hw, State.reply]

theorem dbgResume_goes_on : exec (.dbgResume c p false) s =
    .next (({ t with path := { t.path with halted := false } } : State).resumed.unfocus.complete c.queue c.seq .ok []) := by
  show execDbgResume c p false s = _
  rw [execDbgResume, dbgForm_acts h hdbg hdom hf (pathHalted_taken hf hh) (by simp)]
  simp

theorem dbgResume_at_trappc : exec (.dbgResume c p true) s = .next (State.complete (State.unfocus (State.resumed
    { t.leaveWait with path := { t.leaveWait.path with halted := false, pc := t.path.trappc, ir := none } })) c.queue c.seq .ok []) := by
  have hs := leaveWait_stance t
  have htr : t.leaveWait.path.trappc = t.path.trappc := (congrArg Stance.trappc hs :)
  have hix : t.leaveWait.dom.ix = t.dom.ix := (congrArg Stance.dom hs :)
  show execDbgResume c p true s = _
  rw [execDbgResume, dbgForm_acts h hdbg hdom hf (pathHalted_taken hf hh) (by simpa using hix)]
  simp [htr]

end

end

end

end Sys2Proof.Machine
end

section
namespace Sys2Proof.Machine

theorem leaveWait_running {t : State} (h : t.path.status = .running) : t.leaveWait = { t with path := { t.path with again := false, kept := none } } := by
  simp only [State.leaveWait, h]

theorem leaveWait_waiting {t : State} {w : Wait} (h : t.path.status = .waiting w) : t.leaveWait.path.status = .running := by
  simp only [State.leaveWait, h]

/-- Settles O55: a command that is served acts on the state without it, clause by clause; what DBG_RESUME leaves keeps the registers, by `leaveWait_stance`. -/
theorem serviceCommands : Obligations.ServiceCommands := by
  unfold Obligations.ServiceCommands
  intro s c h q ok sup
  refine ⟨fun addr s1 l hread hl => launch_unlinked h addr hread hl, fun frame key hsup hframe hheld => ⟨fun hfail _ => ?_, fun hfail => ?_⟩,
    fun r => ?_, fun ix ev tn => ⟨fun core hc hi => perfCfg_core h ix ev tn hc hi, fun slice hc hi => perfCfg_slice h ix ev tn hc hi⟩,
    fun core ix k x hc hi hk hx => perfRead_core h hc hi hk hx, ?_, fun nonce hn => attest_answers h hn,
    fun d hd hsup hn => resetDomain_resets h hsup hd hn,
    fun id k p t hk hwhat hf hst => ⟨faultReplay_path h hk hwhat hf hst, fun hres hdom => faultFail_path h hk hwhat hf hst hres hdom⟩,
    fun p t hdbg hdom hf hr hl ht => dbgHalt_outside h hdbg hdom hf hr hl ht, fun p t hdbg hdom hf => dbgStep_steps h hdbg hdom hf,
    fun p t hdbg hdom hf hh => ⟨fun words hb hw => dbgExec_takes h hdbg hdom hf hh hb hw, dbgResume_goes_on h hdbg hdom hf hh,
      dbgResume_at_trappc h hdbg hdom hf hh, leaveWait_running, fun w hw => ⟨leaveWait_waiting hw, ?_⟩⟩⟩
  · rw [keyAssign_served h hsup hframe hheld, hfail, if_pos rfl]
  · exact keyAssign_assigns h hsup hframe hheld key hfail
  · show execInval c r s = _
    rw [execInval, command_served h (by simp)]
    rfl
  · refine answers_of_updDom rfl ?_
    show execTraceRead c s = _
    rw [execTraceRead, command_served h (by simp)]
    rfl
  · have hs := leaveWait_stance t
    exact ⟨congrArg Stance.v hs, congrArg Stance.s hs, congrArg Stance.q hs⟩

end Sys2Proof.Machine
end

section
namespace Sys2Proof.Machine

/-! What the events of blocks bring into focus -/

theorem atBlock_some {s t : State} {b : BRef} (h : s.focusBlock b = some t) (f : State → State) : s.atBlock b f = f t := by
  simp only [State.atBlock, h]

theorem atPath_some {s t : State} {p : PRef} (h : s.focusPath p = some t) (f : State → State) : s.atPath p f = f t := by
  simp only [State.atPath, h]

/-- Which block is in focus. -/
def State.berth (s : State) : Kind × Nat := (s.kind, s.block.id)

theorem berth_of_seat {s t : State} (h : t.seat = s.seat) : t.berth = s.berth := by
  simp only [State.berth, kind_of_seat h, blockId_of_seat h]

/-! BLOCK_END -/

section
variable (s : State)

theorem gangSend_berth (ix : Nat) (ended : Bool) (tok : W64) (unit : W32) : (s.gangSend ix ended tok unit).berth = s.berth := by
  unfold State.gangSend
  split <;> rfl

theorem gangMember_berth (ix : Nat) (ended : Bool) (tok : W64) (unit : W32) : (s.gangMember ix ended tok unit).berth = s.berth := by
  unfold State.gangMember
  split
  · rfl
  · split
    · exact gangSend_berth _ _ _ _ _
    · rfl

theorem endGangs_berth : s.endGangs.berth = s.berth := foldl_keeps State.berth _ (fun t _ => gangMember_berth t _ _ _ _) _ s

theorem removeBlock_gone {n : Nat} (h : s.block.id = n) : ∀ x ∈ s.removeBlock.dom.blocks, x.id ≠ n := by
  intro x hx
  have hmem : x ∈ List.filter (fun x => x.id != s.bref.blk) _ := hx
  simpa [State.bref, h] using (List.mem_filter.mp hmem).2

theorem endLaunch_blocks (id : W32) : (s.endLaunch id).dom.blocks = s.dom.blocks := by
  unfold State.endLaunch
  split
  · rfl
  · extract_lets s1
    have h1 : s1.dom.blocks = s.dom.blocks := by
      show (if _ then s.dropTasks id else s : State).dom.blocks = _
      split <;> rfl
    split <;> exact h1

theorem checkHung_blocks (id : W32) : (s.checkHung id).dom.blocks = s.dom.blocks := by
  unfold State.checkHung
  split
  · rfl
  · split <;> rfl

end

theorem blockEnd_removes {s t : State} {b : BRef} {l : Launch} (hf : s.focusBlock b = some t) (hl : t.launch = some l) (hd : l.dead = false)
    (hover : t.block.isOver = true) : ∃ u, exec (.blockEnd b) s = .next u ∧ ∀ x ∈ u.dom.blocks, x.id ≠ b.blk := by
  refine ⟨_, rfl, ?_⟩
  rw [atBlock_some hf]
  simp only [hl, Option.map_some, hd, Option.getD_some, Bool.false_eq_true, if_false, hover, if_true, checkHung_blocks, endLaunch_blocks]
  have h : (t.release t.core.ix .die).endGangs.berth = t.berth := (endGangs_berth _).trans (berth_of_seat (seat_of_seats (release_seats t _ _)))
  have hid : (t.release t.core.ix .die).endGangs.block.id = b.blk := (congrArg Prod.snd h :).trans (focusBlock_stream hf).2
  refine removeBlock_gone _ ?_
  split <;> exact hid

/-! TASK_START and BLOCK_PLACE -/

theorem nextBlock_of_apart {s t : State} (h : t.apart = s.apart) : t.dom.nextBlock = s.dom.nextBlock := congrArg (fun x => x.2.nextBlock) h

theorem tenantTurn_nextBlock (s : State) (core : Nat) (t : BitVec 8) : (s.tenantTurn core t).dom.nextBlock = s.dom.nextBlock := by
  unfold State.tenantTurn
  split
  · rfl
  · refine (nextBlock_of_apart (updCore_apart _ _ _)).trans ?_
    split
    · exact (nextBlock_of_apart (flushL1_apart s (fun x => x.core == core) false) :)
    · rfl

theorem tryFresh_places {s u : State} {l : Launch} {n : Nat} {cores : List Nat} (h : s.tryFresh l n cores = some u) :
    ∃ b ∈ u.dom.blocks, b.id = s.dom.nextBlock ∧ b.launch = l.id ∧ b.res = .resident ∧
      b.blockid = BitVec.ofNat 32 (l.firstBlock + n) ∧ ∀ w ∈ b.waves, w.sGet 0 = l.args ∧ w.paths.map (·.pc) = [l.entry] := by
  unfold State.tryFresh at h
  obtain ⟨p, -, rfl⟩ := Option.map_eq_some_iff.mp h
  refine ⟨_, mem_insertBy _ _ _, tenantTurn_nextBlock _ _ _, rfl, rfl, rfl, fun w hw => ?_⟩
  obtain ⟨x, -, rfl⟩ := List.mem_map.mp hw
  exact ⟨mget_mset_same _ _ _, rfl⟩

theorem startTask_starts (s : State) (tk : Task) (l : Launch) (b : Block) (sp : Spot) (bad : Bool) :
    ∃ x w, x ∈ (s.startTask tk l b sp bad).dom.blocks ∧ x.id = b.id ∧ w ∈ x.waves ∧ w.task = some tk ∧
      w.spawndepth = tk.depth ∧ w.sGet 0 = tk.arg ∧ w.paths.map (·.pc) = [tk.entry] ∧ w.paths.map (·.token) = [tk.token] :=
  ⟨_, _, mem_insertBy _ _ _, rfl, mem_insertBy _ _ _, rfl, rfl, mget_mset_same _ _ _, rfl, rfl⟩

theorem taskStart_starts {s : State} (hk : s.kind = .idle) {core : Nat} {src : TaskFrom} {tk : Task} {l : Launch} {b : Block} {sp : Spot}
    (hsrc : (s.taskSources core).find? (s.taskFits core) = some (src, tk)) (hl : (s.takeTask core src).dom.launch tk.launch = some l)
    (hd : l.dead = false) (hplan : (s.takeTask core src).dom.planTask core tk l = some (b, sp)) :
    ∃ u x w, exec (.taskStart s.dom.ix core) s = .next u ∧ x ∈ u.dom.blocks ∧ x.id = b.id ∧ w ∈ x.waves ∧ w.task = some tk ∧
      w.spawndepth = tk.depth ∧ w.sGet 0 = tk.arg ∧ w.paths.map (·.pc) = [tk.entry] ∧ w.paths.map (·.token) = [tk.token] := by
  have hexec : ∃ bad, exec (.taskStart s.dom.ix core) s = .next ((s.takeTask core src).startTask tk l b sp bad) := by
    show ∃ bad, execTaskStart s.dom.ix core s = _
    rw [execTaskStart, focusDom_self hk]
    simp only [hsrc, hl, hd, Bool.false_eq_true, if_false, hplan]
    exact ⟨_, rfl⟩
  obtain ⟨bad, hexec⟩ := hexec
  obtain ⟨x, w, h⟩ := startTask_starts (s.takeTask core src) tk l b sp bad
  exact ⟨_, x, w, hexec, h⟩

theorem blockPlace_places {s u : State} (hk : s.kind = .idle) (hup : s.dom.up = true) (hjob : s.dom.jobs.findSome? s.tryJob = some u) :
    exec (.blockPlace s.dom.ix) s = .next u := by
  show execBlockPlace s.dom.ix s = _
  rw [execBlockPlace, focusDom_self hk]
  simp only [hup, if_true, hjob, Option.getD_some]

end Sys2Proof.Machine
end

section
/-! A region that ends, and what a trap does, leave the block in focus. -/

namespace Sys2Proof.Machine

theorem berth_of_stance {s t : State} (h : t.stance = s.stance) : t.berth = s.berth :=
  congrArg (fun x : Stance => (x.kind, x.blk)) h

theorem setBit_ix (d : Dom) (a k : Nat) : (d.setBit a k).ix = d.ix := by
  have hpull : (d.pull (a / 64)).ix = d.ix := ix_of_apart (pull_apart d _)
  exact ix_ite rfl (ix_ite hpull hpull)

theorem berth_ite {s t u : State} {c : Prop} [Decidable c] (ht : t.berth = s.berth) (hu : u.berth = s.berth) :
    (if c then t else u).berth = s.berth := by
  split <;> assumption

section
variable (s : State)

/-! The trace buffer -/

theorem rawPut_seats (key n val : Nat) : (s.rawPut key n val).seats = s.seats := by rw [State.rawPut, homePut_seats, recall_seats]

theorem tracePut_berth (c : TraceCfg) (xs : List Nat) : (s.tracePut c xs).berth = s.berth := by
  induction xs generalizing s with
  | nil => rfl
  | cons x xs ih =>
    unfold State.tracePut
    extract_lets key src t
    have ht : t.berth = s.berth := berth_ite rfl (berth_of_seat (seat_of_seats (rawPut_seats s _ _ _)))
    exact (ih _).trans ht

theorem traceLog_berth (xs : List Nat) : (s.traceLog xs).berth = s.berth := by
  unfold State.traceLog
  split
  · rfl
  · exact tracePut_berth s _ _

theorem trace_berth (type : Nat) : (s.trace type).berth = s.berth := berth_ite (traceLog_berth s _) rfl

/-! The serial lane -/

theorem latePut_seat (l : Late) : (s.latePut l).seat = s.seat := by
  cases l with
  | ad addr seen write =>
    simp only [State.latePut]
    split
    · exact setDom_seat s (setAD_ix _ _ _)
    · rfl
  | put core tenant va l n val => exact unitWrite_seat s _ _ _ _ _ _
  | raw key n val => exact seat_of_seats (rawPut_seats s _ _ _)
  | bit a k => exact setDom_seat s (setBit_ix _ _ _)

theorem unlock_berth : s.unlock.berth = s.berth :=
  berth_of_seat (foldl_keeps State.seat _ latePut_seat _ _)

theorem undoOne_berth (key : Nat) (v : W64) : (s.undoOne key v).berth = s.berth :=
  berth_ite rfl (berth_of_seat (seat_of_seats (l2Access_seats s _ _ _ _ _)))

theorem rollback_berth : s.rollback.berth = s.berth := by
  unfold State.rollback
  split
  · rfl
  · exact (unlock_berth _).trans (foldl_keeps State.berth _ (fun t u => undoOne_berth t _ _) _ s)

/-! The stack -/

theorem fillCheck_berth (st : List RecEntry) (n : Nat) : (s.fillCheck st n).berth = s.berth := by
  unfold State.fillCheck
  split
  · rfl
  · exact berth_of_seat (slotOk_seat s _)

theorem pop_berth (n : Nat) : (s.pop n).berth = s.berth := fillCheck_berth s _ n

theorem cutStack_berth (depth : Nat) : (s.cutStack depth).berth = s.berth := pop_berth _ _

theorem pushEntry_berth (e : RecEntry) : (s.pushEntry e).berth = s.berth := by
  unfold State.pushEntry
  extract_lets st
  refine berth_ite rfl ?_
  split
  · next k old _ _ =>
    have h : (State.areaPut 2 s (s.stackOff k) (spilledBits (old.bits * 2 ^ 512 + 0xFF * 2 ^ 128))).1.seat = s.seat := areaFill_seat s _ _ _
    exact (berth_of_seat h :)
  · rfl

/-! Regions -/

theorem unserial_berth : s.unserial.berth = s.berth := by
  unfold State.unserial
  split
  · rfl
  · exact (cutStack_berth _ _).trans ((berth_of_stance (dropAgain_stance _)).trans (rollback_berth s))

theorem abortWith_berth (f : Nat → TxCause × Nat) : (s.abortWith f).berth = s.berth := by
  unfold State.abortWith
  split
  · rfl
  · extract_lets w s1 s2 s3 src s4
    have h2 : s2.berth = s.berth := berth_ite (rollback_berth s1) rfl
    have h3 : s3.berth = s.berth := (cutStack_berth _ _).trans ((berth_of_stance (dropAgain_stance s2)).trans h2)
    refine (foldl_keeps State.berth _ (fun t l => ?_) _ s4).trans h3
    rfl

theorem abort_berth (c : TxCause) (detail : Nat) : (s.abort c detail).berth = s.berth := abortWith_berth s _

theorem abortHere_berth (c : TxCause) (detail : Nat) : (s.abortHere c detail).berth = s.berth := abort_berth _ c detail

/-! Traps -/

theorem sPut_berth (n : Nat) (x : W64) : (s.sPut n x).berth = s.berth := berth_ite rfl rfl

theorem put_berth (wide : Bool) (m : W64) (d : Opnd) (f : Nat → W64) : (s.put wide m d f).berth = s.berth := by
  cases d with
  | s n => exact berth_ite rfl (sPut_berth s _ _)
  | _ => rfl

theorem await_berth (w : Wait) : (s.await w).berth = s.berth := by
  unfold State.await
  split <;> rfl

theorem afterWindows_berth {f : State → State} (hf : ∀ t, (f t).berth = t.berth) : (s.afterWindows f).berth = s.berth :=
  berth_ite (hf _) (await_berth _ _)

theorem superviseNow_berth : s.superviseNow.berth = s.berth := by
  unfold State.superviseNow
  extract_lets sv src who bits
  have h := check_seat s who sv { n := 32, write := true, atomic := false, tags := true, sc := none }
  generalize s.check who sv { n := 32, write := true, atomic := false, tags := true, sc := none } = r at h
  obtain ⟨s', t⟩ := r
  cases t with
  | error f => exact berth_of_seat h
  | ok t => exact (sPut_berth _ _ _).trans ((berth_of_seat (doWrite_seat s' _ _ _ _ _ _)).trans (berth_of_seat h))

theorem enterHandler_berth (c : Cause) : (s.enterHandler c).berth = s.berth :=
  berth_ite (pushEntry_berth s _) (berth_ite rfl (superviseNow_berth s))

theorem route_berth (c : Cause) (replay : Bool) (kind : Nat) (addr : Nat → W64) : (s.route c replay kind addr).berth = s.berth :=
  berth_ite rfl (berth_ite rfl (berth_ite (berth_ite (abort_berth s _ _) rfl) (afterWindows_berth s fun t => enterHandler_berth t c)))

theorem trapFull_berth (c : Cause) (replay : Bool) (kind : Nat) (addr info : Nat → W64) : (s.trapFull c replay kind addr info).berth = s.berth := by
  have logged : ∀ t : State, t.berth = s.berth → ((t.trace 5).route c replay kind addr).berth = s.berth :=
    fun t ht => (route_berth _ c replay kind addr).trans ((trace_berth t 5).trans ht)
  exact berth_ite (abortHere_berth s _ _)
    (berth_ite (logged _ (berth_ite (unserial_berth s) (unserial_berth s))) (logged _ (berth_ite rfl rfl)))

theorem advance_berth : s.advance.berth = s.berth := berth_ite rfl (trapFull_berth s _ _ _ _ _)

/-! Paths that divide -/

theorem withPid_berth (pid : Nat) {f : State → State} (hf : ∀ t, (f t).berth = t.berth) : (s.withPid pid f).berth = s.berth := by
  unfold State.withPid
  refine berth_ite (hf s) ?_
  extract_lets all
  split
  · rfl
  · exact hf _

theorem mem_sortParts {ps : List Part} {p : Part} (h : p ∈ sortParts ps) : p ∈ ps := by
  induction ps with
  | nil => exact h
  | cons q ps ih =>
    unfold sortParts at h ih
    rw [List.foldr_cons] at h
    split at h
    · exact List.mem_cons_of_mem q (ih h)
    · rcases List.mem_append.mp h with h | h
      · exact List.mem_cons_of_mem q (ih (List.takeWhile_subset _ h))
      rcases List.mem_cons.mp h with rfl | h
      · exact List.mem_cons_self
      · exact List.mem_cons_of_mem q (ih (List.dropWhile_subset _ h))

theorem foldl_keeps_of_mem {α β γ : Type} (g : β → γ) {f : β → α → β} {l : List α} (h : ∀ a ∈ l, ∀ b, g (f b a) = g b) (b : β) :
    g (l.foldl f b) = g b := by
  induction l generalizing b with
  | nil => rfl
  | cons a l ih => exact (ih (fun x hx => h x (List.mem_cons_of_mem a hx)) _).trans (h a List.mem_cons_self b)

theorem divide_berth {ps : List Part} (hps : ∀ p ∈ ps, ∀ t, (p.2 t).berth = t.berth) : (s.divide ps).berth = s.berth := by
  have hsort : ∀ p ∈ sortParts ps, ∀ t, (p.2 t).berth = t.berth := fun p hp => hps p (mem_sortParts hp)
  unfold State.divide
  split
  · rfl
  · next p h => exact hsort p (h ▸ List.mem_singleton_self p) _
  · next p rest _ h =>
    extract_lets ids own src others src' w first bind w' s1 acts s2
    have hacts : ∀ a ∈ acts, ∀ t, (a.2 t).berth = t.berth := by
      intro a ha
      rcases List.mem_cons.mp ha with rfl | ha
      · exact hsort p (h ▸ List.mem_cons_self)
      · obtain ⟨x, hx, rfl⟩ := List.mem_map.mp ha
        obtain ⟨y, hy, rfl⟩ := List.mem_map.mp hx
        exact hsort y.1 (h ▸ List.mem_cons_of_mem p (List.of_mem_zip hy).1)
    have h2 : s2.berth = s1.berth := foldl_keeps_of_mem State.berth
      (fun a ha t => withPid_berth t a.1 fun u => (trace_berth _ 1).trans (hacts a ha u)) s1
    exact (withPid_berth s2 first fun _ => rfl).trans h2

theorem part_berth (m : W64) {f g : State → State} (hf : ∀ t, (f t).berth = t.berth) (hg : ∀ t, (g t).berth = t.berth) : (s.part m f g).berth = s.berth :=
  divide_berth s (by simpa using ⟨hf, hg⟩)

theorem closeRegion_berth (d : Opnd) (ok : W64) : (s.closeRegion d ok).berth = s.berth := (advance_berth _).trans (put_berth s _ _ _ _)

theorem closeLanes_berth (d : Opnd) (ok : W64) : (s.closeLanes d ok).berth = s.berth := by
  unfold State.closeLanes
  split
  · exact closeRegion_berth s d ok
  · exact berth_ite (closeRegion_berth s d ok) (part_berth s ok (fun t => closeRegion_berth t d ok)
      fun t => (closeRegion_berth _ d ok).trans (cutStack_berth t _))

theorem leaveRegion_berth : s.leaveRegion.berth = s.berth := by
  unfold State.leaveRegion
  refine berth_ite ?_ (berth_ite (unserial_berth s) (berth_ite rfl (berth_ite rfl rfl)))
  split
  · exact part_berth s _ (fun t => abort_berth t _ _) fun t => closeLanes_berth t _ _
  · exact abort_berth s _ _

end

end Sys2Proof.Machine
end

section
namespace Sys2Proof.Machine

/-! Saves of a block -/

theorem withWave_id (b : Block) (w : Wave) : (b.withWave w).id = b.id := by
  unfold Block.withWave
  split <;> rfl

theorem closePath_berth {s : State} (h : s.kind = .path) : s.closePath.berth = (.stream, s.block.id) := by
  simp only [State.closePath, h, State.berth, withWave_id]

/-- What runs on every path of a block in focus leaves that block in focus. -/
theorem eachPath_berth {s : State} (hs : s.kind = .stream) {f : State → State} (hf : ∀ t, (f t).berth = t.berth) : (s.eachPath f).berth = s.berth := by
  unfold State.eachPath
  extract_lets ids
  clear_value ids
  induction ids generalizing s with
  | nil => rfl
  | cons x ids ih =>
    rw [List.foldl_cons]
    cases ho : s.openPath x.1 x.2 with
    | none => exact ih hs
    | some t =>
      obtain ⟨-, hid, -, hkind⟩ := openPath_keeps ho
      have hft : (f t).berth = (.path, s.block.id) := (hf t).trans (by rw [State.berth, hkind, hid])
      have hblk : (f t).block.id = s.block.id := congrArg Prod.snd hft
      have hclose : (f t).closePath.berth = s.berth := by
        rw [closePath_berth (congrArg Prod.fst hft), hblk, State.berth, hs]
      have hkind' : (f t).closePath.kind = .stream := (congrArg Prod.fst hclose).trans hs
      exact (ih hkind').trans hclose

theorem startSave_saves {t : State} (ht : t.kind = .stream) (ha : t.areaWritable = true) :
    t.startSave.kind = .stream ∧ t.startSave.block.id = t.block.id ∧ t.startSave.block.res = .saving := by
  have h := eachPath_berth ht leaveRegion_berth
  unfold State.startSave
  rw [if_pos ha]
  exact ⟨(congrArg Prod.fst h).trans ht, (congrArg Prod.snd h :), rfl⟩

/-- A block that leaves the focus stands in its domain's list. -/
theorem unfocus_stream_mem {s : State} (h : s.kind = .stream) : s.block ∈ s.unfocus.dom.blocks := by
  simp only [State.unfocus, h]
  exact mem_insertBy Block.id s.block s.dom.blocks

theorem find?_blk {s : State} {n : Nat} {x : Block} (h : s.dom.blocks.find? (fun y => y.id == n) = some x) : x.id = n := by
  simpa using List.find?_some h

theorem residencyEviction_saves {s t : State} {b : BRef} {x : Block} (hk : s.kind = .idle) (hdom : b.dom = s.dom.ix)
    (hf : s.focusBlock b = some t) (hx : s.dom.blocks.find? (fun y => y.id == b.blk) = some x) (hg : s.dom.groupOf x = [x])
    (he : s.evictable b = true) (ha : t.areaWritable = true) :
    ∃ u y, exec (.residencyEviction b) s = .next u ∧ y ∈ u.dom.blocks ∧ y.id = b.blk ∧ y.res = .saving := by
  have hid := find?_blk hx
  have hexec : exec (.residencyEviction b) s = .next t.startSave.unfocus := by
    show execResidencyEviction b s = _
    rw [execResidencyEviction, hdom, focusDom_self hk]
    simp only [hx, hg, List.map_cons, List.map_nil, hid, List.all_cons, List.all_nil, he, Bool.and_self, if_true, List.foldl_cons, List.foldl_nil,
      ← hdom, atBlock_some hf]
  obtain ⟨ht, hblk⟩ := focusBlock_stream hf
  obtain ⟨hkind, hid', hres⟩ := startSave_saves ht ha
  exact ⟨_, t.startSave.block, hexec, unfocus_stream_mem hkind, hid'.trans hblk, hres⟩

theorem writeArea_berth (t : State) : t.writeArea.1.berth = t.berth := by
  unfold State.writeArea
  extract_lets parts r
  have hr : r.1.berth = t.berth := foldl_keeps (fun x : State × Bool => x.1.berth) _ (fun x p => by
    split
    · exact berth_of_seat (areaFill_seat _ _ _ _)
    · rfl) parts (t, true)
  exact hr

theorem evictionSave_untaken {s t t1 : State} {b : BRef} (hf : s.focusBlock b = some t) (hres : t.block.res = .saving) (hw : t.writeArea = (t1, false)) :
    exec (.evictionSaveComplete b) s = .next t1.keepCore := by
  show execEvictionSaveComplete b s = _
  rw [execEvictionSaveComplete, atBlock_some hf]
  simp only [hres, beq_self_eq_true, if_true, hw]

theorem mem_updIf {α : Type} {p : α → Bool} {f : α → α} {l : List α} {x : α} (hx : x ∈ l) (hp : p x = true) : f x ∈ updIf p f l :=
  List.mem_map.mpr ⟨x, hx, by rw [if_pos hp]⟩

/-- R46: the block off its core, with the buffers as they stood. -/
theorem finishSave_evicts (t : State) : ∃ y ∈ t.finishSave.dom.blocks, y.id = t.block.id ∧ y.images = t.saveImages ∧ y.res = .evicted :=
  ⟨_, mem_updIf (x := t.block) (mem_insertBy Block.id t.block t.dom.blocks) (beq_self_eq_true t.block.id), rfl, rfl, rfl⟩

theorem mem_queueBlock_place (d : Dom) (n : Nat) : n ∈ (d.queueBlock n).place := by
  show n ∈ (if d.place.contains n then d.place else d.place ++ [n])
  split
  · next h => exact List.contains_iff_mem.mp h
  · exact List.mem_append_right _ (List.mem_singleton_self n)

/-- R49: a block in the placement list stands nowhere. -/
theorem mem_queueBlock_blocks {d : Dom} {y : Block} {n : Nat} (hy : y ∈ d.blocks) (hid : y.id = n) : { y with res := .unplaced } ∈ (d.queueBlock n).blocks :=
  mem_updIf hy (beq_iff_eq.mpr hid)

theorem evictionSave_taken {s t t1 : State} {b : BRef} (hf : s.focusBlock b = some t) (hres : t.block.res = .saving) (hw : t.writeArea = (t1, true)) :
    ∃ u y, exec (.evictionSaveComplete b) s = .next u ∧ y ∈ u.dom.blocks ∧ y.id = b.blk ∧ y.images = t1.saveImages ∧
      (if t.block.wake || t.block.canRun then y.res = .unplaced ∧ b.blk ∈ u.dom.place else y.res = .evicted) := by
  have hexec : exec (.evictionSaveComplete b) s = .next (if t.block.wake || t.block.canRun
      then { t1.finishSave with dom := t1.finishSave.dom.queueBlock b.blk } else t1.finishSave.checkHung t.block.launch) := by
    show execEvictionSaveComplete b s = _
    rw [execEvictionSaveComplete, atBlock_some hf]
    simp only [hres, beq_self_eq_true, if_true, hw]
  have hid : t1.block.id = b.blk := by
    have h := writeArea_berth t
    rw [hw] at h
    exact (congrArg Prod.snd h :).trans (focusBlock_stream hf).2
  obtain ⟨y, hy, hyid, himages, hyres⟩ := finishSave_evicts t1
  have hblk := hyid.trans hid
  split at hexec
  · next hgo =>
    exact ⟨_, _, hexec, mem_queueBlock_blocks hy hblk, hblk, himages, by rw [if_pos hgo]; exact ⟨rfl, mem_queueBlock_place _ _⟩⟩
  · next hgo =>
    refine ⟨_, y, hexec, ?_, hblk, himages, by rw [if_neg hgo]; exact hyres⟩
    rw [checkHung_blocks]; exact hy

theorem evictedWake_saving {s t : State} {b : BRef} (hf : s.focusBlock b = some t) (hres : t.block.res = .saving) (hw : t.blockWoken = true) :
    exec (.evictedWake b) s = .next { t with block := { t.block with wake := true } } := by
  show execEvictedWake b s = _
  rw [execEvictedWake, atBlock_some hf]
  simp only [hres, hw, if_true]

theorem evictedWake_evicted {s t : State} {b : BRef} (hf : s.focusBlock b = some t) (hres : t.block.res = .evicted) (hw : t.blockWoken = true) :
    ∃ u, exec (.evictedWake b) s = .next u ∧ b.blk ∈ u.dom.place := by
  refine ⟨_, rfl, ?_⟩
  rw [atBlock_some hf]
  simp only [hres, hw, if_true]
  exact mem_queueBlock_place _ _

theorem preemptBlock_first {t : State} (hres : t.block.res = .resident) (hp : t.block.preempt = none) :
    let m := ({ t with block := { t.block with preempt := some t.core.cycles.toNat } } : State).eachPath State.preemptPath
    t.preemptBlock = if m.block.stopped then m.startSave else m := by
  have hr : (t.block.res != .resident) = false := by rw [hres]; rfl
  have hn : t.block.preempt.isSome = false := by rw [hp]; rfl
  simp only [State.preemptBlock, hr, hn, Bool.false_eq_true, if_false]

theorem preemptRequest_stops {s t : State} {b : BRef} {x : Block} (hk : s.kind = .idle) (hdom : b.dom = s.dom.ix)
    (hf : s.focusBlock b = some t) (hx : s.dom.blocks.find? (fun y => y.id == b.blk) = some x) (hg : s.dom.groupOf x = [x])
    (hres : t.block.res = .resident) (hp : t.block.preempt = none) :
    let m := ({ t with block := { t.block with preempt := some t.core.cycles.toNat } } : State).eachPath State.preemptPath
    exec (.preemptRequest b) s = .next (if m.block.stopped then m.startSave else m).unfocus := by
  intro m
  have hid := find?_blk hx
  show execPreemptRequest b s = _
  rw [execPreemptRequest, hdom, focusDom_self hk]
  simp only [hx, hg, List.foldl_cons, List.foldl_nil, hid, ← hdom, atBlock_some hf, preemptBlock_first hres hp]
  rfl

theorem preemptFullSave_saves {s t : State} {p : PRef} {c : Nat} (hf : s.focusBlock { dom := p.dom, blk := p.blk } = some t)
    (hres : t.block.res = .resident) (hp : t.block.preempt = some c) (hb : Config.preemptBound < t.core.span c) (hq : t.block.streamQuiet = true) :
    exec (.preemptFullSave p) s = .next t.startSave := by
  show execPreemptFullSave p s = _
  rw [execPreemptFullSave, atBlock_some hf]
  simp only [hp, hres, beq_self_eq_true, hb, decide_true, hq, Bool.and_self, if_true]

end Sys2Proof.Machine
end

section
namespace Sys2Proof.Machine

/-! The serial token -/

/-- A part that is the whole path leaves it whole. -/
theorem part_whole {s : State} {m : W64} (hm : s.path.mask = m) (h0 : m ≠ 0) (f g : State → State) : s.part m f g = f s := by
  have hin : s.path.mask &&& m = m := by rw [hm, BitVec.and_self]
  have hout : s.path.mask &&& ~~~m = 0 := by rw [hm, BitVec.and_not_self]
  have hsort : sortParts [(m, f), ((0 : W64), g)] = [(m, f)] := by
    simp only [sortParts, List.foldr_cons, List.foldr_nil, if_true, if_neg h0, List.takeWhile_nil, List.dropWhile_nil, List.nil_append]
  rw [State.part, hin, hout, State.divide, hsort]
  simp only [← hm]

theorem lane_ne_zero {lane : Nat} (h : lane < 64) : (1 : W64) <<< lane ≠ 0 := by
  intro h0
  have hbit := congrArg (fun x : W64 => x.getLsbD lane) h0
  simp [h] at hbit

/-- R354: the granted lane goes on behind its `txb`, in serial mode and with the token. -/
theorem enterSerial_enters (s : State) (off : BitVec 24) (lane : Nat) (h : legalPc (nextPc s.path.pc) = true) :
    (s.enterSerial off lane).path.pc = nextPc s.path.pc ∧ (s.enterSerial off lane).path.txdepth = 1 ∧ (s.enterSerial off lane).path.serial = true ∧
      mget (s.enterSerial off lane).wave.sernext lane = 0 ∧ (s.enterSerial off lane).dom.serial.map (·.lane) = some lane ∧
      (s.enterSerial off lane).dom.locks = [] := by
  obtain ⟨u, hu, hpc, hdepth, hser, hnext, htok, hlocks⟩ : ∃ u : State, s.enterSerial off lane = u.advance ∧ u.path.pc = s.path.pc ∧
      u.path.txdepth = 1 ∧ u.path.serial = true ∧ u.wave.sernext = mset s.wave.sernext lane 0 ∧ u.dom.serial.map (·.lane) = some lane ∧ u.dom.locks = [] :=
    ⟨_, rfl, rfl, rfl, rfl, rfl, rfl, rfl⟩
  obtain ⟨ws, hgoto⟩ := goto_shape u.path (nextPc u.path.pc)
  rw [hu, advance_legal (hpc ▸ h), hgoto]
  exact ⟨congrArg nextPc hpc, hdepth, hser, (congrArg (mget · lane) hnext).trans (mget_mset_same _ _ _), htok, hlocks⟩

theorem claspTokenGrant_grants {s t : State} {p : PRef} {lane : Nat} {rest : List (PRef × Nat)} {off : BitVec 24} (hk : s.kind = .idle)
    (hser : s.dom.serial = none) (hn : s.nextToken s.dom.clQueue = some ((p, lane), rest))
    (hf : ({ s with dom := { s.dom with clQueue := rest } } : State).focusPath p = some t) (hoff : t.path.txbOff = some off) (hlane : lane < 64)
    (hmask : t.path.mask = (1 : W64) <<< lane) :
    exec (.claspTokenGrant s.dom.ix) s = .next (t.enterSerial off lane) := by
  have hfree : s.dom.serial.isSome = false := by rw [hser]; rfl
  show execClaspTokenGrant s.dom.ix s = _
  rw [execClaspTokenGrant, focusDom_self hk]
  simp only [hfree, Bool.false_eq_true, if_false, hn]
  refine congrArg Host.Outcome.next ((atPath_some hf _).trans ?_)
  simp only [hoff, part_whole hmask (lane_ne_zero hlane)]

/-- R357: a serial lane past its bound. -/
theorem serialBoundExpiry_traps {s t : State} {x : Serial} {p : PRef} (hk : s.kind = .idle) (hx : s.dom.serial = some x) (hp : s.serialPath x = some p)
    (hf : s.focusPath p = some t) (hb : t.dom.cfg.serial < t.core.span x.since) :
    exec (.serialBoundExpiry s.dom.ix) s = .next (t.unserial.trap .claspWait (BitVec.ofNat 64 (2 ^ 63 + t.path.pc.toNat % 2 ^ 56))) := by
  show execSerialBoundExpiry s.dom.ix s = _
  rw [execSerialBoundExpiry, focusDom_self hk]
  simp only [hx, hp, atPath_some hf, hb, if_true]

/-! ISSUE_CYCLE -/

theorem sampleSlot_untraced {s : State} (h : s.dom.trace = none) (core slot : Nat) (chosen : List Cand) : s.sampleSlot core slot chosen = s := by
  simp only [State.sampleSlot, h]

theorem sampleSlots_untraced {s : State} (h : s.dom.trace = none) (core : Nat) (picks : List (Nat × List Cand)) :
    picks.foldl (fun s x => s.sampleSlot core x.1 x.2) s = s := by
  induction picks with
  | nil => rfl
  | cons x picks ih => rw [List.foldl_cons, sampleSlot_untraced h, ih]

theorem issueCycle_passes {s : State} {core : Nat} {c : Core} (hk : s.kind = .idle) (hc : s.dom.cores.find? (fun c => c.ix == core) = some c)
    (ht : s.dom.trace = none) :
    ∃ u c', exec (.issueCycle s.dom.ix core) s = .next u ∧ c' ∈ u.dom.cores ∧ c'.ix = core ∧ c'.cycles = c.cycles + 1 ∧
      s.issueQ <+: u.issueQ ∧ u.dom.mem = s.dom.mem := by
  have hexec : ∃ d q, exec (.issueCycle s.dom.ix core) s = .next { s with dom := d, issueQ := s.issueQ ++ q } ∧ d.mem = s.dom.mem ∧
      d.cores = updIf (fun x => x.ix == core) (fun x => { x with cycles := x.cycles + 1 }) s.dom.cores := by
    show ∃ d q, execIssueCycle s.dom.ix core s = _ ∧ _
    rw [execIssueCycle, focusDom_self hk]
    simp only [hc]
    refine ⟨_, _, congrArg Host.Outcome.next (sampleSlots_untraced ?_ core _), rfl, rfl⟩
    exact ht
  obtain ⟨d, q, hexec, hmem, hcores⟩ := hexec
  have hix : c.ix = core := by simpa using List.find?_some hc
  refine ⟨_, { c with cycles := c.cycles + 1 }, hexec, ?_, hix, rfl, List.prefix_append _ _, hmem⟩
  show _ ∈ d.cores
  rw [hcores]
  exact mem_updIf (List.mem_of_find?_eq_some hc) (beq_iff_eq.mpr hix)

end Sys2Proof.Machine
end

section
namespace Sys2Proof.Machine

/-- Settles O52: clause by clause; the saves by what keeps a block in focus (`leaveRegion_berth`, `writeArea_berth`). -/
theorem blockEvents : Obligations.BlockEvents := by
  unfold Obligations.BlockEvents
  intro s hk dom
  refine ⟨fun b t l hf hl hd hover => blockEnd_removes hf hl hd hover,
    fun core src tk l b sp hsrc hl hd hplan => taskStart_starts hk hsrc hl hd hplan,
    fun u hup hjob => blockPlace_places hk hup hjob, fun l n cores u h => tryFresh_places h,
    fun b t x hdom hf hx hg he ha => residencyEviction_saves hk hdom hf hx hg he ha,
    fun b t t1 hf hres hw => evictionSave_untaken hf hres hw, fun b t t1 hf hres hw => evictionSave_taken hf hres hw,
    fun b t hf hres hw => evictedWake_saving hf hres hw, fun b t hf hres hw => evictedWake_evicted hf hres hw,
    fun b t x hdom hf hx hg hres hp => preemptRequest_stops hk hdom hf hx hg hres hp,
    fun p t c hf hres hp hb hq => preemptFullSave_saves hf hres hp hb hq,
    fun p lane rest t off hser hn hf hoff hlane hmask hpc => ⟨_, claspTokenGrant_grants hk hser hn hf hoff hlane hmask, enterSerial_enters t off lane hpc⟩,
    fun x p t hx hp hf hb => serialBoundExpiry_traps hk hx hp hf hb, fun core c hc ht => issueCycle_passes hk hc ht⟩

end Sys2Proof.Machine
end

section
namespace Sys2Proof

/-! The codes of the modifiers (R77 to R80), and the values that the field of M can hold. -/

/-- A modifier as a field of M or IMM24 holds it: the width of its field, its code, and the decoder's reading of a code. -/
structure Codec (α : Type) where
  width : Nat
  code : α → Nat
  dec : Nat → Option α
  dec_code : ∀ x, dec (code x) = some x

def ITy.codec : Codec ITy := ⟨3, ITy.code, ITy.ofCode, fun x => by cases x <;> rfl⟩
def FTy.codec : Codec FTy := ⟨3, FTy.code, FTy.ofCode, fun x => by cases x <;> rfl⟩
def Rm.codec : Codec Rm := ⟨2, Rm.code, Rm.ofCode, fun x => by cases x <;> rfl⟩
def Cc.codec : Codec Cc := ⟨3, Cc.code, Cc.ofCode, fun x => by cases x <;> rfl⟩
def FCc.codec : Codec FCc := ⟨3, FCc.code, FCc.ofCode, fun x => by cases x <;> rfl⟩
def ShMode.codec : Codec ShMode := ⟨2, ShMode.code, ShMode.ofCode, fun x => by cases x <;> rfl⟩
def Seg.codec : Codec Seg := ⟨3, Seg.code, Seg.ofCode, fun x => by cases x <;> rfl⟩
def VMode.codec : Codec VMode := ⟨2, VMode.code, VMode.ofCode, fun x => by cases x <;> rfl⟩
def RedOp.codec : Codec RedOp := ⟨3, RedOp.code, RedOp.ofCode, fun x => by cases x <;> rfl⟩
def Hint.codec : Codec Hint := ⟨2, Hint.code, Hint.ofCode, fun x => by cases x <;> rfl⟩
def Ord.codec : Codec Ord := ⟨2, Ord.code, Ord.ofCode, fun x => by cases x <;> rfl⟩
def Scope.codec : Codec Scope := ⟨3, Scope.code, Scope.ofCode, fun x => by cases x <;> rfl⟩
def Size.codec : Codec Size := ⟨3, Size.code, Size.ofCode, fun x => by cases x <;> rfl⟩
def AOp.codec : Codec AOp := ⟨4, AOp.code, AOp.ofCode, fun x => by cases x <;> rfl⟩
def MFmt.codec : Codec MFmt := ⟨3, MFmt.code, MFmt.ofCode, fun x => by cases x <;> rfl⟩
def SigCond.codec : Codec SigCond := ⟨3, SigCond.code, SigCond.ofCode, fun x => by cases x <;> rfl⟩
def SigOp.codec : Codec SigOp := ⟨3, SigOp.code, SigOp.ofCode, fun x => by cases x <;> rfl⟩
def PgSz.codec : Codec PgSz := ⟨2, PgSz.code, PgSz.ofCode, fun x => by cases x <;> rfl⟩
def scaleCodec : Codec (Fin 5) := ⟨3, Fin.val, scaleOf, fun x => by simp [scaleOf]⟩

theorem ITy.code_lt (x : ITy) : x.code < 8 := by cases x <;> decide
theorem FTy.code_lt (x : FTy) : x.code < 8 := by cases x <;> decide
theorem Rm.code_lt (x : Rm) : x.code < 4 := by cases x <;> decide
theorem Cc.code_lt (x : Cc) : x.code < 8 := by cases x <;> decide
theorem FCc.code_lt (x : FCc) : x.code < 8 := by cases x <;> decide
theorem ShMode.code_lt (x : ShMode) : x.code < 4 := by cases x <;> decide
theorem Seg.code_lt (x : Seg) : x.code < 8 := by cases x <;> decide
theorem VMode.code_lt (x : VMode) : x.code < 4 := by cases x <;> decide
theorem RedOp.code_lt (x : RedOp) : x.code < 8 := by cases x <;> decide
theorem Hint.code_lt (x : Hint) : x.code < 4 := by cases x <;> decide
theorem Ord.code_lt (x : Ord) : x.code < 4 := by cases x <;> decide
theorem Scope.code_lt (x : Scope) : x.code < 8 := by cases x <;> decide
theorem Size.code_lt (x : Size) : x.code < 8 := by cases x <;> decide
theorem AOp.code_lt (x : AOp) : x.code < 16 := by cases x <;> decide
theorem MFmt.code_lt (x : MFmt) : x.code < 8 := by cases x <;> decide
theorem SigCond.code_lt (x : SigCond) : x.code < 8 := by cases x <;> decide
theorem SigOp.code_lt (x : SigOp) : x.code < 8 := by cases x <;> decide
theorem PgSz.code_lt (x : PgSz) : x.code < 4 := by cases x <;> decide

theorem b2n_lt (b : Bool) : b2n b < 2 := by cases b <;> decide

/-! The fields of a number -/

theorem bitsOf_eq (m lo n : Nat) : bitsOf m lo n = m / 2 ^ lo % 2 ^ n := by rw [bitsOf, Nat.shiftRight_eq_div_pow]

theorem bitOf_iff {m lo : Nat} {b : Bool} : bitOf m lo = b ↔ m / 2 ^ lo % 2 = b2n b := by
  rw [show bitOf m lo = (m / 2 ^ lo % 2 == 1) from congrArg (· == 1) (bitsOf_eq m lo 1)]
  cases b with
  | false => rw [beq_eq_false_iff_ne, b2n]; exact Nat.mod_two_ne_one
  | true => exact beq_iff_eq

theorem ofNat_iff {k m : Nat} {n : BitVec k} : BitVec.ofNat k m = n ↔ m % 2 ^ k = n.toNat := by
  rw [← BitVec.toNat_inj, BitVec.toNat_ofNat]

/-! The layouts of M: what a field of M holds when M is the code of its modifiers, and that the code fits M -/

section Layouts
variable {m : Nat}

theorem mlayout_low {a : Nat} (hm : m = a) (ha : a < 8) : bitsOf m 0 3 = a ∧ m < 1024 := by
  simp only [bitsOf_eq]; omega

theorem mlayout_two {a b : Nat} (hm : m = a * 8 + b) (ha : a < 8) (hb : b < 8) :
    bitsOf m 3 3 = a ∧ bitsOf m 0 3 = b ∧ m < 1024 := by
  simp only [bitsOf_eq]; omega

theorem mlayout_mode {a b : Nat} (hm : m = a * 8 + b) (ha : a < 4) (hb : b < 8) :
    bitsOf m 3 2 = a ∧ bitsOf m 0 3 = b ∧ m < 1024 := by
  simp only [bitsOf_eq]; omega

theorem mlayout_flag {s : Bool} {b : Nat} (hm : m = b2n s * 8 + b) (hb : b < 8) :
    bitOf m 3 = s ∧ bitsOf m 0 3 = b ∧ m < 1024 := by
  have := b2n_lt s
  simp only [bitOf_iff, bitsOf_eq]; omega

theorem mlayout_prop {s : Bool} {b : Nat} (hm : m = b2n s * 32 + b) (hb : b < 8) :
    bitOf m 5 = s ∧ bitsOf m 0 3 = b ∧ m < 1024 := by
  have := b2n_lt s
  simp only [bitOf_iff, bitsOf_eq]; omega

theorem mlayout_cvti {s : Bool} {a b : Nat} (hm : m = b2n s * 64 + a * 8 + b) (ha : a < 8) (hb : b < 8) :
    bitOf m 6 = s ∧ bitsOf m 3 3 = a ∧ bitsOf m 0 3 = b ∧ m < 1024 := by
  have := b2n_lt s
  simp only [bitOf_iff, bitsOf_eq]; omega

theorem mlayout_scan {s : Bool} {a b : Nat} (hm : m = a * 8 + b2n s * 64 + b) (ha : a < 8) (hb : b < 8) :
    bitOf m 6 = s ∧ bitsOf m 3 3 = a ∧ bitsOf m 0 3 = b ∧ m < 1024 :=
  mlayout_cvti (by omega) ha hb

theorem mlayout_fcmp {s : Bool} {a b : Nat} (hm : m = a * 32 + b2n s * 256 + b) (ha : a < 8) (hb : b < 8) :
    bitOf m 8 = s ∧ bitsOf m 5 3 = a ∧ bitsOf m 0 3 = b ∧ m < 1024 := by
  have := b2n_lt s
  simp only [bitOf_iff, bitsOf_eq]; omega

theorem mlayout_convert {a b c : Nat} (hm : m = a * 8 + b * 32 + c) (ha : a < 4) (hb : b < 8) (hc : c < 8) :
    bitsOf m 3 2 = a ∧ bitsOf m 5 3 = b ∧ bitsOf m 0 3 = c ∧ m < 1024 := by
  simp only [bitsOf_eq]; omega

theorem mlayout_dot4 {a b c : Bool} (hm : m = b2n a * 32 + b2n b * 64 + b2n c * 128) :
    bitOf m 5 = a ∧ bitOf m 6 = b ∧ bitOf m 7 = c ∧ m < 1024 := by
  have := b2n_lt a; have := b2n_lt b; have := b2n_lt c
  simp only [bitOf_iff]; omega

theorem mlayout_access {a b c d : Nat} (hm : m = a * 256 + b * 64 + c * 8 + d) (ha : a < 4) (hb : b < 4) (hc : c < 8) (hd : d < 8) :
    bitsOf m 8 2 = a ∧ bitsOf m 6 2 = b ∧ bitsOf m 3 3 = c ∧ bitsOf m 0 3 = d ∧ m < 1024 := by
  simp only [bitsOf_eq]; omega

theorem mlayout_hint {a : Nat} (hm : m = a * 256) (ha : a < 4) : bitsOf m 8 2 = a ∧ m < 1024 := by
  simp only [bitsOf_eq]; omega

theorem mlayout_sized {a b : Nat} (hm : m = a * 256 + b) (ha : a < 4) (hb : b < 8) : bitsOf m 8 2 = a ∧ bitsOf m 0 3 = b ∧ m < 1024 := by
  simp only [bitsOf_eq]; omega

theorem mlayout_ordered {a b c : Nat} (hm : m = a * 64 + b * 8 + c) (ha : a < 4) (hb : b < 8) (hc : c < 8) :
    bitsOf m 6 2 = a ∧ bitsOf m 3 3 = b ∧ bitsOf m 0 3 = c ∧ m < 1024 := by
  simp only [bitsOf_eq]; omega

theorem mlayout_fence {a b : Nat} (hm : m = a * 64 + b * 8) (ha : a < 4) (hb : b < 8) :
    bitsOf m 6 2 = a ∧ bitsOf m 3 3 = b ∧ m < 1024 := by
  simp only [bitsOf_eq]; omega

theorem mlayout_scope {a : Nat} (hm : m = a * 8 ∨ m = a * 8 + 64 ∨ m = a * 8 + 131) (ha : a < 8) : bitsOf m 3 3 = a ∧ m < 1024 := by
  simp only [bitsOf_eq]; omega

theorem mlayout_signal {a b c : Nat} (hm : m = a * 128 + b * 8 + c) (ha : a < 8) (hb : b < 8) (hc : c < 8) :
    bitsOf m 7 3 = a ∧ bitsOf m 3 3 = b ∧ bitsOf m 0 3 = c ∧ m < 1024 := by
  simp only [bitsOf_eq]; omega

theorem mlayout_vote {a : Nat} (hm : m = a * 8) (ha : a < 4) : bitsOf m 3 2 = a ∧ m < 1024 := by
  simp only [bitsOf_eq]; omega

theorem mlayout_object {n : BitVec 4} (hm : m = n.toNat * 64) : BitVec.ofNat 4 (bitsOf m 6 4) = n ∧ m < 1024 := by
  have := n.isLt
  simp only [ofNat_iff, bitsOf_eq]; omega

theorem mlayout_number {n : BitVec 4} {b : Nat} (hm : m = n.toNat * 64 + b) (hb : b < 8) :
    BitVec.ofNat 4 (bitsOf m 6 4) = n ∧ bitsOf m 0 3 = b ∧ bitsOf m 0 2 = b % 4 ∧ m < 1024 := by
  have := n.isLt
  simp only [ofNat_iff, bitsOf_eq]; omega

theorem mlayout_index {k : BitVec 2} (hm : m = k.toNat) : BitVec.ofNat 2 (bitsOf m 0 2) = k ∧ m < 1024 := by
  have := k.isLt
  simp only [ofNat_iff, bitsOf_eq]; omega

theorem mlayout_page {a : Nat} (hm : m = a * 4) (ha : a < 4) : bitsOf m 2 2 = a ∧ m < 1024 := by
  simp only [bitsOf_eq]; omega

end Layouts

/-! IMM24 of a memory operand (R171) -/

theorem Idx.bits_lt (x : Idx) {k : Nat} (hk : k < 16) : x.bits k < 2 ^ 24 := by
  have := x.scale.isLt; have := x.disp.isLt
  simp only [Idx.bits]; omega

theorem Idx.bits_op (x : Idx) {k : Nat} (hk : k < 16) : bitsOf (x.bits k) 20 4 = k := by
  have := x.scale.isLt; have := x.disp.isLt
  simp only [Idx.bits, bitsOf_eq]; omega

theorem idxOf_bits (x : Idx) (k : Nat) : idxOf (x.bits k) = some x := by
  have := x.scale.isLt; have := x.disp.isLt
  have hscale : bitsOf (x.bits k) 17 3 = x.scale.val := by simp only [Idx.bits, bitsOf_eq]; omega
  have hdisp : BitVec.ofNat 17 (bitsOf (x.bits k) 0 17) = x.disp := ofNat_iff.mpr (by simp only [Idx.bits, bitsOf_eq]; omega)
  rw [idxOf, hscale, hdisp, show scaleOf x.scale.val = some x.scale from scaleCodec.dec_code x.scale]
  rfl

end Sys2Proof
end

section
namespace Sys2Proof

/-! What `build` makes of OP, SUB, M and IMM24: the rules for the steps of its arms. -/

/-- The form that `x` names makes the instruction `i` of the operands `o`. -/
def Makes (x : Option (Option (Args → Instr))) (o : Args) (i : Instr) : Prop := ∃ g, x = some (some g) ∧ g o = i

/-- Whatever form `x` names makes an instruction of a stream, one that takes the operands it is given. -/
def Takes (x : Option (Option (Args → Instr))) : Prop := ∀ g, x = some (some g) → ∀ o, (g o).args = some o

section Rules
variable {x y : Option (Option (Args → Instr))} {o : Args} {i : Instr}

theorem makes_form {g : Args → Instr} (h : g o = i) : Makes (some (some g)) o i := ⟨g, rfl, h⟩

theorem makes_inner {z : Option (Args → Instr)} (h : z.map (· o) = some i) : Makes (some z) o i := by
  obtain ⟨g, rfl, hg⟩ := Option.map_eq_some_iff.mp h
  exact makes_form hg

theorem makes_guard {p : Prop} [Decidable p] {k : Unit → Option (Option (Args → Instr))} (hp : p) (h : Makes (k ()) o i) :
    Makes (guard p >>= k) o i := by
  simpa [guard, hp] using h

/-- A field of M that holds the code of `t` is read as `t`. -/
theorem makes_field {α : Type} (c : Codec α) (t : α) {m lo : Nat} {k : α → Option (Option (Args → Instr))}
    (hm : bitsOf m lo c.width = c.code t) (h : Makes (k t) o i) : Makes (c.dec (bitsOf m lo c.width) >>= k) o i := by
  rw [hm, c.dec_code]
  exact h

theorem makes_left (h : Makes x o i) : Makes (x <|> y) o i := by
  obtain ⟨g, rfl, hg⟩ := h
  exact makes_form hg

theorem makes_right (hx : x = none) (h : Makes y o i) : Makes (x <|> y) o i := by
  subst hx
  exact h

/-- The forms that take a memory operand and nothing else of IMM24. -/
theorem makes_idx {x : Idx} {imm : Nat} {mk : Idx → Args → Instr} (hx : imm = x.bits 0) (h : mk x o = i) :
    Makes (some (if bitsOf imm 20 4 == 0 then (idxOf imm).map mk else none)) o i := by
  subst hx
  rw [Idx.bits_op x (by omega), idxOf_bits]
  exact makes_form h

/-- The forms that take a memory operand, and a code in bits [23:20] of IMM24. -/
theorem makes_xop {x : Idx} {imm k : Nat} {f : Idx → Option (Args → Instr)} (hx : imm = x.bits k) (hk : k < 16)
    (h : bitsOf imm 20 4 = k → (f x).map (· o) = some i) : Makes (some (idxOf imm >>= f)) o i := by
  subst hx
  rw [idxOf_bits]
  exact makes_inner (h (Idx.bits_op x hk))

/-- The forms that take an operation of R180 in bits [23:20] of IMM24, and a memory operand. -/
theorem makes_aop {op : AOp} {x : Idx} {imm : Nat} {mk : AOp → Idx → Args → Instr} (hx : imm = x.bits op.code) (h : mk op x o = i) :
    Makes (some (do let op ← AOp.ofCode (bitsOf imm 20 4); let x ← idxOf imm; some (mk op x))) o i := by
  subst hx
  rw [Idx.bits_op x op.code_lt, idxOf_bits, show AOp.ofCode op.code = some op from AOp.codec.dec_code op]
  exact makes_form h

theorem takes_none : Takes none := fun _ h => nomatch h

theorem takes_refused : Takes (some none) := fun _ h => nomatch h

theorem takes_form {g : Args → Instr} (h : ∀ o, (g o).args = some o) : Takes (some (some g)) := by
  rintro _ ⟨⟩
  exact h

theorem takes_bind {α : Type} {c : Option α} {k : α → Option (Option (Args → Instr))} (h : ∀ t, Takes (k t)) : Takes (c >>= k) := by
  cases c with
  | none => exact takes_none
  | some t => exact h t

theorem takes_orElse (hx : Takes x) (hy : Takes y) : Takes (x <|> y) := by
  cases x with
  | none => exact hy
  | some z => exact hx

theorem takes_ite {p : Prop} [Decidable p] {a b : Option (Args → Instr)} (ha : Takes (some a)) (hb : Takes (some b)) :
    Takes (some (if p then a else b)) := by
  split
  · exact ha
  · exact hb

theorem takes_inner {α : Type} {c : Option α} {f : α → Option (Args → Instr)} (h : ∀ t, Takes (some (f t))) : Takes (some (c >>= f)) := by
  cases c with
  | none => exact takes_refused
  | some t => exact h t

theorem takes_idx {p : Prop} [Decidable p] {c : Option Idx} {mk : Idx → Args → Instr} (h : ∀ x o, (mk x o).args = some o) :
    Takes (some (if p then c.map mk else none)) := by
  refine takes_ite ?_ takes_refused
  cases c with
  | none => exact takes_refused
  | some x => exact takes_form (h x)

end Rules

end Sys2Proof
end

section
namespace Sys2Proof

/-! Every form that `build` names is one of a stream -/

section Takes
variable (m imm a : Nat)

theorem takes_op01 : ∀ sub, Takes (build 0x01 sub m imm a)
  | 0 | 1 | 2 | 3 | 4 | 5 => takes_bind fun _ => takes_form fun _ => rfl
  | _ + 6 => takes_none

theorem takes_op02 : ∀ sub, Takes (build 0x02 sub m imm a)
  | 0 | 1 | 2 | 3 | 4 | 5 => takes_bind fun _ => takes_form fun _ => rfl
  | _ + 6 => takes_none

theorem takes_op03 : ∀ sub, Takes (build 0x03 sub m imm a)
  | 0 | 1 | 2 | 3 => takes_bind fun _ => takes_form fun _ => rfl
  | _ + 4 => takes_none

theorem takes_op04 : ∀ sub, Takes (build 0x04 sub m imm a)
  | 0 | 1 | 2 | 3 | 5 => takes_bind fun _ => takes_form fun _ => rfl
  | 4 => takes_orElse (takes_bind fun _ => takes_form fun _ => rfl) (takes_bind fun _ => takes_form fun _ => rfl)
  | _ + 6 => takes_none

theorem takes_op10 : ∀ sub, Takes (build 0x10 sub m imm a)
  | 0 | 1 | 2 | 3 | 4 | 5 | 6 | 7 | 8 | 9 | 10 | 11 | 12 | 13 => takes_bind fun _ => takes_bind fun _ => takes_form fun _ => rfl
  | _ + 14 => takes_none

theorem takes_op11 : ∀ sub, Takes (build 0x11 sub m imm a)
  | 0 | 1 | 2 | 3 | 4 | 5 | 6 | 7 | 8 | 9 | 10 | 11 | 12 | 13 | 14 => takes_bind fun _ => takes_bind fun _ => takes_form fun _ => rfl
  | 15 => takes_bind fun _ => takes_bind fun _ => takes_bind fun _ => takes_form fun _ => rfl
  | _ + 16 => takes_none

theorem takes_op12 : ∀ sub, Takes (build 0x12 sub m imm a)
  | 1 | 3 => takes_bind fun _ => takes_bind fun _ => takes_form fun _ => rfl
  | 0 | 4 | 5 => takes_bind fun _ => takes_bind fun _ => takes_bind fun _ => takes_form fun _ => rfl
  | 2 => takes_bind fun _ => takes_bind fun _ => takes_bind fun _ => takes_bind fun _ => takes_form fun _ => rfl
  | _ + 6 => takes_none

theorem takes_op14 : ∀ sub, Takes (build 0x14 sub m imm a)
  | 0 => takes_bind fun _ => takes_bind fun _ => takes_bind fun _ => takes_bind fun _ => takes_bind fun _ => takes_form fun _ => rfl
  | 1 | 5 => takes_bind fun _ => takes_bind fun _ => takes_form fun _ => rfl
  | 2 => takes_bind fun _ => takes_form fun _ => rfl
  | 3 | 4 | 6 | 7 => takes_bind fun _ => takes_bind fun _ => takes_bind fun _ => takes_form fun _ => rfl
  | _ + 8 => takes_none

theorem takes_op20 : ∀ sub, Takes (build 0x20 sub m imm a)
  | 0 | 1 | 2 | 3 | 6 | 8 | 9 => takes_bind fun _ => takes_bind fun _ => takes_bind fun _ => takes_form fun _ => rfl
  | 4 | 5 | 7 => takes_bind fun _ => takes_bind fun _ => takes_form fun _ => rfl
  | _ + 10 => takes_none

theorem takes_op21 : ∀ sub, Takes (build 0x21 sub m imm a)
  | 0 | 1 | 2 | 3 => takes_bind fun _ => takes_bind fun _ => takes_bind fun _ => takes_form fun _ => rfl
  | 4 | 5 | 6 | 7 | 8 => takes_bind fun _ => takes_bind fun _ => takes_form fun _ => rfl
  | _ + 9 => takes_none

theorem takes_op22 : ∀ sub, Takes (build 0x22 sub m imm a)
  | 0 | 1 | 2 => takes_bind fun _ => takes_bind fun _ => takes_bind fun _ => takes_bind fun _ => takes_form fun _ => rfl
  | 3 | 4 => takes_bind fun _ => takes_bind fun _ => takes_bind fun _ => takes_form fun _ => rfl
  | _ + 5 => takes_none

theorem takes_op23 : ∀ sub, Takes (build 0x23 sub m imm a)
  | 0 => takes_bind fun _ => takes_bind fun _ => takes_bind fun _ => takes_bind fun _ => takes_bind fun _ => takes_form fun _ => rfl
  | 1 | 2 | 4 => takes_bind fun _ => takes_bind fun _ => takes_bind fun _ => takes_bind fun _ => takes_form fun _ => rfl
  | 3 => takes_bind fun _ => takes_form fun _ => rfl
  | _ + 5 => takes_none

theorem takes_op24 : ∀ sub, Takes (build 0x24 sub m imm a)
  | 0 | 1 | 2 | 3 | 4 | 5 | 6 => takes_bind fun _ => takes_form fun _ => rfl
  | _ + 7 => takes_none

theorem takes_op30 : ∀ sub, Takes (build 0x30 sub m imm a)
  | 0 | 1 | 4 => takes_bind fun _ => takes_bind fun _ => takes_bind fun _ => takes_bind fun _ => takes_bind fun _ => takes_bind fun _ =>
    takes_bind fun _ => takes_idx fun _ _ => rfl
  | 2 => takes_bind fun _ => takes_bind fun _ => takes_inner fun x => by
    split
    · exact takes_form fun _ => rfl
    · exact takes_form fun _ => rfl
    · exact takes_refused
  | 3 => takes_bind fun _ => takes_inner fun x => by
    split
    · exact takes_form fun _ => rfl
    · exact takes_form fun _ => rfl
    · exact takes_form fun _ => rfl
    · exact takes_form fun _ => rfl
    · exact takes_form fun _ => rfl
    · exact takes_refused
  | 5 => takes_bind fun _ => takes_bind fun _ => takes_bind fun _ => takes_bind fun _ => takes_form fun _ => rfl
  | _ + 6 => takes_none

theorem takes_op31 : ∀ sub, Takes (build 0x31 sub m imm a)
  | 0 | 1 | 4 => takes_bind fun _ => takes_bind fun _ => takes_idx fun _ _ => rfl
  | 2 | 3 => takes_bind fun _ => takes_bind fun _ => takes_bind fun _ => takes_idx fun _ _ => rfl
  | _ + 5 => takes_none

theorem takes_op32 : ∀ sub, Takes (build 0x32 sub m imm a)
  | 0 => takes_bind fun _ => takes_bind fun _ => takes_bind fun _ => takes_bind fun _ => takes_bind fun _ => takes_bind fun _ =>
    takes_bind fun _ => takes_inner fun _ => takes_inner fun _ => takes_form fun _ => rfl
  | 1 => takes_bind fun _ => takes_bind fun _ => takes_bind fun _ => takes_bind fun _ => takes_bind fun _ => takes_bind fun _ =>
    takes_bind fun _ => takes_idx fun _ _ => rfl
  | _ + 2 => takes_none

theorem takes_op33 : ∀ sub, Takes (build 0x33 sub m imm a)
  | 0 => takes_bind fun _ => takes_bind fun _ => takes_bind fun _ => takes_bind fun _ => takes_bind fun _ => takes_bind fun _ =>
    takes_bind fun _ => takes_bind fun _ => takes_inner fun _ => takes_inner fun _ => takes_form fun _ => rfl
  | _ + 1 => takes_none

theorem takes_op34 : ∀ sub, Takes (build 0x34 sub m imm a)
  | 0 => takes_bind fun _ => takes_bind fun _ => takes_bind fun _ => takes_bind fun _ => takes_inner fun x => by
    split
    · exact takes_form fun _ => rfl
    · exact takes_form fun _ => rfl
    · exact takes_refused
  | 1 | 2 => takes_bind fun _ => takes_form fun _ => rfl
  | _ + 3 => takes_none

theorem takes_op35 : ∀ sub, Takes (build 0x35 sub m imm a)
  | 0 => takes_bind fun _ => takes_bind fun _ => takes_ite (takes_form fun _ => rfl) (takes_ite (takes_form fun _ => rfl) takes_refused)
  | 1 | 2 => takes_bind fun _ => takes_bind fun _ => takes_ite (takes_form fun _ => rfl) takes_refused
  | 3 => takes_bind fun _ => takes_form fun _ => rfl
  | 4 => takes_bind fun _ => takes_ite (takes_form fun _ => rfl) (takes_ite (takes_form fun _ => rfl) takes_refused)
  | _ + 5 => takes_none

theorem takes_op36 : ∀ sub, Takes (build 0x36 sub m imm a)
  | 0 => takes_bind fun _ => takes_bind fun _ => takes_bind fun _ => takes_inner fun x => by
    split
    · exact takes_form fun _ => rfl
    · exact takes_form fun _ => rfl
    · exact takes_refused
  | _ + 1 => takes_none

theorem takes_op40 : ∀ sub, Takes (build 0x40 sub m imm a)
  | 0 | 1 | 2 | 3 | 4 | 5 | 6 => takes_bind fun _ => takes_form fun _ => rfl
  | _ + 7 => takes_none

theorem takes_op41 : ∀ sub, Takes (build 0x41 sub m imm a)
  | 0 | 1 | 2 | 3 | 4 => takes_bind fun _ => takes_form fun _ => rfl
  | _ + 5 => takes_none

theorem takes_op42 : ∀ sub, Takes (build 0x42 sub m imm a)
  | 0 | 1 => takes_bind fun _ => takes_bind fun _ => takes_bind fun _ => takes_bind fun _ => takes_bind fun _ => takes_bind fun _ =>
    takes_idx fun _ _ => rfl
  | _ + 2 => takes_none

theorem takes_op43 : ∀ sub, Takes (build 0x43 sub m imm a)
  | 0 | 1 | 2 | 3 => takes_bind fun _ => takes_bind fun _ => takes_bind fun _ => takes_form fun _ => rfl
  | _ + 4 => takes_none

theorem takes_op44 : ∀ sub, Takes (build 0x44 sub m imm a)
  | 0 => takes_bind fun _ => takes_form fun _ => rfl
  | 1 => takes_orElse (takes_bind fun _ => takes_bind fun _ => takes_bind fun _ => takes_form fun _ => rfl)
    (takes_bind fun _ => takes_bind fun _ => takes_bind fun _ => takes_form fun _ => rfl)
  | 2 => takes_bind fun _ => takes_bind fun _ => takes_bind fun _ => takes_form fun _ => rfl
  | _ + 3 => takes_none

theorem takes_op50 : ∀ sub, Takes (build 0x50 sub m imm a)
  | 0 | 4 => takes_bind fun _ => takes_form fun _ => rfl
  | 1 | 2 | 3 => takes_bind fun _ => takes_bind fun _ => takes_bind fun _ => takes_form fun _ => rfl
  | _ + 5 => takes_none

theorem takes_op51 : ∀ sub, Takes (build 0x51 sub m imm a)
  | 0 | 1 | 2 | 3 | 4 | 5 | 6 => takes_bind fun _ => takes_form fun _ => rfl
  | _ + 7 => takes_none

theorem takes_op60 : ∀ sub, Takes (build 0x60 sub m imm a)
  | 0 | 1 | 2 | 3 => takes_bind fun _ => takes_form fun _ => rfl
  | _ + 4 => takes_none

theorem takes_op61 : ∀ sub, Takes (build 0x61 sub m imm a)
  | 0 | 1 | 2 | 3 | 4 => takes_bind fun _ => takes_form fun _ => rfl
  | _ + 5 => takes_none

theorem takes_op70 : ∀ sub, Takes (build 0x70 sub m imm a)
  | 0 | 1 | 2 => takes_bind fun _ => takes_form fun _ => rfl
  | 3 => takes_orElse (takes_bind fun _ => takes_bind fun _ => takes_form fun _ => rfl)
    (takes_orElse (takes_bind fun _ => takes_form fun _ => rfl) (takes_bind fun _ => takes_form fun _ => rfl))
  | _ + 4 => takes_none

/-- The opcodes to which R86 gives forms. -/
def opcodes : List Nat := [0x01, 0x02, 0x03, 0x04, 0x10, 0x11, 0x12, 0x14, 0x20, 0x21, 0x22, 0x23, 0x24, 0x30, 0x31, 0x32, 0x33, 0x34, 0x35,
  0x36, 0x40, 0x41, 0x42, 0x43, 0x44, 0x50, 0x51, 0x60, 0x61, 0x70]

theorem takes_opcodes : ∀ op ∈ opcodes, ∀ sub, Takes (build op sub m imm a) := by
  simp only [opcodes, List.forall_mem_cons]
  exact ⟨takes_op01 m imm a, takes_op02 m imm a, takes_op03 m imm a, takes_op04 m imm a, takes_op10 m imm a, takes_op11 m imm a,
    takes_op12 m imm a, takes_op14 m imm a, takes_op20 m imm a, takes_op21 m imm a, takes_op22 m imm a, takes_op23 m imm a,
    takes_op24 m imm a, takes_op30 m imm a, takes_op31 m imm a, takes_op32 m imm a, takes_op33 m imm a, takes_op34 m imm a,
    takes_op35 m imm a, takes_op36 m imm a, takes_op40 m imm a, takes_op41 m imm a, takes_op42 m imm a, takes_op43 m imm a,
    takes_op44 m imm a, takes_op50 m imm a, takes_op51 m imm a, takes_op60 m imm a, takes_op61 m imm a, takes_op70 m imm a,
    List.forall_mem_nil _⟩

/-- An opcode without forms makes nothing. -/
theorem build_unassigned {op : Nat} (sub : Nat) (h : op ∉ opcodes) : build op sub m imm a = none := by
  rcases Nat.lt_or_ge op 0x71 with hlt | hge
  · interval_cases op <;> simp [opcodes] at h <;> rfl
  · obtain ⟨n, rfl⟩ := Nat.exists_eq_add_of_le' hge
    rfl

theorem build_takes (op sub : Nat) : Takes (build op sub m imm a) := by
  by_cases h : op ∈ opcodes
  · exact takes_opcodes m imm a op h sub
  · rw [build_unassigned m imm a sub h]
    exact takes_none

end Takes

end Sys2Proof
end

section
namespace Sys2Proof

/-! The operands of a word (R74, R76) -/

theorem SReg.code_range (r : SReg) : 0x188 ≤ r.code ∧ r.code < 0x200 := by cases r <;> decide

theorem SReg.ofCode_code (r : SReg) : SReg.ofCode r.code = some r := by cases r <;> rfl

theorem Opnd.code_lt (y : Opnd) : y.code < 1024 := by
  cases y with
  | sr r => exact r.code_range.2.trans (by decide)
  | v n | s n | q n | k n | pair n => have := n.isLt; simp only [Opnd.code]; omega
  | absent => decide
  | immI kd x => exact (by decide : 0x3FF < 1024)
  | immC x => exact (by decide : 0x3FF < 1024)

/-- A field that holds an operand's code names it; 0x3FF names what X says. -/
theorem Opnd.ofCode_code {im : Option Opnd} {y : Opnd} (h : y.isImm = true → im = some y) : Opnd.ofCode im y.code = some y := by
  cases y with
  | v n =>
    have := n.isLt
    rw [show (Opnd.v n).code = n.toNat from rfl, Opnd.ofCode, if_pos (by omega)]
    simp
  | s n =>
    have := n.isLt
    rw [show (Opnd.s n).code = 0x100 + n.toNat from rfl, Opnd.ofCode, if_neg (by omega), if_pos (by omega)]
    simp
  | q n =>
    have := n.isLt
    rw [show (Opnd.q n).code = 0x180 + n.toNat from rfl, Opnd.ofCode, if_neg (by omega), if_neg (by omega), if_pos (by omega)]
    simp
  | sr r =>
    obtain ⟨hlo, hhi⟩ := r.code_range
    rw [show (Opnd.sr r).code = r.code from rfl, Opnd.ofCode, if_neg (by omega), if_neg (by omega), if_neg (by omega), if_pos hhi, r.ofCode_code]
    rfl
  | k n =>
    have := n.isLt
    rw [show (Opnd.k n).code = 0x200 + n.toNat from rfl, Opnd.ofCode, if_neg (by omega), if_neg (by omega), if_neg (by omega), if_neg (by omega), if_pos (by omega)]
    simp
  | pair n =>
    have := n.isLt
    rw [show (Opnd.pair n).code = 0x300 + n.toNat from rfl, Opnd.ofCode, if_neg (by omega), if_neg (by omega), if_neg (by omega), if_neg (by omega), if_neg (by omega), if_pos (by omega)]
    simp
  | absent => rfl
  | immI kd x => exact h rfl
  | immC x => exact h rfl

/-- What X holds of the operands' values: the value of the one immediate, or zero. -/
def Args.imm (o : Args) : Nat := ([o.d, o.a, o.b, o.c].map Opnd.immBits).sum

/-- X of a form whose layout is `k`; `imm24` is what the form itself puts into IMM24. -/
def Args.xfield (o : Args) (imm24 : Nat) : XKind → Nat
  | .iform => o.imm
  | .cform => o.c.code * 0x1000000 + o.imm
  | .fixed => o.c.code * 0x1000000 + imm24

theorem immBits_eq_zero {y : Opnd} (h : y.isImm = false) : y.immBits = 0 := by
  cases y with
  | immI | immC => cases h
  | _ => rfl

theorem sum_immBits_eq_zero {l : List Opnd} (h : ∀ y ∈ l, y.isImm = false) : (l.map Opnd.immBits).sum = 0 :=
  List.sum_eq_zero fun _ hx => by
    obtain ⟨y, hy, rfl⟩ := List.mem_map.mp hx
    exact immBits_eq_zero (h y hy)

/-- With one immediate among the operands, X holds its value. -/
theorem sum_immBits {l : List Opnd} (h : l.countP Opnd.isImm ≤ 1) {y : Opnd} (hy : y ∈ l) (hi : y.isImm = true) :
    (l.map Opnd.immBits).sum = y.immBits := by
  induction l with
  | nil => cases hy
  | cons z l ih =>
    rw [List.countP_cons] at h
    rw [List.map_cons, List.sum_cons]
    cases hz : z.isImm with
    | true =>
      rw [if_pos hz] at h
      have hl : ∀ y ∈ l, y.isImm = false := fun y hy => by
        simpa using List.countP_eq_zero.mp (by omega : l.countP Opnd.isImm = 0) y hy
      rcases List.mem_cons.mp hy with rfl | hy
      · rw [sum_immBits_eq_zero hl, Nat.add_zero]
      · rw [hl y hy] at hi; cases hi
    | false =>
      rcases List.mem_cons.mp hy with rfl | hy
      · rw [hz] at hi; cases hi
      · rw [immBits_eq_zero hz, Nat.zero_add, ih (by omega) hy]

theorem immI_of_bits (kd : BitVec 2) (x : BitVec 32) : let n := (Opnd.immI kd x).immBits
    Opnd.immI (BitVec.ofNat 2 (bitsOf n 32 2)) (BitVec.ofNat 32 (bitsOf n 0 32)) = .immI kd x := by
  have := kd.isLt; have := x.isLt
  simp only [Opnd.immBits, Opnd.immI.injEq, ofNat_iff, bitsOf_eq]
  omega

theorem immC_of_bits (c : Nat) (x : BitVec 24) :
    Opnd.immC (BitVec.ofNat 24 (bitsOf (c * 0x1000000 + (Opnd.immC x).immBits) 0 24)) = .immC x := by
  have := x.isLt
  simp only [Opnd.immBits, Opnd.immC.injEq, ofNat_iff, bitsOf_eq]
  omega

/-- What 0x3FF stands for in a word whose X has layout `k` (R76). -/
def Fields.imm (f : Fields) : XKind → Option Opnd
  | .iform => some (.immI (BitVec.ofNat 2 (bitsOf f.x 32 2)) (BitVec.ofNat 32 (bitsOf f.x 0 32)))
  | .cform => some (.immC (BitVec.ofNat 24 (bitsOf f.x 0 24)))
  | .fixed => none

/-- R76: X is zero where no operand takes its value. -/
def Fields.noImm (f : Fields) (k : XKind) : Bool :=
  k == .fixed || (if k == .iform then f.x == 0 else bitsOf f.x 0 24 == 0)

theorem Fields.args_eq (f : Fields) (k : XKind) : f.args k =
    (Opnd.ofCode (f.imm k) f.d).bind fun d => (Opnd.ofCode (f.imm k) f.a).bind fun a => (Opnd.ofCode (f.imm k) f.b).bind fun b =>
    (if k = XKind.iform then some .absent else Opnd.ofCode (f.imm k) (bitsOf f.x 24 10)).bind fun c =>
    Option.bind (guard (k == .fixed || (d.isImm || a.isImm || b.isImm || c.isImm) ||
      (if k == .iform then f.x == 0 else bitsOf f.x 0 24 == 0))) fun _ =>
    some { h := f.h, d := d, a := a, b := b, c := c } := by
  cases k <;> rfl

/-- The operands are read back from their codes and from X. -/
theorem Fields.args_of {f : Fields} {k : XKind} {o : Args} (hh : f.h = o.h) (hd : f.d = o.d.code) (ha : f.a = o.a.code) (hb : f.b = o.b.code)
    (hc : if k = .iform then o.c = .absent else bitsOf f.x 24 10 = o.c.code)
    (him : ∀ y ∈ [o.d, o.a, o.b, o.c], y.isImm = true → f.imm k = some y)
    (hzero : (∀ y ∈ [o.d, o.a, o.b, o.c], y.isImm = false) → f.noImm k = true) : f.args k = some o := by
  have hread : ∀ y ∈ [o.d, o.a, o.b, o.c], Opnd.ofCode (f.imm k) y.code = some y := fun y hy => Opnd.ofCode_code (him y hy)
  have hcread : (if k = .iform then some .absent else Opnd.ofCode (f.imm k) (bitsOf f.x 24 10)) = some o.c := by
    by_cases hk : k = .iform
    · rw [if_pos hk] at hc
      rw [if_pos hk, hc]
    · rw [if_neg hk] at hc
      rw [if_neg hk, hc]
      exact hread o.c (by simp)
  have hguard : (k == .fixed || (o.d.isImm || o.a.isImm || o.b.isImm || o.c.isImm) ||
      (if k == .iform then f.x == 0 else bitsOf f.x 0 24 == 0)) = true := by
    cases hany : o.d.isImm || o.a.isImm || o.b.isImm || o.c.isImm with
    | true => simp
    | false =>
      simp only [Bool.or_eq_false_iff] at hany
      obtain ⟨⟨⟨h1, h2⟩, h3⟩, h4⟩ := hany
      rw [Bool.or_false]
      exact hzero (by simp [h1, h2, h3, h4])
  rw [Fields.args_eq, hd, ha, hb, hh, hread o.d (by simp), hread o.a (by simp), hread o.b (by simp), hcread]
  simp only [Option.bind_some, hguard, guard, if_true]
  rfl

theorem immBits_lt (y : Opnd) : y.immBits < 2 ^ 34 := by
  cases y with
  | immI kd x =>
    have := kd.isLt; have := x.isLt
    simp only [Opnd.immBits]; omega
  | immC x => exact x.isLt.trans (by decide)
  | _ => exact (by decide : 0 < 2 ^ 34)

/-- X's values come from none of the operands, or from one. -/
theorem imm_none_or_one {o : Args} (h : [o.d, o.a, o.b, o.c].countP Opnd.isImm ≤ 1) :
    o.imm = 0 ∨ ∃ y ∈ [o.d, o.a, o.b, o.c], y.isImm = true ∧ o.imm = y.immBits := by
  by_cases hno : ∀ y ∈ [o.d, o.a, o.b, o.c], y.isImm = false
  · exact .inl (sum_immBits_eq_zero hno)
  · push Not at hno
    obtain ⟨y, hy, hi⟩ := hno
    have hi : y.isImm = true := by simpa using hi
    exact .inr ⟨y, hy, hi, sum_immBits h hy hi⟩

theorem cform_value {o : Args} (hok : XKind.cform.ok o = true) {y : Opnd} (hy : y ∈ [o.d, o.a, o.b, o.c]) (hi : y.isImm = true) :
    ∃ v, y = .immC v ∧ o.imm = (Opnd.immC v).immBits := by
  simp only [XKind.ok, Bool.and_eq_true, decide_eq_true_eq, List.all_eq_true] at hok
  obtain ⟨hcount, hlayout⟩ := hok
  cases y with
  | immC v => exact ⟨v, rfl, sum_immBits hcount hy hi⟩
  | immI kd x => exact nomatch hlayout _ hy
  | _ => cases hi

theorem cform_imm_lt {o : Args} (hok : XKind.cform.ok o = true) : o.imm < 2 ^ 24 := by
  obtain h | ⟨y, hy, hi, -⟩ := imm_none_or_one (o := o) (by simp only [XKind.ok, Bool.and_eq_true, decide_eq_true_eq] at hok; exact hok.1)
  · rw [h]; decide
  · obtain ⟨v, -, hv⟩ := cform_value hok hy hi
    exact hv ▸ v.isLt

/-- What is put into X fits it. -/
theorem xfield_lt {o : Args} {k : XKind} {imm : Nat} (hok : k.ok o = true) (himm : imm < 2 ^ 24) : o.xfield imm k < 2 ^ 34 := by
  have hcode := o.c.code_lt
  cases k with
  | iform =>
    simp only [XKind.ok, Bool.and_eq_true, decide_eq_true_eq] at hok
    obtain h | ⟨y, -, -, h⟩ := imm_none_or_one hok.1
    · rw [Args.xfield, h]; decide
    · rw [Args.xfield, h]; exact immBits_lt y
  | cform =>
    have := cform_imm_lt hok
    simp only [Args.xfield]; omega
  | fixed => simp only [Args.xfield]; omega

/-- An instruction's operands are read back from the fields of its word. -/
theorem Fields.args_xfield {f : Fields} {k : XKind} {o : Args} {imm : Nat} (hh : f.h = o.h) (hd : f.d = o.d.code) (ha : f.a = o.a.code)
    (hb : f.b = o.b.code) (hx : f.x = o.xfield imm k) (himm : imm < 2 ^ 24) (hok : k.ok o = true) (hc : k = .iform → o.c = .absent) :
    f.args k = some o := by
  have hcode := o.c.code_lt
  cases k with
  | iform =>
    simp only [XKind.ok, Bool.and_eq_true, decide_eq_true_eq, List.all_eq_true] at hok
    obtain ⟨hcount, hlayout⟩ := hok
    refine Fields.args_of hh hd ha hb (hc rfl) (fun y hy hi => ?_) fun hno => ?_
    · rw [Fields.imm, hx.trans (sum_immBits hcount hy hi)]
      cases y with
      | immI kd x => rw [immI_of_bits]
      | immC x => exact nomatch hlayout _ hy
      | _ => cases hi
    · rw [Fields.noImm, hx.trans (sum_immBits_eq_zero hno)]
      rfl
  | cform =>
    have hlt := cform_imm_lt hok
    refine Fields.args_of hh hd ha hb ?_ (fun y hy hi => ?_) fun hno => ?_
    · rw [if_neg (by decide), hx, Args.xfield, bitsOf_eq]; omega
    · obtain ⟨v, rfl, hv⟩ := cform_value hok hy hi
      rw [Fields.imm, hx, Args.xfield, hv, immC_of_bits]
    · rw [Fields.noImm, hx, Args.xfield, Args.imm, sum_immBits_eq_zero hno, bitsOf_eq]
      simp
  | fixed =>
    simp only [XKind.ok, beq_iff_eq] at hok
    have hno : ∀ y ∈ [o.d, o.a, o.b, o.c], y.isImm = false := fun y hy => by simpa using List.countP_eq_zero.mp hok y hy
    refine Fields.args_of hh hd ha hb ?_ (fun y hy hi => ?_) fun _ => rfl
    · rw [if_neg (by decide), hx, Args.xfield, bitsOf_eq]; omega
    · rw [hno y hy] at hi; cases hi

end Sys2Proof
end

section
namespace Sys2Proof

/-! The encoder's M and IMM24 of an instruction, which `build` reads back -/

theorem encoded {o : Args} {p : Nat × Nat} {P : Args → Nat × Nat → Prop} (h : P o p) :
    ∀ o' p', some o = some o' → some p = some p' → P o' p' := by
  rintro _ _ ⟨⟩ ⟨⟩
  exact h

theorem okArgs_iff {x : XKind} {r : URule} {o : Args} {d a b c : Bool} : okArgs x r o d a b c = true ↔
    x.ok o = true ∧ r.ok o = true ∧ d = true ∧ a = true ∧ b = true ∧ c = true := by
  simp only [okArgs, Bool.and_eq_true, and_assoc]

theorem mlayout_const {m : Nat} (c : Nat) (hm : m = c) (hc : c < 1024 := by decide) : m < 1024 := hm ▸ hc

/-- The forms of control and predicates. -/
theorem build_makes_control {i : Instr} {m imm : Nat} (hfam : i.opsub.map (·.1 / 16) = some 0) (hm : m = i.mbits) (himm : imm = i.imm24)
    (h : i.wf = true) : m < 1024 ∧ ∀ o p, i.args = some o → i.opsub = some p → Makes (build p.1 p.2 m imm o.a.code) o i := by
  have hcode := beq_iff_eq.mpr hm
  cases i with
  | nop o | yieldI o | exitI o | trapI o | bkpt o | jmp o | callx o | ret o | joinI o | wsync o | pand o | por o | pxor o
  | pnot o | pget o =>
    exact ⟨mlayout_const 0 hm, encoded <| makes_guard hcode <| makes_form rfl⟩
  | fbk off o | bra off o | callI off o | recon off o =>
    exact ⟨mlayout_const 0 hm, encoded <| makes_guard hcode <| makes_form (by simp [himm, Instr.imm24])⟩
  | brx rj off o =>
    have hlt := b2n_lt rj
    obtain rfl : bitOf m 0 = rj := by rw [bitOf_iff, hm]; simp only [Instr.mbits]; omega
    exact ⟨by rw [hm]; exact hlt.trans (by decide), encoded <| makes_guard hcode <| makes_form (by simp [himm, Instr.imm24])⟩
  | pathq k o =>
    obtain ⟨rfl, hlt⟩ := mlayout_index hm
    exact ⟨hlt, encoded <| makes_guard hcode <| makes_form rfl⟩
  | psetM o => exact ⟨mlayout_const 0 hm, encoded <| makes_left <| makes_guard hcode <| makes_form rfl⟩
  | psetP o => exact ⟨mlayout_const 1 hm, encoded <| makes_right (by rw [hm]; rfl) <| makes_guard hcode <| makes_form rfl⟩
  | _ => exact nomatch hfam

/-- The forms of integers and the lane crossbar. -/
theorem build_makes_int {i : Instr} {m imm : Nat} (hfam : i.opsub.map (·.1 / 16) = some 1) (hm : m = i.mbits) (himm : imm = i.imm24)
    (h : i.wf = true) : m < 1024 ∧ ∀ o p, i.args = some o → i.opsub = some p → Makes (build p.1 p.2 m imm o.a.code) o i := by
  have hcode := beq_iff_eq.mpr hm
  cases i with
  | ballot o =>
    exact ⟨mlayout_const 0 hm, encoded <| makes_guard hcode <| makes_form rfl⟩
  | iadd sat t o | isub sat t o | imul sat t o | imad sat t o | iabs sat t o | ineg sat t o =>
    obtain ⟨rfl, ht, hlt⟩ := mlayout_flag hm t.code_lt
    exact ⟨hlt, encoded <| makes_field ITy.codec t ht <| makes_guard hcode <| makes_form rfl⟩
  | iaddc t o | isubb t o | imulh t o | idiv t o | irem t o | imin t o | imax t o | isat t o | andI t o | orI t o | xorI t o
  | notI t o | andn t o | shl t o | shr t o | sar t o | rotl t o | bfe t o | bfi t o | popc t o | clz t o | ctz t o | brev t o
  | isel t o | mov t o | matchL t o =>
    obtain ⟨ht, hlt⟩ := mlayout_low hm t.code_lt
    exact ⟨hlt, encoded <| makes_field ITy.codec t ht <| makes_guard hcode <| makes_form rfl⟩
  | bsel t o | movi t o | rdlane t o | wrlane t o =>
    obtain ⟨ht, hlt⟩ := mlayout_low hm t.code_lt
    exact ⟨hlt, encoded <| makes_field ITy.codec t ht <| makes_guard (Bool.and_eq_true_iff.mp h).2 <| makes_guard hcode <| makes_form rfl⟩
  | icmp cc t o =>
    obtain ⟨hc, ht, hlt⟩ := mlayout_two hm cc.code_lt t.code_lt
    exact ⟨hlt, encoded <| makes_field Cc.codec cc hc <| makes_field ITy.codec t ht <| makes_guard hcode <| makes_form rfl⟩
  | redux op t o =>
    obtain ⟨hop, ht, hlt⟩ := mlayout_two hm op.code_lt t.code_lt
    exact ⟨hlt, encoded <| makes_field RedOp.codec op hop <| makes_field ITy.codec t ht <| makes_guard hcode <| makes_form rfl⟩
  | lea scale t disp o =>
    obtain ⟨hs, ht, hlt⟩ := mlayout_two hm (scale.isLt.trans (by decide)) t.code_lt
    exact ⟨hlt, encoded <| makes_field scaleCodec scale hs <| makes_field ITy.codec t ht <|
      makes_guard (Bool.and_eq_true_iff.mp h).2 <| makes_guard hcode <| makes_form (by simp [himm, Instr.imm24])⟩
  | cvti sat sty t o =>
    obtain ⟨rfl, hs, ht, hlt⟩ := mlayout_cvti hm sty.code_lt t.code_lt
    exact ⟨hlt, encoded <| makes_field ITy.codec sty hs <| makes_field ITy.codec t ht <| makes_guard hcode <| makes_form rfl⟩
  | shfl mode seg t o =>
    obtain ⟨hmode, hseg, ht, hlt⟩ := mlayout_convert hm mode.code_lt seg.code_lt t.code_lt
    exact ⟨hlt, encoded <| makes_field ShMode.codec mode hmode <| makes_field Seg.codec seg hseg <| makes_field ITy.codec t ht <|
      makes_guard (Bool.and_eq_true_iff.mp h).2 <| makes_guard hcode <| makes_form rfl⟩
  | vote mode o =>
    obtain ⟨hmode, hlt⟩ := mlayout_vote hm mode.code_lt
    exact ⟨hlt, encoded <| makes_field VMode.codec mode hmode <| makes_guard hcode <| makes_form rfl⟩
  | scan op excl t o =>
    obtain ⟨rfl, hop, ht, hlt⟩ := mlayout_scan hm op.code_lt t.code_lt
    exact ⟨hlt, encoded <| makes_field RedOp.codec op hop <| makes_field ITy.codec t ht <| makes_guard hcode <| makes_form rfl⟩
  | _ => exact nomatch hfam

/-- The forms of floating point. -/
theorem build_makes_float {i : Instr} {m imm : Nat} (hfam : i.opsub.map (·.1 / 16) = some 2) (hm : m = i.mbits) (himm : imm = i.imm24)
    (h : i.wf = true) : m < 1024 ∧ ∀ o p, i.args = some o → i.opsub = some p → Makes (build p.1 p.2 m imm o.a.code) o i := by
  have hcode := beq_iff_eq.mpr hm
  cases i with
  | setfmt o | getfmt o | jbexp o | jbpack o | jbunpack o | rdflags o | clrflags o =>
    exact ⟨mlayout_const 0 hm, encoded <| makes_guard hcode <| makes_form rfl⟩
  | fadd rm f o | fsub rm f o | fmul rm f o | ffma rm f o | fscale rm f o | frnd rm f o | frcp rm f o | frsq rm f o
  | fsqrt rm f o | fdiv rm f o =>
    obtain ⟨hrm, hf, hlt⟩ := mlayout_mode hm rm.code_lt f.code_lt
    exact ⟨hlt, encoded <| makes_field Rm.codec rm hrm <| makes_field FTy.codec f hf <| makes_guard hcode <| makes_form rfl⟩
  | hadd2 rm f o | hmul2 rm f o | hfma2 rm f o | dot2 rm f o =>
    obtain ⟨hrm, hf, hlt⟩ := mlayout_mode hm rm.code_lt f.code_lt
    exact ⟨hlt, encoded <| makes_field Rm.codec rm hrm <| makes_field FTy.codec f hf <| makes_guard (Bool.and_eq_true_iff.mp h).2 <|
      makes_guard hcode <| makes_form rfl⟩
  | fmin prop f o | fmax prop f o =>
    obtain ⟨rfl, hf, hlt⟩ := mlayout_prop hm f.code_lt
    exact ⟨hlt, encoded <| makes_field FTy.codec f hf <| makes_guard hcode <| makes_form rfl⟩
  | hmin2 prop f o | hmax2 prop f o =>
    obtain ⟨rfl, hf, hlt⟩ := mlayout_prop hm f.code_lt
    exact ⟨hlt, encoded <| makes_field FTy.codec f hf <| makes_guard (Bool.and_eq_true_iff.mp h).2 <| makes_guard hcode <| makes_form rfl⟩
  | fcmp cc sig f o =>
    obtain ⟨rfl, hc, hf, hlt⟩ := mlayout_fcmp hm cc.code_lt f.code_lt
    exact ⟨hlt, encoded <| makes_field FCc.codec cc hc <| makes_field FTy.codec f hf <| makes_guard hcode <| makes_form rfl⟩
  | fclass f o | fexp2 f o | flog2 f o | fsin f o | fcos f o | ftanh f o =>
    obtain ⟨hf, hlt⟩ := mlayout_low hm f.code_lt
    exact ⟨hlt, encoded <| makes_field FTy.codec f hf <| makes_guard hcode <| makes_form rfl⟩
  | cvt rm sf f o =>
    obtain ⟨hrm, hs, hf, hlt⟩ := mlayout_convert hm rm.code_lt sf.code_lt f.code_lt
    exact ⟨hlt, encoded <| makes_field Rm.codec rm hrm <| makes_field FTy.codec sf hs <| makes_field FTy.codec f hf <|
      makes_guard (Bool.and_eq_true_iff.mp h).2 <| makes_guard hcode <| makes_form rfl⟩
  | cvtfi rm ty f o | cvtif rm ty f o =>
    obtain ⟨hrm, ht, hf, hlt⟩ := mlayout_convert hm rm.code_lt ty.code_lt f.code_lt
    exact ⟨hlt, encoded <| makes_field Rm.codec rm hrm <| makes_field ITy.codec ty ht <| makes_field FTy.codec f hf <|
      makes_guard hcode <| makes_form rfl⟩
  | dot4 au bu sat o =>
    obtain ⟨rfl, rfl, rfl, hlt⟩ := mlayout_dot4 hm
    exact ⟨hlt, encoded <| makes_guard hcode <| makes_form rfl⟩
  | _ => exact nomatch hfam

/-- The forms of memory. -/
theorem build_makes_mem {i : Instr} {m imm : Nat} (hfam : i.opsub.map (·.1 / 16) = some 3) (hm : m = i.mbits) (himm : imm = i.imm24)
    (h : i.wf = true) : m < 1024 ∧ ∀ o p, i.args = some o → i.opsub = some p → Makes (build p.1 p.2 m imm o.a.code) o i := by
  have hcode := beq_iff_eq.mpr hm
  cases i with
  | cpclose o | cpwait o | tlwait o =>
    exact ⟨mlayout_const 0 hm, encoded <| makes_guard hcode <| makes_form rfl⟩
  | ld hint ord sc sz x o | st hint ord sc sz x o | cas hint ord sc sz x o =>
    obtain ⟨hhint, hord, hsc, hsz, hlt⟩ := mlayout_access hm hint.code_lt ord.code_lt sc.code_lt sz.code_lt
    obtain ⟨hwf, hlast⟩ := Bool.and_eq_true_iff.mp h
    exact ⟨hlt, encoded <| makes_field Hint.codec hint hhint <| makes_field Ord.codec ord hord <| makes_field Scope.codec sc hsc <|
      makes_field Size.codec sz hsz <| makes_guard (Bool.and_eq_true_iff.mp hwf).2 <| makes_guard hlast <| makes_guard hcode <| makes_idx himm rfl⟩
  | atom op hint ord sc sz x o =>
    obtain ⟨hhint, hord, hsc, hsz, hlt⟩ := mlayout_access hm hint.code_lt ord.code_lt sc.code_lt sz.code_lt
    obtain ⟨h, -⟩ := Bool.and_eq_true_iff.mp h
    obtain ⟨h, hsize⟩ := Bool.and_eq_true_iff.mp h
    obtain ⟨-, hab⟩ := Bool.and_eq_true_iff.mp h
    exact ⟨hlt, encoded <| makes_field Hint.codec hint hhint <| makes_field Ord.codec ord hord <| makes_field Scope.codec sc hsc <|
      makes_field Size.codec sz hsz <| makes_guard hab <| makes_guard hsize <| makes_guard hcode <| makes_aop himm rfl⟩
  | red op hint ord sc sz x o =>
    obtain ⟨hhint, hord, hsc, hsz, hlt⟩ := mlayout_access hm hint.code_lt ord.code_lt sc.code_lt sz.code_lt
    obtain ⟨h, -⟩ := Bool.and_eq_true_iff.mp h
    obtain ⟨h, hsize⟩ := Bool.and_eq_true_iff.mp h
    obtain ⟨h, hab⟩ := Bool.and_eq_true_iff.mp h
    obtain ⟨-, horder⟩ := Bool.and_eq_true_iff.mp h
    exact ⟨hlt, encoded <| makes_field Hint.codec hint hhint <| makes_field Ord.codec ord hord <| makes_field Scope.codec sc hsc <|
      makes_field Size.codec sz hsz <| makes_guard horder <| makes_guard hab <| makes_guard hsize <| makes_guard hcode <| makes_aop himm rfl⟩
  | prefetch hint x o | prefetchL2 hint x o =>
    obtain ⟨hhint, hlt⟩ := mlayout_hint hm hint.code_lt
    exact ⟨hlt, encoded <| makes_field Hint.codec hint hhint <| makes_guard hcode <| makes_xop himm (by decide) fun hk => by rw [hk]; rfl⟩
  | cctlWb x o | cctlWbinv x o | cctlDemoteEf x o | cctlDemote x o | cctlSettag x o =>
    exact ⟨mlayout_const 0 hm, encoded <| makes_guard hcode <| makes_xop himm (by decide) fun hk => by rw [hk]; rfl⟩
  | mwait ord sc sz x o =>
    obtain ⟨hord, hsc, hsz, hlt⟩ := mlayout_ordered hm ord.code_lt sc.code_lt sz.code_lt
    obtain ⟨h, hsize⟩ := Bool.and_eq_true_iff.mp h
    obtain ⟨h, hab⟩ := Bool.and_eq_true_iff.mp h
    obtain ⟨-, horder⟩ := Bool.and_eq_true_iff.mp h
    exact ⟨hlt, encoded <| makes_field Ord.codec ord hord <| makes_field Scope.codec sc hsc <| makes_field Size.codec sz hsz <|
      makes_guard horder <| makes_guard hab <| makes_guard hsize <| makes_guard hcode <| makes_idx himm rfl⟩
  | fence ord sc o =>
    obtain ⟨hord, hsc, hlt⟩ := mlayout_fence hm ord.code_lt sc.code_lt
    exact ⟨hlt, encoded <| makes_field Ord.codec ord hord <| makes_field Scope.codec sc hsc <|
      makes_guard (Bool.and_eq_true_iff.mp h).2 <| makes_guard hcode <| makes_form rfl⟩
  | lds sz x o | sts sz x o | ldc sz x o =>
    obtain ⟨hsz, hlt⟩ := mlayout_low hm sz.code_lt
    exact ⟨hlt, encoded <| makes_field Size.codec sz hsz <| makes_guard hcode <| makes_idx himm rfl⟩
  | ldacc sz x o | stacc sz x o =>
    obtain ⟨hsz, hlt⟩ := mlayout_low hm sz.code_lt
    exact ⟨hlt, encoded <| makes_field Size.codec sz hsz <| makes_guard (Bool.and_eq_true_iff.mp h).2 <| makes_guard hcode <| makes_idx himm rfl⟩
  | cpl hint sz x o | cplOut hint sz x o =>
    obtain ⟨hhint, hsz, hlt⟩ := mlayout_sized hm hint.code_lt sz.code_lt
    exact ⟨hlt, encoded <| makes_field Hint.codec hint hhint <| makes_field Size.codec sz hsz <| makes_guard (Bool.and_eq_true_iff.mp h).2 <|
      makes_guard hcode <| makes_xop himm (by decide) fun hk => by rw [hk]; rfl⟩
  | cptAb hint o | cptWb hint o | cpts hint o | cpta hint o =>
    obtain ⟨hhint, hlt⟩ := mlayout_hint hm hint.code_lt
    exact ⟨hlt, encoded <| makes_field Hint.codec hint hhint <| makes_guard hcode <| makes_inner (by simp [himm, Instr.imm24])⟩
  | tlreadDone o | tlreadIss o =>
    obtain ⟨-, -, -, ha, -, -⟩ := okArgs_iff.mp h
    exact ⟨mlayout_const 0 hm, encoded <| makes_guard hcode <| makes_inner (by rw [beq_iff_eq.mp ha]; rfl)⟩
  | psigSet sc x o | psigAdd sc x o =>
    obtain ⟨hsc, hlt⟩ := mlayout_scope (.inr (.inr hm)) sc.code_lt
    exact ⟨hlt, encoded <| makes_field Scope.codec sc hsc <| makes_guard (Bool.and_eq_true_iff.mp h).2 <| makes_guard hcode <|
      makes_xop himm (by decide) fun hk => by rw [hk]; rfl⟩
  | _ => exact nomatch hfam

/-- The forms of barriers, queues and rings. -/
theorem build_makes_sync {i : Instr} {m imm : Nat} (hfam : i.opsub.map (·.1 / 16) = some 4) (hm : m = i.mbits) (himm : imm = i.imm24)
    (h : i.wf = true) : m < 1024 ∧ ∀ o p, i.args = some o → i.opsub = some p → Makes (build p.1 p.2 m imm o.a.code) o i := by
  have hcode := beq_iff_eq.mpr hm
  cases i with
  | gbar o =>
    exact ⟨mlayout_const 0 hm, encoded <| makes_guard hcode <| makes_form rfl⟩
  | binit n o | barv n o | bwait n o | bsync n o | bdrop n o | qinit n o | qpush n o | qpop n o | qtry n o | qclose n o =>
    obtain ⟨rfl, hlt⟩ := mlayout_object hm
    exact ⟨hlt, encoded <| makes_guard hcode <| makes_form rfl⟩
  | bstat n k o =>
    obtain ⟨rfl, -, hk, hlt⟩ := mlayout_number hm (k.isLt.trans (by decide))
    obtain rfl : BitVec.ofNat 2 (bitsOf m 0 2) = k := by rw [hk, Nat.mod_eq_of_lt k.isLt, BitVec.ofNat_toNat, BitVec.setWidth_eq]
    exact ⟨hlt, encoded <| makes_guard hcode <| makes_form rfl⟩
  | spawn regblk abclass off o =>
    obtain ⟨rfl, hab, -, hlt⟩ := mlayout_number hm abclass.isLt
    obtain rfl : BitVec.ofNat 3 (bitsOf m 0 3) = abclass := by rw [hab, BitVec.ofNat_toNat, BitVec.setWidth_eq]
    exact ⟨hlt, encoded <| makes_guard hcode <| makes_form (by simp [himm, Instr.imm24])⟩
  | sigwait cond sc sz x o =>
    obtain ⟨hcond, hsc, hsz, hlt⟩ := mlayout_signal hm cond.code_lt sc.code_lt sz.code_lt
    obtain ⟨hwf, hsize⟩ := Bool.and_eq_true_iff.mp h
    exact ⟨hlt, encoded <| makes_field SigCond.codec cond hcond <| makes_field Scope.codec sc hsc <| makes_field Size.codec sz hsz <|
      makes_guard (Bool.and_eq_true_iff.mp hwf).2 <| makes_guard hsize <| makes_guard hcode <| makes_idx himm rfl⟩
  | signal op sc sz x o =>
    obtain ⟨hop, hsc, hsz, hlt⟩ := mlayout_signal hm op.code_lt sc.code_lt sz.code_lt
    obtain ⟨hwf, hsize⟩ := Bool.and_eq_true_iff.mp h
    exact ⟨hlt, encoded <| makes_field SigOp.codec op hop <| makes_field Scope.codec sc hsc <| makes_field Size.codec sz hsz <|
      makes_guard (Bool.and_eq_true_iff.mp hwf).2 <| makes_guard hsize <| makes_guard hcode <| makes_idx himm rfl⟩
  | rgres sc o | rgcmt sc o | rgpop sc o | rgfree sc o | rbclaim sc o =>
    obtain ⟨hsc, hlt⟩ := mlayout_scope (.inl hm) sc.code_lt
    exact ⟨hlt, encoded <| makes_field Scope.codec sc hsc <| makes_guard (Bool.and_eq_true_iff.mp h).2 <| makes_guard hcode <| makes_form rfl⟩
  | rbsurrHold sc o =>
    obtain ⟨hsc, hlt⟩ := mlayout_scope (.inl hm) sc.code_lt
    exact ⟨hlt, encoded <| makes_left <| makes_field Scope.codec sc hsc <| makes_guard (Bool.and_eq_true_iff.mp h).2 <| makes_guard hcode <|
      makes_form rfl⟩
  | rbsurrSkip sc o =>
    obtain ⟨hsc, hlt⟩ := mlayout_scope (.inr (.inl hm)) sc.code_lt
    refine ⟨hlt, encoded <| makes_right ?_ <| makes_field Scope.codec sc hsc <| makes_guard (Bool.and_eq_true_iff.mp h).2 <| makes_guard hcode <|
      makes_form rfl⟩
    rw [hsc, show Scope.ofCode sc.code = some sc from Scope.codec.dec_code sc]
    simp [hm, Instr.mbits, guard]
  | _ => exact nomatch hfam

/-- The forms of the matrix stream. -/
theorem build_makes_matrix {i : Instr} {m imm : Nat} (hfam : i.opsub.map (·.1 / 16) = some 5) (hm : m = i.mbits) (himm : imm = i.imm24)
    (h : i.wf = true) : m < 1024 ∧ ∀ o p, i.args = some o → i.opsub = some p → Makes (build p.1 p.2 m imm o.a.code) o i := by
  have hcode := beq_iff_eq.mpr hm
  cases i with
  | mzero o | madd o | mend o =>
    exact ⟨mlayout_const 0 hm, encoded <| makes_guard hcode <| makes_form rfl⟩
  | mloop off o | mjmp off o =>
    exact ⟨mlayout_const 0 hm, encoded <| makes_guard hcode <| makes_form (by simp [himm, Instr.imm24])⟩
  | marv n o | mwaitb n o | mpop n o | mpush n o =>
    obtain ⟨rfl, hlt⟩ := mlayout_object hm
    exact ⟨hlt, encoded <| makes_guard hcode <| makes_form rfl⟩
  | mma z f ks o | mmas z f ks o =>
    obtain ⟨rfl, hf, hlt⟩ := mlayout_flag hm f.code_lt
    exact ⟨hlt, encoded <| makes_field MFmt.codec f hf <| makes_guard hcode <| makes_guard (himm.trans_lt ks.isLt) <| makes_form (by simp [himm, Instr.imm24])⟩
  | mcvt rm f o =>
    obtain ⟨hrm, hf, hlt⟩ := mlayout_mode hm rm.code_lt f.code_lt
    exact ⟨hlt, encoded <| makes_field Rm.codec rm hrm <| makes_field MFmt.codec f hf <| makes_guard hcode <| makes_form rfl⟩
  | _ => exact nomatch hfam

/-- The forms of Clasp and Filigree. -/
theorem build_makes_region {i : Instr} {m imm : Nat} (hfam : i.opsub.map (·.1 / 16) = some 6) (hm : m = i.mbits) (himm : imm = i.imm24)
    (h : i.wf = true) : m < 1024 ∧ ∀ o p, i.args = some o → i.opsub = some p → Makes (build p.1 p.2 m imm o.a.code) o i := by
  have hcode := beq_iff_eq.mpr hm
  cases i with
  | txe o | txabt o | stepb o | stepe o | fgmark o | rngpush o | rngpop o =>
    exact ⟨mlayout_const 0 hm, encoded <| makes_guard hcode <| makes_form rfl⟩
  | txb off o =>
    exact ⟨mlayout_const 0 hm, encoded <| makes_guard hcode <| makes_form (by simp [himm, Instr.imm24])⟩
  | txst k o =>
    obtain ⟨rfl, hlt⟩ := mlayout_index hm
    exact ⟨hlt, encoded <| makes_guard hcode <| makes_form rfl⟩
  | _ => exact nomatch hfam

/-- The forms of the system. -/
theorem build_makes_system {i : Instr} {m imm : Nat} (hfam : i.opsub.map (·.1 / 16) = some 7) (hm : m = i.mbits) (himm : imm = i.imm24)
    (h : i.wf = true) : m < 1024 ∧ ∀ o p, i.args = some o → i.opsub = some p → Makes (build p.1 p.2 m imm o.a.code) o i := by
  have hcode := beq_iff_eq.mpr hm
  cases i with
  | srd o | swr o | rte o =>
    exact ⟨mlayout_const 0 hm, encoded <| makes_guard hcode <| makes_form rfl⟩
  | tlbiPage sz o =>
    obtain ⟨hsz, hlt⟩ := mlayout_page hm sz.code_lt
    exact ⟨hlt, encoded <| makes_left <| makes_field PgSz.codec sz hsz <| makes_guard hcode <| makes_form rfl⟩
  | tlbiTenant o =>
    exact ⟨mlayout_const 1 hm, encoded <| makes_right (by simp [hm, Instr.mbits, bitsOf, PgSz.ofCode, PgSz.code, guard]) <| makes_left <| makes_guard hcode <| makes_form rfl⟩
  | tlbiAll o =>
    exact ⟨mlayout_const 2 hm, encoded <| makes_right (by simp [hm, Instr.mbits, bitsOf, PgSz.ofCode, PgSz.code, guard]) <| makes_right (by rw [hm]; rfl) <| makes_guard hcode <| makes_form rfl⟩
  | _ => exact nomatch hfam

/-- `build` makes a well-formed instruction from its OP, SUB, M and IMM24, and its M fits. -/
theorem build_makes {i : Instr} {o : Args} {op sub : Nat} (ho : i.args = some o) (hp : i.opsub = some (op, sub)) (hop : op < 128)
    (h : i.wf = true) : i.mbits < 1024 ∧ Makes (build op sub i.mbits i.imm24 o.a.code) o i := by
  suffices hall : i.mbits < 1024 ∧ ∀ o p, i.args = some o → i.opsub = some p → Makes (build p.1 p.2 i.mbits i.imm24 o.a.code) o i from
    ⟨hall.1, hall.2 o (op, sub) ho hp⟩
  have hfam (n : Nat) (hn : op / 16 = n) : i.opsub.map (·.1 / 16) = some n := by rw [hp, Option.map_some, hn]
  obtain hn | hn | hn | hn | hn | hn | hn | hn : op / 16 = 0 ∨ op / 16 = 1 ∨ op / 16 = 2 ∨ op / 16 = 3 ∨ op / 16 = 4 ∨ op / 16 = 5 ∨
      op / 16 = 6 ∨ op / 16 = 7 := by omega
  · exact build_makes_control (hfam 0 hn) rfl rfl h
  · exact build_makes_int (hfam 1 hn) rfl rfl h
  · exact build_makes_float (hfam 2 hn) rfl rfl h
  · exact build_makes_mem (hfam 3 hn) rfl rfl h
  · exact build_makes_sync (hfam 4 hn) rfl rfl h
  · exact build_makes_matrix (hfam 5 hn) rfl rfl h
  · exact build_makes_region (hfam 6 hn) rfl rfl h
  · exact build_makes_system (hfam 7 hn) rfl rfl h

end Sys2Proof
end

section
namespace Sys2Proof

/-! The word of an instruction and its fields (R71) -/

/-- OP and SUB of a form fit their fields, and no form has OP 0. -/
theorem opsub_range {i : Instr} {op sub : Nat} (h : i.opsub = some (op, sub)) : 0 < op ∧ op < 128 ∧ sub < 16 := by
  cases i <;> cases h <;> decide

/-- IMM24 fits its 24 bits. -/
theorem imm24_lt (i : Instr) : i.imm24 < 2 ^ 24 := by
  cases i with
  | fbk off _ | bra off _ | brx _ off _ | callI off _ | recon off _ | spawn _ _ off _ | mloop off _ | mjmp off _ | txb off _ => exact off.isLt
  | lea _ _ disp _ => exact disp.isLt
  | ld _ _ _ _ x _ | st _ _ _ _ x _ | prefetch _ x _ | prefetchL2 _ x _ | cctlWb x _ | cctlWbinv x _ | cctlDemoteEf x _
  | cctlDemote x _ | cctlSettag x _ | mwait _ _ _ x _ | lds _ x _ | sts _ x _ | ldacc _ x _ | stacc _ x _ | ldc _ x _
  | cas _ _ _ _ x _ | cpl _ _ x _ | cplOut _ _ x _ | psigSet _ x _ | psigAdd _ x _ | sigwait _ _ _ x _ | signal _ _ _ x _ => exact x.bits_lt (by decide)
  | atom op _ _ _ _ x _ | red op _ _ _ _ x _ => exact x.bits_lt op.code_lt
  | cptWb _ _ => exact (by decide : 0x100000 < 2 ^ 24)
  | mma _ _ ks _ | mmas _ _ ks _ => exact ks.isLt.trans (by decide)
  | _ => exact (by decide : 0 < 2 ^ 24)

/-- IMM24 is zero in a form that gives it no fixed role. -/
theorem imm24_eq_zero (i : Instr) : ∀ o p, i.args = some o → i.opsub = some p → xkindOf p.1 p.2 ≠ .fixed → i.imm24 = 0 := by
  cases i with
  | fbk _ _ | bra _ _ | brx _ _ _ | callI _ _ | recon _ _ | spawn _ _ _ _ | mloop _ _ | mjmp _ _ | txb _ _ | lea _ _ _ _
  | ld _ _ _ _ _ _ | st _ _ _ _ _ _ | prefetch _ _ _ | prefetchL2 _ _ _ | cctlWb _ _ | cctlWbinv _ _ | cctlDemoteEf _ _
  | cctlDemote _ _ | cctlSettag _ _ | mwait _ _ _ _ _ | lds _ _ _ | sts _ _ _ | ldacc _ _ _ | stacc _ _ _ | ldc _ _ _
  | cas _ _ _ _ _ _ | cpl _ _ _ _ | cplOut _ _ _ _ | psigSet _ _ _ | psigAdd _ _ _ | sigwait _ _ _ _ _ | signal _ _ _ _ _
  | atom _ _ _ _ _ _ _ | red _ _ _ _ _ _ _ | cptWb _ _ | mma _ _ _ _ | mmas _ _ _ _ => exact encoded fun hx => absurd rfl hx
  | _ => exact fun _ _ _ _ _ => rfl

theorem isNone_iff {y : Opnd} : y.isNone = true ↔ y = .absent := by
  cases y <;> simp [Opnd.isNone]

theorem layout_iform {r : URule} {o : Args} {d a b : Bool} (h : okArgs .iform r o d a b o.c.isNone = true) :
    XKind.iform.ok o = true ∧ (XKind.iform = .iform → o.c = .absent) := by
  obtain ⟨hx, -, -, -, -, hc⟩ := okArgs_iff.mp h
  exact ⟨hx, fun _ => isNone_iff.mp hc⟩

theorem layout_other {x : XKind} {r : URule} {o : Args} {d a b c : Bool} (hne : x ≠ .iform) (h : okArgs x r o d a b c = true) :
    x.ok o = true ∧ (x = .iform → o.c = .absent) :=
  ⟨(okArgs_iff.mp h).1, fun hx => absurd hx hne⟩

/-- A well-formed form keeps the layout of its X, and an I-form has no C (R76). -/
theorem wf_layout {i : Instr} (hw : i.wf = true) : ∀ o p, i.args = some o → i.opsub = some p →
    (xkindOf p.1 p.2).ok o = true ∧ (xkindOf p.1 p.2 = .iform → o.c = .absent) := by
  cases i with
  | nop _ | yieldI _ | exitI _ | trapI _ | bkpt _ | jmp _ | callx _ | ret _ | joinI _ | wsync _ | pathq _ _ | pand _ | por _
  | pxor _ | pnot _ | psetM _ | psetP _ | pget _ | iadd _ _ _ | isub _ _ _ | imul _ _ _ | imulh _ _ | idiv _ _ | irem _ _
  | imin _ _ | imax _ _ | iabs _ _ _ | ineg _ _ _ | andI _ _ | orI _ _ | xorI _ _ | notI _ _ | andn _ _ | shl _ _ | shr _ _
  | sar _ _ | rotl _ _ | bfe _ _ | popc _ _ | clz _ _ | ctz _ _ | brev _ _ | icmp _ _ _ | mov _ _ | cvti _ _ _ _ | vote _ _
  | ballot _ | redux _ _ _ | scan _ _ _ _ | matchL _ _ | fadd _ _ _ | fsub _ _ _ | fmul _ _ _ | fmin _ _ _ | fmax _ _ _
  | fcmp _ _ _ _ | fclass _ _ | fscale _ _ _ | frnd _ _ _ | frcp _ _ _ | frsq _ _ _ | fsqrt _ _ _ | fdiv _ _ _ | fexp2 _ _
  | flog2 _ _ | fsin _ _ | fcos _ _ | ftanh _ _ | cvtfi _ _ _ _ | cvtif _ _ _ _ | setfmt _ | getfmt _ | jbexp _ | jbpack _
  | jbunpack _ | rdflags _ | clrflags _ | cpclose _ | cpwait _ | tlwait _ | tlreadDone _ | tlreadIss _ | binit _ _ | barv _ _
  | bwait _ _ | bsync _ _ | bdrop _ _ | gbar _ | bstat _ _ _ | qinit _ _ | qpush _ _ | qpop _ _ | qtry _ _ | qclose _ _ | txabt _
  | txst _ _ | stepb _ | stepe _ | fgmark _ | rngpush _ | rngpop _ | srd _ | swr _ | rte _ | tlbiPage _ _ | tlbiTenant _
  | tlbiAll _ => exact encoded (layout_iform hw)
  | movi _ _ | shfl _ _ _ _ | rdlane _ _ | wrlane _ _ | hadd2 _ _ _ | hmul2 _ _ _ | hmin2 _ _ _ | hmax2 _ _ _ | cvt _ _ _ _
  | fence _ _ _ | rgres _ _ | rgcmt _ _ | rgpop _ _ | rgfree _ _ | rbsurrHold _ _ | rbsurrSkip _ _ | rbclaim _ _ | mzero _
  | mcvt _ _ _ | madd _ | marv _ _ | mwaitb _ _ | mpop _ _ | mpush _ _ | mend _ | txe _ =>
    obtain ⟨hw, -⟩ := Bool.and_eq_true_iff.mp hw
    exact encoded (layout_iform hw)
  | bra _ _ | callI _ _ | iaddc _ _ | isubb _ _ | imad _ _ _ | isat _ _ | bfi _ _ | isel _ _ | ffma _ _ _ | dot4 _ _ _ _
  | prefetch _ _ _ | prefetchL2 _ _ _ | cctlWb _ _ | cctlWbinv _ _ | cctlDemoteEf _ _ | cctlDemote _ _ | cctlSettag _ _
  | lds _ _ _ | sts _ _ _ | ldc _ _ _ | cptAb _ _ | cptWb _ _ | cpts _ _ | cpta _ _ | spawn _ _ _ _ => exact encoded (layout_other (by decide) hw)
  | fbk _ _ | brx _ _ _ | recon _ _ | bsel _ _ | lea _ _ _ _ | hfma2 _ _ _ | dot2 _ _ _ | ldacc _ _ _ | stacc _ _ _ | cpl _ _ _ _
  | cplOut _ _ _ _ | psigSet _ _ _ | psigAdd _ _ _ | mma _ _ _ _ | mmas _ _ _ _ =>
    obtain ⟨hw, -⟩ := Bool.and_eq_true_iff.mp hw
    exact encoded (layout_other (by decide) hw)
  | ld _ _ _ _ _ _ | st _ _ _ _ _ _ | cas _ _ _ _ _ _ | sigwait _ _ _ _ _ | signal _ _ _ _ _ | mloop _ _ | mjmp _ _ | txb _ _ =>
    obtain ⟨hw, -⟩ := Bool.and_eq_true_iff.mp hw
    obtain ⟨hw, -⟩ := Bool.and_eq_true_iff.mp hw
    exact encoded (layout_other (by decide) hw)
  | mwait _ _ _ _ _ | atom _ _ _ _ _ _ _ =>
    obtain ⟨hw, -⟩ := Bool.and_eq_true_iff.mp hw
    obtain ⟨hw, -⟩ := Bool.and_eq_true_iff.mp hw
    obtain ⟨hw, -⟩ := Bool.and_eq_true_iff.mp hw
    exact encoded (layout_other (by decide) hw)
  | red _ _ _ _ _ _ _ =>
    obtain ⟨hw, -⟩ := Bool.and_eq_true_iff.mp hw
    obtain ⟨hw, -⟩ := Bool.and_eq_true_iff.mp hw
    obtain ⟨hw, -⟩ := Bool.and_eq_true_iff.mp hw
    obtain ⟨hw, -⟩ := Bool.and_eq_true_iff.mp hw
    exact encoded (layout_other (by decide) hw)
  | _ => exact fun _ _ ho => nomatch ho

/-- The number that fields of these values make. -/
def wordOf (f : Fields) : Nat :=
  f.x + f.b * 2 ^ 34 + f.a * 2 ^ 44 + f.d * 2 ^ 54 + f.m * 2 ^ 64 + b2n f.h.u * 2 ^ 75 + f.h.look.toNat * 2 ^ 76
    + f.h.pred.toNat * 2 ^ 80 + b2n f.h.neg * 2 ^ 83 + f.sub * 2 ^ 84 + f.op * 2 ^ 88

/-- Each field is within the bits R71 gives it. -/
structure Fields.Fit (f : Fields) : Prop where
  op : f.op < 256
  sub : f.sub < 16
  m : f.m < 1024
  d : f.d < 1024
  a : f.a < 1024
  b : f.b < 1024
  x : f.x < 2 ^ 34

theorem wordOf_toNat {f : Fields} (h : f.Fit) : (BitVec.ofNat 96 (wordOf f)).toNat = wordOf f := by
  obtain ⟨hop, hsub, hm, hd, ha, hb, hx⟩ := h
  have := b2n_lt f.h.u; have := b2n_lt f.h.neg; have := f.h.look.isLt; have := f.h.pred.isLt
  rw [BitVec.toNat_ofNat, wordOf]; omega

/-- The fields are read back from the word they make, and bit 74 is zero. -/
theorem ofWord_wordOf {f : Fields} (h : f.Fit) : Fields.ofWord (BitVec.ofNat 96 (wordOf f)) = f ∧ bitOf (wordOf f) 74 = false := by
  obtain ⟨hop, hsub, hm, hd, ha, hb, hx⟩ := h
  have := b2n_lt f.h.u; have := b2n_lt f.h.neg; have := f.h.look.isLt; have := f.h.pred.isLt
  obtain ⟨op, sub, ⟨neg, pred, look, u⟩, m, d, a, b, x⟩ := f
  simp only [Fields.ofWord, wordOf_toNat ⟨hop, hsub, hm, hd, ha, hb, hx⟩]
  have hbit : b2n false = 0 := rfl
  simp only [Fields.mk.injEq, Hdr.mk.injEq, bitOf_iff, ofNat_iff, bitsOf_eq, wordOf, hbit] at *
  refine ⟨⟨?_, ?_, ⟨?_, ?_, ?_, ?_⟩, ?_, ?_, ?_, ?_, ?_⟩, ?_⟩
  all_goals omega

/-- The fields of an instruction's word. -/
def fieldsOf (i : Instr) (o : Args) (op sub : Nat) : Fields :=
  { op := op, sub := sub, h := o.h, m := i.mbits, d := o.d.code, a := o.a.code, b := o.b.code, x := o.xfield i.imm24 (xkindOf op sub) }

theorem encode_eq {i : Instr} {o : Args} {op sub : Nat} (ho : i.args = some o) (hp : i.opsub = some (op, sub)) :
    encode i = some (BitVec.ofNat 96 (wordOf (fieldsOf i o op sub))) := by
  have himm : o.d.immBits + o.a.immBits + o.b.immBits + o.c.immBits = o.imm := by
    simp [Args.imm, Nat.add_assoc]
  simp only [encode, hp, ho, Option.bind_eq_bind, Option.bind_some, himm, wordOf, fieldsOf]
  cases xkindOf op sub <;> rfl

/-- A word is decoded to the instruction that its fields make. -/
theorem decode_wordOf {f : Fields} {o : Args} {i : Instr} (hfit : f.Fit) (hop : 0 < f.op)
    (hm : Makes (build f.op f.sub f.m (if xkindOf f.op f.sub = .fixed then bitsOf f.x 0 24 else 0) f.a) o i)
    (ho : f.args (xkindOf f.op f.sub) = some o) (hw : i.wf = true) : decode (BitVec.ofNat 96 (wordOf f)) = .instr i := by
  obtain ⟨hf, h74⟩ := ofWord_wordOf hfit
  obtain ⟨g, hg, rfl⟩ := hm
  have hne : BitVec.ofNat 96 (wordOf f) ≠ 0 := fun h0 => by
    have : wordOf f = 0 := by rw [← wordOf_toNat hfit, h0]; rfl
    simp only [wordOf] at this
    omega
  rw [decode, hf, wordOf_toNat hfit, if_neg (not_or.mpr ⟨hne, by simp [h74]⟩)]
  simp only [hg, ho, hw, if_true]

/-- Every well-formed instruction of a stream has a word, which decodes to it. -/
theorem decode_encode {i : Instr} {o : Args} {op sub : Nat} (ho : i.args = some o) (hp : i.opsub = some (op, sub)) (hw : i.wf = true) :
    encode i = some (BitVec.ofNat 96 (wordOf (fieldsOf i o op sub))) ∧ decode (BitVec.ofNat 96 (wordOf (fieldsOf i o op sub))) = .instr i := by
  obtain ⟨h0, hop, hsub⟩ := opsub_range hp
  obtain ⟨hok, hc⟩ := wf_layout hw o (op, sub) ho hp
  obtain ⟨hm, hmakes⟩ := build_makes ho hp hop hw
  refine ⟨encode_eq ho hp, decode_wordOf ⟨hop.trans (by decide), hsub, hm, o.d.code_lt, o.a.code_lt, o.b.code_lt, xfield_lt hok (imm24_lt i)⟩
    h0 ?_ (Fields.args_xfield rfl rfl rfl rfl rfl (imm24_lt i) hok hc) hw⟩
  have himm : (if xkindOf op sub = .fixed then bitsOf (o.xfield i.imm24 (xkindOf op sub)) 0 24 else 0) = i.imm24 := by
    by_cases hx : xkindOf op sub = .fixed
    · have := imm24_lt i
      rw [if_pos hx, hx, Args.xfield, bitsOf_eq]; omega
    · rw [if_neg hx, imm24_eq_zero i o (op, sub) ho hp hx]
  exact himm ▸ hmakes

/-- What the decoder answers is well formed, and takes operands. -/
theorem decode_instr {w : IWord} {i : Instr} (h : decode w = .instr i) : i.wf = true ∧ i.args ≠ none := by
  rw [decode] at h
  split at h
  · cases h
  · split at h
    · cases h
    · next mk hb =>
      split at h
      · next g o ho =>
        split at h
        · next hw =>
          cases h
          exact ⟨hw, by simp [build_takes _ _ _ _ _ g hb o]⟩
        · cases h
      · cases h

/-- The instructions that take operands are those that have OP and SUB. -/
theorem isSome_opsub (i : Instr) : i.opsub.isSome = i.args.isSome := by
  cases i <;> rfl

/-- Settles O56: the word's fields give back OP, SUB, M, X and the operands (`decode_encode`); what the decoder answers it has checked, and
every form that `build` names takes operands (`build_takes`). -/
theorem encodingAgrees : Obligations.EncodingAgrees := by
  unfold Obligations.EncodingAgrees
  refine ⟨fun i hw ha => ?_, fun w i h => decode_instr h⟩
  obtain ⟨o, ho⟩ := Option.ne_none_iff_exists'.mp ha
  obtain ⟨⟨op, sub⟩, hp⟩ := Option.isSome_iff_exists.mp ((isSome_opsub i).trans (by rw [ho]; rfl))
  exact ⟨_, decode_encode ho hp hw⟩

end Sys2Proof
end


section
namespace Sys2Proof.Machine

/-! The registers that take loaded values (R73, R177) -/

theorem lanesOf_head {m : W64} {l : Nat} {ls : List Nat} (h : lanesOf m = l :: ls) : lowLane m = l ∧ m ≠ 0 := by
  refine ⟨by simp [lowLane, h], fun h0 => ?_⟩
  rw [lanesOf_eq_nil.mpr h0] at h
  cases h

/-- A lane's value below 128 bits is written as a result of the form is. -/
theorem putLoad_eq_putLane (w : Wave) {sz : Size} (hsz : sz ≠ .b128) (l : Nat) (n : BitVec 8) (x : Nat) :
    w.putLoad sz l (.v n) x = w.putLane (sz == .n64) l (.v n) (extLoad sz x) := by
  cases sz with
  | b128 => exact absurd rfl hsz
  | _ => rfl

/-- Values below 128 bits are written as the results of the lanes. -/
theorem putLoads_eq_put (s : State) {sz : Size} (hsz : sz ≠ .b128) {d : Opnd} (hd : (∃ n, d = .v n) ∨ ∃ n, d = .s n) (m : W64) (x : Nat → Nat) :
    s.putLoads sz d ((lanesOf m).map fun l => (l, x l)) = s.put (sz == .n64) m d fun l => extLoad sz (x l) := by
  rcases hd with ⟨n, rfl⟩ | ⟨n, rfl⟩
  · show ({ s with wave := ((lanesOf m).map fun l => (l, x l)).foldl (fun w v => w.putLoad sz v.1 (.v n) v.2) s.wave } : State) = _
    simp only [List.foldl_map, putLoad_eq_putLane _ hsz]
    rfl
  · cases hl : lanesOf m with
    | nil =>
      show s = if m = 0 then s else _
      rw [if_pos (lanesOf_eq_nil.mp hl)]
    | cons l ls =>
      obtain ⟨hlow, hm⟩ := lanesOf_head hl
      show _ = if m = 0 then s else s.sPut n.toNat (extLoad sz (x (lowLane m)))
      rw [if_neg hm, hlow]
      cases sz with
      | b128 => exact absurd rfl hsz
      | _ => rfl

/-- A v register of a lane after its four registers have taken a value of 128 bits. -/
theorem putLoad_quad_vGet (w : Wave) (l : Nat) {n : BitVec 8} (hn : n.toNat ≤ 252) (x l' : Nat) {k : Nat} (hk : k < 256) :
    (w.putLoad .b128 l (.v n) x).vGet l' k =
      if l' = l ∧ n.toNat ≤ k ∧ k < n.toNat + 4 then BitVec.ofNat 32 (x / 2 ^ (32 * (k - n.toNat))) else w.vGet l' k := by
  show ((((w.vSet l (n.toNat + 0) _).vSet l (n.toNat + 1) _).vSet l (n.toNat + 2) _).vSet l (n.toNat + 3) _).vGet l' k = _
  rw [vGet_vSet _ _ _ _ _ _ (by omega) hk, vGet_vSet _ _ _ _ _ _ (by omega) hk, vGet_vSet _ _ _ _ _ _ (by omega) hk,
    vGet_vSet _ _ _ _ _ _ (by omega) hk]
  by_cases hl : l' = l ∧ n.toNat ≤ k ∧ k < n.toNat + 4
  · rw [if_pos hl]
    obtain ⟨rfl, hlo, hhi⟩ := hl
    obtain h | h | h | h : k = n.toNat + 0 ∨ k = n.toNat + 1 ∨ k = n.toNat + 2 ∨ k = n.toNat + 3 := by omega
    all_goals subst h; simp
  · rw [if_neg hl, if_neg (by omega), if_neg (by omega), if_neg (by omega), if_neg (by omega)]

/-- R177: four v registers of each lane take its value of 128 bits. -/
theorem putLoads_quad_vGet (s : State) {n : BitVec 8} (hn : n.toNat ≤ 252) (m : W64) (x : Nat → Nat) {l k : Nat} (hl : l < 64) (hk : k < 256) :
    (s.putLoads .b128 (.v n) ((lanesOf m).map fun l => (l, x l))).wave.vGet l k =
      if hasLane m l = true ∧ n.toNat ≤ k ∧ k < n.toNat + 4 then BitVec.ofNat 32 (x l / 2 ^ (32 * (k - n.toNat))) else s.wave.vGet l k := by
  show (((lanesOf m).map fun l => (l, x l)).foldl (fun w v => w.putLoad .b128 v.1 (.v n) v.2) s.wave).vGet l k = _
  rw [List.foldl_map]
  by_cases hr : n.toNat ≤ k ∧ k < n.toNat + 4
  · rw [foldl_lane (fun w => Wave.vGet w l k) _ l (BitVec.ofNat 32 (x l / 2 ^ (32 * (k - n.toNat)))) _ _ _ fun k hk => (mem_lanesOf.mp hk).1]
    · simp [mem_lanesOf, hl, hr]
    · intro w; rw [putLoad_quad_vGet w l hn _ _ hk, if_pos ⟨rfl, hr⟩]
    · intro w j _ hj; rw [putLoad_quad_vGet w j hn _ _ hk, if_neg fun h => hj h.1.symm]
  · rw [foldl_keep (fun w => Wave.vGet w l k), if_neg fun h => hr h.2]
    intro w j
    rw [putLoad_quad_vGet w j hn _ _ hk, if_neg fun h => hr h.2]

/-- R177: two s registers take the value of 128 bits of the lowest lane. -/
theorem putLoads_quad_sGet (s : State) (n : BitVec 7) (m : W64) (x : Nat → Nat) (k : Nat) :
    (s.putLoads .b128 (.s n) ((lanesOf m).map fun l => (l, x l))).wave.sGet k =
      if m ≠ 0 ∧ (k = n.toNat ∨ k = n.toNat + 1) ∧ k ∉ s.path.lost then BitVec.ofNat 64 (x (lowLane m) / 2 ^ (64 * (k - n.toNat)))
      else s.wave.sGet k := by
  cases hl : lanesOf m with
  | nil =>
    rw [if_neg fun h => h.1 (lanesOf_eq_nil.mp hl)]
    rfl
  | cons l ls =>
    obtain ⟨hlow, hm⟩ := lanesOf_head hl
    show (((s.sPut n.toNat (BitVec.ofNat 64 (x l))).sPut (n.toNat + 1) (BitVec.ofNat 64 (x l / 2 ^ 64))).wave.sGet k) = _
    obtain ⟨r, ps, hs, -⟩ := sPut_shape s n.toNat (BitVec.ofNat 64 (x l))
    have hlost : (s.sPut n.toNat (BitVec.ofNat 64 (x l))).path.lost = s.path.lost := by rw [hs]
    have hm : ¬ m = 0#64 := hm
    rw [sPut_sGet, sPut_sGet, hlost, hlow]
    by_cases hlo : k = n.toNat
    · subst hlo; simp [hm]
    · by_cases hhi : k = n.toNat + 1
      · subst hhi; simp [hm]
      · simp [hlo, hhi]

theorem sPut_lost (s : State) (n : Nat) (x : W64) {k : Nat} (hk : k ∈ s.path.lost) : (s.sPut n x).wave.sGet k = s.wave.sGet k := by
  rw [sPut_sGet, if_neg fun h => h.2 hk]

/-- What the writes of consecutive s registers leave alone. -/
theorem sPuts_keeps (s : State) (n : Nat) (xs : List W64) :
    ∃ r ps, s.sPuts n xs = { s with wave := { s.wave with s := r, paths := ps } } ∧ ps.map Path.bare = s.wave.paths.map Path.bare ∧
      ∀ k ∈ s.path.lost, (s.sPuts n xs).wave.sGet k = s.wave.sGet k := by
  induction xs generalizing s n with
  | nil => exact ⟨_, _, rfl, rfl, fun _ _ => rfl⟩
  | cons x xs ih =>
    obtain ⟨r, ps, h, hps⟩ := sPut_shape s n x
    obtain ⟨r', ps', h', hps', hlost⟩ := ih (s.sPut n x) (n + 1)
    refine ⟨r', ps', ?_, ?_, fun k hk => ?_⟩
    · rw [State.sPuts, h', h]
    · rw [hps', h]; exact hps
    · exact (hlost k (by rw [h]; exact hk)).trans (sPut_lost s n x hk)

/-- What loaded values leave alone: all but registers and what the write of an s register changes in the wave's other paths; and an
s register that the path has lost. -/
theorem putLoads_keeps (s : State) (sz : Size) (d : Opnd) (vs : List (Nat × Nat)) :
    ∃ v r q ps, s.putLoads sz d vs = { s with wave := { s.wave with v := v, s := r, q := q, paths := ps } } ∧
      ps.map Path.bare = s.wave.paths.map Path.bare ∧ ∀ k ∈ s.path.lost, (s.putLoads sz d vs).wave.sGet k = s.wave.sGet k := by
  unfold State.putLoads
  split
  · split
    · obtain ⟨r, ps, h, hps, hlost⟩ := sPuts_keeps s _ _
      exact ⟨_, r, _, ps, h, hps, hlost⟩
    · obtain ⟨r, ps, h, hps⟩ := sPut_shape s _ _
      exact ⟨_, r, _, ps, h, hps, fun k hk => sPut_lost s _ _ hk⟩
  · exact ⟨_, _, _, _, rfl, rfl, fun _ _ => rfl⟩
  · obtain ⟨v, q, h⟩ := putLoad_fold_shape sz d vs s.wave
    exact ⟨v, _, q, _, by rw [h], rfl, fun k _ => by rw [h]; rfl⟩

theorem fits_of_even {sz : Size} {n : BitVec 8} (h : sz = .n64 → n.toNat % 2 = 0) : fits (.v n) (sz == .n64) = true := by
  cases hw : sz == .n64 with
  | false => rfl
  | true => exact beq_iff_eq.mpr (h (beq_iff_eq.mp hw))

/-- Settles O29: below 128 bits a load writes as a result does (`putLoads_eq_put`). -/
theorem loadedRegisters : Obligations.LoadedRegisters := by
  unfold Obligations.LoadedRegisters
  intro s sz d m x u val
  have hval : val = fun l => extLoad sz (x l) := by
    funext l
    cases sz <;> rfl
  obtain ⟨v, r, q, ps, hu, hps, hlost⟩ := putLoads_keeps s sz d ((lanesOf m).map fun l => (l, x l))
  refine ⟨fun hsz hd => ?_, fun hsz n hd hn l k hl hk => ?_, fun hsz n hd k => ?_, hlost, ?_, ?_⟩
  · have hfits : fits d (sz == .n64) = true := by
      rcases hd with ⟨n, rfl, heven⟩ | ⟨n, rfl⟩
      · exact fits_of_even heven
      · rfl
    rw [hval, show u = _ from putLoads_eq_put s hsz (hd.imp (fun ⟨n, hn, _⟩ => ⟨n, hn⟩) id) m x]
    exact put_wrote s _ m d _ hfits
  · subst hsz hd
    exact putLoads_quad_vGet s hn m x hl hk
  · subst hsz hd
    exact putLoads_quad_sGet s n m x k
  · show u = _; rw [show u = _ from hu]
  · rw [show u = _ from hu]; exact hps

end Sys2Proof.Machine
end

section
namespace Sys2Proof.Machine

/-! Forms and writes that a supervisor alone may make (R88, R396) -/

/-- R88: a form that is refused does not act. -/
theorem vec_refused {s : State} {i : Instr} {body : State → State} {r : Cause × W64} (hk : s.kind = .path) (hr : s.refuses i = some r) :
    vec i s body = .next (s.refuse r.1 r.2) := by
  unfold vec State.issueVec
  rw [hk]
  simp only [hr]

/-- R88: at PRIV 0 a privileged form of the vector stream is refused with PRIV. -/
theorem refuses_priv {s : State} {i : Instr} (hm : i.matrixOnly = false) (hi : i.privileged = true) (hp : s.path.priv = false) :
    s.refuses i = some (.priv, 0) := by
  simp [State.refuses, hm, hi, hp]

theorem refuse_priv (s : State) : s.refuse .priv 0 = if s.path.speculative then s.abort .fault 3 else s.trap .priv 0 := by
  simp only [State.refuse, show Cause.priv.asUsual = false from rfl, Bool.not_false, Bool.and_true]
  rfl

theorem begin_priv (s : State) (i : Instr) : (s.begin i).path.priv = s.path.priv := by
  obtain ⟨_, _, _, h⟩ := begin_shape s i
  rw [h]

/-- R396: a register that only a supervisor may write refuses the write at PRIV 0. -/
theorem swrFault_priv {s : State} {r : SReg} (hr : swrLevel r = .supervisor) (hp : s.path.priv = false) (x : W64) :
    s.swrFault r x = some .priv := by
  simp [State.swrFault, hr, hp]

/-- R396: an `swr` of all lanes whose write is refused traps. -/
theorem swr_faults {s : State} {o : Args} {r : SReg} {c : Cause} (hd : o.d = .sr r) (hr : s.runs (.swr o) = true)
    (hg : s.guard o.h = s.path.mask) (hm : s.path.mask ≠ 0) (hf : ∀ x, (s.begin (.swr o)).swrFault r x = some c) :
    exec (.swr o) s = .next ((s.begin (.swr o)).trap c 0) := by
  have hguard : (s.begin (.swr o)).guard o.h ≠ 0 := by rw [begin_guard, hg]; exact hm
  show vec (.swr o) s _ = _
  rw [vec_runs _ hr, State.once, if_neg hguard]
  simp only [hd, hf]
  rw [State.trapLanes, part_whole (by rw [begin_mask, begin_guard, hg]) hguard]
  rfl

/-- Settles O25: the privileged forms are refused (`refuses_priv`), and an `swr` that a user may not make faults (`swrFault_priv`). -/
theorem privilegeFaults : Obligations.PrivilegeFaults := by
  unfold Obligations.PrivilegeFaults
  intro s o sz hk hp
  refine ⟨fun i hi => ?_, fun r hr hd _ hruns hg hm => ?_⟩
  · rw [← refuse_priv]
    rcases hi with rfl | rfl | rfl | rfl
    all_goals exact vec_refused hk (refuses_priv rfl rfl hp)
  · have hlevel : swrLevel r = .supervisor := by rcases hr with rfl | rfl | rfl | rfl | rfl | rfl <;> rfl
    exact swr_faults hd hruns hg hm fun x => swrFault_priv hlevel (by rw [begin_priv, hp]) x

end Sys2Proof.Machine
end

section
namespace Sys2Proof.Machine

/-! Traps (R387, R388): the trap registers, the wait for the windows, the user handler -/

/-- R384: a cause that a user handler may receive parks nothing, and is none of the debugger's. -/
theorem recoverable_ne {c : Cause} (h : c.recoverable = true) : c ≠ .pageFault ∧ c ≠ .bkpt ∧ c ≠ .step := by
  refine ⟨?_, ?_, ?_⟩ <;> rintro rfl <;> cases h

/-- R387: the cause is read back from TRAPCAUSE. -/
theorem cause_of_trapcause {p : Path} {c : Cause} (h : p.trapcause = BitVec.ofNat 32 c.code) : p.cause = c := by
  rw [Path.cause, h]
  cases c <;> rfl

theorem trace_off {s : State} (h : s.dom.trace = none) (type : Nat) : s.trace type = s := by
  rw [State.trace, State.traceWrite, h]
  rfl

/-- TRAPADDR and TRAPINFO of the lanes `ls` are written, and nothing else of the wave. -/
theorem foldl_trapLanes (addr info : Nat → W64) (ls : List Nat) (w : Wave) :
    ∃ ta ti, ls.foldl (fun w l => { w with trapaddr := mset w.trapaddr l (addr l), trapinfo := mset w.trapinfo l (info l) }) w =
        { w with trapaddr := ta, trapinfo := ti } ∧
      (∀ k, mget ta k = if k ∈ ls then addr k else mget w.trapaddr k) ∧ ∀ k, mget ti k = if k ∈ ls then info k else mget w.trapinfo k := by
  induction ls generalizing w with
  | nil => exact ⟨_, _, rfl, fun k => by simp, fun k => by simp⟩
  | cons l ls ih =>
    obtain ⟨ta, ti, h, ha, hi⟩ := ih { w with trapaddr := mset w.trapaddr l (addr l), trapinfo := mset w.trapinfo l (info l) }
    refine ⟨ta, ti, h, fun k => ?_, fun k => ?_⟩
    · rw [ha]
      by_cases hk : k ∈ ls
      · simp [hk]
      · by_cases hl : k = l <;> simp [hk, hl, mget_mset]
    · rw [hi]
      by_cases hk : k ∈ ls
      · simp [hk]
      · by_cases hl : k = l <;> simp [hk, hl, mget_mset]

/-- R387: what the trap registers hold, and what writing them leaves alone. -/
theorem trapRegs_shape (s : State) (c : Cause) (addr info : Nat → W64) :
    ∃ ta ti, s.trapRegs c addr info = { s with
        wave := { s.wave with trapaddr := ta, trapinfo := ti },
        path := { s.path with trapcause := BitVec.ofNat 32 c.code, trappc := if c = .trapInsn then nextPc s.path.pc else s.path.pc,
                              trapmask := s.path.mask, fb := none, ir := none, age := 0, status := .running, again := false, kept := none } } ∧
      ∀ k, hasLane s.path.mask k = true → k < 64 → mget ta k = addr k ∧ mget ti k = info k := by
  obtain ⟨ta, ti, h, ha, hi⟩ := foldl_trapLanes addr info (lanesOf s.path.mask) s.wave
  refine ⟨ta, ti, ?_, fun k hk h64 => ?_⟩
  · rw [State.trapRegs, h]
    simp only [Cause.resumesNext, beq_iff_eq]
  · have hmem : k ∈ lanesOf s.path.mask := mem_lanesOf.mpr ⟨h64, hk⟩
    rw [ha, hi, if_pos hmem, if_pos hmem]
    exact ⟨rfl, rfl⟩

/-- R387: a trap with a recoverable cause, at user level and outside a region: the trap registers are written, and the path enters the
handler of the cause once its windows have ended. -/
theorem trap_recoverable {s : State} {c : Cause} (hc : c.recoverable = true) (hr : s.path.inRegion = false) (hp : s.path.priv = false)
    (ht : s.dom.trace = none) (info : W64) :
    s.trap c info = (s.trapRegs c (fun _ => 0) fun _ => info).afterWindows fun t => t.enterHandler c := by
  obtain ⟨hpf, hbk, hst⟩ := recoverable_ne hc
  obtain ⟨ta, ti, h, -⟩ := trapRegs_shape s c (fun _ => 0) fun _ => info
  have hspec : s.path.speculative = false := by rw [Path.speculative, hr]; rfl
  unfold State.trap State.trapFull State.route
  simp only [hspec, hr, Bool.and_false, Bool.false_and, Bool.false_eq_true, if_false]
  rw [trace_off (by rw [h]; exact ht)]
  simp only [show (s.trapRegs c (fun _ => 0) fun _ => info).path.priv = false by rw [h]; exact hp, hpf, hbk, hst, Bool.false_eq_true, and_false,
    false_and, or_self, if_false]

/-- R388: the path enters the user handler, with a CALL entry for the way back. -/
theorem enterHandler_user {s : State} {c : Cause} {l : Launch} (hc : c.recoverable = true) (hl : s.launch = some l) (he : l.trapentry ≠ 0)
    (hd : s.path.hdepth = 0) (hs : onCore s.path.stack < 16) :
    s.enterHandler c = { s with path := { s.path with
      stack := { call := true, mask := s.path.trapmask, pc := s.path.trappc, etag := 0, fmts := s.path.fmt.setWidth 4 } :: s.path.stack,
      hdepth := s.path.stack.length + 1, windows := [], pc := l.trapentry, status := .running } } := by
  have hroom : s.pushRoom = true := by simp [State.pushRoom, hs]
  rw [State.enterHandler, hl]
  simp only [Option.map_some, Option.getD_some, hc, hd, hroom, he, ne_eq, not_false_eq_true, and_self, if_true]
  rw [State.enterUser, State.pushEntry, if_pos hs]
  rfl

/-- R387, R388: the end of the wait for the windows enters the user handler. -/
theorem endWait_windows {t : State} {tags : List Nat} {c : Cause} {l : Launch} (hw : t.path.status = .waiting (.windows tags))
    (hc : c.recoverable = true) (hl : t.launch = some l) (he : l.trapentry ≠ 0) (ht : t.path.trapcause = BitVec.ofNat 32 c.code)
    (hd : t.path.hdepth = 0) (hs : onCore t.path.stack < 16) :
    t.endWait = { t with path := { t.path with
      stack := { call := true, mask := t.path.trapmask, pc := t.path.trappc, etag := 0, fmts := t.path.fmt.setWidth 4 } :: t.path.stack,
      hdepth := t.path.stack.length + 1, windows := [], pc := l.trapentry, status := .running } } := by
  rw [State.endWait, hw, cause_of_trapcause ht]
  exact enterHandler_user (s := { t with path := { t.path with status := .running } }) hc hl he hd hs

/-- R83: without an open window the path goes on at once. -/
theorem afterWindows_closed {s : State} (h : s.windowTags = []) (f : State → State) :
    s.afterWindows f = f { s with path := { s.path with windows := [] } } := by
  rw [State.afterWindows, if_pos h]

/-- R83: while the instructions of its windows have not completed, a running path waits for them. -/
theorem afterWindows_open {s : State} (h : s.windowTags ≠ []) (hr : s.path.status = .running) (f : State → State) :
    s.afterWindows f = { s with now := s.now + 1, path := { s.path with
      windows := [], status := .waiting (.windows s.windowTags), since := s.core.cycles.toNat, joinTimer := 0, seg := s.path.e.toNat / 2 ^ 24, stamp := s.now, adopts := none } } := by
  rw [State.afterWindows, if_neg h, State.await]
  simp only [hr]

/-- Settles O20: the trap registers by `trapRegs_shape`, the handler by `enterHandler_user`. -/
theorem userTrapEntry : Obligations.UserTrapEntry := by
  unfold Obligations.UserTrapEntry
  intro s c info l hc hr hp hl he hd hs ht back entry u
  obtain ⟨ta, ti, h, hlanes⟩ := trapRegs_shape s c (fun _ => 0) fun _ => info
  have hu : u = (s.trapRegs c (fun _ => 0) fun _ => info).afterWindows fun t => t.enterHandler c := trap_recoverable hc hr hp ht info
  have hend (t : State) (tags) (hw : t.path.status = .waiting (.windows tags)) (hlt : t.launch = some l)
      (hct : t.path.trapcause = BitVec.ofNat 32 c.code) (hdt : t.path.hdepth = 0) (hst : onCore t.path.stack < 16) :=
    endWait_windows hw hc hlt he hct hdt hst
  have hw : (s.trapRegs c (fun _ => 0) fun _ => info).windowTags = s.windowTags := by rw [h]; rfl
  by_cases htags : s.windowTags = []
  · rw [afterWindows_closed (hw.trans htags), h] at hu
    rw [hu.trans (enterHandler_user hc hl he hd hs)]
    refine ⟨rfl, rfl, rfl, hlanes, rfl, rfl, hp, rfl, rfl, rfl, rfl, fun _ => ⟨rfl, rfl, rfl, rfl⟩, fun hne => absurd htags hne, ?_⟩
    intro t tags hw hlt hct hdt hst
    rw [hend t tags hw hlt hct hdt hst]
    exact ⟨rfl, rfl, rfl, rfl, rfl, rfl, rfl, rfl⟩
  · rw [afterWindows_open (hw ▸ htags) (by rw [h]), hw, h] at hu
    rw [hu]
    refine ⟨rfl, rfl, rfl, hlanes, rfl, rfl, hp, rfl, rfl, rfl, rfl, fun h0 => absurd h0 htags, fun _ => ⟨rfl, hd, rfl, rfl⟩, ?_⟩
    intro t tags hw hlt hct hdt hst
    rw [hend t tags hw hlt hct hdt hst]
    exact ⟨rfl, rfl, rfl, rfl, rfl, rfl, rfl, rfl⟩

end Sys2Proof.Machine
end

section
namespace Sys2Proof.Machine

/-! A fetched bundle leaves the focus as it is -/

/-- R85: the front end reads a bundle; what is in focus stays. -/
theorem fetchBundle_seat (s : State) (user : Bool) (pc : W64) : (s.fetchBundle user pc).1.seat = s.seat := by
  have htr := translate_ix s.dom none s.cluster s.tenant pc false
  unfold State.fetchBundle
  split
  · rfl
  split
  · split <;> rfl
  · generalize s.dom.translate none s.cluster s.tenant pc false = r at htr
    obtain ⟨d, e⟩ := r
    have hd : (s.setDom d).seats = s.seats := setDom_seats s htr
    simp only
    cases e with
    | error f => exact seat_of_seats hd
    | ok l =>
      have hread (tn a) : (((s.setDom d).homeUse tn a l .normal).homeRead a l 64).1.seats = s.seats := by
        rw [homeRead_seats, homeUse_seats, hd]
      simp only
      split
      · exact seat_of_seats hd
      split
      · exact seat_of_seats hd
      split
      · exact seat_of_seats hd
      · split
        · exact seat_of_seats (hread _ _)
        · exact (seat_of_seats (hread _ _) :)

/-- The fields that the choice of an instruction looks at. -/
theorem fetchBundle_status {s t : State} {user : Bool} {pc : W64} {f : Fetched} (h : s.fetchBundle user pc = (t, f)) :
    t.path.status = s.path.status := by
  have hseat : t.seat = s.seat := by rw [← fetchBundle_seat s user pc, h]
  exact (congrArg Path.status (calmPath_of_seat hseat) :)

theorem fetchBundle_engineRoom {s t : State} {user : Bool} {pc : W64} {f : Fetched} (h : s.fetchBundle user pc = (t, f)) :
    t.core.engineRoom = s.core.engineRoom := by
  have hseat : t.seat = s.seat := by rw [← fetchBundle_seat s user pc, h]
  exact (congrArg Core.engineRoom (calmCore_of_seat hseat) :)

/-! The agenda -/

/-- An event that is no command happens before what follows it. -/
theorem pickAgenda_event {s : State} {i : Instr} {rest : List Instr} (h : s.agenda = i :: rest) (hi : cmdOf i = none) :
    s.pickAgenda = some (i, rest) := by
  have hrun : (s.agenda.takeWhile fun i => (cmdOf i).isSome) = [] := by rw [h, List.takeWhile_cons, hi]; rfl
  unfold State.pickAgenda
  rw [hrun]
  simp only [h]
  rfl

theorem pickAgenda_nil {s : State} (h : s.agenda = []) : s.pickAgenda = none := by
  unfold State.pickAgenda
  simp only [h]
  rfl

theorem step_agenda {s : State} {i : Instr} {rest : List Instr} (h : s.pickAgenda = some (i, rest)) :
    step s = exec i { s with agenda := rest } := by
  rw [step, h]

theorem step_issue {s : State} {r : Ref} {rest : List Ref} (ha : s.agenda = []) (hg : s.sigs = []) (hq : s.issueQ = r :: rest) :
    step s = ({ s with issueQ := rest } : State).unfocus.issueRef r := by
  rw [step, pickAgenda_nil ha]
  simp only [hg, hq]

/-! What issues -/

section
variable {s t : State} {l : Launch}

theorem launchDead_eq (hl : t.launch = some l) : t.dom.launchDead t.block.launch = l.dead := by
  rw [Dom.launchDead, show t.dom.launch t.block.launch = some l from hl]
  rfl

theorem pendingFor_nil {w : Wave} (h : w.locket = []) (p : Path) (u : Uses) : w.pendingFor p u = false := by
  rw [Wave.pendingFor, h, List.any_nil]

/-- A path that was chosen, and still may issue, runs. -/
theorem issueRef_path {p : PRef} (h : s.focusPath p = some t) (hhalt : t.path.halted = false) (hmay : t.mayIssue = true) :
    s.issueRef { p := p, stream := false } = t.runPath := by
  simp only [State.issueRef, h, hhalt, hmay, Bool.false_and, Bool.false_eq_true, if_false, if_true]
  rfl

theorem mayIssue_of (hr : t.block.res = .resident) (hl : t.launch = some l) (hd : l.dead = false) (hst : t.path.status = .running)
    (hhalt : t.path.halted = false) (hhold : t.path.hold ≤ t.core.cycles.toNat)
    (hir : ∀ i, t.path.ir = some i → t.wave.locket = []) : t.mayIssue = true := by
  rw [State.mayIssue, launchDead_eq hl, Path.runs, hr, hd, hst, hhalt, decide_eq_true hhold]
  cases h : t.path.ir with
  | none => rfl
  | some i => simp only [pendingFor_nil (hir i h)]; rfl

theorem runPath_word {i : Instr} (hst : t.path.status = .running) (hi : t.path.ir = some i) : t.runPath = exec i t := by
  simp only [State.runPath, hi, Option.isNone_some, Bool.false_eq_true, if_false, hst]

/-- R85, R88: the word that is fetched, and is not refused, is the one that runs. -/
theorem runPath_fetched {s1 : State} {b : Nat} {i : Instr} (hst : t.path.status = .running) (hir : t.path.ir = none) (hu : t.path.uncorr = false)
    (hs : t.path.stepped = false) (hf : t.fetchBundle (!t.path.priv) t.path.pc = (s1, .bundle b))
    (hdec : decode (bundleWord b (t.path.pc.toNat % 64)) = .instr i) (href : s1.refuses i = none) :
    t.runPath = exec i { s1 with path := { s1.path with ir := some i, kept := s1.path.kept.filter fun k => k.regs.isSome } } := by
  have hfetch : t.fetchPath = { s1 with path := { s1.path with ir := some i, kept := s1.path.kept.filter fun k => k.regs.isSome } } := by
    simp only [State.fetchPath, hu, hs, hf, hdec, href, Bool.false_eq_true, if_false]
  have hrun : s1.path.status = .running := (fetchBundle_status hf).trans hst
  simp only [State.runPath, hir, Option.isNone_none, if_true, hfetch, hrun]

variable {m : Stream}

/-- R340: a stream that was chosen, of a block that may issue, runs. -/
theorem issueRef_stream {p : PRef} (h : s.focusBlock { dom := p.dom, blk := p.blk } = some t) (hr : t.block.res = .resident)
    (hl : t.launch = some l) (hd : l.dead = false) (hpre : t.block.preempt = none) (hm : t.block.stream = some m) (hst : m.status = .running) :
    s.issueRef { p := p, stream := true } = t.runStream := by
  have hlive : (t.block.stream.map fun m => m.status == .running).getD false = true := by rw [hm, Option.map_some, hst]; rfl
  simp only [State.issueRef, h, hr, launchDead_eq hl, hd, hpre, hlive, if_true]
  rfl

/-- With room in the engine queue, no arrival held and no operation outstanding, the stream takes every step. -/
theorem takesStep_of (hst : m.status = .running) (hh : m.held = []) (ho : m.doneOps = m.issuedOps) : m.takesStep true = true := by
  rw [Stream.takesStep, hst, hh, ho]
  simp only [List.isEmpty_nil, beq_self_eq_true, Bool.and_self, Bool.true_and]
  split <;> rfl

theorem runStream_word {i : Instr} (hm : t.block.stream = some m) (hi : m.ir = some i) (hst : m.status = .running) (hh : m.held = [])
    (ho : m.doneOps = m.issuedOps) (hroom : t.core.engineRoom = true) : t.runStream = exec i t := by
  simp only [State.runStream, hm, hi, Option.isNone_some, Bool.false_eq_true, if_false, hroom, takesStep_of hst hh ho, if_true]

/-- R318: the same of the word that the stream fetches. -/
theorem runStream_fetched {s1 : State} {b : Nat} {i : Instr} (hm : t.block.stream = some m) (hir : m.ir = none) (hst : m.status = .running)
    (hh : m.held = []) (ho : m.doneOps = m.issuedOps) (hroom : t.core.engineRoom = true)
    (hf : t.fetchBundle true m.pc = (s1, .bundle b)) (hdec : decode (bundleWord b (m.pc.toNat % 64)) = .instr i) :
    t.runStream = exec i { s1 with block := { s1.block with stream := some { m with ir := some i, locket := [] } } } := by
  have hfetch : t.fetchStream = { s1 with block := { s1.block with stream := some { m with ir := some i, locket := [] } } } := by
    simp only [State.fetchStream, hm, hf, hdec]
  have hroom1 : s1.core.engineRoom = true := (fetchBundle_engineRoom hf).trans hroom
  have htake : ({ m with ir := some i, locket := [] } : Stream).takesStep true = true := takesStep_of hst hh ho
  simp only [State.runStream, hm, hir, Option.isNone_none, if_true, hfetch, hroom1, htake]

end

/-- Settles O57: the agenda by `step_agenda`, a path by `runPath_fetched` and `runPath_word`, a stream by `runStream_fetched` and
`runStream_word`. -/
theorem stepRunsDecoded : Obligations.StepRunsDecoded := by
  unfold Obligations.StepRunsDecoded
  refine ⟨fun s i rest h hi => step_agenda (pickAgenda_event h hi), fun s i rest h => step_agenda h, ?_, ?_⟩
  · intro s t p rest l ha hg hq hfocus hr hl hd hst hhalt hhold
    have hstep (hir : ∀ i, t.path.ir = some i → t.wave.locket = []) : step s = t.runPath :=
      (step_issue ha hg hq).trans (issueRef_path hfocus hhalt (mayIssue_of hr hl hd hst hhalt hhold hir))
    constructor
    · intro s1 b i hir hu hs hf hdec href
      exact (hstep fun i hi => nomatch hir.symm.trans hi).trans (runPath_fetched hst hir hu hs hf hdec href)
    · intro i hi hlk
      exact (hstep fun _ _ => hlk).trans (runPath_word hst hi)
  · intro s t p rest l m ha hg hq hfocus hr hl hd hpre hm hst hh ho hroom
    have hstep : step s = t.runStream := (step_issue ha hg hq).trans (issueRef_stream hfocus hr hl hd hpre hm hst)
    constructor
    · intro s1 b i hir hf hdec
      exact hstep.trans (runStream_fetched hm hir hst hh ho hroom hf hdec)
    · intro i hi
      exact hstep.trans (runStream_word hm hi hst hh ho hroom)

end Sys2Proof.Machine
end

section
namespace Sys2Proof.Machine

/-- Settles O60: each word is decoded by evaluation. -/
theorem tableWords : Obligations.TableWords := by
  unfold Obligations.TableWords
  refine ⟨?_, ?_, ?_, ?_, ?_, ?_, ?_, ?_, ?_, ?_⟩ <;> decide +kernel

end Sys2Proof.Machine
end

section
/-! NaN operands and invalid operations (R94, R139). -/

namespace Sys2Proof.Machine

theorem isNan_iff {a : Fp} : a.isNan = true ↔ ∃ sig, a = .nan sig := by cases a <;> simp [Fp.isNan]

theorem isInf_iff {a : Fp} : a.isInf = true ↔ ∃ neg, a = .inf neg := by cases a <;> simp [Fp.isInf]

theorem isZero_iff {a : Fp} : a.isZero = true ↔ ∃ neg e, a = .fin neg 0 e := by
  rcases a with _ | _ | ⟨_, _ | _, _⟩ <;> simp [Fp.isZero]

/-- The flag of signalling operands, from the bits of the operands. -/
theorem sigFlag_map_of (f : FTy) (vs : List Nat) : sigFlag (vs.map (Fp.of f)) = if vs.any fun v => (Fp.of f v).isSig then 16 else 0 := by
  rw [sigFlag, List.any_map]
  rfl

theorem sigFlag_nan (sig : Bool) : sigFlag [.nan sig] = if sig then flNV else 0 := by cases sig <;> rfl

/-- A NaN in a product makes it a NaN, unlike an infinity times zero, which is invalid. -/
theorem mulFp_nan {a b : Fp} (h : (a.isNan || b.isNan) = true) : mulFp a b = some (.nan false) := by
  obtain ha | hb := (Bool.or_eq_true _ _).mp h
  · obtain ⟨_, rfl⟩ := isNan_iff.mp ha
    rfl
  · obtain ⟨_, rfl⟩ := isNan_iff.mp hb
    cases a <;> rfl

theorem mulFp_zero_inf {a b : Fp} (ha : a.isZero = true) (hb : b.isInf = true) : mulFp a b = none := by
  obtain ⟨_, _, rfl⟩ := isZero_iff.mp ha
  obtain ⟨_, rfl⟩ := isInf_iff.mp hb
  rfl

section
variable {f : FTy} {x y : Nat} (rm : Rm)

theorem faddOf_nan (h : ((Fp.of f x).isNan || (Fp.of f y).isNan) = true) :
    faddOf f rm x y = (fNan f, sigFlag [Fp.of f x, Fp.of f y]) := by
  simp only [faddOf, h, if_true, Nat.zero_or]

theorem fmulOf_nan (h : ((Fp.of f x).isNan || (Fp.of f y).isNan) = true) :
    fmulOf f rm x y = (fNan f, sigFlag [Fp.of f x, Fp.of f y]) := by
  simp only [fmulOf, mulFp_nan h, roundFin, Nat.zero_or]

theorem fdivOf_nan (h : ((Fp.of f x).isNan || (Fp.of f y).isNan) = true) :
    fdivOf f rm x y = (fNan f, sigFlag [Fp.of f x, Fp.of f y]) := by
  simp only [fdivOf, h, if_true, Nat.zero_or]

theorem fsqrtOf_nan (h : (Fp.of f x).isNan = true) : fsqrtOf f rm x = (fNan f, sigFlag [Fp.of f x]) := by
  obtain ⟨sig, hx⟩ := isNan_iff.mp h
  simp only [fsqrtOf, hx, sigFlag_nan]

theorem frcpOf_nan (h : (Fp.of f x).isNan = true) : frcpOf f rm x = (fNan f, sigFlag [Fp.of f x]) := by
  obtain ⟨sig, hx⟩ := isNan_iff.mp h
  simp only [frcpOf, hx, sigFlag_nan]

/-- The sum of +∞ and −∞ is invalid. -/
theorem faddOf_opposite_inf (hx : Fp.of f x = .inf false) (hy : Fp.of f y = .inf true) : faddOf f rm x y = (fNan f, flNV) := by
  have hsum : sumTerms f rm [.inf false, .inf true] = (fNan f, flNV) := by simp [sumTerms, Fp.isInf, Fp.neg]
  have hsig : sigFlag [.inf false, .inf true] = 0 := rfl
  simp only [faddOf, hx, hy, Fp.isNan, Bool.or_self, Bool.false_eq_true, if_false, hsum, hsig, Nat.or_zero]

/-- The product of zero and infinity is invalid; neither of them signals. -/
theorem fmulOf_zero_inf (hx : (Fp.of f x).isZero = true) (hy : (Fp.of f y).isInf = true) : fmulOf f rm x y = (fNan f, flNV) := by
  have hsig : sigFlag [Fp.of f x, Fp.of f y] = 0 := by
    obtain ⟨_, _, ha⟩ := isZero_iff.mp hx
    obtain ⟨_, hb⟩ := isInf_iff.mp hy
    rw [ha, hb]
    rfl
  simp only [fmulOf, mulFp_zero_inf hx hy, hsig, Nat.or_zero]

end

/-- Settles O11: each form by its own lemma, with the flag of its operands by `sigFlag_map_of`. -/
theorem nanResults : Obligations.NanResults := by
  unfold Obligations.NanResults
  intro f rm x y
  have hpair := sigFlag_map_of f [x, y]
  have hone := sigFlag_map_of f [x]
  refine ⟨fun h => ?_, fun h => ?_, fun ⟨hx, hy⟩ => faddOf_opposite_inf rm hx hy, fun ⟨hx, hy⟩ => fmulOf_zero_inf rm hx hy⟩
  · rw [← hpair]
    exact ⟨faddOf_nan rm h, fmulOf_nan rm h, fdivOf_nan rm h⟩
  · rw [← hone]
    exact ⟨fsqrtOf_nan rm h, frcpOf_nan rm h⟩

end Sys2Proof.Machine
end

section
/-! Numbers that are written digit by digit: the words of a tile and the units of a panel. -/

namespace Sys2Proof.Machine

/-- The model adds each digit at its place; the same, as Mathlib reads the digits of a base. -/
theorem foldl_range_digits (g : Nat → Nat) (b n : Nat) :
    (List.range n).foldl (fun a k => a + g k * b ^ k) 0 = Nat.ofDigits b ((List.range n).map g) := by
  induction n with
  | zero => rfl
  | succ n ih =>
    rw [List.range_succ, List.foldl_append, ih, List.map_append, Nat.ofDigits_append, List.length_map, List.length_range]
    simp only [List.foldl_cons, List.foldl_nil, List.map_cons, List.map_nil, Nat.ofDigits_singleton, Nat.mul_comm]

theorem foldl_zipIdx_digits (g : Nat → Nat) (b : Nat) (xs : List Nat) (i a : Nat) :
    (xs.zipIdx i).foldl (fun a p => a + g p.1 * b ^ p.2) a = a + b ^ i * Nat.ofDigits b (xs.map g) := by
  induction xs generalizing i a with
  | nil => simp
  | cons x xs ih =>
    simp only [List.zipIdx_cons, List.foldl_cons, ih, List.map_cons, Nat.ofDigits_cons]
    ring

theorem ofDigits_lt {w : Nat} (hw : 0 < w) {l : List Nat} (h : ∀ x ∈ l, x < 2 ^ w) : Nat.ofDigits (2 ^ w) l < 2 ^ (w * l.length) := by
  rw [pow_mul]
  exact Nat.ofDigits_lt_base_pow_length (Nat.one_lt_two_pow hw.ne') h

/-- The bits of a digit. -/
theorem bitsOf_ofDigits {w : Nat} {l : List Nat} (h : ∀ x ∈ l, x < 2 ^ w) {k : Nat} (hk : k < l.length) :
    bitsOf (Nat.ofDigits (2 ^ w) l) (w * k) w = l[k] := by
  rw [bitsOf_eq, pow_mul, Nat.ofDigits_div_pow_eq_ofDigits_drop k (Nat.two_pow_pos w) l h, Nat.ofDigits_mod_eq_head!,
    List.drop_eq_getElem_cons hk, List.head!_cons]
  exact Nat.mod_eq_of_lt (h _ (List.getElem_mem hk))

theorem bitsOf_ofDigits_range {w : Nat} {g : Nat → Nat} (h : ∀ k, g k < 2 ^ w) {n k : Nat} (hk : k < n) :
    bitsOf (Nat.ofDigits (2 ^ w) ((List.range n).map g)) (w * k) w = g k := by
  rw [bitsOf_ofDigits (List.forall_mem_map.mpr fun k _ => h k) (by simpa using hk), List.getElem_map, List.getElem_range]

/-- A field within a field. -/
theorem bitsOf_bitsOf (x a : Nat) {n b m : Nat} (h : b + m ≤ n) : bitsOf (bitsOf x a n) b m = bitsOf x (a + b) m := by
  refine Nat.eq_of_testBit_eq fun i => ?_
  simp only [bitsOf, Nat.testBit_mod_two_pow, Nat.testBit_shiftRight, Nat.add_assoc]
  by_cases hi : i < m
  · simp [hi, show b + i < n by omega]
  · simp [hi]

end Sys2Proof.Machine
end

section
/-! The results of float operations fit their format. -/

namespace Sys2Proof.Machine

theorem two_pow_fWidth (f : FTy) : 2 ^ fWidth f = 2 * fSign f := by cases f <;> rfl

theorem fInf_lt (f : FTy) : fInf f < fSign f := by cases f <;> decide

theorem fNan_lt (f : FTy) : fNan f < 2 ^ fWidth f := by cases f <;> decide

theorem fSign_lt (f : FTy) : fSign f < 2 ^ fWidth f := by cases f <;> decide

/-- A sign beside a magnitude. -/
theorem signed_lt {f : FTy} {y : Nat} (n : Bool) (h : y < fSign f) : b2n n * fSign f + y < 2 ^ fWidth f := by
  rw [two_pow_fWidth]
  cases n
  · simp only [b2n, Bool.false_eq_true, if_false]; omega
  · simp only [b2n, if_true]; omega

variable (f : FTy) (rm : Rm)

theorem overflow_lt (neg : Bool) : overflow f rm neg < 2 ^ fWidth f := by
  have h := fInf_lt f
  have hmag (up : Bool) : (if up then fInf f else fInf f - 1) < fSign f := by split <;> omega
  exact signed_lt neg (hmag _)

theorem roundRat_lt (neg : Bool) (num den : Nat) (e : Int) : (roundRat f rm neg num den e).1 < 2 ^ fWidth f := by
  simp only [roundRat]
  split
  · exact overflow_lt f rm neg
  · next h => exact signed_lt neg ((Nat.lt_of_not_le h).trans (fInf_lt f))

theorem roundFin_lt (p : Fp) : (roundFin f rm p).1 < 2 ^ fWidth f := by
  have hzero (n : Bool) : b2n n * fSign f < 2 ^ fWidth f := signed_lt (y := 0) n (by cases f <;> decide)
  cases p with
  | nan _ => exact fNan_lt f
  | inf n => exact signed_lt n (fInf_lt f)
  | fin n m e =>
    rw [roundFin]
    split
    · exact hzero n
    · exact roundRat_lt f rm n m 1 e

theorem zeroOf_lt (ts : List Fp) : zeroOf f rm ts < 2 ^ fWidth f := by
  unfold zeroOf
  extract_lets
  split
  · exact fSign_lt f
  · exact Nat.two_pow_pos _

theorem sumTerms_lt (ts : List Fp) : (sumTerms f rm ts).1 < 2 ^ fWidth f := by
  have hinf := fInf_lt f
  have hwidth := two_pow_fWidth f
  unfold sumTerms
  split
  · split
    · exact fNan_lt f
    · dsimp only
      split <;> omega
  · extract_lets
    split
    · split
      split
      · exact zeroOf_lt f rm _
      · exact roundRat_lt f rm _ _ _ _
    · exact zeroOf_lt f rm _

theorem faddOf_lt (x y : Nat) : (faddOf f rm x y).1 < 2 ^ fWidth f := by
  unfold faddOf
  dsimp only
  split
  · exact fNan_lt f
  · exact sumTerms_lt f rm _

theorem cvtOf_lt (src : FTy) (x : Nat) : (cvtOf src f rm x).1 < 2 ^ fWidth f := roundFin_lt f rm _

end Sys2Proof.Machine
end

section
/-! A block of a JB format fits its bytes (R95, R98). -/

namespace Sys2Proof.Machine

/-- Fields of `w` bits from bit `c` on stay below the place that follows them. -/
theorem foldl_fields_le {w : Nat} {g : Nat → Nat} (h : ∀ k, g k < 2 ^ w) (c n : Nat) :
    (List.range n).foldl (fun a k => a + g k * 2 ^ (c + w * k)) 0 + 2 ^ c ≤ 2 ^ (c + w * n) := by
  induction n with
  | zero => simp
  | succ n ih =>
    rw [List.range_succ, List.foldl_append, List.foldl_cons, List.foldl_nil]
    calc _ ≤ (g n + 1) * 2 ^ (c + w * n) := by rw [Nat.succ_mul]; omega
      _ ≤ 2 ^ w * 2 ^ (c + w * n) := Nat.mul_le_mul_right _ (h n)
      _ = 2 ^ (c + w * (n + 1)) := by rw [← pow_add, Nat.mul_succ, Nat.add_left_comm, Nat.add_comm w]

theorem b2n_lt (b : Bool) : b2n b < 2 := by cases b <;> decide

theorem jbEnc_lt (m : Nat) (rm : Rm) (x mu : Nat) (v : Fp) : (jbEnc m rm x mu v).1 < 2 ^ m := by
  have hpos := Nat.two_pow_pos m
  cases v <;> simp only [jbEnc] <;> omega

theorem jbExpOf_le (vs : List Fp) : jbExpOf vs ≤ 254 := by
  simp only [jbExpOf]
  split
  · exact Nat.zero_le 254
  · omega

/-- The exponent byte, the eight micro-exponent bits and the sixteen elements stand beside each other. -/
theorem jbFields_lt {m x : Nat} {mu : Nat → Nat} {e : Nat → Nat × Bool × Bool × Bool} (hx : x ≤ 254) (hmu : ∀ i, mu i < 2)
    (he : ∀ k, (e k).1 < 2 ^ m) :
    x + (List.range 8).foldl (fun a i => a + mu i * 2 ^ (8 + i)) 0 +
      (((List.range 16).map e).zip (List.range 16)).foldl (fun a p => a + (b2n p.1.2.1 + 2 * p.1.1) * 2 ^ (16 + (1 + m) * p.2)) 0 <
        2 ^ (16 + (1 + m) * 16) := by
  have hzip : ((List.range 16).map e).zip (List.range 16) = (List.range 16).map fun k => (e k, k) := by
    simpa using List.zip_map' (f := e) (g := id) (l := List.range 16)
  have helem (k : Nat) : b2n (e k).2.1 + 2 * (e k).1 < 2 ^ (1 + m) := by
    have := b2n_lt (e k).2.1
    have := he k
    rw [pow_add]
    omega
  have hmus := foldl_fields_le (w := 1) hmu 8 8
  have helems := foldl_fields_le helem 16 16
  simp only [Nat.one_mul] at hmus
  rw [hzip, List.foldl_map]
  dsimp only
  omega

theorem jbEncode_lt (jbf : Nat) (rm : Rm) (xs : List Nat) : (jbEncode jbf rm xs).1 < 2 ^ (16 + (1 + jbM jbf) * 16) := by
  simp only [jbEncode]
  split
  · exact lt_of_lt_of_le (show 255 < 2 ^ 16 by decide) (Nat.pow_le_pow_right (by decide) (Nat.le_add_right _ _))
  · exact jbFields_lt (jbExpOf_le _) (fun _ => b2n_lt _) fun _ => jbEnc_lt _ _ _ _ _

end Sys2Proof.Machine
end

section
/-! Tiles (R322, R328): the elements of what `tileOf` and `accumulate` make. -/

namespace Sys2Proof.Machine

/-- Each element of a tile is what the engine computes for it. -/
theorem tileElem_tileOf {g : Nat → Nat → Nat × Nat} (h : ∀ i j, (g i j).1 < 2 ^ 32) {r c : Nat} (hr : r < 64) (hc : c < 64) :
    tileElem (tileOf g).1 r c = (g r c).1 := by
  have hfst : (tileOf g).1 = (List.range 4096).foldl (fun a k => a + (g (k / 64) (k % 64)).1 * (2 ^ 32) ^ k) 0 := by
    simp only [← pow_mul]
    exact (List.foldl_hom Prod.fst fun _ _ => rfl).symm
  have hrow : (64 * r + c) / 64 = r := by omega
  have hcol : (64 * r + c) % 64 = c := by omega
  rw [tileElem, hfst, foldl_range_digits, bitsOf_ofDigits_range (fun k => h _ _) (by omega), hrow, hcol]

/-- The same of elements whose flags become those of the engine. `p` stands for the operation, so that comparing an element with the
pair it comes from evaluates nothing. -/
theorem tileElem_tileOf_flags {p : Nat → Nat → Nat × Nat} (h : ∀ i j, (p i j).1 < 2 ^ 32) {r c : Nat} (hr : r < 64) (hc : c < 64) :
    tileElem (tileOf fun m n => ((p m n).1, mFlags (p m n).2)).1 r c = (p r c).1 :=
  tileElem_tileOf (g := fun m n => ((p m n).1, mFlags (p m n).2)) h hr hc

/-- An element of the tile that `z` names: of zeros, or of the tile in ACC. -/
theorem tileElem_ite (z : Bool) (x r c : Nat) : tileElem (if z then 0 else x) r c = if z then 0 else tileElem x r c := by
  cases z
  · rfl
  · simp [tileElem, bitsOf]

theorem tileElem_lt (x r c : Nat) : tileElem x r c < 2 ^ 32 := Nat.mod_lt _ (Nat.two_pow_pos 32)

/-- The result of group `q` under a scale exponent, or a NaN without one. -/
def groupUnder (f : MFmt) (xa xb m n q : Nat) (es : Option Int) : Nat := es.elim (fNan .f32) fun e => (groupOf f xa xb m n q e).1

variable (f : MFmt) (xa xb m n : Nat) (es : Nat → Option Int) (acc groups : Nat)

theorem groupUnder_none (q : Nat) : groupUnder f xa xb m n q none = fNan .f32 := by rw [groupUnder, Option.elim_none]

theorem groupUnder_some (q : Nat) (e : Int) : groupUnder f xa xb m n q (some e) = (groupOf f xa xb m n q e).1 := by
  rw [groupUnder, Option.elim_some]

/-- R328: the sum that `accumulate` makes, without its flags. -/
theorem accumulate_fst : (accumulate f xa xb m n es acc groups).1 =
    (List.range groups).foldl (fun a q => (faddOf .f32 .rne a (groupUnder f xa xb m n q (es q))).1) acc := by
  unfold accumulate
  refine (List.foldl_hom Prod.fst (g₂ := fun a q => (faddOf .f32 .rne a (groupUnder f xa xb m n q (es q))).1) fun a q => ?_).symm
  dsimp only
  cases es q with
  | none => rw [groupUnder_none]
  | some e => rw [groupUnder_some]

variable {acc}

theorem accumulate_lt (h : acc < 2 ^ 32) : (accumulate f xa xb m n es acc groups).1 < 2 ^ 32 := by
  rw [accumulate_fst]
  cases groups with
  | zero => exact h
  | succ k =>
    rw [List.range_succ, List.foldl_append]
    exact faddOf_lt .f32 .rne _ _

end Sys2Proof.Machine
end

section
/-! Panels (R321, R329): the units of what `panelOf` makes, and the elements of a unit of scalars. -/

namespace Sys2Proof.Machine

/-- An element that `mcvt` converts to i8, as a byte. -/
def cvtByte (rm : Rm) (x : Nat) : Nat := (BitVec.ofInt 8 (toIntOf .f32 rm .i8 x).1).toNat

theorem cvtUnit_bf16 (rm : Rm) (xs : List Nat) :
    (cvtUnit .bf16 rm xs).1 = Nat.ofDigits (2 ^ 16) (xs.map fun x => (cvtOf .f32 .bf16 rm x).1) := by
  have h := foldl_zipIdx_digits (fun x => (cvtOf .f32 .bf16 rm x).1) (256 ^ 2) xs 0 0
  simp only [← pow_mul, pow_zero, Nat.one_mul, Nat.zero_add] at h
  exact (List.foldl_hom Prod.fst fun _ _ => rfl).symm.trans h

theorem cvtUnit_i8 (rm : Rm) (xs : List Nat) : (cvtUnit .i8 rm xs).1 = Nat.ofDigits (2 ^ 8) (xs.map (cvtByte rm)) := by
  have h := foldl_zipIdx_digits (cvtByte rm) (256 ^ 1) xs 0 0
  simp only [← pow_mul, pow_zero, Nat.one_mul, Nat.zero_add] at h
  refine (List.foldl_hom Prod.fst fun _ _ => ?_).symm.trans h
  simp only [reduceCtorEq, if_false, cvtByte, show mfUnit .i8 / 16 = 1 from rfl, Nat.one_mul]

variable {f : MFmt} {rm : Rm} (x : Nat) {r c : Nat}

/-- A unit of a panel, by its row and its block of columns. -/
theorem panelOf_unit (h : ∀ xs : List Nat, xs.length = 16 → (cvtUnit f rm xs).1 < 2 ^ (8 * mfUnit f)) (hr : r < 64) (hc : c < 64) :
    bitsOf (panelOf f rm x).1 (8 * mfUnit f * (4 * r + c / 16)) (8 * mfUnit f) =
      (cvtUnit f rm ((List.range 16).map fun e => tileElem x r (c / 16 * 16 + e))).1 := by
  have hfst : (panelOf f rm x).1 = (List.range 256).foldl (fun a k =>
      a + (cvtUnit f rm ((List.range 16).map fun e => tileElem x (k / 4) (16 * (k % 4) + e))).1 * (2 ^ (8 * mfUnit f)) ^ k) 0 := by
    simp only [pow_mul]
    exact (List.foldl_hom Prod.fst fun _ _ => by rw [pow_mul]; rfl).symm
  have hrow : (4 * r + c / 16) / 4 = r := by omega
  have hcol : 16 * ((4 * r + c / 16) % 4) = c / 16 * 16 := by omega
  rw [hfst, foldl_range_digits, bitsOf_ofDigits_range (fun k => h _ (by simp)) (by omega), hrow, hcol]

/-- An element of a panel of scalars of `w` bits. -/
theorem panelOf_elem {w : Nat} {one : Nat → Nat} (hw : 0 < w) (hu : 8 * mfUnit f = w * 16) (hone : ∀ x, one x < 2 ^ w)
    (hcvt : ∀ xs, (cvtUnit f rm xs).1 = Nat.ofDigits (2 ^ w) (xs.map one)) (hr : r < 64) (hc : c < 64) :
    bitsOf (panelOf f rm x).1 (w * (64 * r + c)) w = one (tileElem x r c) := by
  have hlt (xs : List Nat) : ∀ y ∈ xs.map one, y < 2 ^ w := List.forall_mem_map.mpr fun x _ => hone x
  have hunit := panelOf_unit (f := f) (rm := rm) x (fun xs hxs => by
    rw [hcvt, hu, ← hxs, ← List.length_map (f := one)]
    exact ofDigits_lt hw (hlt xs)) hr hc
  have hplace : w * (64 * r + c) = w * 16 * (4 * r + c / 16) + w * (c % 16) := by
    rw [Nat.mul_assoc, ← Nat.mul_add]
    congr 1
    omega
  have hcol : c / 16 * 16 + c % 16 = c := by omega
  have hfit : w * (c % 16) + w ≤ w * 16 := by
    rw [← Nat.mul_succ]
    exact Nat.mul_le_mul_left w (Nat.mod_lt c (by decide))
  rw [hu, hcvt, List.map_map] at hunit
  rw [hplace, ← bitsOf_bitsOf _ _ hfit, hunit, bitsOf_ofDigits_range (g := one ∘ _) (fun _ => hone _) (Nat.mod_lt c (by decide)),
    Function.comp_apply, hcol]

/-- A block of a panel of a JB format. -/
theorem panelOf_block {jbf : Nat} (hj : mfJbf f = some jbf) (hu : 8 * mfUnit f = 16 + (1 + jbM jbf) * 16) (hr : r < 64) (hc : c < 64) :
    bitsOf (panelOf f rm x).1 (8 * mfUnit f * (4 * r + c / 16)) (8 * mfUnit f) =
      (jbEncode jbf rm ((List.range 16).map fun e => tileElem x r (c / 16 * 16 + e))).1 := by
  have hcvt (xs : List Nat) : (cvtUnit f rm xs).1 = (jbEncode jbf rm xs).1 := by simp only [cvtUnit, hj]
  rw [panelOf_unit x (fun xs _ => by rw [hcvt, hu]; exact jbEncode_lt jbf rm xs) hr hc, hcvt]

end Sys2Proof.Machine
end

section
/-! The matrix engine (R328 to R330). -/

namespace Sys2Proof.Machine

section
variable {s : State} {op : MOp} {z : Bool} {f : MFmt} {r c : Nat}

/-- The scale exponent of two scale bytes; none where either is 0xFF (R102). -/
def scaleExp (ea eb : Nat) : Option Int := if ea = 255 ∨ eb = 255 then none else some ((ea : Int) + eb - 254)

/-- What `mma` and `mmas` have in common: a product of the panels of an operation, under scale exponents `es`. -/
def State.mopProduct (s : State) (op : MOp) (z : Bool) (f : MFmt) (es : Nat → Nat → Nat → Option Int) : Nat × Nat :=
  tileOf fun m n => accumulate f (rdN s.core.ab (s.block.base 0 + op.a) (op.ks * mfPanel f))
    (rdN s.core.wb (s.block.base 1 + op.b) (op.ks * mfPanel f)) m n (es m n) (tileElem (if z then 0 else s.accTile op.d) m n)
    (mfGroups f * op.ks)

theorem mopResult_mzero (h : op.kind = .mzero) : s.mopResult op = (0, 0) := by rw [State.mopResult, h]

theorem mopResult_madd (h : op.kind = .madd) : s.mopResult op = tileOf fun m n =>
    ((faddOf .f32 .rne (tileElem (s.accTile op.d) m n) (tileElem (s.accTile op.a) m n)).1,
      mFlags (faddOf .f32 .rne (tileElem (s.accTile op.d) m n) (tileElem (s.accTile op.a) m n)).2) := by
  rw [State.mopResult, h]

theorem mopResult_mma (h : op.kind = .mma z f) : s.mopResult op = s.mopProduct op z f fun _ _ _ => some 0 := by
  rw [State.mopResult, h]
  rfl

theorem mopResult_mmas (h : op.kind = .mmas z f) : s.mopResult op = s.mopProduct op z f fun m n q =>
    scaleExp (mget s.core.scl (s.block.base 3 + (op.rs + 64 * q + m))).toNat
      (mget s.core.scl (s.block.base 3 + (op.cs + 64 * q + n))).toNat := by
  rw [State.mopResult, h]
  rfl

theorem mopResult_mcvt {rm : Rm} (h : op.kind = .mcvt rm f) : s.mopResult op = panelOf f rm (s.accTile op.a) := by rw [State.mopResult, h]

/-- The elements of a product: the sums of their groups. -/
theorem tileElem_mopProduct (es : Nat → Nat → Nat → Option Int) (hr : r < 64) (hc : c < 64) :
    tileElem (s.mopProduct op z f es).1 r c = (List.range (mfGroups f * op.ks)).foldl (fun acc q =>
      (faddOf .f32 .rne acc (groupUnder f (rdN s.core.ab (s.block.base 0 + op.a) (op.ks * mfPanel f))
        (rdN s.core.wb (s.block.base 1 + op.b) (op.ks * mfPanel f)) r c q (es r c q))).1)
      (if z then 0 else tileElem (s.accTile op.d) r c) := by
  rw [State.mopProduct, tileElem_tileOf (fun _ _ => accumulate_lt _ _ _ _ _ _ _ (tileElem_lt _ _ _)) hr hc, accumulate_fst, tileElem_ite]

theorem groupUnder_scaleExp (xa xb q ea eb : Nat) : groupUnder f xa xb r c q (scaleExp ea eb) =
    if ea = 255 ∨ eb = 255 then fNan .f32 else (groupOf f xa xb r c q ((ea : Int) + eb - 254)).1 := by
  rw [scaleExp]
  split
  · exact groupUnder_none ..
  · exact groupUnder_some ..

end

/-- Settles O46: a tile by its elements (`tileElem_tileOf`), a panel by its units (`panelOf_elem`, `panelOf_block`). -/
theorem matrixResults : Obligations.MatrixResults := by
  unfold Obligations.MatrixResults
  intro s op r c hr hc
  refine ⟨fun h => ?_, fun h => ?_, fun z f h => ?_, fun z f h => ?_, fun rm f h => ?_⟩
  · simp [mopResult_mzero h, tileElem, bitsOf]
  · rw [mopResult_madd h, tileElem_tileOf_flags
      (p := fun m n => faddOf .f32 .rne (tileElem (s.accTile op.d) m n) (tileElem (s.accTile op.a) m n)) (fun _ _ => faddOf_lt .f32 .rne _ _)
      hr hc]
    simp only [State.accTile]
  · rw [mopResult_mma h, tileElem_mopProduct _ hr hc]
    simp only [groupUnder_some, State.accTile]
  · rw [mopResult_mmas h, tileElem_mopProduct _ hr hc]
    simp only [groupUnder_scaleExp, ← Nat.add_assoc, State.accTile]
  · rw [mopResult_mcvt h]
    cases f with
    | jb3 => exact panelOf_block _ rfl rfl hr hc
    | jb5 => exact panelOf_block _ rfl rfl hr hc
    | jb8 => exact panelOf_block _ rfl rfl hr hc
    | bf16 => exact panelOf_elem _ (by decide) rfl (cvtOf_lt .bf16 rm .f32) (cvtUnit_bf16 rm) hr hc
    | i8 => exact panelOf_elem (one := cvtByte rm) _ (by decide) rfl (fun _ => BitVec.isLt _) (cvtUnit_i8 rm) hr hc

end Sys2Proof.Machine
end

section
/-! The float forms: the results of the lanes and the flags they raise (R105, R136 to R148). -/

namespace Sys2Proof.Machine

section
variable (s : State) (i : Instr)

@[simp] theorem begin_fsrc (f : FTy) (l : Nat) (o : Opnd) : (s.begin i).fsrc f l o = s.fsrc f l o := by
  cases o <;> simp [State.fsrc]

@[simp] theorem begin_psrc (f : FTy) (l : Nat) (o : Opnd) : (s.begin i).psrc f l o = s.psrc f l o := by
  cases o <;> simp [State.psrc]

@[simp] theorem begin_jbSource (l : Nat) (a : Opnd) : (s.begin i).jbSource l a = s.jbSource l a := by
  simp [State.jbSource]

end

/-- R73, R90: the list of the results of the lanes is written as D takes a result. -/
theorem putList_lanes (s : State) (m : W64) (d : Opnd) (g : Nat → Nat × Nat) :
    s.putList d ((lanesOf m).map fun l => (l, g l)) = s.put false m d fun l => BitVec.ofNat 64 (g l).1 := by
  cases d with
  | s n =>
    cases hl : lanesOf m with
    | nil => exact (if_pos (lanesOf_eq_nil.mp hl)).symm
    | cons l ls =>
      obtain ⟨hlow, hm⟩ := lanesOf_head hl
      show s.sPut n.toNat (BitVec.ofNat 64 (g l).1) = if m = 0 then s else s.sPut n.toNat (BitVec.ofNat 64 (g (lowLane m)).1)
      rw [if_neg hm, hlow]
  | _ => simp only [State.putList, State.put, List.foldl_map]

theorem sPut_orFlags (s : State) (n : Nat) (x : W64) (fl : W32) : (s.sPut n x).orFlags fl = (s.orFlags fl).sPut n x := by
  unfold State.sPut
  rw [State.orFlags_path_lost]
  split <;> rfl

/-- Neither the registers nor FLAGS are written by the write of the other. -/
theorem put_orFlags (s : State) (wide : Bool) (m : W64) (d : Opnd) (val : Nat → W64) (fl : W32) :
    (s.put wide m d val).orFlags fl = (s.orFlags fl).put wide m d val := by
  cases d with
  | s n =>
    show (if m = 0 then s else s.sPut n.toNat _).orFlags fl = if m = 0 then s.orFlags fl else (s.orFlags fl).sPut n.toNat _
    split
    · rfl
    · exact sPut_orFlags ..
  | _ => rfl

/-- A form whose body writes D, ORs `fl` into FLAGS and goes on. -/
theorem gives_of_put_orFlags {s : State} {i : Instr} {m : W64} {wide : Bool} {d : Opnd} {val : Nat → W64} {fl : W32}
    {body : State → State} (hr : s.runs i = true) (hf : fits d wide = true) (he : exec i s = vec i s body)
    (hb : body (s.begin i) = (((s.begin i).put wide m d val).orFlags fl).advance) : s.Gives i m wide d val (s.path.flags ||| fl) := by
  refine gives_of_put hr hf he ?_
  rw [hb, put_orFlags, ← begin_flags s i]
  rfl

/-- A result of 32 bits fits every destination. -/
theorem fits_narrow (d : Opnd) : fits d false = true := by cases d <;> rfl

section
variable {s : State} {i : Instr} {o : Args} {f : FTy}

/-- R105, R137: a float form over the results and the flags of its lanes. -/
theorem floats_of {g : State → Nat → Nat × Nat} {r : Nat → Nat × Nat} (he : exec i s = fltForm i o g s)
    (hg : ∀ l, g (s.begin i) l = r l) : s.Floats i o r := by
  intro hr
  refine gives_of_put_orFlags hr (fits_narrow o.d) he ?_
  dsimp only
  rw [show g (s.begin i) = r from funext hg, begin_guard, putList_lanes, List.foldl_map, List.foldl_map]

theorem floats_of_flt1 {g : Nat → Nat × Nat} (he : exec i s = flt1 i f o g s) : s.Floats i o fun l => g (s.fsrc f l o.a) :=
  floats_of he fun l => by rw [begin_fsrc]

theorem floats_of_flt2 {g : Nat → Nat → Nat × Nat} (he : exec i s = flt2 i f o g s) :
    s.Floats i o fun l => g (s.fsrc f l o.a) (s.fsrc f l o.b) :=
  floats_of he fun l => by simp only [begin_fsrc]

theorem floats_of_flt3 {g : Nat → Nat → Nat → Nat × Nat} (he : exec i s = flt3 i f o g s) :
    s.Floats i o fun l => g (s.fsrc f l o.a) (s.fsrc f l o.b) (s.fsrc f l o.c) :=
  floats_of he fun l => by simp only [begin_fsrc]

/-- R143: a packed form of two operands acts on each half of them. -/
theorem floats_of_pk2 {g : Nat → Nat → Nat × Nat} (he : exec i s = pk2 i f o g s) : s.Floats i o fun l =>
    packed (g (s.psrc f l o.a % 65536) (s.psrc f l o.b % 65536)) (g (s.psrc f l o.a / 65536) (s.psrc f l o.b / 65536)) :=
  floats_of he fun l => by simp only [begin_psrc]

end

theorem b2n_eq_ite (b : Bool) : b2n b = if b then 1 else 0 := by cases b <;> rfl

/-- Settles O9: each form by what `flt1`, `flt2` and `flt3` make of its operation; `fscale`, which reads an integer, by `floats_of`. -/
theorem floatArithmetic : Obligations.FloatArithmetic := by
  unfold Obligations.FloatArithmetic
  intro s rm f prop sig cc o a b c
  refine ⟨floats_of_flt2 rfl, floats_of_flt2 (g := fsubOf f rm) rfl, floats_of_flt2 rfl, floats_of_flt3 rfl, floats_of_flt2 rfl,
    floats_of_flt2 rfl, ?fcmp, floats_of_flt1 (g := fun x => (fclassOf f x, 0)) rfl, ?fscale, floats_of_flt1 rfl, floats_of_flt1 rfl,
    floats_of_flt1 rfl, floats_of_flt1 rfl, floats_of_flt2 rfl, floats_of_flt1 rfl, floats_of_flt1 rfl, floats_of_flt1 rfl,
    floats_of_flt1 rfl, floats_of_flt1 rfl⟩
  case fcmp =>
    simp only [← b2n_eq_ite]
    exact floats_of_flt2 (g := fun x y => (b2n (fcmpOf f cc sig x y).1, (fcmpOf f cc sig x y).2)) rfl
  case fscale => exact floats_of rfl fun l => by simp only [begin_fsrc, begin_src, a]

end Sys2Proof.Machine
end

section
/-! Packed halves, conversions and dot products (R143 to R145). -/

namespace Sys2Proof.Machine

/-- A field of the low `w` bits, read as a signed number. -/
theorem toInt_mod (w x : Nat) : toInt w (x % 2 ^ w) = toInt w x := by
  unfold toInt
  congr 1
  exact BitVec.eq_of_toNat_eq (by simp)

/-- R145: element `k` of a source of `dot4`, an unsigned or a signed byte. -/
def dotByte (u : Bool) (x k : Nat) : Int := if u then ((x / 256 ^ k % 256 : Nat) : Int) else (BitVec.ofNat 8 (x / 256 ^ k)).toInt

theorem tyVal_byte (u : Bool) (x k : Nat) : tyVal (if u then .n8 else .i8) (BitVec.ofNat 64 (bitsOf x (8 * k) 8)) = dotByte u x k := by
  have hbits : bitsOf x (8 * k) 8 = x / 256 ^ k % 2 ^ 8 := by
    rw [bitsOf_eq, pow_mul 2 8 k]
    rfl
  have hbyte : (BitVec.ofNat 64 (bitsOf x (8 * k) 8)).toNat = x / 256 ^ k % 2 ^ 8 := by
    rw [hbits, BitVec.toNat_ofNat]
    omega
  cases u with
  | true =>
    show (((BitVec.ofNat 64 (bitsOf x (8 * k) 8)).toNat % 2 ^ 8 : Nat) : Int) = ((x / 256 ^ k % 2 ^ 8 : Nat) : Int)
    rw [hbyte, Nat.mod_mod]
  | false =>
    show toInt 8 (BitVec.ofNat 64 (bitsOf x (8 * k) 8)).toNat = toInt 8 (x / 256 ^ k)
    rw [hbyte, toInt_mod]

theorem foldl_add_sum {α : Type} [AddMonoid α] (g : Nat → α) (l : List Nat) (c : α) : l.foldl (fun t k => t + g k) c = c + (l.map g).sum := by
  induction l generalizing c with
  | nil => simp
  | cons k l ih => rw [List.foldl_cons, ih, List.map_cons, List.sum_cons, add_assoc]

/-- R145: `dot4` adds the products of the four pairs of elements to C. -/
theorem dot4Of_eq (au bu : Bool) (a b : Nat) (c : Int) :
    dot4Of au bu a b c = c + ((List.range 4).map fun k => dotByte au a k * dotByte bu b k).sum := by
  simp only [dot4Of, tyVal_byte]
  exact foldl_add_sum _ _ _

/-- R143: `hfma2` acts on each half of its three operands. -/
theorem hfma2_floats (s : State) (rm : Rm) (f : FTy) (o : Args) : s.Floats (.hfma2 rm f o) o fun l =>
    packed (ffmaOf f rm (s.psrc f l o.a % 65536) (s.psrc f l o.b % 65536) (s.psrc f l o.c % 65536))
      (ffmaOf f rm (s.psrc f l o.a / 65536) (s.psrc f l o.b / 65536) (s.psrc f l o.c / 65536)) :=
  floats_of rfl fun l => by simp only [begin_psrc]

theorem finish_i32 (sat : Bool) (x : Int) : finish sat .i32 x = if sat then max (-(2 ^ 31)) (min x (2 ^ 31 - 1)) else x := rfl

/-- R145, log 14: `dot4` with the type that its result has in an s register. -/
theorem dot4_computes (s : State) (au bu sat : Bool) (o : Args) : s.Computes (.dot4 au bu sat o) (if sat then .i32 else .n32) o fun l =>
    finish sat .i32 (dot4Of au bu (s.bits .n32 l o.a) (s.bits .n32 l o.b) (s.src .i32 l o.c)) := by
  have hwide : (if sat then ITy.i32 else ITy.n32).wide = false := by cases sat <;> rfl
  refine computes_of rfl (fun _ => ?_) fun l => by simp only [begin_bits, begin_src]
  rw [hwide]
  exact fits_narrow o.d

/-- R88: D of a well-formed form is of the class that its entry allows. -/
theorem dst_of_okArgs {x : XKind} {r : URule} {o : Args} {d a b c : Bool} (h : okArgs x r o d a b c = true) : d = true := by
  obtain ⟨-, -, hd, -⟩ := okArgs_iff.mp h
  exact hd

theorem fits_of_dst {t : ITy} {d : Opnd} (h : Opnd.dst t d = true) : fits d t.wide = true := by
  cases d <;> simp_all [fits, Opnd.dst]

/-- R144: `cvtfi` gives D a result of the integer type, and the flags of its lanes. -/
theorem cvtfi_gives {s : State} {rm : Rm} {ty : ITy} {f : FTy} {o : Args} (hr : s.runs (.cvtfi rm ty f o) = true) :
    s.Gives (.cvtfi rm ty f o) (execLanes o.h (s.guard o.h)) ty.wide o.d (fun l => typedResult ty o.d (toIntOf f rm ty (s.fsrc f l o.a)).1)
      (s.path.flags ||| BitVec.ofNat 32
        (((lanesOf (execLanes o.h (s.guard o.h))).map fun l => (toIntOf f rm ty (s.fsrc f l o.a)).2).foldl (· ||| ·) 0)) := by
  refine gives_of_put_orFlags hr (fits_of_dst (dst_of_okArgs (runs_wf hr))) rfl ?_
  simp only [begin_guard, begin_fsrc, List.foldl_map]
  rfl

/-- Settles O10: the packed forms by `floats_of_pk2` and `hfma2_floats`, `dot4` by its sum (`dot4Of_eq`). -/
theorem packedAndConversions : Obligations.PackedAndConversions := by
  unfold Obligations.PackedAndConversions
  intro s rm f sf ty prop au bu sat o lo hi both el dot
  have hdot (l : Nat) : dot l = dot4Of au bu (s.bits .n32 l o.a) (s.bits .n32 l o.b) (s.src .i32 l o.c) := (dot4Of_eq ..).symm
  refine ⟨floats_of_pk2 rfl, floats_of_pk2 rfl, floats_of_pk2 rfl, floats_of_pk2 rfl, hfma2_floats s rm f o, floats_of_flt1 rfl, ?cvtif,
    ?dot2, ?dot4, cvtfi_gives⟩
  case cvtif => exact floats_of rfl fun l => by rw [begin_src]
  case dot2 => exact floats_of rfl fun l => by simp only [begin_fsrc, begin_psrc]
  case dot4 =>
    simp only [hdot]
    exact dot4_computes s au bu sat o

end Sys2Proof.Machine
end

section
/-! FMT and FLAGS (R132, R133, R105). -/

namespace Sys2Proof.Machine

/-- A form that acts once goes on in sequence, with a path `t` that is `f` of the path when its guard holds for some lane, and else the
path as it was. -/
theorem moves_of_once {s : State} {i : Instr} {o : Args} {body : State → State} (t : Path) (f : Path → Path) (hr : s.runs i = true)
    (he : exec i s = vec i s fun s => s.once o body) (hact : s.guard o.h ≠ 0 → t = f s.path) (hidle : s.guard o.h = 0 → t = s.path)
    (hb : body (s.begin i) = ({ s.begin i with path := f (s.begin i).path } : State).advance)
    (hf : ∀ p fb st sd lo, f { p with fb := fb, ir := some i, age := 0, status := st, stepped := sd, lost := lo, under := [] } =
      { f p with fb := (f { p with fb := fb, ir := some i, age := 0, status := st, stepped := sd, lost := lo, under := [] }).fb, ir := some i,
                 age := 0, status := st, stepped := sd, lost := lo, under := [] })
    (hpc : ∀ p, (f p).pc = p.pc) :
    s.Moves i { t with pc := nextPc s.path.pc } := by
  by_cases hg : s.guard o.h = 0
  · rw [hidle hg]
    refine moves_of_advance (fun p => p) hr he ?_ (fun _ _ _ _ _ => rfl) fun _ => rfl
    rw [State.once, begin_guard, if_pos hg]
  · rw [hact hg]
    refine moves_of_advance f hr he ?_ hf hpc
    rw [State.once, begin_guard, if_neg hg, hb]

/-- Settles O12: the two forms that change the path by `moves_of_once`, the two that read it by `gives_of_put_same`. -/
theorem formatAndFlags : Obligations.FormatAndFlags := by
  unfold Obligations.FormatAndFlags
  intro s o acts x clear
  refine ⟨fun hr hx => ?setfmt, fun hr => ?getfmt, fun hr => ?rdflags, fun hr => ?clrflags⟩
  case setfmt =>
    refine moves_of_once { s.path with fmt := if acts then x else s.path.fmt } (fun p => { p with fmt := x }) hr rfl
      (fun h => by rw [if_pos h]) (fun h => by rw [if_neg (not_not.mpr h)]) ?_ (fun _ _ _ _ _ => rfl) fun _ => rfl
    simp only [begin_uni]
    exact if_neg (ne_true_of_eq_false hx)
  case getfmt => exact gives_of_put_same hr (fits_narrow o.d) rfl (by simp only [begin_guard, begin_fmt])
  case rdflags => exact gives_of_put_same hr (fits_narrow o.d) rfl (by simp only [begin_guard, begin_flags])
  case clrflags =>
    refine moves_of_once { s.path with flags := if acts then s.path.flags &&& ~~~clear else s.path.flags }
      (fun p => { p with flags := p.flags &&& ~~~clear }) hr rfl
      (fun h => by rw [if_pos h]) (fun h => by rw [if_neg (not_not.mpr h)]) ?_ (fun _ _ _ _ _ => rfl) fun _ => rfl
    dsimp only
    split
    next ha => rw [show clear = BitVec.allOnes 32 from if_pos ha]
    next ha => rw [begin_uni, show clear = (s.uni o.a).setWidth 32 &&& 0x7F from if_neg ha]

end Sys2Proof.Machine
end

section
/-! The ranges that the block forms write (R148). -/

namespace Sys2Proof.Machine

/-! A range of registers of a lane -/

/-- A range is written register by register. -/
theorem vRange_eq (w : Wave) (l base n : Nat) (val : Nat → Nat) :
    w.vRange l base ((List.range n).map val) = (List.range n).foldl (fun w k => w.vSet l (base + k) (BitVec.ofNat 32 (val k))) w := by
  have hzip : ((List.range n).map val).zip (List.range n) = (List.range n).map fun k => (val k, k) := by
    simpa using List.zip_map' (f := val) (g := id) (l := List.range n)
  rw [Wave.vRange, List.length_map, List.length_range, hzip, List.foldl_map]

/-- A register of a lane after a range has been written that ends within the 256 registers of a lane. -/
theorem vRange_vGet (w : Wave) (l base : Nat) (val : Nat → Nat) (l' : Nat) {n k : Nat} (hn : base + n ≤ 256) (hk : k < 256) :
    (w.vRange l base ((List.range n).map val)).vGet l' k =
      if l' = l ∧ base ≤ k ∧ k < base + n then BitVec.ofNat 32 (val (k - base)) else w.vGet l' k := by
  rw [vRange_eq]
  induction n with
  | zero => rw [if_neg (by omega)]; rfl
  | succ n ih =>
    rw [List.range_succ, List.foldl_append, List.foldl_cons, List.foldl_nil, vGet_vSet _ _ _ _ _ _ (by omega) hk]
    by_cases hlast : l' = l ∧ k = base + n
    · obtain ⟨rfl, rfl⟩ := hlast
      rw [if_pos ⟨rfl, rfl⟩, if_pos ⟨rfl, by omega, by omega⟩, Nat.add_sub_cancel_left]
    · rw [if_neg hlast, ih (by omega)]
      exact if_congr (by omega) rfl rfl

/-- What the write of ranges leaves of a wave: all but its v registers. -/
theorem vRanges_shape (base n : Nat) (val : Nat → Nat → Nat) (ls : List Nat) (w : Wave) : ∃ v,
    ls.foldl (fun w l => w.vRange l base ((List.range n).map (val l))) w = { w with v := v } := by
  have hrange (ks : List Nat) (l : Nat) (w : Wave) : ∃ v,
      ks.foldl (fun w k => w.vSet l (base + k) (BitVec.ofNat 32 (val l k))) w = { w with v := v } := by
    induction ks generalizing w with
    | nil => exact ⟨w.v, rfl⟩
    | cons k ks ih =>
      obtain ⟨v, h⟩ := ih (w.vSet l (base + k) (BitVec.ofNat 32 (val l k)))
      exact ⟨v, h⟩
  induction ls generalizing w with
  | nil => exact ⟨w.v, rfl⟩
  | cons l ls ih =>
    obtain ⟨v, h⟩ := hrange (List.range n) l w
    obtain ⟨v', h'⟩ := ih { w with v := v }
    exact ⟨v', by rw [List.foldl_cons, vRange_eq, h, h']⟩

/-- The registers of the lanes `m` after each of them has written its range. -/
theorem vRanges_vGet (w : Wave) (m : W64) (base : Nat) (val : Nat → Nat → Nat) {n l k : Nat} (hn : base + n ≤ 256) (hl : l < 64) (hk : k < 256) :
    ((lanesOf m).foldl (fun w l => w.vRange l base ((List.range n).map (val l))) w).vGet l k =
      if hasLane m l = true ∧ base ≤ k ∧ k < base + n then BitVec.ofNat 32 (val l (k - base)) else w.vGet l k := by
  by_cases hr : base ≤ k ∧ k < base + n
  · rw [foldl_lane (fun w => Wave.vGet w l k) _ l (BitVec.ofNat 32 (val l (k - base))) _ _ _ fun j hj => (mem_lanesOf.mp hj).1]
    · simp [mem_lanesOf, hl, hr]
    · intro w; rw [vRange_vGet w l base (val l) l hn hk, if_pos ⟨rfl, hr⟩]
    · intro w j _ hj; rw [vRange_vGet w j base (val j) l hn hk, if_neg fun h => hj h.1.symm]
  · rw [foldl_keep (fun w => Wave.vGet w l k), if_neg fun h => hr h.2]
    intro w j
    rw [vRange_vGet w j base (val j) l hn hk, if_neg fun h => hr h.2]

/-! A block form -/

/-- Of a state that differs from `s` by what issuing changes (the path `p`, the counters), by the v registers `v` and by FLAGS: what going
on in sequence leaves as in `s`. -/
theorem advance_onlyRegs {s : State} {p : Path} {fl : W32} (v : SMap 32) (perf : List Counter)
    (hp : ∃ fb ir age st, p = { s.path with fb := fb, ir := ir, age := age, status := st, stepped := s.path.stepBit, lost := s.path.under,
                                            under := [], flags := fl })
    (hpc : legalPc (nextPc s.path.pc) = true) :
    let u := ({ s with path := p, wave := { s.wave with v := v }, core := { s.core with perf := perf } } : State).advance
    u.path.pc = nextPc s.path.pc ∧ u.wave = { s.wave with v := v } ∧ s.OnlyRegs u fl := by
  obtain ⟨ws, hg⟩ := goto_shape p (nextPc s.path.pc)
  have hpp : p.pc = s.path.pc := by obtain ⟨fb, ir, age, st, rfl⟩ := hp; rfl
  rw [advance_legal (by rw [hpp]; exact hpc)]
  dsimp only
  rw [hpp, hg]
  obtain ⟨fb, ir, age, st, rfl⟩ := hp
  exact ⟨rfl, rfl, rfl, rfl, rfl, rfl⟩

/-- A block form goes on in sequence after each lane has written its range of `n` registers and ORed its flags into FLAGS. -/
theorem jbForm_next {s : State} {i : Instr} {o : Args} {f : State → Nat → List Nat × Nat} {n : Nat} {val : Nat → Nat → Nat} {fl : Nat → Nat}
    (hr : s.runs i = true) (he : exec i s = jbForm i o f s) (hf : ∀ l, f (s.begin i) l = ((List.range n).map (val l), fl l)) :
    ∃ u, exec i s = .next u ∧ u.path.pc = nextPc s.path.pc ∧
      u.wave = (lanesOf (s.guard o.h)).foldl (fun w l => w.vRange l (Opnd.vIndex o.d) ((List.range n).map (val l))) s.wave ∧
      s.OnlyRegs u (s.path.flags ||| BitVec.ofNat 32 (((lanesOf (s.guard o.h)).map fl).foldl (· ||| ·) 0)) := by
  have hpc := ((runs_iff s i).mp hr).2.2.2.2
  obtain ⟨fb, st, perf, hs⟩ := begin_shape s i
  obtain ⟨v, hw⟩ := vRanges_shape (Opnd.vIndex o.d) n val (lanesOf (s.guard o.h)) s.wave
  have hnext : exec i s = .next (State.advance { s with
      path := { s.path with fb := fb, ir := some i, age := 0, status := st, stepped := s.path.stepBit, lost := s.path.under, under := [],
                            flags := s.path.flags ||| BitVec.ofNat 32 (((lanesOf (s.guard o.h)).map fl).foldl (· ||| ·) 0) },
      core := { s.core with perf := perf }, wave := { s.wave with v := v } }) := by
    rw [he, jbForm, vec_runs _ hr]
    dsimp only
    rw [show f (s.begin i) = fun l => ((List.range n).map (val l), fl l) from funext hf, begin_guard, begin_wave, List.foldl_map,
      List.foldl_map, hw, hs, List.foldl_map]
    rfl
  rw [hw]
  exact ⟨_, hnext, advance_onlyRegs v perf ⟨fb, _, _, st, rfl⟩ hpc⟩

end Sys2Proof.Machine
end

section
/-! The block forms (R147, R148). O13 holds of every wave within the count that R110 allows (`jbexp_floats`, `jbpack_writesRange`,
`jbunpack_writesRange`); it does not ask for that count, and fails beyond it. -/

namespace Sys2Proof.Machine

/-- R88, R110: the registers that an instruction which runs writes are below the wave's count. -/
theorem runs_count {s : State} {i : Instr} (h : s.runs i = true) {k : Nat} (hk : .v k ∈ (s.usesOf i).writes) : k < s.wave.nregs := by
  have hrefuses := ((runs_iff s i).mp h).2.1
  by_contra hle
  have hover : overCount s.wave.nregs ((s.usesOf i).reads ++ (s.usesOf i).writes ++ i.fbBound) = true :=
    List.any_eq_true.mpr ⟨.v k, by simp [hk], by simpa using hle⟩
  unfold State.refuses at hrefuses
  simp only [hover, Bool.or_true, if_true] at hrefuses
  repeat' split at hrefuses
  all_goals cases hrefuses

/-- R148: the range of `n` registers that a block form writes ends within the wave's count. -/
theorem range_le_count {s : State} {i : Instr} {d : Opnd} {n : Nat} (hr : s.runs i = true) (hd : d.isV = true) (hn : 0 < n)
    (hw : (s.usesOf i).writes = Opnd.regs d n 1) : Opnd.vIndex d + n ≤ s.wave.nregs := by
  cases d with
  | v k =>
    have hlast : k.toNat + (n - 1) < s.wave.nregs := runs_count hr (by simp [hw, Opnd.regs, hn])
    show k.toNat + n ≤ s.wave.nregs
    omega
  | _ => cases hd

/-- R148: D takes in each lane that acts the `n` registers `val`, and FLAGS the flags `fl`; nothing else has changed. -/
def State.WritesRange (s : State) (i : Instr) (o : Args) (n : Nat) (val : Nat → Nat → Nat) (fl : Nat → Nat) : Prop :=
  ∃ u, exec i s = .next u ∧ u.path.pc = nextPc s.path.pc ∧ u.wave.s = s.wave.s ∧ u.wave.q = s.wave.q ∧
    (∀ l k, l < 64 → k < 256 → u.wave.vGet l k =
      if hasLane (s.guard o.h) l = true ∧ Opnd.vIndex o.d ≤ k ∧ k < Opnd.vIndex o.d + n then
        BitVec.ofNat 32 (val l (k - Opnd.vIndex o.d)) else s.wave.vGet l k) ∧
    s.OnlyRegs u (s.path.flags ||| BitVec.ofNat 32 (((lanesOf (s.guard o.h)).map fl).foldl (· ||| ·) 0))

/-- A block form whose range ends within the 256 registers of a lane writes it and nothing else. -/
theorem jbForm_writesRange {s : State} {i : Instr} {o : Args} {f : State → Nat → List Nat × Nat} {n : Nat} {val : Nat → Nat → Nat} {fl : Nat → Nat}
    (hr : s.runs i = true) (he : exec i s = jbForm i o f s) (hf : ∀ l, f (s.begin i) l = ((List.range n).map (val l), fl l))
    (hn : Opnd.vIndex o.d + n ≤ 256) : s.WritesRange i o n val fl := by
  obtain ⟨u, hu, hpc, hw, honly⟩ := jbForm_next hr he hf
  obtain ⟨v, hv⟩ := vRanges_shape (Opnd.vIndex o.d) n val (lanesOf (s.guard o.h)) s.wave
  refine ⟨u, hu, hpc, by rw [hw, hv], by rw [hw, hv], fun l k hl hk => ?_, honly⟩
  rw [hw, vRanges_vGet _ _ _ _ hn hl hk]

/-- R147: `jbexp` answers the exponent of the sixteen elements of each lane. -/
theorem jbexp_floats (s : State) (o : Args) : s.Floats (.jbexp o) o fun l =>
    (if ((s.jbSource l o.a).map (Fp.of .f32)).any Fp.isNan then 255 else jbExpOf ((s.jbSource l o.a).map (Fp.of .f32)), 0) :=
  floats_of rfl fun l => by rw [begin_jbSource]

/-- The block in the registers of a lane, register by register. -/
theorem block_sum (s : State) (l base n : Nat) :
    (List.range n).foldl (fun x k => x + (s.wave.vGet l (base + k)).toNat * 2 ^ (32 * k)) 0 =
      ((List.range n).map fun k => (s.wave.vGet l (base + k)).toNat * 2 ^ (32 * k)).sum := by
  rw [foldl_add_sum, Nat.zero_add]

section
variable {s : State} {o : Args}

theorem jbSpan_pos (fmt : W32) : 0 < jbSpan fmt := by
  unfold jbSpan
  split_ifs <;> decide

/-- R148: in a wave within the count that R110 allows, `jbpack` writes the block of each lane, word by word. -/
theorem jbpack_writesRange (hc : s.wave.nregs ≤ 256) (hr : s.runs (.jbpack o) = true) : s.WritesRange (.jbpack o) o (jbSpan s.path.fmt)
    (fun l k => bitsOf (jbEncode (s.path.fmt.toNat % 4) (fmtRm s.path.fmt) (s.jbSource l o.a)).1 (32 * k) 32)
    (fun l => (jbEncode (s.path.fmt.toNat % 4) (fmtRm s.path.fmt) (s.jbSource l o.a)).2) := by
  have hn := range_le_count (n := jbSpan s.path.fmt) hr (dst_of_okArgs (runs_wf hr)) (jbSpan_pos _) rfl
  exact jbForm_writesRange hr rfl (fun l => by simp only [begin_fmt, begin_jbSource]) (hn.trans hc)

/-- R148: in a wave within the count that R110 allows, `jbunpack` writes the sixteen elements of each lane's block. -/
theorem jbunpack_writesRange (hc : s.wave.nregs ≤ 256) (hr : s.runs (.jbunpack o) = true) :
    let block := fun l => ((List.range (jbSpan s.path.fmt)).map fun k => (s.wave.vGet l (Opnd.vIndex o.a + k)).toNat * 2 ^ (32 * k)).sum
    s.WritesRange (.jbunpack o) o 16 (fun l k => jbElem (jbM (s.path.fmt.toNat % 4)) (block l) k)
      (fun l => if jbX (block l) = 255 then flNB else 0) := by
  have hn := range_le_count (n := 16) hr (dst_of_okArgs (runs_wf hr)) (by decide) rfl
  exact jbForm_writesRange hr rfl (fun l => by simp only [begin_fmt, begin_wave, block_sum]) (hn.trans hc)

end

/-- A path of lane 0, in a wave with a count of 260 v registers, four more than a lane has (R110); v0 of lane 1 holds 1. -/
def overlongPath : State :=
  { State.reset with kind := .path, path := Path.start 0 1, wave := ({ Wave.idle with nregs := 260 } : Wave).vSet 1 0 1 }

/-- A block of JB8, to the five registers from v255 on. -/
def overlongArgs : Args := { h := { neg := false, pred := 7, look := 0, u := false }, d := .v 255, a := .v 0, b := .absent, c := .absent }

/-- Refutes O13: it does not bound the wave's count by the 256 v registers of a lane (R110), and the range of `jbpack` may run over the
last of them. Of `overlongPath`, lane 0 writes v255 to v259, which are v0 to v3 of lane 1: v0 of lane 1, which does not act, takes 0. -/
theorem not_blockForms : ¬ Obligations.BlockForms := by
  unfold Obligations.BlockForms
  intro h
  have hruns : overlongPath.runs (.jbpack overlongArgs) = true := by decide
  obtain ⟨-, hpack, -⟩ := h overlongPath overlongArgs
  obtain ⟨u, hu, -, -, -, hv, -⟩ := hpack (by decide) hruns
  obtain ⟨u', hu', -, hw, -⟩ := jbForm_next (n := jbSpan overlongPath.path.fmt) hruns rfl fun l => rfl
  obtain rfl : u = u' := Host.Outcome.next.inj (hu.symm.trans hu')
  have hkeeps : u.wave.vGet 1 0 = 1 := hv 1 0 (by decide) (by decide)
  rw [hw] at hkeeps
  exact absurd hkeeps (by decide)

end Sys2Proof.Machine
end
